-- ==== Sys2Proof/Word.lean ====
section
/-! DEFINITION. The machine's words (bytes, command words, the widths of the wire fields) and the
cast mode a command word can select (30_encoding.md R132, R150). -/

namespace Sys2Proof

/-- A byte, an 8-bit value (00_scope.md R11). -/
abbrev Byte := BitVec 8

/-- A command word, 32 bits (30_encoding.md R150). -/
abbrev CmdWord := BitVec 32

/-- A data-type signature, 64 bits (41_crc.md R252). -/
abbrev Signature := BitVec 64

/-- A timestamp in microseconds, 64 bits (10_state.md R45). -/
abbrev Time := BitVec 64

/-- A transfer id, TID_BITS = 5 bits, so its arithmetic is modulo 32 (00_scope.md R6). -/
abbrev TransferId := BitVec 5

/-- A node id, NODE_ID_BITS = 7 bits (00_scope.md R6). -/
abbrev NodeId := BitVec 7

/-- A CAN identifier, CANID_BITS = 29 bits (00_scope.md R6). -/
abbrev CanId := BitVec 29

/-- Cast mode: clamp or wrap an out-of-range primitive value (30_encoding.md R130, R132). -/
inductive CastMode where
  | saturated
  | truncated
  deriving DecidableEq, Repr

end Sys2Proof
end

