-- ==== Sys2Proof/Syntax.lean ====
section
/-! DEFINITION. The commands of the block, one constructor per row of the opcode map
(30_encoding.md R153). A constructor carries the fields of the command word that its row uses: field A
(`n`, 8 bits), the cast mode (B bit 0), the tail flag (B bit 1). Every other operand arrives on a port
(30_encoding.md R151) and is read from the state. -/

namespace Sys2Proof

/-- A command (30_encoding.md R153). Field A stands as the 8 bits of the word: a width out of the
command's range is an instruction whose effect is the fault of R154 item 5. -/
inductive Instr where
  | bswClr
  | bswPut (n : Byte)
  | bswPutw (n : Byte)
  | bswBytes
  | bsrLoad
  | bsrGet (n : Byte)
  | bsrGetw (n : Byte)
  | bsrRem
  | crc16Init
  | crc16Byte
  | crc16Sig
  | crc16Rd
  | crc16Xfer
  | crc64Init
  | crc64Byte
  | crc64Rd
  | encBool
  | encUint (n : Byte) (cm : CastMode)
  | encInt (n : Byte) (cm : CastMode)
  | encFloat (n : Byte) (cm : CastMode)
  | encVoid (n : Byte)
  | encSarray
  | encDarray (tail : Bool)
  | encUnion
  | encStruct (tail : Bool)
  | enc
  | typeBitlen
  | typeCheck
  | decBool
  | decUint (n : Byte)
  | decInt (n : Byte)
  | decFloat (n : Byte)
  | decVoid (n : Byte)
  | decSarray
  | decDarray (tail : Bool)
  | decUnion
  | decStruct (tail : Bool)
  | dec
  | canidMsg
  | canidAnon
  | canidSvc
  | canidDec
  | canidCmp
  | tailEnc
  | tailDec
  | tidDist
  | anonDisc
  | genStart
  | genNext
  | genAbort
  | genCount
  | rxFrame
  | rxSweep
  | rxClear
  | rxLookup
  | sysReset
  | sysStatus
  deriving DecidableEq, Repr

end Sys2Proof
end

