-- ==== Sys2Proof/WellFormed.lean ====
section
/-! DEFINITION. Which instructions are well formed: the ranges the opcode map gives field A
(30_encoding.md R153, R154 item 5). Every other field is in range by its type. -/

namespace Sys2Proof

/-- Field A lies in `lo .. hi`. -/
def widthIn (lo hi : Nat) (n : Byte) : Bool :=
  lo ≤ n.toNat && n.toNat ≤ hi

/-- Field A is a float width, 16, 32 or 64. -/
def floatWidth (n : Byte) : Bool :=
  n.toNat == 16 || n.toNat == 32 || n.toNat == 64

/-- Field A is in the range the command's row of 30_encoding.md R153 gives; a row that does not use
field A puts no condition on it. -/
def Instr.wellFormed : Instr → Bool
  | .bswPut n | .bsrGet n => widthIn 1 8 n
  | .bswPutw n | .bsrGetw n => widthIn 1 64 n
  | .encUint n _ | .encInt n _ => widthIn 2 64 n
  | .decUint n | .decInt n => widthIn 2 64 n
  | .encFloat n _ | .decFloat n => floatWidth n
  | .encVoid n | .decVoid n => widthIn 1 64 n
  | .bswClr | .bswBytes | .bsrLoad | .bsrRem => true
  | .crc16Init | .crc16Byte | .crc16Sig | .crc16Rd | .crc16Xfer => true
  | .crc64Init | .crc64Byte | .crc64Rd => true
  | .encBool | .encSarray | .encDarray _ | .encUnion | .encStruct _ | .enc => true
  | .typeBitlen | .typeCheck => true
  | .decBool | .decSarray | .decDarray _ | .decUnion | .decStruct _ | .dec => true
  | .canidMsg | .canidAnon | .canidSvc | .canidDec | .canidCmp => true
  | .tailEnc | .tailDec | .tidDist | .anonDisc => true
  | .genStart | .genNext | .genAbort | .genCount => true
  | .rxFrame | .rxSweep | .rxClear | .rxLookup => true
  | .sysReset | .sysStatus => true

end Sys2Proof
end

