-- ==== Sys2Proof/Decode.lean ====
section
/-! DEFINITION. The command word: its fields (30_encoding.md R150), the opcode map (R153), the decoder
(R154 items 1 to 4) and the encoder. The width of field A (R154 item 5) is checked by the command
itself, as its first step, so a word with a width out of range decodes and its effect is that fault. -/

namespace Sys2Proof

/-- Why a word is no command: the first of R154 items 1 to 4 that it breaks. Each of them is the fault
IllegalCommand, raised by `Sys2Proof.Machine.illegalWord`; none stops the machine. -/
inductive DecodeError where
  /-- R154 item 1: OP is not in the opcode map. -/
  | reservedOpcode
  /-- R154 item 2: field C is not 0. -/
  | reservedFieldC
  /-- R154 item 3: a bit of field B is set that the command does not use. -/
  | unusedFlag
  /-- R154 item 4: field A is not 0 and the command does not use it. -/
  | unusedFieldA
  deriving DecidableEq, Repr

/-- Field OP, bits 7:0. -/
def fieldOp (w : CmdWord) : Byte := w.extractLsb' 0 8

/-- Field A, bits 15:8. -/
def fieldA (w : CmdWord) : Byte := w.extractLsb' 8 8

/-- Field B, bits 23:16. -/
def fieldB (w : CmdWord) : Byte := w.extractLsb' 16 8

/-- Field C, bits 31:24. -/
def fieldC (w : CmdWord) : Byte := w.extractLsb' 24 8

/-- The cast mode that B bit 0 selects: 1 = Truncated (R132). -/
def castOfB (b : Byte) : CastMode := if b.getLsbD 0 then .truncated else .saturated

/-- The tail flag, B bit 1. -/
def tailOfB (b : Byte) : Bool := b.getLsbD 1

/-- One row of R153: the opcode, which fields it uses, and the command its fields make. -/
structure OpRow where
  op : Byte
  usesA : Bool
  usesCm : Bool
  usesTail : Bool
  make : Byte → CastMode → Bool → Instr

/-- A row that uses no field. -/
def rowPlain (op : Byte) (i : Instr) : OpRow := ⟨op, false, false, false, fun _ _ _ => i⟩

/-- A row that uses field A only. -/
def rowA (op : Byte) (f : Byte → Instr) : OpRow := ⟨op, true, false, false, fun n _ _ => f n⟩

/-- A row that uses field A and the cast mode. -/
def rowACm (op : Byte) (f : Byte → CastMode → Instr) : OpRow := ⟨op, true, true, false, fun n cm _ => f n cm⟩

/-- A row that uses the tail flag only. -/
def rowTail (op : Byte) (f : Bool → Instr) : OpRow := ⟨op, false, false, true, fun _ _ t => f t⟩

/-- R153, units BSU, C16 and C64. -/
def opRowsStream : List OpRow :=
  [rowPlain 0x01 .bswClr, rowA 0x02 .bswPut, rowA 0x03 .bswPutw, rowPlain 0x04 .bswBytes,
   rowPlain 0x05 .bsrLoad, rowA 0x06 .bsrGet, rowA 0x07 .bsrGetw, rowPlain 0x08 .bsrRem,
   rowPlain 0x10 .crc16Init, rowPlain 0x11 .crc16Byte, rowPlain 0x12 .crc16Sig, rowPlain 0x13 .crc16Rd,
   rowPlain 0x14 .crc16Xfer, rowPlain 0x18 .crc64Init, rowPlain 0x19 .crc64Byte, rowPlain 0x1A .crc64Rd]

/-- R153, unit CODEC. -/
def opRowsCodec : List OpRow :=
  [rowPlain 0x20 .encBool, rowACm 0x21 .encUint, rowACm 0x22 .encInt, rowACm 0x23 .encFloat,
   rowA 0x24 .encVoid, rowPlain 0x25 .encSarray, rowTail 0x26 .encDarray, rowPlain 0x27 .encUnion,
   rowTail 0x28 .encStruct, rowPlain 0x29 .enc, rowPlain 0x2A .typeBitlen, rowPlain 0x2B .typeCheck,
   rowPlain 0x30 .decBool, rowA 0x31 .decUint, rowA 0x32 .decInt, rowA 0x33 .decFloat,
   rowA 0x34 .decVoid, rowPlain 0x35 .decSarray, rowTail 0x36 .decDarray, rowPlain 0x37 .decUnion,
   rowTail 0x38 .decStruct, rowPlain 0x39 .dec]

/-- R153, units CIU, GEN, RXU and SYS. -/
def opRowsTransport : List OpRow :=
  [rowPlain 0x40 .canidMsg, rowPlain 0x41 .canidAnon, rowPlain 0x42 .canidSvc, rowPlain 0x43 .canidDec,
   rowPlain 0x44 .canidCmp, rowPlain 0x45 .tailEnc, rowPlain 0x46 .tailDec, rowPlain 0x47 .tidDist,
   rowPlain 0x48 .anonDisc, rowPlain 0x50 .genStart, rowPlain 0x51 .genNext, rowPlain 0x52 .genAbort,
   rowPlain 0x53 .genCount, rowPlain 0x60 .rxFrame, rowPlain 0x61 .rxSweep, rowPlain 0x62 .rxClear,
   rowPlain 0x63 .rxLookup, rowPlain 0x70 .sysReset, rowPlain 0x71 .sysStatus]

/-- The opcode map, R153. -/
def opTable : List OpRow := opRowsStream ++ opRowsCodec ++ opRowsTransport

/-- The row of an opcode. -/
def findRow (op : Byte) : Option OpRow := opTable.find? fun row => row.op == op

/-- The bits of field B that a row uses. -/
def OpRow.flagMask (row : OpRow) : Byte :=
  (if row.usesCm then 1 else 0) ||| (if row.usesTail then 2 else 0)

/-- The command a word selects, by its OP alone, or the first of R154 items 1 to 4 that it breaks. -/
def decode (w : CmdWord) : Except DecodeError Instr :=
  match findRow (fieldOp w) with
  | none => .error .reservedOpcode
  | some row =>
    if fieldC w ≠ 0 then .error .reservedFieldC
    else if fieldB w &&& ~~~row.flagMask ≠ 0 then .error .unusedFlag
    else if row.usesA = false ∧ fieldA w ≠ 0 then .error .unusedFieldA
    else .ok (row.make (fieldA w) (castOfB (fieldB w)) (tailOfB (fieldB w)))

/-- A word from its fields B, A and OP, with field C = 0 (R150). -/
def mkWord (b a op : Byte) : CmdWord := 0#8 ++ b ++ a ++ op

/-- Field B of a cast mode (R132). -/
def flagOfCast : CastMode → Byte
  | .saturated => 0
  | .truncated => 1

/-- Field B of a tail flag (R150). -/
def flagOfTail (t : Bool) : Byte := if t then 2 else 0

/-- The word of a command (R150, R153). -/
def encode : Instr → CmdWord
  | .bswClr => mkWord 0 0 0x01
  | .bswPut n => mkWord 0 n 0x02
  | .bswPutw n => mkWord 0 n 0x03
  | .bswBytes => mkWord 0 0 0x04
  | .bsrLoad => mkWord 0 0 0x05
  | .bsrGet n => mkWord 0 n 0x06
  | .bsrGetw n => mkWord 0 n 0x07
  | .bsrRem => mkWord 0 0 0x08
  | .crc16Init => mkWord 0 0 0x10
  | .crc16Byte => mkWord 0 0 0x11
  | .crc16Sig => mkWord 0 0 0x12
  | .crc16Rd => mkWord 0 0 0x13
  | .crc16Xfer => mkWord 0 0 0x14
  | .crc64Init => mkWord 0 0 0x18
  | .crc64Byte => mkWord 0 0 0x19
  | .crc64Rd => mkWord 0 0 0x1A
  | .encBool => mkWord 0 0 0x20
  | .encUint n cm => mkWord (flagOfCast cm) n 0x21
  | .encInt n cm => mkWord (flagOfCast cm) n 0x22
  | .encFloat n cm => mkWord (flagOfCast cm) n 0x23
  | .encVoid n => mkWord 0 n 0x24
  | .encSarray => mkWord 0 0 0x25
  | .encDarray t => mkWord (flagOfTail t) 0 0x26
  | .encUnion => mkWord 0 0 0x27
  | .encStruct t => mkWord (flagOfTail t) 0 0x28
  | .enc => mkWord 0 0 0x29
  | .typeBitlen => mkWord 0 0 0x2A
  | .typeCheck => mkWord 0 0 0x2B
  | .decBool => mkWord 0 0 0x30
  | .decUint n => mkWord 0 n 0x31
  | .decInt n => mkWord 0 n 0x32
  | .decFloat n => mkWord 0 n 0x33
  | .decVoid n => mkWord 0 n 0x34
  | .decSarray => mkWord 0 0 0x35
  | .decDarray t => mkWord (flagOfTail t) 0 0x36
  | .decUnion => mkWord 0 0 0x37
  | .decStruct t => mkWord (flagOfTail t) 0 0x38
  | .dec => mkWord 0 0 0x39
  | .canidMsg => mkWord 0 0 0x40
  | .canidAnon => mkWord 0 0 0x41
  | .canidSvc => mkWord 0 0 0x42
  | .canidDec => mkWord 0 0 0x43
  | .canidCmp => mkWord 0 0 0x44
  | .tailEnc => mkWord 0 0 0x45
  | .tailDec => mkWord 0 0 0x46
  | .tidDist => mkWord 0 0 0x47
  | .anonDisc => mkWord 0 0 0x48
  | .genStart => mkWord 0 0 0x50
  | .genNext => mkWord 0 0 0x51
  | .genAbort => mkWord 0 0 0x52
  | .genCount => mkWord 0 0 0x53
  | .rxFrame => mkWord 0 0 0x60
  | .rxSweep => mkWord 0 0 0x61
  | .rxClear => mkWord 0 0 0x62
  | .rxLookup => mkWord 0 0 0x63
  | .sysReset => mkWord 0 0 0x70
  | .sysStatus => mkWord 0 0 0x71

/-- The command a table word of `nbits` bits selects: the word as it is given to the command port, with
every bit above `nbits` 0. -/
def decodeTableWord (nbits w : Nat) : Option Instr :=
  match decode (BitVec.ofNat 32 (w % 2 ^ nbits)) with
  | .ok i => some i
  | .error _ => none

end Sys2Proof
end

