-- ==== Sys2Proof/Config.lean ====
section
/-! DEFINITION. The implementation parameters of 00_scope.md R7, which are fixed when the block is
made, and the free values: opaque constants with no body, so that no proof can see a value of one. -/

namespace Sys2Proof

/-- BIT_ORDER: which bit of a byte the first bit slot is (20_memory.md R82). -/
inductive BitOrder where
  | lsbFirst
  | msbFirst
  deriving DecidableEq, Repr

/-- RESET_TID_BASE: the transfer id that step 7 increments (46_reassembler.md R712). -/
inductive TidBase where
  | frame
  | stored
  deriving DecidableEq, Repr

/-- CVT16 and CVT32: the default IEEE 754 conversion, or some other total function (00_scope.md R7). -/
inductive FloatRule where
  | ieee
  | other
  deriving DecidableEq, Repr

/-- ANON_DISC: the low 14 bits of the CRC-16 of the payload, or some other total function
(00_scope.md R7, 44_canid_tail.md R502). -/
inductive DiscRule where
  | crcLow14
  | other
  deriving DecidableEq, Repr

/-- The parameters of 00_scope.md R7. A capacity of `none` is UNBOUNDED. -/
structure Config where
  bitOrder : BitOrder
  wCapBits : Option Nat
  rCapBytes : Option Nat
  rxCap : Option Nat
  rxMaxPayload : Option Nat
  genMaxPayload : Option Nat
  resetTidBase : TidBase
  cvt16 : FloatRule
  cvt32 : FloatRule
  anonDisc : DiscRule
  deriving DecidableEq, Repr

/-- The defaults of 00_scope.md R7, which every example of the spec uses. -/
def Config.default : Config :=
  { bitOrder := .lsbFirst, wCapBits := none, rCapBytes := none, rxCap := none, rxMaxPayload := none,
    genMaxPayload := none, resetTidBase := .frame, cvt16 := .ieee, cvt32 := .ieee, anonDisc := .crcLow14 }

/-- The values 00_scope.md R7 admits: RX_CAP is at least 1 and RX_MAX_PAYLOAD at least 7. -/
abbrev Config.wf (c : Config) : Prop :=
  (∀ n ∈ c.rxCap, 1 ≤ n) ∧ (∀ n ∈ c.rxMaxPayload, 7 ≤ n)

/-- FREE VALUE (assumption 3). The NAN_WIDEN draws, one for each NaN widened (43_codec_decode.md R406);
`Sys2Proof.Machine.forceNan` makes each draw a NaN, the one thing the spec promises of it. -/
opaque Config.nanWiden : Nat → BitVec 64

/-- FREE VALUE (assumption 4). CVT16 where it is not the default conversion (00_scope.md R7). -/
opaque Config.otherCvt16 : BitVec 64 → BitVec 16

/-- FREE VALUE (assumption 4). CVT32 where it is not the default conversion (00_scope.md R7). -/
opaque Config.otherCvt32 : BitVec 64 → BitVec 32

/-- FREE VALUE (assumption 4). ANON_DISC where it is not the default function (00_scope.md R7). -/
opaque Config.otherDisc : List Byte → BitVec 14

end Sys2Proof
end

