-- ==== Sys2Proof/Machine/Types.lean ====
section
/-! DEFINITION. The data the ports carry: type descriptors and value trees, frames and transfer
descriptors, status codes, the operand ports, the result port. All of it is plain data. -/

namespace Sys2Proof.Machine

/-- The mode of an array descriptor (30_encoding.md R130). -/
inductive ArrayMode where
  | fixed
  | dynamic
  deriving DecidableEq, Repr

mutual

/-- A type descriptor (30_encoding.md R130). -/
inductive Ty where
  | void (n : Nat)
  | bool
  | uint (n : Nat) (cm : CastMode)
  | int (n : Nat) (cm : CastMode)
  | float (n : Nat) (cm : CastMode)
  | array (elem : Ty) (mode : ArrayMode) (m : Nat)
  | struct (fields : Fields)
  | union (fields : Fields)
  deriving DecidableEq, Repr

/-- The named fields of a Struct or Union, in declaration order. -/
inductive Fields where
  | nil
  | cons (name : String) (t : Ty) (rest : Fields)
  deriving DecidableEq, Repr

end

mutual

/-- A value tree (30_encoding.md R140). A float is a binary64 pattern. -/
inductive Val where
  | bool (b : Bool)
  | int (i : Int)
  | float (x : BitVec 64)
  | array (elems : Vals)
  | record (entries : Entries)
  | union (idx : Nat) (v : Val)
  deriving DecidableEq, Repr

/-- The elements of a VArray, in order. -/
inductive Vals where
  | nil
  | cons (v : Val) (rest : Vals)
  deriving DecidableEq, Repr

/-- The entries of a VRecord, in order. -/
inductive Entries where
  | nil
  | cons (name : String) (v : Val) (rest : Entries)
  deriving DecidableEq, Repr

end

/-- A CAN frame record (30_encoding.md R100). An ill-formed one can stand on the port, so the identifier
is a natural number and the data a list of any length. -/
structure Frame where
  id : Nat
  ext : Bool
  rtr : Bool
  err : Bool
  data : List Byte
  deriving DecidableEq, Repr

/-- TransferType (30_encoding.md R108). -/
inductive TransferType where
  | broadcast
  | request
  | response
  deriving DecidableEq, Repr

/-- TransferDescriptor, the key of RX.table (30_encoding.md R109). -/
structure Desc where
  dtid : BitVec 16
  kind : TransferType
  src : NodeId
  dst : NodeId
  deriving DecidableEq, Repr

/-- The `desc` operand port: four numbers, which may be out of range (46_reassembler.md R723). -/
structure DescPort where
  dtid : Nat
  kind : Nat
  src : Nat
  dst : Nat
  deriving DecidableEq, Repr

/-- A completed transfer (46_reassembler.md R701). -/
structure Transfer where
  desc : Desc
  tid : TransferId
  payload : List Byte
  frames : List Frame
  deriving DecidableEq, Repr

/-- The statuses of 60_exceptions.md R801, by name. Their numbers are `Sys2Proof.Machine.statusCode`. -/
inductive Status where
  | ok
  | rxNone
  | rxTransfer
  | genDone
  | incompatibleFrame
  | missedTransferStart
  | wrongToggle
  | unexpectedTransferId
  | shortFrame
  | badCrc
  | tableFull
  | payloadOverflow
  | truncatedPayload
  | badArrayLength
  | badUnionTag
  | invalidBitLength
  | missingValue
  | schemaMismatch
  | invalidSchema
  | invalidArgument
  | anonymousTooLong
  | writerOverflow
  | illegalCommand
  deriving DecidableEq, Repr

/-- The fields CANID.DEC reads out of an identifier (44_canid_tail.md R504). -/
structure IdFields where
  prio : BitVec 5
  kind : TransferType
  anon : Bool
  dtid : BitVec 16
  src : NodeId
  dst : NodeId
  disc : BitVec 14
  deriving DecidableEq, Repr

/-- The fields RX.LOOKUP copies out of an entry (46_reassembler.md R723). -/
structure EntryView where
  initialized : Bool
  collecting : Bool
  tid : TransferId
  toggle : Bool
  lastTs : Time
  bufLen : Nat
  frameCount : Nat
  deriving DecidableEq, Repr

/-- The named outputs of a command (30_encoding.md R152), one constructor for each set of names that
some rule gives. An output that a rule does not name is absent. -/
inductive Output where
  /-- No output. -/
  | none
  /-- `bytes`, `bits`: BSW.BYTES (R205), ENC (R314). -/
  | written (bytes : List Byte) (bits : Nat)
  /-- `v`, a number: BSR.GET (R207), BSR.GETW (R208). -/
  | number (v : Nat)
  /-- `rem`: BSR.REM (R209). -/
  | remaining (rem : Nat)
  /-- `crc`: CRC16.RD (R256), CRC16.XFER (R257). -/
  | crc16 (crc : BitVec 16)
  /-- `crc`: CRC64.RD (R261). -/
  | crc64 (crc : BitVec 64)
  /-- `min`, `max`: TYPE.BITLEN (R315). -/
  | bitLengths (min max : Nat)
  /-- `v`, a value tree: the DEC commands that decode at the cursor (R401 to R412). -/
  | value (v : Val)
  /-- `v`, `rem`: DEC (R413). `v` is absent where Parse returns NOTHING. -/
  | decoded (v : Option Val) (rem : Nat)
  /-- `id`: CANID.MSG (R500), CANID.ANON (R501), CANID.SVC (R503). -/
  | canId (id : CanId)
  /-- The fields of an identifier: CANID.DEC (R504). -/
  | idFields (f : IdFields)
  /-- `disc`: ANON.DISC (R502). -/
  | disc (disc : BitVec 14)
  /-- `order`: CANID.CMP (R506). -/
  | order (order : Int)
  /-- `b`: TAIL.ENC (R508). -/
  | tailByte (b : Byte)
  /-- `sot`, `eot`, `tog`, `tid`: TAIL.DEC (R509). -/
  | tailFields (sot eot tog : Bool) (tid : TransferId)
  /-- `d`: TID.DIST (R510). -/
  | distance (d : TransferId)
  /-- `count`: GEN.START (R600), GEN.COUNT (R604). -/
  | count (count : Nat)
  /-- `frame`, `last`: GEN.NEXT (R602). -/
  | genFrame (frame : Frame) (last : Bool)
  /-- `transfer`: RX.FRAME with RX_TRANSFER (R701). -/
  | transfer (t : Transfer)
  /-- `frames`: an error of RX.FRAME (R701). -/
  | frames (fs : List Frame)
  /-- `ran`, `evicted`: RX.SWEEP (R721). -/
  | swept (ran : Bool) (evicted : Nat)
  /-- `present` and, where it is 1, the entry's fields: RX.LOOKUP (R723). -/
  | entry (view : Option EntryView)
  /-- `fault`, `fault_code`: SYS.STATUS (60_exceptions.md R822). -/
  | sysStatus (fault : Bool) (faultCode : BitVec 8)
  deriving DecidableEq, Repr

/-- The operand ports (30_encoding.md R151) and the one external answer that arrives with a command, the
acceptance predicate's (46_reassembler.md R702). A port that carries a number carries any natural
number, so that an operand out of range can stand on it. Port `v` carries an integer for the BitStream
commands (`vNum`) and a value tree for the codec (`v`); TYPE.CHECK alone asks whether a value tree was
given (`vGiven`). -/
structure Ports where
  vNum : Int
  v : Val
  vGiven : Bool
  ty : Ty
  bytes : List Byte
  b : Nat
  frame : Frame
  fa : Frame
  fb : Frame
  now : Nat
  sig : Nat
  payload : List Byte
  prio : Nat
  dtid : Nat
  src : Nat
  dst : Nat
  kind : Nat
  tid : Nat
  ta : Nat
  tb : Nat
  id : Nat
  sot : Nat
  eot : Nat
  tog : Nat
  desc : DescPort
  /-- The answer to `Accept(desc)`: `none` is NONE, `some s` is SIG(s). -/
  accept : Option Signature
  deriving DecidableEq, Repr

/-- A command as the host puts it on the command port: the word and its operands (30_encoding.md R150). -/
structure Command where
  word : CmdWord
  ports : Ports
  deriving DecidableEq, Repr

/-- The result port (30_encoding.md R152): the 8-bit status, the named outputs, and the descriptor the
acceptance predicate was asked about, where the command asked it (46_reassembler.md R702). -/
structure Result where
  status : BitVec 8
  out : Output
  asked : Option Desc
  deriving DecidableEq, Repr

end Sys2Proof.Machine
end

