-- ==== Sys2Proof/Machine/State.lean ====
section
/-! DEFINITION. The state of the block (10_state.md R30 to R41), the values it has after reset (R46),
and the fields of the model's own: the parameters, the host's command stream, the port latches, the
result port and the count of NAN_WIDEN draws. Every field is plain data. -/

namespace Sys2Proof.Machine

/-- The writer W (10_state.md R33). -/
structure Writer where
  buf : List Byte
  pos : Nat
  deriving DecidableEq, Repr

/-- The reader R (10_state.md R34). -/
structure Reader where
  buf : List Byte
  pos : Nat
  deriving DecidableEq, Repr

/-- The generator registers G (10_state.md R37). -/
structure Gen where
  active : Bool
  multi : Bool
  id : CanId
  tid : TransferId
  payload : List Byte
  crc : BitVec 16
  off : Nat
  idx : Nat
  deriving DecidableEq, Repr

/-- RxState, one entry of the reassembler's table (10_state.md R39). -/
structure RxState where
  initialized : Bool
  collecting : Bool
  tid : TransferId
  toggle : Bool
  lastTs : Time
  buf : List Byte
  frames : List Frame
  crcExpected : BitVec 16
  signature : Signature
  deriving DecidableEq, Repr

/-- RX.table (10_state.md R38): the entries by rising descriptor, at most one for each descriptor. -/
abbrev RxTable := List (Desc × RxState)

/-- The system flags SYS (10_state.md R41). -/
structure Sys where
  fault : Bool
  faultCode : BitVec 8
  deriving DecidableEq, Repr

/-- The machine. `w` to `sys` are the tuple (W, R, C16, C64, G, RX, SYS) of 10_state.md R30. The other
fields are the model's own: `cfg` holds the parameters of 00_scope.md R7, which no command reads out or
writes; `cmds` is the stream of commands the host has yet to give, first command first; `ports` holds
the operands of the command being performed; `result` is what the last command returned; `nanDraws`
counts the NAN_WIDEN draws already used. -/
structure State where
  cfg : Config
  w : Writer
  r : Reader
  c16 : BitVec 16
  c64 : BitVec 64
  g : Gen
  rxTable : RxTable
  rxLastSweep : Option Time
  sys : Sys
  cmds : List Command
  ports : Ports
  result : Option Result
  nanDraws : Nat
  deriving DecidableEq, Repr

/-- Why the machine could stop with a fault: it has no constructor, for no command of this block stops it.
A precondition fault of 60_exceptions.md R810 is the end of a command, with a next state. Safe: no
outcome of the machine is lost. -/
inductive Fault where
  deriving DecidableEq, Repr

/-- Why the machine could refuse an instruction. -/
inductive Refusal where
  /-- An instruction without a meaning in the model. No arm of `exec` answers with it. Safe. -/
  | notModelled (mnemonic : String)
  deriving DecidableEq, Repr

/-- What a command answers. -/
abbrev Answer := Host.Outcome State Fault Refusal

/-- The writer after reset (10_state.md R46). -/
def Writer.empty : Writer := { buf := [], pos := 0 }

/-- The reader after reset (10_state.md R46). -/
def Reader.empty : Reader := { buf := [], pos := 0 }

/-- The generator after reset (10_state.md R46). -/
def Gen.idle : Gen :=
  { active := false, multi := false, id := 0, tid := 0, payload := [], crc := 0, off := 0, idx := 0 }

/-- The system flags after reset (10_state.md R46). -/
def Sys.clear : Sys := { fault := false, faultCode := 0 }

/-- A frame of zeros with no data, what a frame port holds before the first command (assumption 6). -/
def Frame.blank : Frame := { id := 0, ext := false, rtr := false, err := false, data := [] }

/-- What the port latches hold before the first command (assumption 6). -/
def Ports.blank : Ports :=
  { vNum := 0, v := .int 0, vGiven := false, ty := .bool, bytes := [], b := 0, frame := .blank,
    fa := .blank, fb := .blank, now := 0, sig := 0, payload := [], prio := 0, dtid := 0, src := 0,
    dst := 0, kind := 0, tid := 0, ta := 0, tb := 0, id := 0, sot := 0, eot := 0, tog := 0,
    desc := { dtid := 0, kind := 0, src := 0, dst := 0 }, accept := none }

/-- The machine right after power-on reset (10_state.md R46, 70_reset_and_hazards.md R900), made with the
default parameters (assumption 1), no command given and none returned (assumptions 2 and 6). -/
def State.reset : State :=
  { cfg := .default, w := .empty, r := .empty, c16 := 0xFFFF, c64 := 0xFFFFFFFFFFFFFFFF, g := .idle,
    rxTable := [], rxLastSweep := none, sys := .clear, cmds := [], ports := .blank, result := none,
    nanDraws := 0 }

end Sys2Proof.Machine
end

