-- ==== Sys2Proof/Machine/Flags.lean ====
section
/-! DEFINITION. The status codes (60_exceptions.md R801) and the sticky fault flags SYS (10_state.md R41,
60_exceptions.md R810). The block has no arithmetic condition codes (10_state.md R42). -/

namespace Sys2Proof.Machine

/-- The number of a status (60_exceptions.md R801). -/
def statusCode : Status → BitVec 8
  | .ok => 0x00
  | .rxNone => 0x01
  | .rxTransfer => 0x02
  | .genDone => 0x03
  | .incompatibleFrame => 0x10
  | .missedTransferStart => 0x11
  | .wrongToggle => 0x12
  | .unexpectedTransferId => 0x13
  | .shortFrame => 0x14
  | .badCrc => 0x15
  | .tableFull => 0x16
  | .payloadOverflow => 0x17
  | .truncatedPayload => 0x20
  | .badArrayLength => 0x21
  | .badUnionTag => 0x22
  | .invalidBitLength => 0x30
  | .missingValue => 0x31
  | .schemaMismatch => 0x32
  | .invalidSchema => 0x33
  | .invalidArgument => 0x34
  | .anonymousTooLong => 0x35
  | .writerOverflow => 0x36
  | .illegalCommand => 0x37

/-- SYS after a precondition fault: the flag is sticky and the code is the first fault's since reset
(60_exceptions.md R810). -/
def recordFault (code : BitVec 8) (y : Sys) : Sys :=
  { fault := true, faultCode := if y.fault then y.faultCode else code }

end Sys2Proof.Machine
end

