-- ==== Sys2Proof/Machine/Operands.lean ====
section
/-! DEFINITION. The operand forms: the ranges of field A (30_encoding.md R153, R154 item 5), the ranges of
the numbers on the ports (R151), frames (R101), transfer types (R108) and transfer descriptors
(46_reassembler.md R723). -/

namespace Sys2Proof.Machine

/-- Field A lies in `lo .. hi` (30_encoding.md R154 item 5). -/
def aInRange (lo hi : Nat) (n : Byte) : Bool :=
  lo ≤ n.toNat && n.toNat ≤ hi

/-- Field A is a float width (30_encoding.md R153, rows ENC.FLOAT and DEC.FLOAT). -/
def aFloatWidth (n : Byte) : Bool :=
  n.toNat == 16 || n.toNat == 32 || n.toNat == 64

/-- A capacity is exceeded: it is bounded, and by less than `n` (00_scope.md R7). -/
def exceeds (cap : Option Nat) (n : Nat) : Bool :=
  match cap with
  | none => false
  | some c => c < n

/-- A port number is a `w`-bit value (00_scope.md R8). -/
def fitsBits (w : Nat) (n : Nat) : Bool := n < 2 ^ w

/-- A port number is a node id of an addressed node, 1..127 (00_scope.md R6). -/
def isNodeId (n : Nat) : Bool := 1 ≤ n && n ≤ 127

/-- A frame operand is well formed (30_encoding.md R101). -/
def frameWellFormed (f : Frame) : Bool :=
  f.data.length ≤ 8 && (if f.ext then f.id < 2 ^ 29 else f.id < 2 ^ 11)

/-- The transfer type of a port number; 3 and above are none (30_encoding.md R108). -/
def kindOfPort : Nat → Option TransferType
  | 0 => some .broadcast
  | 1 => some .request
  | 2 => some .response
  | _ => none

/-- The number of a transfer type (30_encoding.md R108). -/
def kindNumber : TransferType → Nat
  | .broadcast => 0
  | .request => 1
  | .response => 2

/-- The transfer descriptor on port `desc`, where every field is in range (46_reassembler.md R723). -/
def descOfPort (d : DescPort) : Option Desc :=
  match kindOfPort d.kind with
  | none => none
  | some k =>
    if d.dtid < 2 ^ 16 ∧ d.src ≤ 127 ∧ d.dst ≤ 127 then
      some { dtid := BitVec.ofNat 16 d.dtid, kind := k, src := BitVec.ofNat 7 d.src,
             dst := BitVec.ofNat 7 d.dst }
    else none

end Sys2Proof.Machine
end

