-- ==== Sys2Proof/Machine/Ops.lean ====
section
/-! DEFINITION. The named operations over the state: the end of a command, the precondition fault, the
delivery of the next command, the bits of the writer and reader buffers (20_memory.md R81 to R83,
40_bitstream.md R200, R201), byte lists (00_scope.md R11), and the reassembler's table (10_state.md
R38). -/

namespace Sys2Proof.Machine

/-! ### The end of a command -/

/-- The result port after a command that ends with status `st` and outputs `out` (30_encoding.md R152). -/
def withResult (st : Status) (out : Output) (s : State) : State :=
  { s with result := some { status := statusCode st, out := out, asked := none } }

/-- `return Status(code, outputs)` (00_scope.md R12). -/
def ret (st : Status) (out : Output) (s : State) : Answer := .next (withResult st out s)

/-- `return OK(outputs)` (00_scope.md R12). -/
def ok (out : Output) (s : State) : Answer := ret .ok out s

/-- TAKING AN EXCEPTION: `raise Fault(code)` (60_exceptions.md R810). The command ends with the code as
its status and no output; SYS records the fault; every other piece of state keeps its value. There is
no vector, no saved state and no return (R813): SYS.RESET alone clears SYS (70_reset_and_hazards.md R901). -/
def fault (code : Status) (s : State) : Answer :=
  ret code .none { s with sys := recordFault (statusCode code) s.sys }

/-! ### Delivery of commands -/

/-- The next command of the host's stream: its word, and the machine with its operands on the ports
(30_encoding.md R150, 00_scope.md R13). `none`: the host gives no command now. -/
def nextCommand (s : State) : Option (CmdWord × State) :=
  match s.cmds with
  | [] => none
  | c :: rest => some (c.word, { s with cmds := rest, ports := c.ports })

/-- A step in which the host gives no command: nothing changes (10_state.md R31, 70_reset_and_hazards.md
R905). -/
def noCommand (s : State) : Answer := .next s

/-- An illegal or reserved word is the fault IllegalCommand (30_encoding.md R154 items 1 to 4). -/
def illegalWord (_e : DecodeError) (s : State) : Answer := fault .illegalCommand s

/-! ### Byte lists -/

/-- The sub-list `xs[a..b)`, clipped to the list (00_scope.md R11). -/
def slice (xs : List Byte) (a b : Nat) : List Byte := (xs.take b).drop a

/-- `le16(v)` (00_scope.md R11). -/
def le16 (v : BitVec 16) : List Byte := [v.extractLsb' 0 8, v.extractLsb' 8 8]

/-- `le64(v)` (00_scope.md R11). -/
def le64 (v : BitVec 64) : List Byte := (List.range 8).map fun i => v.extractLsb' (8 * i) 8

/-- `ceil_div(a, b)` (00_scope.md R9). -/
def ceilDiv (a b : Nat) : Nat := (a + b - 1) / b

/-- `bitlen(x)`, the number of binary digits of x (00_scope.md R9). -/
def bitlen (x : Nat) : Nat := if x = 0 then 0 else Nat.log2 x + 1

/-! ### Bits of a buffer -/

/-- The bit of byte `p div 8` that bit position `p` names (20_memory.md R81, R82). -/
def bitOfSlot (o : BitOrder) (p : Nat) : Nat :=
  match o with
  | .lsbFirst => p % 8
  | .msbFirst => 7 - p % 8

/-- `WBit(p, b)`: set bit `b` at position `p`, with the buffer first extended by zero bytes up to that
position (20_memory.md R82). -/
def writeBit (o : BitOrder) (buf : List Byte) (p : Nat) (b : Bool) : List Byte :=
  (buf ++ List.replicate (p / 8 + 1 - buf.length) 0).modify (p / 8)
    fun x => x ||| (if b then 1#8 <<< bitOfSlot o p else 0#8)

/-- `RBit(p)` (20_memory.md R82). -/
def readBit (o : BitOrder) (buf : List Byte) (p : Nat) : Bool :=
  (buf.getD (p / 8) 0).getLsbD (bitOfSlot o p)

/-- The bit of an n-bit chunk that stands at offset `j` of the stream (20_memory.md R83). -/
def chunkIndex (o : BitOrder) (n j : Nat) : Nat :=
  match o with
  | .lsbFirst => j
  | .msbFirst => n - 1 - j

/-- The bits that `WriteBits(v, n)` writes, in stream order (40_bitstream.md R200). -/
def chunkBits (o : BitOrder) (v n : Nat) : List Bool :=
  (List.range n).map fun j => v.testBit (chunkIndex o n j)

/-- The number of chunks of a `w`-bit value (20_memory.md R83). -/
def chunkCount (w : Nat) : Nat := ceilDiv w 8

/-- The width of chunk `c` of a `w`-bit value (20_memory.md R83). -/
def chunkWidth (w c : Nat) : Nat := min 8 (w - 8 * c)

/-- The bits that `WriteWide(v, w)` writes, in stream order: chunks of at most 8 bits, the least
significant chunk first (40_bitstream.md R200). -/
def wideBits (o : BitOrder) (v w : Nat) : List Bool :=
  (List.range (chunkCount w)).flatMap fun c => chunkBits o (v >>> (8 * c)) (chunkWidth w c)

/-- Write one bit at the writer's cursor and advance it. -/
def pushBit (o : BitOrder) (w : Writer) (b : Bool) : Writer :=
  { buf := writeBit o w.buf w.pos b, pos := w.pos + 1 }

/-- Write a run of bits at the writer's cursor (40_bitstream.md R200). -/
def pushBits (o : BitOrder) (w : Writer) (bits : List Bool) : Writer :=
  bits.foldl (pushBit o) w

/-- The n-bit chunk at position `p` (40_bitstream.md R201, ReadBits). -/
def chunkAt (o : BitOrder) (buf : List Byte) (p n : Nat) : Nat :=
  (List.range n).foldl (fun v j => v ||| ((readBit o buf (p + j)).toNat <<< chunkIndex o n j)) 0

/-- The `w`-bit value at position `p` (40_bitstream.md R201, ReadWide). -/
def wideAt (o : BitOrder) (buf : List Byte) (p w : Nat) : Nat :=
  (List.range (chunkCount w)).foldl
    (fun v c => v ||| (chunkAt o buf (p + 8 * c) (chunkWidth w c) <<< (8 * c))) 0

/-- The number of bits the reader has left (10_state.md R34). -/
def remaining (r : Reader) : Nat := 8 * r.buf.length - r.pos

/-- `ReadBits(n)`; `none` is UNDERRUN (40_bitstream.md R201). -/
def readBits (o : BitOrder) (n : Nat) (r : Reader) : Option (Nat × Reader) :=
  if r.pos + n > 8 * r.buf.length then none
  else some (chunkAt o r.buf r.pos n, { r with pos := r.pos + n })

/-- `ReadWide(w)`, which checks the whole width first; `none` is UNDERRUN (40_bitstream.md R201). -/
def readWide (o : BitOrder) (w : Nat) (r : Reader) : Option (Nat × Reader) :=
  if r.pos + w > 8 * r.buf.length then none
  else some (wideAt o r.buf r.pos w, { r with pos := r.pos + w })

/-! ### The reassembler's table -/

/-- The place of a descriptor in the table's order (the model's own; no rule can see it). -/
def descKey (d : Desc) : Nat :=
  ((d.dtid.toNat * 4 + kindNumber d.kind) * 128 + d.src.toNat) * 128 + d.dst.toNat

/-- The entry of a descriptor (10_state.md R38). -/
def tableGet (t : RxTable) (d : Desc) : Option RxState := (t.find? fun e => e.1 == d).map (·.2)

/-- The table with the entry of `d` set to `st`, created if need be (10_state.md R38). -/
def tablePut (d : Desc) (st : RxState) : RxTable → RxTable
  | [] => [(d, st)]
  | e :: t =>
    if e.1 = d then (d, st) :: t
    else if descKey d < descKey e.1 then (d, st) :: e :: t
    else e :: tablePut d st t

/-- The canonical form of a table: rising descriptors, at most one entry for each. -/
abbrev tableWf (t : RxTable) : Prop := t.Pairwise fun a b => descKey a.1 < descKey b.1

end Sys2Proof.Machine
end

