-- ==== Sys2Proof/Machine/BitStream.lean ====
section
/-! DEFINITION. The commands of the BitStream unit (40_bitstream.md R202 to R209). -/

namespace Sys2Proof.Machine

/-- The body of BSW.PUT and BSW.PUTW after the check of field A: the operand's range, the capacity, then
the given bits of the operand (40_bitstream.md R203, R204). -/
def putNumber (n : Nat) (bits : Nat → List Bool) (s : State) : Answer :=
  if s.ports.vNum < 0 ∨ (2 : Int) ^ n ≤ s.ports.vNum then fault .invalidArgument s
  else if exceeds s.cfg.wCapBits (s.w.pos + n) then fault .writerOverflow s
  else ok .none { s with w := pushBits s.cfg.bitOrder s.w (bits s.ports.vNum.toNat) }

/-- The end of BSR.GET and BSR.GETW: the value read, or TruncatedPayload with the reader unchanged
(40_bitstream.md R207, R208). -/
def gotNumber (got : Option (Nat × Reader)) (s : State) : Answer :=
  match got with
  | none => ret .truncatedPayload .none s
  | some (v, r) => ok (.number v) { s with r := r }

/-- BSW.CLR (40_bitstream.md R202). -/
def execBswClr (s : State) : Answer := ok .none { s with w := .empty }

/-- BSW.PUT n (40_bitstream.md R203). -/
def execBswPut (n : Byte) (s : State) : Answer :=
  if aInRange 1 8 n then putNumber n.toNat (fun v => chunkBits s.cfg.bitOrder v n.toNat) s
  else fault .invalidBitLength s

/-- BSW.PUTW n (40_bitstream.md R204). -/
def execBswPutw (n : Byte) (s : State) : Answer :=
  if aInRange 1 64 n then putNumber n.toNat (fun v => wideBits s.cfg.bitOrder v n.toNat) s
  else fault .invalidBitLength s

/-- BSW.BYTES (40_bitstream.md R205). -/
def execBswBytes (s : State) : Answer := ok (.written s.w.buf s.w.pos) s

/-- BSR.LOAD (40_bitstream.md R206). -/
def execBsrLoad (s : State) : Answer :=
  if exceeds s.cfg.rCapBytes s.ports.bytes.length then fault .invalidArgument s
  else ok .none { s with r := { buf := s.ports.bytes, pos := 0 } }

/-- BSR.GET n (40_bitstream.md R207). -/
def execBsrGet (n : Byte) (s : State) : Answer :=
  if aInRange 1 8 n then gotNumber (readBits s.cfg.bitOrder n.toNat s.r) s
  else fault .invalidBitLength s

/-- BSR.GETW n (40_bitstream.md R208). -/
def execBsrGetw (n : Byte) (s : State) : Answer :=
  if aInRange 1 64 n then gotNumber (readWide s.cfg.bitOrder n.toNat s.r) s
  else fault .invalidBitLength s

/-- BSR.REM (40_bitstream.md R209). -/
def execBsrRem (s : State) : Answer := ok (.remaining (remaining s.r)) s

end Sys2Proof.Machine
end

