-- ==== Sys2Proof/Machine/Float.lean ====
section
/-! DEFINITION. The float formats (30_encoding.md R128), the conversions out of and into binary64
(42_codec_encode.md R304, 43_codec_decode.md R406) and the float cast. Patterns are computed on as
natural numbers, exactly, and narrowed once at the end. -/

namespace Sys2Proof.Machine

/-- A binary interchange format by its exponent and fraction widths (30_encoding.md R128). -/
structure FloatFormat where
  expBits : Nat
  fracBits : Nat
  deriving DecidableEq, Repr

/-- binary16 (30_encoding.md R128). -/
def binary16 : FloatFormat := { expBits := 5, fracBits := 10 }

/-- binary32 (30_encoding.md R128). -/
def binary32 : FloatFormat := { expBits := 8, fracBits := 23 }

/-- binary64 (30_encoding.md R128). -/
def binary64 : FloatFormat := { expBits := 11, fracBits := 52 }

/-- The exponent bias. -/
def FloatFormat.bias (f : FloatFormat) : Nat := 2 ^ (f.expBits - 1) - 1

/-- The all-ones exponent field. -/
def FloatFormat.expMax (f : FloatFormat) : Nat := 2 ^ f.expBits - 1

/-- The sign bit of a pattern, as 0 or 1. -/
def FloatFormat.signOf (f : FloatFormat) (u : Nat) : Nat := u / 2 ^ (f.expBits + f.fracBits) % 2

/-- The exponent field of a pattern. -/
def FloatFormat.expOf (f : FloatFormat) (u : Nat) : Nat := u / 2 ^ f.fracBits % 2 ^ f.expBits

/-- The fraction field of a pattern. -/
def FloatFormat.fracOf (f : FloatFormat) (u : Nat) : Nat := u % 2 ^ f.fracBits

/-- The pattern of a sign, an exponent field and a fraction field. -/
def FloatFormat.pack (f : FloatFormat) (sign exp frac : Nat) : Nat :=
  (sign * 2 ^ f.expBits + exp) * 2 ^ f.fracBits + frac

/-- NaN: all-ones exponent, non-zero fraction (30_encoding.md R128). -/
def FloatFormat.isNan (f : FloatFormat) (u : Nat) : Bool :=
  f.expOf u == f.expMax && f.fracOf u != 0

/-- Finite: an exponent that is not all ones (30_encoding.md R128). -/
def FloatFormat.isFinite (f : FloatFormat) (u : Nat) : Bool := f.expOf u != f.expMax

/-- `m / 2^k` rounded to the nearest integer, a tie to the even one. -/
def roundEven (m k : Nat) : Nat :=
  let q := m / 2 ^ k
  let r := m % 2 ^ k
  if 2 ^ k < 2 * r ∨ (2 ^ k = 2 * r ∧ q % 2 = 1) then q + 1 else q

/-- The magnitude bits of a finite binary64 magnitude `exp`, `frac` in the narrower format `f`, rounded to
nearest even, before overflow is looked at. `e` is the exponent of the value's unit in binary64; the
target keeps `fracBits` fraction bits, fewer below its smallest normal exponent, so `drop` bits go. -/
def narrowMagnitude (f : FloatFormat) (exp frac : Nat) : Nat :=
  let m := if exp = 0 then frac else 2 ^ 52 + frac
  let e := max exp 1
  let drop := max (52 - f.fracBits) (1075 - f.fracBits + 1 - f.bias - e)
  (e + f.bias - 1024) * 2 ^ f.fracBits + roundEven m drop

/-- The default CVT16 and CVT32: IEEE 754 conversion of a binary64 pattern, round to nearest even,
overflow to infinity, infinity kept, a NaN to the quiet NaN with the same sign and the top fraction
bits (42_codec_encode.md R304). -/
def narrowIeee (f : FloatFormat) (x : Nat) : Nat :=
  let sign := binary64.signOf x
  let exp := binary64.expOf x
  let frac := binary64.fracOf x
  if binary64.isNan x then
    f.pack sign f.expMax ((frac / 2 ^ (52 - f.fracBits)) ||| 2 ^ (f.fracBits - 1))
  else if exp = binary64.expMax then f.pack sign f.expMax 0
  else f.pack sign 0 (min (narrowMagnitude f exp frac) (f.expMax * 2 ^ f.fracBits))

/-- CVT16 (00_scope.md R7). -/
def cvt16 (cfg : Config) (x : BitVec 64) : BitVec 16 :=
  match cfg.cvt16 with
  | .ieee => BitVec.ofNat 16 (narrowIeee binary16 x.toNat)
  | .other => Config.otherCvt16 x

/-- CVT32 (00_scope.md R7). -/
def cvt32 (cfg : Config) (x : BitVec 64) : BitVec 32 :=
  match cfg.cvt32 with
  | .ieee => BitVec.ofNat 32 (narrowIeee binary32 x.toNat)
  | .other => Config.otherCvt32 x

/-- The binary64 pattern of MAX16 = 65504 (42_codec_encode.md R304). -/
def max16 : BitVec 64 := 0x40EFFC0000000000

/-- The binary64 pattern of MAX32 = (2 − 2^−23) × 2^127 (42_codec_encode.md R304). -/
def max32 : BitVec 64 := 0x47EFFFFFE0000000

/-- The pattern without its sign bit: magnitudes of finite values are ordered as these numbers are. -/
def magnitude (x : BitVec 64) : BitVec 64 := x &&& 0x7FFFFFFFFFFFFFFF

/-- The clamp of Saturated mode: a finite value beyond the largest finite one becomes that one with the
value's sign; infinities and NaNs pass (42_codec_encode.md R304). -/
def clampFloat (limit x : BitVec 64) : BitVec 64 :=
  if binary64.isFinite x.toNat ∧ limit.toNat < (magnitude x).toNat then
    (x &&& 0x8000000000000000) ||| limit
  else x

/-- The value CVTn is given: clamped in Saturated mode, itself in Truncated mode (42_codec_encode.md
R304). -/
def castFloatInput (limit : BitVec 64) (cm : CastMode) (x : BitVec 64) : BitVec 64 :=
  match cm with
  | .saturated => clampFloat limit x
  | .truncated => x

/-- `CastF(x, n, cm)`, the n-bit pattern to write; n is 16, 32 or 64 (42_codec_encode.md R304). -/
def castF (cfg : Config) (x : BitVec 64) (n : Nat) (cm : CastMode) : Nat :=
  if n = 16 then (cvt16 cfg (castFloatInput max16 cm x)).toNat
  else if n = 32 then (cvt32 cfg (castFloatInput max32 cm x)).toNat
  else x.toNat

/-- The binary64 pattern of the value of a pattern that is no NaN: exact, for every value of the narrower
format is a binary64 value (43_codec_decode.md R406). A subnormal is normalised. -/
def widenExact (f : FloatFormat) (u : Nat) : Nat :=
  let sign := f.signOf u
  let exp := f.expOf u
  let frac := f.fracOf u
  if exp = f.expMax then binary64.pack sign binary64.expMax 0
  else if exp ≠ 0 then binary64.pack sign (exp + 1023 - f.bias) (frac * 2 ^ (52 - f.fracBits))
  else if frac = 0 then binary64.pack sign 0 0
  else
    let k := Nat.log2 frac
    binary64.pack sign (k + 1024 - f.bias - f.fracBits) ((frac - 2 ^ k) * 2 ^ (52 - k))

/-- A binary64 NaN out of any 64 bits: NaNs are kept, so every NaN can come out (43_codec_decode.md
R406). -/
def forceNan (x : BitVec 64) : BitVec 64 :=
  if binary64.isNan x.toNat then x else x ||| 0x7FF8000000000000

/-- The format of a float width narrower than 64 (30_encoding.md R128). -/
def narrowFormat (n : Nat) : FloatFormat := if n = 16 then binary16 else binary32

/-- Whether decoding this n-bit pattern asks for a NAN_WIDEN draw (43_codec_decode.md R406). -/
def asksNanDraw (n u : Nat) : Bool := n != 64 && (narrowFormat n).isNan u

/-- `Widen(u, n)`, with the NAN_WIDEN draw numbered `draw` where it asks for one (43_codec_decode.md
R406). -/
def widen (n u draw : Nat) : BitVec 64 :=
  if n = 64 then BitVec.ofNat 64 u
  else if asksNanDraw n u then forceNan (Config.nanWiden draw)
  else BitVec.ofNat 64 (widenExact (narrowFormat n) u)

end Sys2Proof.Machine
end

