-- ==== Sys2Proof/Machine/Codec.lean ====
section
/-! DEFINITION. What the codec's commands share: the queries on a descriptor (30_encoding.md R131, R134),
the conformance of a value (R141), the cast-mode multiplexer (42_codec_encode.md R302, R303), the encode
procedure (R300, R301, R320) and the decode procedure (43_codec_decode.md R400, R407, R410). -/

namespace Sys2Proof.Machine

/-! ### Lists inside the trees -/

/-- The fields of a composite as a list. -/
def Fields.toList : Fields → List (String × Ty)
  | .nil => []
  | .cons name t rest => (name, t) :: rest.toList

/-- The elements of an array value as a list. -/
def Vals.toList : Vals → List Val
  | .nil => []
  | .cons v rest => v :: rest.toList

/-- An array value's elements from a list. -/
def Vals.ofList : List Val → Vals
  | [] => .nil
  | v :: vs => .cons v (Vals.ofList vs)

/-- The entries of a record as a list. -/
def Entries.toList : Entries → List (String × Val)
  | .nil => []
  | .cons name v rest => (name, v) :: rest.toList

/-- A record's entries from a list. -/
def Entries.ofList : List (String × Val) → Entries
  | [] => .nil
  | (name, v) :: es => .cons name v (Entries.ofList es)

/-- The value of the first entry with a name, `v.field(name)` (42_codec_encode.md R300). -/
def Entries.get? : Entries → String → Option Val
  | .nil, _ => none
  | .cons name v rest, k => if name = k then some v else rest.get? k

/-- The descriptor is a Void. -/
def Ty.isVoid : Ty → Bool
  | .void _ => true
  | _ => false

/-- The descriptor is an Array. -/
def Ty.isArray : Ty → Bool
  | .array _ _ _ => true
  | _ => false

/-- The descriptor is a Static Array. -/
def Ty.isFixedArray : Ty → Bool
  | .array _ .fixed _ => true
  | _ => false

/-- The descriptor is a Dynamic Array. -/
def Ty.isDynamicArray : Ty → Bool
  | .array _ .dynamic _ => true
  | _ => false

/-- The descriptor is a Struct. -/
def Ty.isStruct : Ty → Bool
  | .struct _ => true
  | _ => false

/-- The descriptor is a Union. -/
def Ty.isUnion : Ty → Bool
  | .union _ => true
  | _ => false

/-- The names of the fields that are not Void, in declaration order (30_encoding.md R131, R141). -/
def Fields.valueNames (fs : Fields) : List String :=
  (fs.toList.filter fun f => !f.2.isVoid).map (·.1)

/-- The number of fields. -/
def Fields.count (fs : Fields) : Nat := fs.toList.length

/-! ### Descriptors -/

/-- TaoEligible (42_codec_encode.md R320): a Dynamic array of integers or floats of 8 or more bits. -/
def taoEligible : Ty → Bool
  | .array (.uint n _) .dynamic _ => 8 ≤ n
  | .array (.int n _) .dynamic _ => 8 ≤ n
  | .array (.float n _) .dynamic _ => 8 ≤ n
  | _ => false

/-- The bit length of a primitive descriptor, `n of E` (43_codec_decode.md R410). -/
def Ty.width : Ty → Nat
  | .void n | .uint n _ | .int n _ | .float n _ => n
  | .bool => 1
  | .array _ _ _ | .struct _ | .union _ => 0

mutual

/-- The first check of 30_encoding.md R131 that a descriptor fails, pre-order; `none` if it is valid. -/
def checkTy : Ty → Option Status
  | .void n => if 1 ≤ n ∧ n ≤ 64 then none else some .invalidBitLength
  | .bool => none
  | .uint n _ => if 2 ≤ n ∧ n ≤ 64 then none else some .invalidBitLength
  | .int n _ => if 2 ≤ n ∧ n ≤ 64 then none else some .invalidBitLength
  | .float n _ => if n = 16 ∨ n = 32 ∨ n = 64 then none else some .invalidBitLength
  | .array e _ m =>
    if e.isArray then some .invalidSchema
    else if e.isVoid ∨ 2 ^ 64 ≤ m then some .invalidSchema
    else checkTy e
  | .struct fs => if fs.valueNames.Nodup then checkFields fs else some .invalidSchema
  | .union fs =>
    if fs.count < 2 ∨ fs.toList.any (·.2.isVoid) then some .invalidSchema
    else if fs.valueNames.Nodup then checkFields fs
    else some .invalidSchema

/-- The first check that a field's descriptor fails, in declaration order. -/
def checkFields : Fields → Option Status
  | .nil => none
  | .cons _ t rest =>
    match checkTy t with
    | some e => some e
    | none => checkFields rest

end

mutual

/-- MinBits (30_encoding.md R134). -/
def minBits : Ty → Nat
  | .void n => n
  | .bool => 1
  | .uint n _ => n
  | .int n _ => n
  | .float n _ => n
  | .array e .fixed m => m * minBits e
  | .array _ .dynamic m => bitlen m
  | .struct fs => minSum fs
  | .union fs => bitlen (fs.count - 1) + minLeast fs

/-- The sum of the fields' MinBits. -/
def minSum : Fields → Nat
  | .nil => 0
  | .cons _ t rest => minBits t + minSum rest

/-- The least of the fields' MinBits. -/
def minLeast : Fields → Nat
  | .nil => 0
  | .cons _ t .nil => minBits t
  | .cons _ t rest => min (minBits t) (minLeast rest)

end

mutual

/-- MaxBits (30_encoding.md R134). -/
def maxBits : Ty → Nat
  | .void n => n
  | .bool => 1
  | .uint n _ => n
  | .int n _ => n
  | .float n _ => n
  | .array e .fixed m => m * maxBits e
  | .array e .dynamic m => bitlen m + m * maxBits e
  | .struct fs => maxSum fs
  | .union fs => bitlen (fs.count - 1) + maxGreatest fs

/-- The sum of the fields' MaxBits. -/
def maxSum : Fields → Nat
  | .nil => 0
  | .cons _ t rest => maxBits t + maxSum rest

/-- The greatest of the fields' MaxBits. -/
def maxGreatest : Fields → Nat
  | .nil => 0
  | .cons _ t rest => max (maxBits t) (maxGreatest rest)

end

/-! ### Values -/

/-- The value domain of an integer operand, −2^63 .. 2^64 − 1 (30_encoding.md R141). -/
def inValueDomain (i : Int) : Bool := -(2 ^ 63) ≤ i && i ≤ 2 ^ 64 - 1

/-- The first check that the shape of a record fails for its Struct (30_encoding.md R141): every field
that is not Void has an entry, no entry has another name, no name is repeated. -/
def recordShape (fs : Fields) (es : Entries) : Option Status :=
  let given := es.toList.map (·.1)
  if fs.valueNames.all (given.contains ·) then
    if given.all (fs.valueNames.contains ·) ∧ given.Nodup then none else some .schemaMismatch
  else some .missingValue

mutual

/-- The first check of 30_encoding.md R141 that a value fails for a descriptor, in the order of
`emit`; `none` if it conforms. -/
def conform : Ty → Val → Option Status
  | .bool, .bool _ => none
  | .uint _ _, .int i => if inValueDomain i then none else some .invalidArgument
  | .int _ _, .int i => if inValueDomain i then none else some .invalidArgument
  | .float _ _, .float _ => none
  | .array e .fixed m, .array vs =>
    if vs.toList.length = m then vs.toList.findSome? (fun v => conform e v) else some .schemaMismatch
  | .array e .dynamic m, .array vs =>
    if vs.toList.length ≤ m then vs.toList.findSome? (fun v => conform e v) else some .schemaMismatch
  | .struct fs, .record es =>
    match recordShape fs es with
    | some c => some c
    | none => conformFields fs es
  | .union fs, .union idx v => conformMember fs idx v
  | _, _ => some .schemaMismatch

/-- The first check that a field's value fails, in declaration order. -/
def conformFields : Fields → Entries → Option Status
  | .nil, _ => none
  | .cons name t rest, es =>
    match (if t.isVoid then none else (es.get? name).bind fun v => conform t v) with
    | some c => some c
    | none => conformFields rest es

/-- The check of a union's active member; an index past the fields is a mismatch. -/
def conformMember : Fields → Nat → Val → Option Status
  | .nil, _, _ => some .schemaMismatch
  | .cons _ t _, 0, v => conform t v
  | .cons _ _ rest, k + 1, v => conformMember rest k v

end

/-! ### The cast-mode multiplexer -/

/-- CastU (42_codec_encode.md R302). -/
def castU (i : Int) (n : Nat) : CastMode → Nat
  | .saturated => (min (max i 0) (2 ^ n - 1)).toNat
  | .truncated => (i % 2 ^ n).toNat

/-- CastS, the n-bit two's-complement pattern (42_codec_encode.md R303). -/
def castS (i : Int) (n : Nat) : CastMode → Nat
  | .saturated => ((min (max i (-(2 ^ (n - 1)))) (2 ^ (n - 1) - 1)) % 2 ^ n).toNat
  | .truncated => (i % 2 ^ n).toNat

/-! ### Encode -/

mutual

/-- EncLen (42_codec_encode.md R301). -/
def encLen : Ty → Val → Bool → Nat
  | .void n, _, _ => n
  | .bool, _, _ => 1
  | .uint n _, _, _ => n
  | .int n _, _, _ => n
  | .float n _, _, _ => n
  | .array e .fixed _, .array vs, _ => (vs.toList.map fun v => encLen e v false).sum
  | .array e .dynamic m, .array vs, t =>
    (if t && taoEligible (.array e .dynamic m) then 0 else bitlen m) +
      (vs.toList.map fun v => encLen e v false).sum
  | .union fs, .union idx v, _ => bitlen (fs.count - 1) + encLenMember fs idx v
  | .struct fs, .record es, t => encLenFields fs es t
  | _, _, _ => 0

/-- The sum of EncLen over the fields; the flag goes to the last field (42_codec_encode.md R301). -/
def encLenFields : Fields → Entries → Bool → Nat
  | .nil, _, _ => 0
  | .cons name t rest, es, tail =>
    (if t.isVoid then t.width
     else ((es.get? name).map fun v => encLen t v (tail && rest.toList.isEmpty)).getD 0) +
      encLenFields rest es tail

/-- EncLen of a union's active member. -/
def encLenMember : Fields → Nat → Val → Nat
  | .nil, _, _ => 0
  | .cons _ t _, 0, v => encLen t v false
  | .cons _ _ rest, k + 1, v => encLenMember rest k v

end

mutual

/-- `Emit(T, v, t)`: the bits it writes, in stream order (42_codec_encode.md R300). It is called on a
value that conforms; on another it writes nothing for the part that does not. -/
def emit (cfg : Config) : Ty → Val → Bool → List Bool
  | .void n, _, _ => wideBits cfg.bitOrder 0 n
  | .bool, .bool b, _ => chunkBits cfg.bitOrder b.toNat 1
  | .uint n cm, .int i, _ => wideBits cfg.bitOrder (castU i n cm) n
  | .int n cm, .int i, _ => wideBits cfg.bitOrder (castS i n cm) n
  | .float n cm, .float x, _ => wideBits cfg.bitOrder (castF cfg x n cm) n
  | .array e .fixed _, .array vs, _ => vs.toList.flatMap fun v => emit cfg e v false
  | .array e .dynamic m, .array vs, t =>
    (if t && taoEligible (.array e .dynamic m) then [] else wideBits cfg.bitOrder vs.toList.length (bitlen m)) ++
      vs.toList.flatMap fun v => emit cfg e v false
  | .union fs, .union idx v, _ => wideBits cfg.bitOrder idx (bitlen (fs.count - 1)) ++ emitMember cfg fs idx v
  | .struct fs, .record es, t => emitFields cfg fs es t
  | _, _, _ => []

/-- The fields of a Struct in declaration order, Void padding included; the flag goes to the last field
(42_codec_encode.md R300, R320). -/
def emitFields (cfg : Config) : Fields → Entries → Bool → List Bool
  | .nil, _, _ => []
  | .cons name t rest, es, tail =>
    (if t.isVoid then wideBits cfg.bitOrder 0 t.width
     else ((es.get? name).map fun v => emit cfg t v (tail && rest.toList.isEmpty)).getD []) ++
      emitFields cfg rest es tail

/-- The active member of a union; "no other field is written" (42_codec_encode.md R300). -/
def emitMember (cfg : Config) : Fields → Nat → Val → List Bool
  | .nil, _, _ => []
  | .cons _ t _, 0, v => emit cfg t v false
  | .cons _ _ rest, k + 1, v => emitMember cfg rest k v

end

/-! ### Decode -/

/-- Where a parse stands: the reader, and the number of NAN_WIDEN draws used. -/
structure Cursor where
  r : Reader
  draws : Nat
  deriving DecidableEq, Repr

/-- What a parse gives: a value and the cursor after it, or the error status that ends the command. -/
abbrev Parsed (α : Type) := Except Status (α × Cursor)

/-- `sext_n(u)` (00_scope.md R10). -/
def sext (n u : Nat) : Int := if u.testBit (n - 1) then (u : Int) - 2 ^ n else u

/-- ReadWide inside a parse: UNDERRUN is the error TruncatedPayload (43_codec_decode.md R400). -/
def parseWide (cfg : Config) (w : Nat) (c : Cursor) : Parsed Nat :=
  match readWide cfg.bitOrder w c.r with
  | none => .error .truncatedPayload
  | some (u, r) => .ok (u, { c with r := r })

/-- ReadBits inside a parse (43_codec_decode.md R400). -/
def parseBits (cfg : Config) (n : Nat) (c : Cursor) : Parsed Nat :=
  match readBits cfg.bitOrder n c.r with
  | none => .error .truncatedPayload
  | some (u, r) => .ok (u, { c with r := r })

/-- A float of `n` bits, widened; a NaN of 16 or 32 bits takes the next draw (43_codec_decode.md R406). -/
def parseFloat (cfg : Config) (n : Nat) (c : Cursor) : Parsed Val :=
  match parseWide cfg n c with
  | .error e => .error e
  | .ok (u, c') =>
    .ok (.float (widen n u c'.draws),
      if asksNanDraw n u then { c' with draws := c'.draws + 1 } else c')

/-- `PrefixDecode(m)` (43_codec_decode.md R407). -/
def parseCount (cfg : Config) (m : Nat) (c : Cursor) : Parsed Nat :=
  if bitlen m = 0 then .ok (0, c)
  else
    match parseWide cfg (bitlen m) c with
    | .error e => .error e
    | .ok (k, c') => if m < k then .error .badArrayLength else .ok (k, c')

/-- A parse repeated `k` times, left to right; the first error wins (43_codec_decode.md R400). An
element that is NOTHING adds none. -/
def parseTimes (p : Cursor → Parsed (Option Val)) : Nat → Cursor → Parsed (List Val)
  | 0, c => .ok ([], c)
  | k + 1, c =>
    match p c with
    | .error e => .error e
    | .ok (v, c') =>
      match parseTimes p k c' with
      | .error e => .error e
      | .ok (vs, c'') => .ok (v.toList ++ vs, c'')

/-- `TaoElements(E, m)`: elements while fewer than `m` are read and a whole element of `e` bits remains
(43_codec_decode.md R410). -/
def parseTail (p : Cursor → Parsed (Option Val)) (e : Nat) : Nat → Cursor → Parsed (List Val)
  | 0, c => .ok ([], c)
  | k + 1, c =>
    if e ≤ remaining c.r then
      match p c with
      | .error err => .error err
      | .ok (v, c') =>
        match parseTail p e k c' with
        | .error err => .error err
        | .ok (vs, c'') => .ok (v.toList ++ vs, c'')
    else .ok ([], c)

/-- A parsed list of elements as the array value. -/
def asArray : Parsed (List Val) → Parsed (Option Val)
  | .error e => .error e
  | .ok (vs, c) => .ok (some (.array (Vals.ofList vs)), c)

mutual

/-- `Parse(T, t)` (43_codec_decode.md R400). The value is `none` where Parse returns NOTHING. -/
def parse (cfg : Config) : Ty → Bool → Cursor → Parsed (Option Val)
  | .void n, _, c =>
    match parseWide cfg n c with
    | .error e => .error e
    | .ok (_, c') => .ok (none, c')
  | .bool, _, c =>
    match parseBits cfg 1 c with
    | .error e => .error e
    | .ok (u, c') => .ok (some (.bool (u == 1)), c')
  | .uint n _, _, c =>
    match parseWide cfg n c with
    | .error e => .error e
    | .ok (u, c') => .ok (some (.int u), c')
  | .int n _, _, c =>
    match parseWide cfg n c with
    | .error e => .error e
    | .ok (u, c') => .ok (some (.int (sext n u)), c')
  | .float n _, _, c =>
    match parseFloat cfg n c with
    | .error e => .error e
    | .ok (x, c') => .ok (some x, c')
  | .array e .fixed m, _, c => asArray (parseTimes (fun c' => parse cfg e false c') m c)
  | .array e .dynamic m, t, c =>
    if t && taoEligible (.array e .dynamic m) then
      asArray (parseTail (fun c' => parse cfg e false c') e.width m c)
    else
      match parseCount cfg m c with
      | .error err => .error err
      | .ok (k, c') => asArray (parseTimes (fun c'' => parse cfg e false c'') k c')
  | .union fs, _, c =>
    match parseWide cfg (bitlen (fs.count - 1)) c with
    | .error e => .error e
    | .ok (u, c') =>
      if fs.count ≤ u then .error .badUnionTag
      else
        match parseMember cfg fs u c' with
        | .error e => .error e
        | .ok (v, c'') => .ok (v.map fun x => .union u x, c'')
  | .struct fs, t, c =>
    match parseFields cfg fs t c with
    | .error e => .error e
    | .ok (es, c') => .ok (some (.record (Entries.ofList es)), c')

/-- The fields of a Struct, left to right; a Void field gives no entry (43_codec_decode.md R400). -/
def parseFields (cfg : Config) : Fields → Bool → Cursor → Parsed (List (String × Val))
  | .nil, _, c => .ok ([], c)
  | .cons name t rest, tail, c =>
    match parse cfg t (tail && rest.toList.isEmpty) c with
    | .error e => .error e
    | .ok (v, c') =>
      match parseFields cfg rest tail c' with
      | .error e => .error e
      | .ok (es, c'') => .ok ((v.map fun x => (name, x)).toList ++ es, c'')

/-- The member of a union with index `u`. -/
def parseMember (cfg : Config) : Fields → Nat → Cursor → Parsed (Option Val)
  | .nil, _, _ => .error .badUnionTag
  | .cons _ t _, 0, c => parse cfg t false c
  | .cons _ _ rest, k + 1, c => parseMember cfg rest k c

end

end Sys2Proof.Machine
end

