-- ==== Sys2Proof/Machine/DecodeCmds.lean ====
section
/-! DEFINITION. The decode commands (43_codec_decode.md R401 to R413). -/

namespace Sys2Proof.Machine

/-- The output of a decode command that read at the cursor: the value, or none where Parse returned
NOTHING. -/
def valueOutput : Option Val → Output
  | none => .none
  | some v => .value v

/-- Phases 1 and 2 of 43_codec_decode.md R400 at the reader's cursor. An error status leaves the reader
unchanged (R414). -/
def decodeAtCursor (T : Ty) (t : Bool) (s : State) : Answer :=
  match checkTy T with
  | some e => fault e s
  | none =>
    match parse s.cfg T t { r := s.r, draws := s.nanDraws } with
    | .error e => ret e .none s
    | .ok (v, c) => ok (valueOutput v) { s with r := c.r, nanDraws := c.draws }

/-- DEC.BOOL (43_codec_decode.md R401). -/
def execDecBool (s : State) : Answer := decodeAtCursor .bool false s

/-- DEC.UINT n (43_codec_decode.md R402). -/
def execDecUint (n : Byte) (s : State) : Answer :=
  if aInRange 2 64 n then decodeAtCursor (.uint n.toNat .saturated) false s
  else fault .invalidBitLength s

/-- DEC.INT n (43_codec_decode.md R403). -/
def execDecInt (n : Byte) (s : State) : Answer :=
  if aInRange 2 64 n then decodeAtCursor (.int n.toNat .saturated) false s
  else fault .invalidBitLength s

/-- DEC.FLOAT n (43_codec_decode.md R404). -/
def execDecFloat (n : Byte) (s : State) : Answer :=
  if aFloatWidth n then decodeAtCursor (.float n.toNat .saturated) false s
  else fault .invalidBitLength s

/-- DEC.VOID n: the skipped bits are not looked at (43_codec_decode.md R405). -/
def execDecVoid (n : Byte) (s : State) : Answer :=
  if aInRange 1 64 n then decodeAtCursor (.void n.toNat) false s
  else fault .invalidBitLength s

/-- DEC.SARRAY (43_codec_decode.md R408). -/
def execDecSarray (s : State) : Answer :=
  if s.ports.ty.isFixedArray then decodeAtCursor s.ports.ty false s
  else fault .schemaMismatch s

/-- DEC.DARRAY (43_codec_decode.md R409). -/
def execDecDarray (tail : Bool) (s : State) : Answer :=
  if s.ports.ty.isDynamicArray then
    if tail && !taoEligible s.ports.ty then fault .invalidSchema s
    else decodeAtCursor s.ports.ty tail s
  else fault .schemaMismatch s

/-- DEC.UNION (43_codec_decode.md R411). -/
def execDecUnion (s : State) : Answer :=
  if s.ports.ty.isUnion then decodeAtCursor s.ports.ty false s
  else fault .schemaMismatch s

/-- DEC.STRUCT (43_codec_decode.md R412). -/
def execDecStruct (tail : Bool) (s : State) : Answer :=
  if s.ports.ty.isStruct then decodeAtCursor s.ports.ty tail s
  else fault .schemaMismatch s

/-- DEC: a whole payload. The reader is loaded only if the parse succeeds (43_codec_decode.md R413,
R414). -/
def execDec (s : State) : Answer :=
  if exceeds s.cfg.rCapBytes s.ports.bytes.length then fault .invalidArgument s
  else
    match checkTy s.ports.ty with
    | some e => fault e s
    | none =>
      match parse s.cfg s.ports.ty s.ports.ty.isStruct
          { r := { buf := s.ports.bytes, pos := 0 }, draws := s.nanDraws } with
      | .error e => ret e .none s
      | .ok (v, c) => ok (.decoded v (remaining c.r)) { s with r := c.r, nanDraws := c.draws }

end Sys2Proof.Machine
end

