-- ==== Sys2Proof/Machine/EncodeCmds.lean ====
section
/-! DEFINITION. The encode commands and the two descriptor queries (42_codec_encode.md R305 to R316). -/

namespace Sys2Proof.Machine

/-- Phases 1 and 2 of 42_codec_encode.md R300: the first failing check of the descriptor, then of the
value. -/
def encodeCheck (T : Ty) (v : Val) : Option Status :=
  match checkTy T with
  | some e => some e
  | none => conform T v

/-- Phases 3 and 4 of 42_codec_encode.md R300 for bits of a known number: the capacity, then the write at
the writer's cursor. -/
def appendBits (len : Nat) (bits : List Bool) (s : State) : Answer :=
  if exceeds s.cfg.wCapBits (s.w.pos + len) then fault .writerOverflow s
  else ok .none { s with w := pushBits s.cfg.bitOrder s.w bits }

/-- Phases 1 to 4 of 42_codec_encode.md R300 at the writer's cursor; a fault writes nothing (R321). -/
def encodeAtCursor (T : Ty) (v : Val) (t : Bool) (s : State) : Answer :=
  match encodeCheck T v with
  | some e => fault e s
  | none => appendBits (encLen T v t) (emit s.cfg T v t) s

/-- ENC.BOOL (42_codec_encode.md R305). -/
def execEncBool (s : State) : Answer := encodeAtCursor .bool s.ports.v false s

/-- ENC.UINT n (42_codec_encode.md R306). -/
def execEncUint (n : Byte) (cm : CastMode) (s : State) : Answer :=
  if aInRange 2 64 n then encodeAtCursor (.uint n.toNat cm) s.ports.v false s
  else fault .invalidBitLength s

/-- ENC.INT n (42_codec_encode.md R307). -/
def execEncInt (n : Byte) (cm : CastMode) (s : State) : Answer :=
  if aInRange 2 64 n then encodeAtCursor (.int n.toNat cm) s.ports.v false s
  else fault .invalidBitLength s

/-- ENC.FLOAT n (42_codec_encode.md R308). -/
def execEncFloat (n : Byte) (cm : CastMode) (s : State) : Answer :=
  if aFloatWidth n then encodeAtCursor (.float n.toNat cm) s.ports.v false s
  else fault .invalidBitLength s

/-- ENC.VOID n: it has no value, so phases 3 and 4 alone (42_codec_encode.md R309). -/
def execEncVoid (n : Byte) (s : State) : Answer :=
  if aInRange 1 64 n then appendBits n.toNat (wideBits s.cfg.bitOrder 0 n.toNat) s
  else fault .invalidBitLength s

/-- ENC.SARRAY (42_codec_encode.md R310). -/
def execEncSarray (s : State) : Answer :=
  if s.ports.ty.isFixedArray then encodeAtCursor s.ports.ty s.ports.v false s
  else fault .schemaMismatch s

/-- ENC.DARRAY (42_codec_encode.md R311). -/
def execEncDarray (tail : Bool) (s : State) : Answer :=
  if s.ports.ty.isDynamicArray then
    if tail && !taoEligible s.ports.ty then fault .invalidSchema s
    else encodeAtCursor s.ports.ty s.ports.v tail s
  else fault .schemaMismatch s

/-- ENC.UNION (42_codec_encode.md R312). -/
def execEncUnion (s : State) : Answer :=
  if s.ports.ty.isUnion then encodeAtCursor s.ports.ty s.ports.v false s
  else fault .schemaMismatch s

/-- ENC.STRUCT (42_codec_encode.md R313). -/
def execEncStruct (tail : Bool) (s : State) : Answer :=
  if s.ports.ty.isStruct then encodeAtCursor s.ports.ty s.ports.v tail s
  else fault .schemaMismatch s

/-- ENC: a whole payload, from an empty writer; a top-level Struct is in tail position. A fault leaves
the writer as it was (42_codec_encode.md R314). -/
def execEnc (s : State) : Answer :=
  let T := s.ports.ty
  match encodeCheck T s.ports.v with
  | some e => fault e s
  | none =>
    if exceeds s.cfg.wCapBits (encLen T s.ports.v T.isStruct) then fault .writerOverflow s
    else
      let w := pushBits s.cfg.bitOrder .empty (emit s.cfg T s.ports.v T.isStruct)
      ok (.written w.buf w.pos) { s with w := w }

/-- TYPE.BITLEN (42_codec_encode.md R315). -/
def execTypeBitlen (s : State) : Answer :=
  match checkTy s.ports.ty with
  | some e => fault e s
  | none => ok (.bitLengths (minBits s.ports.ty) (maxBits s.ports.ty)) s

/-- TYPE.CHECK: the code of the first failing check is a status and no fault, so SYS keeps its value
(42_codec_encode.md R316). -/
def execTypeCheck (s : State) : Answer :=
  match (if s.ports.vGiven then encodeCheck s.ports.ty s.ports.v else checkTy s.ports.ty) with
  | some e => ret e .none s
  | none => ok .none s

end Sys2Proof.Machine
end

