-- ==== Sys2Proof/Machine/Crc.lean ====
section
/-! DEFINITION. The CRC-16 and CRC-64 functions and the commands of the units C16 and C64 (41_crc.md). -/

namespace Sys2Proof.Machine

/-- One bit of CRC-16: polynomial 0x1021, most significant bit first (41_crc.md R250). -/
def crc16Bit (c : BitVec 16) : BitVec 16 :=
  if c.msb then (c <<< 1) ^^^ 0x1021 else c <<< 1

/-- `Crc16Byte(c, b)` (41_crc.md R250). -/
def crc16Step (c : BitVec 16) (b : Byte) : BitVec 16 :=
  Nat.repeat crc16Bit 8 (c ^^^ (b ++ 0#8))

/-- `Crc16(seed, xs)` (41_crc.md R251). -/
def crc16 (seed : BitVec 16) (xs : List Byte) : BitVec 16 := xs.foldl crc16Step seed

/-- CRC16_INIT (00_scope.md R6). -/
def crc16Seed : BitVec 16 := 0xFFFF

/-- `XferCRC(sig, p)`: the signature's bytes, then the payload (41_crc.md R252). -/
def xferCrc (sig : Signature) (p : List Byte) : BitVec 16 := crc16 crc16Seed (le64 sig ++ p)

/-- `AnonDisc(p)` (44_canid_tail.md R502). -/
def anonDisc (cfg : Config) (p : List Byte) : BitVec 14 :=
  match cfg.anonDisc with
  | .crcLow14 => (crc16 crc16Seed p).setWidth 14
  | .other => Config.otherDisc p

/-- One bit of CRC-64: polynomial 0x42F0E1EBA9EA3693, most significant bit first (41_crc.md R260). -/
def crc64Bit (c : BitVec 64) : BitVec 64 :=
  if c.msb then (c <<< 1) ^^^ 0x42F0E1EBA9EA3693 else c <<< 1

/-- One byte of CRC-64 (41_crc.md R260). -/
def crc64Step (c : BitVec 64) (b : Byte) : BitVec 64 :=
  Nat.repeat crc64Bit 8 (c ^^^ (b ++ 0#56))

/-- CRC64_INIT (00_scope.md R6). -/
def crc64Seed : BitVec 64 := 0xFFFFFFFFFFFFFFFF

/-- CRC16.INIT (41_crc.md R253). -/
def execCrc16Init (s : State) : Answer := ok .none { s with c16 := crc16Seed }

/-- CRC16.BYTE (41_crc.md R254). -/
def execCrc16Byte (s : State) : Answer :=
  if fitsBits 8 s.ports.b then
    ok .none { s with c16 := crc16Step s.c16 (BitVec.ofNat 8 s.ports.b) }
  else fault .invalidArgument s

/-- CRC16.SIG (41_crc.md R255). -/
def execCrc16Sig (s : State) : Answer :=
  if fitsBits 64 s.ports.sig then
    ok .none { s with c16 := crc16 s.c16 (le64 (BitVec.ofNat 64 s.ports.sig)) }
  else fault .invalidArgument s

/-- CRC16.RD (41_crc.md R256). -/
def execCrc16Rd (s : State) : Answer := ok (.crc16 s.c16) s

/-- CRC16.XFER (41_crc.md R257). -/
def execCrc16Xfer (s : State) : Answer :=
  if fitsBits 64 s.ports.sig then
    let c := xferCrc (BitVec.ofNat 64 s.ports.sig) s.ports.payload
    ok (.crc16 c) { s with c16 := c }
  else fault .invalidArgument s

/-- CRC64.INIT (41_crc.md R259). -/
def execCrc64Init (s : State) : Answer := ok .none { s with c64 := crc64Seed }

/-- CRC64.BYTE (41_crc.md R260). -/
def execCrc64Byte (s : State) : Answer :=
  if fitsBits 8 s.ports.b then
    ok .none { s with c64 := crc64Step s.c64 (BitVec.ofNat 8 s.ports.b) }
  else fault .invalidArgument s

/-- CRC64.RD: the accumulator is complemented on the way out and keeps its value (41_crc.md R261). -/
def execCrc64Rd (s : State) : Answer := ok (.crc64 (s.c64 ^^^ 0xFFFFFFFFFFFFFFFF)) s

end Sys2Proof.Machine
end

