-- ==== Sys2Proof/Machine/CanIdCmds.lean ====
section
/-! DEFINITION. The CAN identifier unit: identifiers (30_encoding.md R103 to R109), the arbitration
comparator, the tail byte and transfer-id arithmetic (44_canid_tail.md). Every command of it leaves the
block's state as it is (20_memory.md R87). -/

namespace Sys2Proof.Machine

/-- A message identifier from its fields (30_encoding.md R104): priority 28:24, data type id 23:8, the
service flag 0 at bit 7, source 6:0. -/
def messageId (prio : BitVec 5) (dtid : BitVec 16) (src : NodeId) : CanId :=
  prio ++ dtid ++ 0#1 ++ src

/-- An anonymous identifier (30_encoding.md R105): priority 28:24, discriminator 23:10, the low 2 bits of
the data type id 9:8, the rest 0. -/
def anonymousId (prio : BitVec 5) (disc : BitVec 14) (dtid : BitVec 2) : CanId :=
  prio ++ disc ++ dtid ++ 0#1 ++ 0#7

/-- A service identifier (30_encoding.md R106): priority 28:24, data type id 23:16, the request flag 15,
destination 14:8, the service flag 1 at bit 7, source 6:0. -/
def serviceId (prio : BitVec 5) (dtid : BitVec 8) (request : Bool) (dst src : NodeId) : CanId :=
  prio ++ dtid ++ BitVec.ofBool request ++ dst ++ 1#1 ++ src

/-- The service flag of an identifier (30_encoding.md R103). -/
def idIsService (id : CanId) : Bool := id.getLsbD 7

/-- The source node id field (30_encoding.md R104, R106). -/
def idSource (id : CanId) : NodeId := id.extractLsb' 0 7

/-- An identifier of an anonymous message (30_encoding.md R107). -/
def idIsAnonymous (id : CanId) : Bool := !idIsService id && idSource id == 0

/-- Every field of an identifier, by its kind (44_canid_tail.md R504). -/
def idFields (id : CanId) : IdFields :=
  let prio := id.extractLsb' 24 5
  if idIsService id then
    { prio := prio, kind := if id.getLsbD 15 then .request else .response, anon := false,
      dtid := (id.extractLsb' 16 8).setWidth 16, src := idSource id, dst := id.extractLsb' 8 7, disc := 0 }
  else if idSource id = 0 then
    { prio := prio, kind := .broadcast, anon := true, dtid := (id.extractLsb' 8 2).setWidth 16,
      src := 0, dst := 0, disc := id.extractLsb' 10 14 }
  else
    { prio := prio, kind := .broadcast, anon := false, dtid := id.extractLsb' 8 16,
      src := idSource id, dst := 0, disc := 0 }

/-- `Descriptor(id)`, the key of the reassembler's table (30_encoding.md R109). -/
def descriptor (id : CanId) : Desc :=
  let f := idFields id
  { dtid := f.dtid, kind := f.kind, src := f.src, dst := f.dst }

/-- `tail(sot, eot, tog, tid)` (30_encoding.md R110). -/
def tailByte (sot eot tog : Bool) (tid : TransferId) : Byte :=
  BitVec.ofBool sot ++ BitVec.ofBool eot ++ BitVec.ofBool tog ++ tid

/-- SOT of a tail byte (30_encoding.md R110). -/
def tailSot (b : Byte) : Bool := b.getLsbD 7

/-- EOT of a tail byte (30_encoding.md R110). -/
def tailEot (b : Byte) : Bool := b.getLsbD 6

/-- The toggle of a tail byte (30_encoding.md R110). -/
def tailToggle (b : Byte) : Bool := b.getLsbD 5

/-- The transfer id of a tail byte (30_encoding.md R110). -/
def tailTid (b : Byte) : TransferId := b.extractLsb' 0 5

/-- The forward distance `(tb − ta) mod 32` (44_canid_tail.md R510). -/
def forwardDistance (ta tb : TransferId) : TransferId := tb - ta

/-- TidNext (44_canid_tail.md R511). -/
def tidNext (t : TransferId) : TransferId := t + 1

/-- The effective 11-bit arbitration prefix of a frame (44_canid_tail.md R505). -/
def arbitrationPrefix (f : Frame) : Nat := if f.ext then f.id >>> 18 else f.id

/-- The arbitration order of two frames: −1 where the first wins, 1 where the second does, 0 for a tie
(44_canid_tail.md R506). -/
def arbitrate (fa fb : Frame) : Int :=
  if fa.ext ≠ fb.ext then
    if arbitrationPrefix fa ≠ arbitrationPrefix fb then
      if arbitrationPrefix fa < arbitrationPrefix fb then -1 else 1
    else if fa.ext then 1 else -1
  else if fa.id = fb.id ∧ fa.rtr ≠ fb.rtr then (if fa.rtr then 1 else -1)
  else if fa.id ≠ fb.id then (if fa.id < fb.id then -1 else 1)
  else 0

/-- CANID.MSG (44_canid_tail.md R500). -/
def execCanidMsg (s : State) : Answer :=
  if fitsBits 5 s.ports.prio ∧ fitsBits 16 s.ports.dtid ∧ isNodeId s.ports.src then
    ok (.canId (messageId (BitVec.ofNat 5 s.ports.prio) (BitVec.ofNat 16 s.ports.dtid)
      (BitVec.ofNat 7 s.ports.src))) s
  else fault .invalidArgument s

/-- CANID.ANON (44_canid_tail.md R501). -/
def execCanidAnon (s : State) : Answer :=
  if fitsBits 5 s.ports.prio ∧ fitsBits 16 s.ports.dtid then
    if 7 < s.ports.payload.length then fault .anonymousTooLong s
    else
      ok (.canId (anonymousId (BitVec.ofNat 5 s.ports.prio) (anonDisc s.cfg s.ports.payload)
        (BitVec.ofNat 2 s.ports.dtid))) s
  else fault .invalidArgument s

/-- ANON.DISC (44_canid_tail.md R502). -/
def execAnonDisc (s : State) : Answer := ok (.disc (anonDisc s.cfg s.ports.payload)) s

/-- CANID.SVC (44_canid_tail.md R503). -/
def execCanidSvc (s : State) : Answer :=
  if fitsBits 5 s.ports.prio ∧ fitsBits 8 s.ports.dtid ∧ (s.ports.kind = 1 ∨ s.ports.kind = 2) ∧
      isNodeId s.ports.dst ∧ isNodeId s.ports.src then
    ok (.canId (serviceId (BitVec.ofNat 5 s.ports.prio) (BitVec.ofNat 8 s.ports.dtid)
      (s.ports.kind == 1) (BitVec.ofNat 7 s.ports.dst) (BitVec.ofNat 7 s.ports.src))) s
  else fault .invalidArgument s

/-- CANID.DEC (44_canid_tail.md R504). -/
def execCanidDec (s : State) : Answer :=
  if fitsBits 29 s.ports.id then ok (.idFields (idFields (BitVec.ofNat 29 s.ports.id))) s
  else fault .invalidArgument s

/-- CANID.CMP (44_canid_tail.md R506). -/
def execCanidCmp (s : State) : Answer :=
  if frameWellFormed s.ports.fa ∧ frameWellFormed s.ports.fb then
    ok (.order (arbitrate s.ports.fa s.ports.fb)) s
  else fault .invalidArgument s

/-- TAIL.ENC (44_canid_tail.md R508). -/
def execTailEnc (s : State) : Answer :=
  if fitsBits 1 s.ports.sot ∧ fitsBits 1 s.ports.eot ∧ fitsBits 1 s.ports.tog ∧ fitsBits 5 s.ports.tid then
    ok (.tailByte (tailByte (s.ports.sot == 1) (s.ports.eot == 1) (s.ports.tog == 1)
      (BitVec.ofNat 5 s.ports.tid))) s
  else fault .invalidArgument s

/-- TAIL.DEC (44_canid_tail.md R509). -/
def execTailDec (s : State) : Answer :=
  if fitsBits 8 s.ports.b then
    let b : Byte := BitVec.ofNat 8 s.ports.b
    ok (.tailFields (tailSot b) (tailEot b) (tailToggle b) (tailTid b)) s
  else fault .invalidArgument s

/-- TID.DIST (44_canid_tail.md R510). -/
def execTidDist (s : State) : Answer :=
  if fitsBits 5 s.ports.ta ∧ fitsBits 5 s.ports.tb then
    ok (.distance (forwardDistance (BitVec.ofNat 5 s.ports.ta) (BitVec.ofNat 5 s.ports.tb))) s
  else fault .invalidArgument s

end Sys2Proof.Machine
end

