-- ==== Sys2Proof/Machine/Generator.lean ====
section
/-! DEFINITION. The transfer generator (45_generator.md R600 to R604). -/

namespace Sys2Proof.Machine

/-- `N(L)`, the number of frames of a payload of L bytes (30_encoding.md R114). -/
def frameCount (len : Nat) : Nat := if len < 8 then 1 else ceilDiv (len - 5) 7 + 1

/-- A frame of the generator (30_encoding.md R102). -/
def genFrame (id : CanId) (data : List Byte) : Frame :=
  { id := id.toNat, ext := true, rtr := false, err := false, data := data }

/-- The next frame of the sequence, whether it is the last, and the registers after it; read only while
the sequence is active (45_generator.md R602). -/
def genStep (g : Gen) : Frame × Bool × Gen :=
  if g.multi = false then
    (genFrame g.id (g.payload ++ [tailByte true true false g.tid]), true,
      { g with idx := g.idx + 1, active := false })
  else if g.idx = 0 then
    (genFrame g.id (le16 g.crc ++ slice g.payload 0 5 ++ [tailByte true false false g.tid]), false,
      { g with idx := g.idx + 1, off := 5 })
  else
    let chunk := slice g.payload g.off (min g.payload.length (g.off + 7))
    let last := decide (g.payload.length ≤ g.off + 7)
    (genFrame g.id (chunk ++ [tailByte false last (g.idx % 2 == 1) g.tid]), last,
      { g with idx := g.idx + 1, off := g.off + chunk.length, active := !last })

/-- The registers that GEN.START loads (45_generator.md R600). -/
def genLoad (id : CanId) (tid : TransferId) (sig : Signature) (payload : List Byte) : Gen :=
  let multi := decide (8 ≤ payload.length)
  { active := true, multi := multi, id := id, tid := tid, payload := payload,
    crc := if multi then xferCrc sig payload else 0, off := 0, idx := 0 }

/-- GEN.START (45_generator.md R600). -/
def execGenStart (s : State) : Answer :=
  let p := s.ports
  if fitsBits 29 p.id ∧ fitsBits 5 p.tid ∧ fitsBits 64 p.sig then
    if exceeds s.cfg.genMaxPayload p.payload.length then fault .invalidArgument s
    else if idIsAnonymous (BitVec.ofNat 29 p.id) ∧ 7 < p.payload.length then fault .anonymousTooLong s
    else
      ok (.count (frameCount p.payload.length))
        { s with g := genLoad (BitVec.ofNat 29 p.id) (BitVec.ofNat 5 p.tid) (BitVec.ofNat 64 p.sig) p.payload }
  else fault .invalidArgument s

/-- GEN.NEXT (45_generator.md R602). -/
def execGenNext (s : State) : Answer :=
  if s.g.active then
    let (f, last, g) := genStep s.g
    ok (.genFrame f last) { s with g := g }
  else ret .genDone .none s

/-- GEN.ABORT (45_generator.md R603). -/
def execGenAbort (s : State) : Answer := ok .none { s with g := { s.g with active := false } }

/-- GEN.COUNT (45_generator.md R604). -/
def execGenCount (s : State) : Answer := ok (.count (frameCount s.ports.payload.length)) s

end Sys2Proof.Machine
end

