-- ==== Sys2Proof/Machine/Reassembler.lean ====
section
/-! DEFINITION. The transfer reassembler (46_reassembler.md R700 to R723). -/

namespace Sys2Proof.Machine

/-- T_TIMEOUT in microseconds (00_scope.md R6). -/
def tTimeout : Int := 2000000

/-- T_SWEEP in microseconds (00_scope.md R6). -/
def tSweep : Int := 1000000

/-- `now − t` on integers (10_state.md R45). -/
def elapsed (now t : Time) : Int := (now.toNat : Int) - (t.toNat : Int)

/-- NewRxState(), an entry at creation (10_state.md R39). -/
def newRxState : RxState :=
  { initialized := false, collecting := false, tid := 0, toggle := false, lastTs := 0, buf := [],
    frames := [], crcExpected := 0, signature := 0 }

/-- What the reassembler answers for one frame: status, outputs, and the entry after it. -/
structure RxAnswer where
  status : Status
  out : Output
  entry : RxState
  deriving DecidableEq, Repr

/-- ResetAfter (46_reassembler.md R712). -/
def resetAfter (cfg : Config) (ftid : TransferId) (st : RxState) : RxState :=
  { st with
    tid := tidNext (match cfg.resetTidBase with | .frame => ftid | .stored => st.tid)
    toggle := false, buf := [], frames := [], collecting := false, crcExpected := 0, signature := 0 }

/-- `fail(code)`, a discarded multi-frame error; the report ends with the frame (46_reassembler.md
R712). -/
def rxFail (cfg : Config) (code : Status) (f : Frame) (ftid : TransferId) (st : RxState) : RxAnswer :=
  { status := code
    out := .frames (if f ∈ st.frames then st.frames else st.frames ++ [f])
    entry := resetAfter cfg ftid st }

/-- MissedTransferStart at an entry, which reports the frame alone (46_reassembler.md R706, R708). -/
def rxMissed (cfg : Config) (f : Frame) (ftid : TransferId) (st : RxState) : RxAnswer :=
  { status := .missedTransferStart, out := .frames [f], entry := resetAfter cfg ftid st }

/-- A completed transfer (46_reassembler.md R701, R707, R714). -/
def rxComplete (cfg : Config) (d : Desc) (tid : TransferId) (payload : List Byte) (frames : List Frame)
    (ftid : TransferId) (st : RxState) : RxAnswer :=
  { status := .rxTransfer
    out := .transfer { desc := d, tid := tid, payload := payload, frames := frames }
    entry := resetAfter cfg ftid st }

/-- The restart condition, on the entry before its timestamp is updated (46_reassembler.md R704). -/
def rxRestarts (st : RxState) (now : Time) (sot : Bool) (tid : TransferId) : Bool :=
  !st.initialized || tTimeout < elapsed now st.lastTs ||
    (sot && 1 < (forwardDistance st.tid tid).toNat)

/-- The effects of a restart (46_reassembler.md R706). -/
def rxRestart (tid : TransferId) (st : RxState) : RxState :=
  { st with initialized := true, tid := tid, toggle := false, buf := [], frames := [], collecting := false }

/-- The entry after a start frame of a multi-frame transfer is taken in (46_reassembler.md R711). -/
def rxBegin (f : Frame) (sig : Signature) (st : RxState) : RxState :=
  { st with
    crcExpected := f.data.getD 1 0 ++ f.data.getD 0 0, signature := sig,
    buf := slice f.data 2 (f.data.length - 1), frames := [f], collecting := true }

/-- The entry after a later frame of a multi-frame transfer is taken in (46_reassembler.md R713). -/
def rxExtend (f : Frame) (st : RxState) : RxState :=
  { st with buf := st.buf ++ f.data.dropLast, frames := st.frames ++ [f] }

/-- The end of step 6: the toggle flips; at an end frame the transfer CRC decides (46_reassembler.md
R714, 41_crc.md R258). -/
def rxFinish (cfg : Config) (d : Desc) (f : Frame) (eot : Bool) (ftid : TransferId) (st : RxState) :
    RxAnswer :=
  let st := { st with toggle := !st.toggle }
  if eot then
    if xferCrc st.signature st.buf ≠ st.crcExpected then rxFail cfg .badCrc f ftid st
    else rxComplete cfg d st.tid st.buf st.frames ftid st
  else { status := .rxNone, out := .none, entry := st }

/-- Steps 4 to 7 for a frame that reached the entry `st` of its descriptor, with tail byte `tb`; `sig` is
the predicate's answer, read for a start frame only (46_reassembler.md R704 to R714, R720). -/
def rxApply (cfg : Config) (d : Desc) (f : Frame) (tb : Byte) (now : Time) (sig : Signature) (st : RxState) :
    RxAnswer :=
  let sot := tailSot tb
  let eot := tailEot tb
  let tid := tailTid tb
  let restart := rxRestarts st now sot tid
  let st := { st with lastTs := now }
  let st := if restart then rxRestart tid st else st
  if restart && !sot then rxMissed cfg f tid st
  else if sot && eot then rxComplete cfg d tid f.data.dropLast [f] tid st
  else if !sot && !st.collecting then rxMissed cfg f tid st
  else if tailToggle tb ≠ st.toggle then rxFail cfg .wrongToggle f tid st
  else if tid ≠ st.tid then rxFail cfg .unexpectedTransferId f tid st
  else if sot then
    if f.data.length ≤ 3 then rxFail cfg .shortFrame f tid st
    else rxFinish cfg d f eot tid (rxBegin f sig st)
  else if exceeds cfg.rxMaxPayload (st.buf.length + f.data.length - 1) then
    rxFail cfg .payloadOverflow f tid st
  else rxFinish cfg d f eot tid (rxExtend f st)

/-- A frame the reassembler can take: extended, no RTR, no error, some data (46_reassembler.md R709). -/
def rxCompatible (f : Frame) : Bool := f.ext && !f.rtr && !f.err && !f.data.isEmpty

/-- The machine after a frame reached the entry of its descriptor: the entry and the result port. -/
def rxStore (d : Desc) (asked : Option Desc) (a : RxAnswer) (s : State) : Answer :=
  .next { s with
    rxTable := tablePut d a.entry s.rxTable
    result := some { status := statusCode a.status, out := a.out, asked := asked } }

/-- The end of an RX.FRAME that reached no entry: only the result port changes. -/
def rxNoEntry (st : Status) (out : Output) (asked : Option Desc) (s : State) : Answer :=
  .next { s with result := some { status := statusCode st, out := out, asked := asked } }

/-- Steps 2 and 3 for a start frame: the predicate is asked before the entry is looked up or created
(46_reassembler.md R702, R703). -/
def rxStart (d : Desc) (f : Frame) (tb : Byte) (now : Time) (s : State) : Answer :=
  match s.ports.accept with
  | none => rxNoEntry .rxNone .none (some d) s
  | some sig =>
    match tableGet s.rxTable d with
    | some st => rxStore d (some d) (rxApply s.cfg d f tb now sig st) s
    | none =>
      if s.cfg.rxCap = some s.rxTable.length then rxNoEntry .tableFull (.frames [f]) (some d) s
      else rxStore d (some d) (rxApply s.cfg d f tb now sig newRxState) s

/-- Steps 2 and 3 for a frame that starts nothing (46_reassembler.md R703). -/
def rxContinue (d : Desc) (f : Frame) (tb : Byte) (now : Time) (s : State) : Answer :=
  match tableGet s.rxTable d with
  | some st => rxStore d none (rxApply s.cfg d f tb now 0 st) s
  | none => rxNoEntry .missedTransferStart (.frames [f]) none s

/-- RX.FRAME (46_reassembler.md R720). -/
def execRxFrame (s : State) : Answer :=
  let f := s.ports.frame
  if frameWellFormed f ∧ fitsBits 64 s.ports.now then
    if rxCompatible f then
      let d := descriptor (BitVec.ofNat 29 f.id)
      let tb := f.data.getLastD 0
      let now : Time := BitVec.ofNat 64 s.ports.now
      if tailSot tb then rxStart d f tb now s else rxContinue d f tb now s
    else ret .incompatibleFrame (.frames [f]) s
  else fault .invalidArgument s

/-- The entry is older than T_TIMEOUT (46_reassembler.md R721). -/
def rxStale (now : Time) (st : RxState) : Bool := tTimeout < elapsed now st.lastTs

/-- The sweep is not due yet (46_reassembler.md R721). -/
def sweepEarly (now : Time) (last : Option Time) : Bool :=
  match last with
  | none => false
  | some t => elapsed now t < tSweep

/-- RX.SWEEP (46_reassembler.md R721). -/
def execRxSweep (s : State) : Answer :=
  if fitsBits 64 s.ports.now then
    let now : Time := BitVec.ofNat 64 s.ports.now
    if sweepEarly now s.rxLastSweep then ok (.swept false 0) s
    else
      ok (.swept true (s.rxTable.filter fun e => rxStale now e.2).length)
        { s with rxTable := s.rxTable.filter (fun e => !rxStale now e.2), rxLastSweep := some now }
  else fault .invalidArgument s

/-- RX.CLEAR (46_reassembler.md R722). -/
def execRxClear (s : State) : Answer := ok .none { s with rxTable := [] }

/-- The fields of an entry that RX.LOOKUP copies out (46_reassembler.md R723). -/
def viewOf (st : RxState) : EntryView :=
  { initialized := st.initialized, collecting := st.collecting, tid := st.tid, toggle := st.toggle,
    lastTs := st.lastTs, bufLen := st.buf.length, frameCount := st.frames.length }

/-- RX.LOOKUP (46_reassembler.md R723). -/
def execRxLookup (s : State) : Answer :=
  match descOfPort s.ports.desc with
  | none => fault .invalidArgument s
  | some d => ok (.entry ((tableGet s.rxTable d).map viewOf)) s

end Sys2Proof.Machine
end

