-- ==== Sys2Proof/Machine/System.lean ====
section
/-! DEFINITION. SYS.RESET (70_reset_and_hazards.md R901) and SYS.STATUS (60_exceptions.md R822). -/

namespace Sys2Proof.Machine

/-- The tuple of 10_state.md R30 at its reset values; the parameters, the host's stream, the ports and
the count of draws are no state of the block and stay (70_reset_and_hazards.md R900, R901). -/
def resetBlock (s : State) : State :=
  { s with
    w := { buf := [], pos := 0 }, r := { buf := [], pos := 0 }, c16 := 0xFFFF, c64 := 0xFFFFFFFFFFFFFFFF,
    g := { active := false, multi := false, id := 0, tid := 0, payload := [], crc := 0, off := 0, idx := 0 },
    rxTable := [], rxLastSweep := none, sys := { fault := false, faultCode := 0 } }

/-- SYS.RESET (70_reset_and_hazards.md R901). -/
def execSysReset (s : State) : Answer := ok .none (resetBlock s)

/-- SYS.STATUS (60_exceptions.md R822). -/
def execSysStatus (s : State) : Answer := ok (.sysStatus s.sys.fault s.sys.faultCode) s

end Sys2Proof.Machine
end

