-- ==== Sys2Proof/Machine/Dispatch.lean ====
section
/-! DEFINITION. The dispatcher: one arm per command, each a call of the command's meaning. -/

namespace Sys2Proof.Machine

def exec (i : Instr) (s : State) : Host.Outcome State Fault Refusal :=
  match i with
  | .bswClr => Sys2Proof.Machine.execBswClr s
  | .bswPut n => Sys2Proof.Machine.execBswPut n s
  | .bswPutw n => Sys2Proof.Machine.execBswPutw n s
  | .bswBytes => Sys2Proof.Machine.execBswBytes s
  | .bsrLoad => Sys2Proof.Machine.execBsrLoad s
  | .bsrGet n => Sys2Proof.Machine.execBsrGet n s
  | .bsrGetw n => Sys2Proof.Machine.execBsrGetw n s
  | .bsrRem => Sys2Proof.Machine.execBsrRem s
  | .crc16Init => Sys2Proof.Machine.execCrc16Init s
  | .crc16Byte => Sys2Proof.Machine.execCrc16Byte s
  | .crc16Sig => Sys2Proof.Machine.execCrc16Sig s
  | .crc16Rd => Sys2Proof.Machine.execCrc16Rd s
  | .crc16Xfer => Sys2Proof.Machine.execCrc16Xfer s
  | .crc64Init => Sys2Proof.Machine.execCrc64Init s
  | .crc64Byte => Sys2Proof.Machine.execCrc64Byte s
  | .crc64Rd => Sys2Proof.Machine.execCrc64Rd s
  | .encBool => Sys2Proof.Machine.execEncBool s
  | .encUint n cm => Sys2Proof.Machine.execEncUint n cm s
  | .encInt n cm => Sys2Proof.Machine.execEncInt n cm s
  | .encFloat n cm => Sys2Proof.Machine.execEncFloat n cm s
  | .encVoid n => Sys2Proof.Machine.execEncVoid n s
  | .encSarray => Sys2Proof.Machine.execEncSarray s
  | .encDarray tail => Sys2Proof.Machine.execEncDarray tail s
  | .encUnion => Sys2Proof.Machine.execEncUnion s
  | .encStruct tail => Sys2Proof.Machine.execEncStruct tail s
  | .enc => Sys2Proof.Machine.execEnc s
  | .typeBitlen => Sys2Proof.Machine.execTypeBitlen s
  | .typeCheck => Sys2Proof.Machine.execTypeCheck s
  | .decBool => Sys2Proof.Machine.execDecBool s
  | .decUint n => Sys2Proof.Machine.execDecUint n s
  | .decInt n => Sys2Proof.Machine.execDecInt n s
  | .decFloat n => Sys2Proof.Machine.execDecFloat n s
  | .decVoid n => Sys2Proof.Machine.execDecVoid n s
  | .decSarray => Sys2Proof.Machine.execDecSarray s
  | .decDarray tail => Sys2Proof.Machine.execDecDarray tail s
  | .decUnion => Sys2Proof.Machine.execDecUnion s
  | .decStruct tail => Sys2Proof.Machine.execDecStruct tail s
  | .dec => Sys2Proof.Machine.execDec s
  | .canidMsg => Sys2Proof.Machine.execCanidMsg s
  | .canidAnon => Sys2Proof.Machine.execCanidAnon s
  | .canidSvc => Sys2Proof.Machine.execCanidSvc s
  | .canidDec => Sys2Proof.Machine.execCanidDec s
  | .canidCmp => Sys2Proof.Machine.execCanidCmp s
  | .tailEnc => Sys2Proof.Machine.execTailEnc s
  | .tailDec => Sys2Proof.Machine.execTailDec s
  | .tidDist => Sys2Proof.Machine.execTidDist s
  | .anonDisc => Sys2Proof.Machine.execAnonDisc s
  | .genStart => Sys2Proof.Machine.execGenStart s
  | .genNext => Sys2Proof.Machine.execGenNext s
  | .genAbort => Sys2Proof.Machine.execGenAbort s
  | .genCount => Sys2Proof.Machine.execGenCount s
  | .rxFrame => Sys2Proof.Machine.execRxFrame s
  | .rxSweep => Sys2Proof.Machine.execRxSweep s
  | .rxClear => Sys2Proof.Machine.execRxClear s
  | .rxLookup => Sys2Proof.Machine.execRxLookup s
  | .sysReset => Sys2Proof.Machine.execSysReset s
  | .sysStatus => Sys2Proof.Machine.execSysStatus s

end Sys2Proof.Machine
end

