-- ==== Sys2Proof/Machine/Step.lean ====
section
/-! DEFINITION. One step of the machine: the next command of the host's stream is delivered and performed
as one atomic transition (00_scope.md R13). -/

namespace Sys2Proof.Machine

/-- One step: no command, no change; else the word is decoded, and its command performed or its fault
taken (30_encoding.md R154). -/
def step (s : State) : Host.Outcome State Fault Refusal :=
  match nextCommand s with
  | none => noCommand s
  | some (w, s') =>
    match decode w with
    | .ok i => exec i s'
    | .error e => illegalWord e s'

/-- The machine with the word `w` standing first on the command port (assumption 2). A command that stands
there gives way to it and keeps its operands; where the host's stream is empty the word comes with the
operands on the port latches. -/
def State.withFetchWord (s : State) (nbits w : Nat) : State :=
  let word : CmdWord := BitVec.ofNat 32 (w % 2 ^ nbits)
  match s.cmds with
  | [] => { s with cmds := [{ word := word, ports := s.ports }] }
  | c :: rest => { s with cmds := { c with word := word } :: rest }

end Sys2Proof.Machine
end

