-- ==== Sys2Proof/Machine/Assembler.lean ====
section
/-! DEFINITION. The assembler's names of the commands and their word fields (30_encoding.md R155) and the
pseudo-instructions (R156), each as the commands it expands to. -/

namespace Sys2Proof.Machine

/-- The mnemonic of a command (30_encoding.md R153). -/
def mnemonic : Instr → String
  | .bswClr => "BSW.CLR"
  | .bswPut _ => "BSW.PUT"
  | .bswPutw _ => "BSW.PUTW"
  | .bswBytes => "BSW.BYTES"
  | .bsrLoad => "BSR.LOAD"
  | .bsrGet _ => "BSR.GET"
  | .bsrGetw _ => "BSR.GETW"
  | .bsrRem => "BSR.REM"
  | .crc16Init => "CRC16.INIT"
  | .crc16Byte => "CRC16.BYTE"
  | .crc16Sig => "CRC16.SIG"
  | .crc16Rd => "CRC16.RD"
  | .crc16Xfer => "CRC16.XFER"
  | .crc64Init => "CRC64.INIT"
  | .crc64Byte => "CRC64.BYTE"
  | .crc64Rd => "CRC64.RD"
  | .encBool => "ENC.BOOL"
  | .encUint _ _ => "ENC.UINT"
  | .encInt _ _ => "ENC.INT"
  | .encFloat _ _ => "ENC.FLOAT"
  | .encVoid _ => "ENC.VOID"
  | .encSarray => "ENC.SARRAY"
  | .encDarray _ => "ENC.DARRAY"
  | .encUnion => "ENC.UNION"
  | .encStruct _ => "ENC.STRUCT"
  | .enc => "ENC"
  | .typeBitlen => "TYPE.BITLEN"
  | .typeCheck => "TYPE.CHECK"
  | .decBool => "DEC.BOOL"
  | .decUint _ => "DEC.UINT"
  | .decInt _ => "DEC.INT"
  | .decFloat _ => "DEC.FLOAT"
  | .decVoid _ => "DEC.VOID"
  | .decSarray => "DEC.SARRAY"
  | .decDarray _ => "DEC.DARRAY"
  | .decUnion => "DEC.UNION"
  | .decStruct _ => "DEC.STRUCT"
  | .dec => "DEC"
  | .canidMsg => "CANID.MSG"
  | .canidAnon => "CANID.ANON"
  | .canidSvc => "CANID.SVC"
  | .canidDec => "CANID.DEC"
  | .canidCmp => "CANID.CMP"
  | .tailEnc => "TAIL.ENC"
  | .tailDec => "TAIL.DEC"
  | .tidDist => "TID.DIST"
  | .anonDisc => "ANON.DISC"
  | .genStart => "GEN.START"
  | .genNext => "GEN.NEXT"
  | .genAbort => "GEN.ABORT"
  | .genCount => "GEN.COUNT"
  | .rxFrame => "RX.FRAME"
  | .rxSweep => "RX.SWEEP"
  | .rxClear => "RX.CLEAR"
  | .rxLookup => "RX.LOOKUP"
  | .sysReset => "SYS.RESET"
  | .sysStatus => "SYS.STATUS"

/-- Field A as the assembler writes it, where the command uses it (30_encoding.md R155). -/
def asmWidth : Instr → String
  | .bswPut n | .bswPutw n | .bsrGet n | .bsrGetw n | .encUint n _ | .encInt n _ | .encFloat n _
  | .encVoid n | .decUint n | .decInt n | .decFloat n | .decVoid n => " " ++ toString n.toNat
  | _ => ""

/-- The flags of field B as the assembler writes them (30_encoding.md R155). -/
def asmFlags : Instr → String
  | .encUint _ cm | .encInt _ cm | .encFloat _ cm =>
    match cm with
    | .saturated => ", sat"
    | .truncated => ", trunc"
  | .encDarray t | .encStruct t | .decDarray t | .decStruct t => if t then " tail" else ""
  | _ => ""

/-- The assembler text of a command's word (30_encoding.md R155). -/
def asmText (i : Instr) : String := mnemonic i ++ asmWidth i ++ asmFlags i

/-- A command of the stream, from its instruction and its operands. -/
def command (i : Instr) (p : Ports) : Command := { word := encode i, ports := p }

/-- `BSW.PUTB` (30_encoding.md R156). -/
def pseudoPutb (p : Ports) : List Command := [command (.bswPut 8) p]

/-- `BSR.GETB` (30_encoding.md R156). -/
def pseudoGetb (p : Ports) : List Command := [command (.bsrGet 8) p]

/-- `CRC16.BLOCK` (30_encoding.md R156). -/
def pseudoCrc16Block (p : Ports) : List Command :=
  p.bytes.map fun b => command .crc16Byte { p with b := b.toNat }

/-- `CRC64.BLOCK` (30_encoding.md R156). -/
def pseudoCrc64Block (p : Ports) : List Command :=
  p.bytes.map fun b => command .crc64Byte { p with b := b.toNat }

/-- `GEN.ALL`: the host's loop issues GEN.NEXT until GEN_DONE, once for every frame and once more
(30_encoding.md R156, 45_generator.md R605). -/
def pseudoGenAll (p : Ports) : List Command :=
  command .genStart p :: List.replicate (frameCount p.payload.length + 1) (command .genNext p)

end Sys2Proof.Machine
end

