-- ==== Sys2Proof/Safety.lean ====
section
/-! DEFINITION. The terms the claims use: how a command ends, the invariant of the block's state, the
layouts of the spec in closed form, and the run of a list of commands. -/

namespace Sys2Proof.Machine

/-! ### How a command ends -/

/-- The result port of a command that ends with this code and these outputs and asked nothing. -/
def endsWith (code : BitVec 8) (out : Output) : Option Result :=
  some { status := code, out := out, asked := none }

/-- The machine after a precondition fault (60_exceptions.md R810): the first code since reset stays, the
flag is set, the status is the code, nothing else changes. -/
def faulted (code : BitVec 8) (s : State) : State :=
  { s with
    sys := { fault := true, faultCode := if s.sys.fault then s.sys.faultCode else code }
    result := endsWith code .none }

/-- The codes of 60_exceptions.md R801. -/
def listedCodes : List (BitVec 8) :=
  [0x00, 0x01, 0x02, 0x03, 0x10, 0x11, 0x12, 0x13, 0x14, 0x15, 0x16, 0x17, 0x20, 0x21, 0x22,
   0x30, 0x31, 0x32, 0x33, 0x34, 0x35, 0x36, 0x37]

/-- The part of the block's state a command may write, SYS apart, which a fault of any command writes. -/
inductive Part where
  | writer
  | reader
  | crc16
  | crc64
  | generator
  | table
  | whole
  | nothing
  deriving DecidableEq, Repr

/-- The part each command may write (10_state.md R33 to R40, 20_memory.md R80, R87). -/
def partOf : Instr → Part
  | .bswClr | .bswPut _ | .bswPutw _ => .writer
  | .encBool | .encUint _ _ | .encInt _ _ | .encFloat _ _ | .encVoid _ => .writer
  | .encSarray | .encDarray _ | .encUnion | .encStruct _ | .enc => .writer
  | .bsrLoad | .bsrGet _ | .bsrGetw _ => .reader
  | .decBool | .decUint _ | .decInt _ | .decFloat _ | .decVoid _ => .reader
  | .decSarray | .decDarray _ | .decUnion | .decStruct _ | .dec => .reader
  | .crc16Init | .crc16Byte | .crc16Sig | .crc16Xfer => .crc16
  | .crc64Init | .crc64Byte => .crc64
  | .genStart | .genNext | .genAbort => .generator
  | .rxFrame | .rxSweep | .rxClear => .table
  | .sysReset => .whole
  | .bswBytes | .bsrRem | .crc16Rd | .crc64Rd | .typeBitlen | .typeCheck => .nothing
  | .canidMsg | .canidAnon | .canidSvc | .canidDec | .canidCmp => .nothing
  | .tailEnc | .tailDec | .tidDist | .anonDisc | .genCount | .rxLookup | .sysStatus => .nothing

/-! ### The invariant -/

/-- The invariant of the writer (10_state.md R33). -/
abbrev writerInv (cfg : Config) (w : Writer) : Prop :=
  w.buf.length = (w.pos + 7) / 8 ∧
  (∀ p < 8 * w.buf.length, w.pos ≤ p → readBit cfg.bitOrder w.buf p = false) ∧
  (∀ c ∈ cfg.wCapBits, w.pos ≤ c)

/-- The invariant of the reader (10_state.md R34). -/
abbrev readerInv (r : Reader) : Prop := r.pos ≤ 8 * r.buf.length

/-- The invariant of the generator: an active sequence has a frame left to give, and its cursor stands
where the frames given so far leave it (45_generator.md R601, R602). -/
abbrev genInv (g : Gen) : Prop :=
  g.active = true →
    (g.multi = false → g.payload.length < 8 ∧ g.idx = 0) ∧
    (g.multi = true → 8 ≤ g.payload.length ∧
      g.off = (if g.idx = 0 then 0 else 5 + 7 * (g.idx - 1)) ∧ g.off < g.payload.length)

/-- The invariant of one entry between commands: it has been restarted once; idle, it holds nothing of a
transfer; collecting, the CRC it expects and the payload so far are what its frames carry before their
tail bytes (46_reassembler.md R706, R711 to R714). -/
abbrev entryInv (cfg : Config) (st : RxState) : Prop :=
  st.initialized = true ∧
  (st.collecting = false →
    st.toggle = false ∧ st.buf = [] ∧ st.frames = [] ∧ st.crcExpected = 0 ∧ st.signature = 0) ∧
  (st.collecting = true →
    (st.frames.map (·.data.dropLast)).flatten = le16 st.crcExpected ++ st.buf) ∧
  (∀ m ∈ cfg.rxMaxPayload, st.buf.length ≤ m)

/-- The invariant of the table: canonical form, at most RX_CAP entries, and every entry's own
(10_state.md R38). -/
abbrev tableInv (cfg : Config) (t : RxTable) : Prop :=
  tableWf t ∧ (∀ c ∈ cfg.rxCap, t.length ≤ c) ∧ ∀ e ∈ t, entryInv cfg e.2

/-- The invariant of SYS: the code is 0 while no fault is recorded, and a fault's code after that
(10_state.md R41). -/
abbrev sysInv (y : Sys) : Prop :=
  (y.fault = false → y.faultCode = 0) ∧ (y.fault = true → 0x30 ≤ y.faultCode ∧ y.faultCode ≤ 0x37)

/-- The invariant of the machine between commands. -/
abbrev Inv (s : State) : Prop :=
  s.cfg.wf ∧ writerInv s.cfg s.w ∧ readerInv s.r ∧ genInv s.g ∧ tableInv s.cfg s.rxTable ∧ sysInv s.sys

/-! ### Command words, from the bit positions of 30_encoding.md R150 -/

/-- The opcodes of 30_encoding.md R153. -/
def opcodes : List Nat :=
  [0x01, 0x02, 0x03, 0x04, 0x05, 0x06, 0x07, 0x08, 0x10, 0x11, 0x12, 0x13, 0x14, 0x18, 0x19, 0x1A] ++
  [0x20, 0x21, 0x22, 0x23, 0x24, 0x25, 0x26, 0x27, 0x28, 0x29, 0x2A, 0x2B] ++
  [0x30, 0x31, 0x32, 0x33, 0x34, 0x35, 0x36, 0x37, 0x38, 0x39] ++
  [0x40, 0x41, 0x42, 0x43, 0x44, 0x45, 0x46, 0x47, 0x48, 0x50, 0x51, 0x52, 0x53] ++
  [0x60, 0x61, 0x62, 0x63, 0x70, 0x71]

/-- The opcodes of the commands that use the cast mode (30_encoding.md R153, column B). -/
def castOpcodes : List Nat := [0x21, 0x22, 0x23]

/-- The opcodes of the commands that use the tail flag (30_encoding.md R153, column B). -/
def tailOpcodes : List Nat := [0x26, 0x28, 0x36, 0x38]

/-- The widths field A may hold, for the opcodes that use it (30_encoding.md R153, column A). -/
def widthsOf : Nat → Option (List Nat)
  | 0x02 | 0x06 => some (List.range' 1 8)
  | 0x03 | 0x07 | 0x24 | 0x34 => some (List.range' 1 64)
  | 0x21 | 0x22 | 0x31 | 0x32 => some (List.range' 2 63)
  | 0x23 | 0x33 => some [16, 32, 64]
  | _ => none

/-- The fault of a word by 30_encoding.md R154, in the order of its items; `none` for a legal word. -/
def wordFault (w : Nat) : Option (BitVec 8) :=
  let op := w % 256
  let a := w / 256 % 256
  let b := w / 65536 % 256
  if op ∉ opcodes then some 0x37
  else if w / 16777216 ≠ 0 then some 0x37
  else if b / 4 ≠ 0 ∨ (b % 2 = 1 ∧ op ∉ castOpcodes) ∨ (b / 2 % 2 = 1 ∧ op ∉ tailOpcodes) then some 0x37
  else
    match widthsOf op with
    | none => if a ≠ 0 then some 0x37 else none
    | some ws => if a ∉ ws then some 0x30 else none

/-- The word of the fields OP, A and B, with field C = 0 (30_encoding.md R150). -/
def wordOf (op a b : Nat) : Nat := b * 2 ^ 16 + a * 2 ^ 8 + op

/-! ### Bits of a stream -/

/-- The bit of an n-bit value that stands at offset `i` of its place in the stream (20_memory.md R83). -/
def fieldIndex (o : BitOrder) (n i : Nat) : Nat :=
  match o with
  | .lsbFirst => i
  | .msbFirst => 8 * (i / 8) + (min 8 (n - 8 * (i / 8)) - 1 - i % 8)

/-- The n bits of a value in stream order (20_memory.md R83). -/
def fieldBits (o : BitOrder) (n v : Nat) : List Bool :=
  (List.range n).map fun i => v.testBit (fieldIndex o n i)

/-- `w'` is the writer `w` with these bits appended and its last byte filled with zeros. -/
def Appended (o : BitOrder) (w w' : Writer) (bits : List Bool) : Prop :=
  w'.pos = w.pos + bits.length ∧ w'.buf.length = (w'.pos + 7) / 8 ∧
  ∀ p, readBit o w'.buf p = if p < w.pos then readBit o w.buf p else bits.getD (p - w.pos) false

/-- The reader holds these bits at its cursor. -/
def Holds (o : BitOrder) (r : Reader) (bits : List Bool) : Prop :=
  r.pos + bits.length ≤ 8 * r.buf.length ∧
  ∀ i < bits.length, readBit o r.buf (r.pos + i) = bits.getD i false

/-- The reader ends within these bits: what it has left agrees with their beginning. -/
def CutShort (o : BitOrder) (r : Reader) (bits : List Bool) : Prop :=
  8 * r.buf.length < r.pos + bits.length ∧
  ∀ i, r.pos + i < 8 * r.buf.length → readBit o r.buf (r.pos + i) = bits.getD i false

/-! ### CRC by numbers -/

/-- `Crc16Byte(c, b)` of 41_crc.md R250, on natural numbers. -/
def crc16ByteNat (c b : Nat) : Nat :=
  Nat.repeat (fun c => if 2 ^ 15 ≤ c then (2 * c ^^^ 0x1021) % 2 ^ 16 else 2 * c % 2 ^ 16) 8 (c ^^^ 256 * b)

/-- `Crc16(seed, xs)` of 41_crc.md R251, on natural numbers. -/
def crc16Nat (seed : Nat) (xs : List Nat) : Nat := xs.foldl crc16ByteNat seed

/-- One byte of CRC-64, 41_crc.md R260, on natural numbers. -/
def crc64ByteNat (c b : Nat) : Nat :=
  Nat.repeat (fun c => if 2 ^ 63 ≤ c then (2 * c ^^^ 0x42F0E1EBA9EA3693) % 2 ^ 64 else 2 * c % 2 ^ 64) 8
    (c ^^^ 2 ^ 56 * b)

/-- `le64(v)` of 00_scope.md R11, on natural numbers. -/
def le64Nat (v : Nat) : List Nat := (List.range 8).map fun i => v / 256 ^ i % 256

/-! ### Values and descriptors -/

/-- The magnitude of a finite pattern (30_encoding.md R128). -/
def magnitudeOf (f : FloatFormat) (u : Nat) : ℚ :=
  if f.expOf u = 0 then f.fracOf u * 2 ^ (1 - (f.bias : Int) - f.fracBits)
  else (2 ^ f.fracBits + f.fracOf u) * 2 ^ ((f.expOf u : Int) - f.bias - f.fracBits)

/-- MAX16 and MAX32, the largest finite values (42_codec_encode.md R304). -/
def maxFinite (n : Nat) : ℚ := if n = 16 then 65504 else (2 - 2 ^ (-23 : Int)) * 2 ^ 127

/-- What a float cast of mode `cm` to `n` bits hands to CVTn for the operand `x`: in Saturated mode a finite
operand beyond MAXn becomes MAXn with the operand's sign, every other operand stays (42_codec_encode.md
R304). -/
def ClampedTo (n : Nat) (cm : CastMode) (x y : BitVec 64) : Prop :=
  if cm = .saturated ∧ binary64.isFinite x.toNat = true ∧ maxFinite n < magnitudeOf binary64 x.toNat then
    binary64.isFinite y.toNat = true ∧ binary64.signOf y.toNat = binary64.signOf x.toNat ∧
      magnitudeOf binary64 y.toNat = maxFinite n
  else y = x

/-- The binary64 pattern `x` has the value of the pattern `u` of the format `f`, which is no NaN: the same
sign, and the same magnitude or infinity (43_codec_decode.md R406). -/
def SameValue (f : FloatFormat) (u x : Nat) : Prop :=
  binary64.isNan x = false ∧ binary64.signOf x = f.signOf u ∧ binary64.isFinite x = f.isFinite u ∧
  (f.isFinite u = true → magnitudeOf binary64 x = magnitudeOf f u)

/-- A float of `n` bits is converted by the default rule (00_scope.md R7). -/
def convertsByIeee (cfg : Config) (n : Nat) : Prop := (n = 16 → cfg.cvt16 = .ieee) ∧ (n = 32 → cfg.cvt32 = .ieee)

/-- A binary64 pattern that is exactly a value of the n-bit format. -/
def representable (n : Nat) (x : BitVec 64) : Prop :=
  n ≠ 64 → ∃ u, u < 2 ^ n ∧ (narrowFormat n).isNan u = false ∧ x.toNat = widenExact (narrowFormat n) u

/-- A binary64 pattern that is no NaN and exactly a value of the n-bit format, which the block converts by
the default rule (43_codec_decode.md R416). -/
def floatFits (cfg : Config) (n : Nat) (x : BitVec 64) : Prop :=
  binary64.isNan x.toNat = false ∧ convertsByIeee cfg n ∧ representable n x

/-- The same, or a NaN, which comes back as some NaN (43_codec_decode.md R406, R416). -/
def floatReadable (cfg : Config) (n : Nat) (x : BitVec 64) : Prop :=
  convertsByIeee cfg n ∧ (binary64.isNan x.toNat = true ∨ representable n x)

mutual

/-- Every integer leaf is in its type's range and every float leaf, of its width, meets `ok`
(43_codec_decode.md R416). -/
def leavesMeet (ok : Nat → BitVec 64 → Prop) : Ty → Val → Prop
  | .uint n _, .int i => 0 ≤ i ∧ i < 2 ^ n
  | .int n _, .int i => -(2 ^ (n - 1)) ≤ i ∧ i < 2 ^ (n - 1)
  | .float n _, .float x => ok n x
  | .array e _ _, .array vs => ∀ v ∈ vs.toList, leavesMeet ok e v
  | .struct fs, .record es => leavesMeetFields ok fs es
  | .union fs, .union idx v => leavesMeetMember ok fs idx v
  | _, _ => True

/-- The same for the fields of a Struct. -/
def leavesMeetFields (ok : Nat → BitVec 64 → Prop) : Fields → Entries → Prop
  | .nil, _ => True
  | .cons name t rest, es => (∀ v ∈ es.get? name, leavesMeet ok t v) ∧ leavesMeetFields ok rest es

/-- The same for the member of a Union. -/
def leavesMeetMember (ok : Nat → BitVec 64 → Prop) : Fields → Nat → Val → Prop
  | .nil, _, _ => True
  | .cons _ t _, 0, v => leavesMeet ok t v
  | .cons _ _ rest, k + 1, v => leavesMeetMember ok rest k v

end

/-- Every integer leaf is in its type's range and every float leaf is exactly representable and no NaN
(43_codec_decode.md R416). -/
abbrev leavesFit (cfg : Config) (T : Ty) (v : Val) : Prop := leavesMeet (floatFits cfg) T v

/-- The same, NaN leaves admitted. -/
abbrev leavesReadable (cfg : Config) (T : Ty) (v : Val) : Prop := leavesMeet (floatReadable cfg) T v

mutual

/-- The value with the entries of every record in declaration order, the order in which a decode gives
them (43_codec_decode.md R400, R416). -/
def declOrder : Ty → Val → Val
  | .array e _ _, .array vs => .array (Vals.ofList (vs.toList.map fun v => declOrder e v))
  | .struct fs, .record es => .record (Entries.ofList (declOrderFields fs es))
  | .union fs, .union idx v => .union idx (declOrderMember fs idx v)
  | _, v => v

/-- The entries of the fields that are not Void, in declaration order. -/
def declOrderFields : Fields → Entries → List (String × Val)
  | .nil, _ => []
  | .cons name t rest, es =>
    (if t.isVoid then [] else ((es.get? name).map fun v => (name, declOrder t v)).toList) ++
      declOrderFields rest es

/-- The member of a union. -/
def declOrderMember : Fields → Nat → Val → Val
  | .nil, _, v => v
  | .cons _ t _, 0, v => declOrder t v
  | .cons _ _ rest, k + 1, v => declOrderMember rest k v

end

mutual

/-- `w` is `v` as a decode gives it back: the entries of every record in declaration order, each NaN of 16 or
32 bits some NaN, all else the same (43_codec_decode.md R400, R406, R416). -/
def readsAs : Ty → Val → Val → Prop
  | .float n _, .float x, w =>
    ∃ y, w = .float y ∧ (y = x ∨ n ≠ 64 ∧ binary64.isNan x.toNat = true ∧ binary64.isNan y.toNat = true)
  | .array e _ _, .array vs, w =>
    ∃ ws, w = .array (Vals.ofList ws) ∧ List.Forall₂ (fun v w => readsAs e v w) vs.toList ws
  | .struct fs, .record es, w => ∃ out, w = .record (Entries.ofList out) ∧ readsAsFields fs es out
  | .union fs, .union idx v, w => ∃ x, w = .union idx x ∧ readsAsMember fs idx v x
  | _, v, w => w = v

/-- The same for the fields of a Struct that are not Void, in declaration order. -/
def readsAsFields : Fields → Entries → List (String × Val) → Prop
  | .nil, _, out => out = []
  | .cons name t rest, es, out =>
    if t.isVoid then readsAsFields rest es out
    else ∃ v w out', es.get? name = some v ∧ out = (name, w) :: out' ∧ readsAs t v w ∧ readsAsFields rest es out'

/-- The same for the member of a Union. -/
def readsAsMember : Fields → Nat → Val → Val → Prop
  | .nil, _, _, _ => False
  | .cons _ t _, 0, v, w => readsAs t v w
  | .cons _ _ rest, k + 1, v, w => readsAsMember rest k v w

end

mutual

/-- The descriptor holds no dynamic array and no union (42_codec_encode.md R301). -/
def fixedLength : Ty → Bool
  | .array e .fixed _ => fixedLength e
  | .array _ .dynamic _ => false
  | .struct fs => fixedLengthFields fs
  | .union _ => false
  | .void _ | .bool | .uint _ _ | .int _ _ | .float _ _ => true

/-- The same for every field. -/
def fixedLengthFields : Fields → Bool
  | .nil => true
  | .cons _ t rest => fixedLength t && fixedLengthFields rest

end

mutual

/-- The prefix width that a TAO-form array saves, with tail flag `t` (42_codec_encode.md R301, R320). -/
def taoSaved : Ty → Bool → Nat
  | .array e mode m, t => if t && taoEligible (.array e mode m) then bitlen m else 0
  | .struct fs, t => taoSavedFields fs t
  | .void _, _ | .bool, _ | .uint _ _, _ | .int _ _, _ | .float _ _, _ | .union _, _ => 0

/-- The same for the final field of a Struct. -/
def taoSavedFields : Fields → Bool → Nat
  | .nil, _ => 0
  | .cons _ t .nil, tail => taoSaved t tail
  | .cons _ _ rest, tail => taoSavedFields rest tail

end

mutual

/-- With tail flag `t`, the width of an element of the TAO-form array that ends the value, where that array
has fewer elements than it may: so many bits after it would be read as one more (43_codec_decode.md
R410). -/
def tailRoom : Ty → Val → Bool → Option Nat
  | .array e .dynamic m, .array vs, t =>
    if t = true ∧ taoEligible (.array e .dynamic m) = true ∧ vs.toList.length < m then some e.width else none
  | .struct fs, .record es, t => tailRoomFields fs es t
  | _, _, _ => none

/-- The same for the final field of a Struct. -/
def tailRoomFields : Fields → Entries → Bool → Option Nat
  | .nil, _, _ => none
  | .cons name t .nil, es, tail => (es.get? name).bind fun v => tailRoom t v tail
  | .cons _ _ rest, es, tail => tailRoomFields rest es tail

end

/-! ### Validity and conformance, node by node -/

mutual

/-- The nodes of a descriptor in pre-order, fields in declaration order (30_encoding.md R131). -/
def nodes : Ty → List Ty
  | .void n => [.void n]
  | .bool => [.bool]
  | .uint n cm => [.uint n cm]
  | .int n cm => [.int n cm]
  | .float n cm => [.float n cm]
  | .array e mode m => .array e mode m :: nodes e
  | .struct fs => .struct fs :: nodesOfFields fs
  | .union fs => .union fs :: nodesOfFields fs

/-- The nodes of the fields' descriptors. -/
def nodesOfFields : Fields → List Ty
  | .nil => []
  | .cons _ t rest => nodes t ++ nodesOfFields rest

end

/-- No two fields that are not Void have one name (30_encoding.md R131 item 5). -/
abbrev namesDiffer (fs : Fields) : Prop :=
  fs.toList.Pairwise fun a b => a.2.isVoid = true ∨ b.2.isVoid = true ∨ a.1 ≠ b.1

/-- The code of the check of 30_encoding.md R131 that a node by itself fails, items 1 to 5. -/
def nodeFault : Ty → Option (BitVec 8)
  | .void n => if 1 ≤ n ∧ n ≤ 64 then none else some 0x30
  | .bool => none
  | .uint n _ => if 2 ≤ n ∧ n ≤ 64 then none else some 0x30
  | .int n _ => if 2 ≤ n ∧ n ≤ 64 then none else some 0x30
  | .float n _ => if n ∈ [16, 32, 64] then none else some 0x30
  | .array e _ m => if e.isArray = true ∨ e.isVoid = true ∨ 2 ^ 64 ≤ m then some 0x33 else none
  | .struct fs => if namesDiffer fs then none else some 0x33
  | .union fs =>
    if 2 ≤ fs.toList.length ∧ (∀ f ∈ fs.toList, f.2.isVoid = false) ∧ namesDiffer fs then none else some 0x33

mutual

/-- The pairs of a descriptor's node and the value that stands there, in encode order (30_encoding.md R141,
42_codec_encode.md R300). -/
def places : Ty → Val → List (Ty × Val)
  | .array e mode m, .array vs => (.array e mode m, .array vs) :: vs.toList.flatMap fun v => places e v
  | .struct fs, .record es => (.struct fs, .record es) :: placesOfFields fs es
  | .union fs, .union idx v => (.union fs, .union idx v) :: placesOfMember fs idx v
  | T, v => [(T, v)]

/-- The pairs of the fields that are not Void. -/
def placesOfFields : Fields → Entries → List (Ty × Val)
  | .nil, _ => []
  | .cons name t rest, es =>
    (if t.isVoid then [] else ((es.get? name).map fun v => places t v).getD []) ++ placesOfFields rest es

/-- The pairs of the active member. -/
def placesOfMember : Fields → Nat → Val → List (Ty × Val)
  | .nil, _, _ => []
  | .cons _ t _, 0, v => places t v
  | .cons _ _ rest, k + 1, v => placesOfMember rest k v

end

/-- Every field that is not Void has an entry (30_encoding.md R141). -/
abbrev noneMissing (fs : Fields) (es : Entries) : Prop :=
  ∀ f ∈ fs.toList, f.2.isVoid = false → ∃ e ∈ es.toList, e.1 = f.1

/-- Every entry is of a field that is not Void, and no name has two entries (30_encoding.md R141). -/
abbrev noneExtra (fs : Fields) (es : Entries) : Prop :=
  (∀ e ∈ es.toList, ∃ f ∈ fs.toList, f.2.isVoid = false ∧ f.1 = e.1) ∧
  es.toList.Pairwise fun a b => a.1 ≠ b.1

/-- The code of the check of 30_encoding.md R141 that a value at a node by itself fails. -/
def placeFault : Ty × Val → Option (BitVec 8)
  | (.bool, .bool _) => none
  | (.uint _ _, .int i) => if -(2 ^ 63) ≤ i ∧ i ≤ 2 ^ 64 - 1 then none else some 0x34
  | (.int _ _, .int i) => if -(2 ^ 63) ≤ i ∧ i ≤ 2 ^ 64 - 1 then none else some 0x34
  | (.float _ _, .float _) => none
  | (.array _ .fixed m, .array vs) => if vs.toList.length = m then none else some 0x32
  | (.array _ .dynamic m, .array vs) => if vs.toList.length ≤ m then none else some 0x32
  | (.struct fs, .record es) =>
    if ¬noneMissing fs es then some 0x31 else if ¬noneExtra fs es then some 0x32 else none
  | (.union fs, .union idx _) => if idx < fs.toList.length then none else some 0x32
  | (_, _) => some 0x32

/-! ### The command of a type -/

/-- The type's command takes it as a descriptor: it is an array, a Union or a Struct. -/
def takesDescriptor : Ty → Bool
  | .array _ _ _ | .struct _ | .union _ => true
  | .void _ | .bool | .uint _ _ | .int _ _ | .float _ _ => false

/-- The encode command of a descriptor that is an array, a Union or a Struct, with tail flag `t`; ENC for
every other, which have a command for their width (42_codec_encode.md R310 to R314). -/
def encodeCommand : Ty → Bool → Instr
  | .array _ .fixed _, _ => .encSarray
  | .array e .dynamic m, t => .encDarray (t && taoEligible (.array e .dynamic m))
  | .union _, _ => .encUnion
  | .struct _, t => .encStruct t
  | .void _, _ | .bool, _ | .uint _ _, _ | .int _ _, _ | .float _ _, _ => .enc

/-- The decode command of a valid descriptor, with tail flag `t` (43_codec_decode.md R401 to R412). -/
def decodeCommand : Ty → Bool → Instr
  | .void n, _ => .decVoid (BitVec.ofNat 8 n)
  | .bool, _ => .decBool
  | .uint n _, _ => .decUint (BitVec.ofNat 8 n)
  | .int n _, _ => .decInt (BitVec.ofNat 8 n)
  | .float n _, _ => .decFloat (BitVec.ofNat 8 n)
  | .array _ .fixed _, _ => .decSarray
  | .array e .dynamic m, t => .decDarray (t && taoEligible (.array e .dynamic m))
  | .union _, _ => .decUnion
  | .struct _, t => .decStruct t

/-- The machine with a part of the descriptor on the port and the cursor `k` bits further. -/
def atPart (s : State) (T : Ty) (k : Nat) : State :=
  { s with ports := { s.ports with ty := T }, r := { s.r with pos := s.r.pos + k } }

/-- The command ends with this code, one of the errors of decoding, and changes nothing else. -/
def FailsWith (i : Instr) (s : State) (code : BitVec 8) : Prop :=
  code ∈ ([0x20, 0x21, 0x22] : List (BitVec 8)) ∧ exec i s = .next { s with result := endsWith code .none }

/-! ### Transfers -/

/-- `Frames(id, tid, sig, p)` of 45_generator.md R601. -/
def framesOf (id : CanId) (tid : TransferId) (sig : Signature) (p : List Byte) : List Frame :=
  let frame (data : List Byte) : Frame :=
    { id := id.toNat, ext := true, rtr := false, err := false, data := data }
  if p.length < 8 then [frame (p ++ [tailByte true true false tid])]
  else
    let n := frameCount p.length
    frame (le16 (xferCrc sig p) ++ p.take 5 ++ [tailByte true false false tid]) ::
      (List.range (n - 1)).map fun j =>
        frame ((p.drop (5 + 7 * j)).take 7 ++ [tailByte false (j + 2 == n) ((j + 1) % 2 == 1) tid])

/-- The payload bytes a frame of a transfer carries: without the tail byte and, in the first frame of a
multi-frame transfer, without the two CRC bytes (45_generator.md R605). -/
def carried (multi : Bool) (k : Nat) (f : Frame) : List Byte :=
  if multi && k == 0 then f.data.dropLast.drop 2 else f.data.dropLast

/-- A frame the reassembler takes in, and a timestamp in range (46_reassembler.md R709, R720). -/
abbrev Receivable (s : State) : Prop :=
  s.ports.frame.ext = true ∧ s.ports.frame.rtr = false ∧ s.ports.frame.err = false ∧
  s.ports.frame.id < 2 ^ 29 ∧ s.ports.frame.data.length ≤ 8 ∧ s.ports.now < 2 ^ 64

/-- An entry that collects nothing and waits for the transfer id `tid` (46_reassembler.md R712). -/
abbrev idleWith (tid : TransferId) (now : Nat) (st : RxState) : Prop :=
  st.initialized = true ∧ st.collecting = false ∧ st.tid = tid ∧ st.toggle = false ∧
  st.lastTs.toNat = now ∧ st.buf = [] ∧ st.frames = [] ∧ st.crcExpected = 0 ∧ st.signature = 0

/-- The id that step 7 increments: the frame's, or the one stored when step 7 runs (46_reassembler.md
R712). -/
def resetBase (cfg : Config) (frameTid storedTid : TransferId) : TransferId :=
  match cfg.resetTidBase with
  | .frame => frameTid
  | .stored => storedTid

/-- An entry that a start frame with this id, or a frame after T_TIMEOUT, restarts (46_reassembler.md
R704). -/
abbrev startRestarts (st : RxState) (tid : TransferId) (now : Nat) : Prop :=
  st.initialized = false ∨ st.lastTs.toNat + 2000000 < now ∨ 1 < ((tid.toNat : Int) - st.tid.toNat) % 32

/-- `t` is `s` after an RX.FRAME that ended with this code and these outputs: the entry of `d` is `st`,
every other entry and every other field is as it was. -/
abbrev rxEnded (s t : State) (d : Desc) (st : RxState) (code : BitVec 8) (out : Output)
    (asked : Option Desc) : Prop :=
  t = { s with rxTable := t.rxTable, result := some { status := code, out := out, asked := asked } } ∧
  tableGet t.rxTable d = some st ∧
  ∀ d', d' ≠ d → tableGet t.rxTable d' = tableGet s.rxTable d'

/-! ### Runs of commands -/

/-- The results of a list of commands, one step each, and the machine after them. -/
def serve : List Command → State → List (Option Result) × State
  | [], s => ([], s)
  | c :: cs, s =>
    match step { s with cmds := [c] } with
    | .next t => (t.result :: (serve cs t).1, (serve cs t).2)
    | .fault _ => ([], s)
    | .refused _ => ([], s)

/-- Status and outputs of a result. -/
def Result.ending (r : Result) : BitVec 8 × Output := (r.status, r.out)

end Sys2Proof.Machine
end

