-- ==== Sys2Proof/Certificates/Slice0/Obligations.lean ====
section
/-! DEFINITION. The statements for the provers. Each says which rule of the spec it formalises. -/

open Sys2Proof Sys2Proof.Machine

/-! ### Command words and the step -/

/-- A step performs the command that stands first in the host's stream, with its operands on the ports;
with no command given it changes nothing (R13; how the stream is held is the model's, assumption 2). -/
def Obligations.StepPerformsDecodedCommand : Prop :=
  (∀ (s : State) (c : Command) (rest : List Command) (i : Instr),
    s.cmds = c :: rest → decode c.word = .ok i →
      step s = exec i { s with cmds := rest, ports := c.ports }) ∧
  ∀ s : State, s.cmds = [] → step s = .next s

/-- R154: an illegal word is the fault IllegalCommand or InvalidBitLength, by the first item it breaks,
and changes nothing else; every other word selects a well-formed command. -/
def Obligations.IllegalWordFaults : Prop :=
  ∀ (s : State) (c : Command) (rest : List Command), s.cmds = c :: rest →
    match wordFault c.word.toNat with
    | some code => step s = .next (faulted code { s with cmds := rest, ports := c.ports })
    | none => ∃ i, decode c.word = .ok i ∧ i.wellFormed = true

/-- Decoding the word of a command gives the command back, with every field at every value (R150, R153). -/
def Obligations.DecodeOfEncode : Prop :=
  ∀ i : Instr, decode (encode i) = .ok i

/-- A word that decodes is the word of its command: no two words are one command (R150, R153, R154). -/
def Obligations.EncodeOfDecode : Prop :=
  ∀ (w : CmdWord) (i : Instr), decode w = .ok i → encode i = w

/-- Words made up by the bit positions of R150 and the opcodes of R153 decode to their commands: those that
R155 and 95_test_vectors.md write out, and 0x00000042, CANID.SVC by R153 and R503. -/
def Obligations.WrittenWordsDecode : Prop :=
  decode 0x00000C21 = .ok (.encUint 12 .saturated) ∧ decode 0x00010822 = .ok (.encInt 8 .truncated) ∧
  decode 0x00020038 = .ok (.decStruct true) ∧ decode 0x00001003 = .ok (.bswPutw 16) ∧
  decode 0x00000014 = .ok .crc16Xfer ∧ decode 0x00000042 = .ok .canidSvc ∧
  decode 0x00000051 = .ok .genNext ∧ decode 0x00000060 = .ok .rxFrame ∧ decode 0x00000070 = .ok .sysReset

/-- Every command that the host gives, legal or not, ends in a next state with one status of the list of
R801 on the result port (R800). -/
def Obligations.EveryCommandReturnsAListedStatus : Prop :=
  ∀ s : State, s.cmds ≠ [] → ∃ t r, step s = .next t ∧ t.result = some r ∧ r.status ∈ listedCodes

/-! ### Faults and frames -/

/-- R810 and R811: a command that ends with a fault's code changes nothing but SYS, where the first code
stays; a command that ends with another status leaves SYS alone. TYPE.CHECK returns a fault's code as a
status (R316) and SYS.RESET clears SYS (R901). -/
def Obligations.OnlyFaultsWriteSys : Prop :=
  ∀ (i : Instr) (s t : State) (r : Result), exec i s = .next t → t.result = some r →
    (0x30 ≤ r.status → i ≠ .typeCheck → t = faulted r.status s) ∧
    (r.status < 0x30 ∨ i = .typeCheck → i ≠ .sysReset → t.sys = s.sys)

/-- R810: a recorded fault changes no later command but SYS.STATUS, which reads it. -/
def Obligations.RecordedFaultChangesNoOtherCommand : Prop :=
  ∀ (i : Instr) (s t : State) (y : Sys), i ≠ .sysStatus → exec i s = .next t →
    ∃ t', exec i { s with sys := y } = .next t' ∧ { t' with sys := t.sys } = t

/-- A command writes only its own part of the block's state, and SYS.RESET alone writes the whole (R33 to
R41, R80, R87, R900, R917); the parameters are written by none (R7, R43, R900). That no command, SYS.RESET
included, writes the host's stream and the ports is the model's choice (assumptions 2, 6 and 15). -/
def Obligations.CommandsWriteOnlyTheirPart : Prop :=
  ∀ (i : Instr) (s t : State), exec i s = .next t →
    t.cfg = s.cfg ∧ t.cmds = s.cmds ∧ t.ports = s.ports ∧
    (partOf i ≠ .whole →
      (partOf i ≠ .writer → t.w = s.w) ∧
      (partOf i ≠ .reader → t.r = s.r ∧ t.nanDraws = s.nanDraws) ∧
      (partOf i ≠ .crc16 → t.c16 = s.c16) ∧
      (partOf i ≠ .crc64 → t.c64 = s.c64) ∧
      (partOf i ≠ .generator → t.g = s.g) ∧
      (partOf i ≠ .table → t.rxTable = s.rxTable ∧ t.rxLastSweep = s.rxLastSweep))

/-- R87: the commands that read and write nothing leave the block as it is when they end with OK, and
give the same answer again. -/
def Obligations.QueriesAreIdempotent : Prop :=
  ∀ (i : Instr) (s t : State) (out : Output), partOf i = .nothing → exec i s = .next t →
    t.result = endsWith 0x00 out →
      t = { s with result := t.result } ∧ exec i t = .next t

/-- R321, R414, R33, R34: a command that ends with a status other than OK leaves the writer and the reader
as they were; one that is no fault leaves SYS alone, and the three statuses of decoding come without a
partial value. -/
def Obligations.FailedCommandLeavesWriterAndReader : Prop :=
  ∀ (i : Instr) (s t : State) (r : Result), exec i s = .next t → t.result = some r → r.status ≠ 0x00 →
    t.w = s.w ∧ t.r = s.r ∧ (r.status < 0x30 → t.sys = s.sys) ∧
    (r.status ∈ ([0x20, 0x21, 0x22] : List (BitVec 8)) → t = { s with result := endsWith r.status .none })

/-! ### Invariant and reset -/

/-- The invariant of the block's state (R33, R34, R38, R41, R601, R712) holds after reset. -/
def Obligations.ResetSatisfiesInv : Prop :=
  Inv State.reset

/-- Every step keeps the invariant, from every state that has it, whatever command the host gives. -/
def Obligations.EveryStepKeepsInv : Prop :=
  ∀ s t : State, Inv s → step s = .next t → Inv t

/-- R46, R901, R822: the values after power-on reset; SYS.RESET puts every piece of the block's state at
them, from any state; SYS.STATUS reads the fault flags and changes nothing. That SYS.RESET keeps the
model's own fields is the model's choice (assumption 15). -/
def Obligations.ResetValuesAndSystemCommands : Prop :=
  (State.reset.w = { buf := [], pos := 0 } ∧ State.reset.r = { buf := [], pos := 0 } ∧
    State.reset.c16 = 0xFFFF ∧ State.reset.c64 = 0xFFFFFFFFFFFFFFFF ∧
    State.reset.g = { active := false, multi := false, id := 0, tid := 0, payload := [], crc := 0,
                      off := 0, idx := 0 } ∧
    State.reset.rxTable = [] ∧ State.reset.rxLastSweep = none ∧
    State.reset.sys = { fault := false, faultCode := 0 }) ∧
  encode .sysReset = 0x00000070 ∧ encode .sysStatus = 0x00000071 ∧
  ∀ s : State,
    exec .sysReset s = .next
      { s with
        w := State.reset.w, r := State.reset.r, c16 := 0xFFFF, c64 := 0xFFFFFFFFFFFFFFFF,
        g := State.reset.g, rxTable := [], rxLastSweep := none, sys := { fault := false, faultCode := 0 },
        result := endsWith 0x00 .none } ∧
    exec .sysStatus s = .next { s with result := endsWith 0x00 (.sysStatus s.sys.fault s.sys.faultCode) }

/-! ### BitStream -/

/-- R202, R205, R206, R209: clear, read out, load (refused beyond R_CAP_BYTES), count what remains. -/
def Obligations.BufferCommands : Prop :=
  encode .bswClr = 0x00000001 ∧ encode .bswBytes = 0x00000004 ∧ encode .bsrLoad = 0x00000005 ∧
  encode .bsrRem = 0x00000008 ∧
  ∀ s : State,
    exec .bswClr s = .next { s with w := { buf := [], pos := 0 }, result := endsWith 0x00 .none } ∧
    exec .bswBytes s = .next { s with result := endsWith 0x00 (.written s.w.buf s.w.pos) } ∧
    exec .bsrRem s = .next { s with result := endsWith 0x00 (.remaining (8 * s.r.buf.length - s.r.pos)) } ∧
    ((∀ c ∈ s.cfg.rCapBytes, s.ports.bytes.length ≤ c) →
      exec .bsrLoad s = .next
        { s with r := { buf := s.ports.bytes, pos := 0 }, result := endsWith 0x00 .none }) ∧
    ((∃ c ∈ s.cfg.rCapBytes, c < s.ports.bytes.length) → exec .bsrLoad s = .next (faulted 0x34 s))

/-- R203, R204, R812: BSW.PUT n and BSW.PUTW n, with their faults in order of priority; without a fault
they append the n bits of the operand, under either bit order, and change nothing else. The operand is a
natural number; nothing is said of a negative one (assumption 7). -/
def Obligations.PutCommands : Prop :=
  ∀ (s : State) (n : Byte),
    (encode (.bswPut n)).toNat = wordOf 0x02 n.toNat 0 ∧ (encode (.bswPutw n)).toNat = wordOf 0x03 n.toNat 0 ∧
    (n.toNat = 0 ∨ 8 < n.toNat → exec (.bswPut n) s = .next (faulted 0x30 s)) ∧
    (n.toNat = 0 ∨ 64 < n.toNat → exec (.bswPutw n) s = .next (faulted 0x30 s)) ∧
    (1 ≤ n.toNat → 2 ^ n.toNat ≤ s.ports.vNum →
      (n.toNat ≤ 8 → exec (.bswPut n) s = .next (faulted 0x34 s)) ∧
      (n.toNat ≤ 64 → exec (.bswPutw n) s = .next (faulted 0x34 s))) ∧
    (1 ≤ n.toNat → 0 ≤ s.ports.vNum → s.ports.vNum < 2 ^ n.toNat →
      (∃ c ∈ s.cfg.wCapBits, c < s.w.pos + n.toNat) →
      (n.toNat ≤ 8 → exec (.bswPut n) s = .next (faulted 0x36 s)) ∧
      (n.toNat ≤ 64 → exec (.bswPutw n) s = .next (faulted 0x36 s))) ∧
    (writerInv s.cfg s.w → ∀ v : Nat, 1 ≤ n.toNat → s.ports.vNum = v → v < 2 ^ n.toNat →
      (∀ c ∈ s.cfg.wCapBits, s.w.pos + n.toNat ≤ c) →
      ∃ w', Appended s.cfg.bitOrder s.w w' (fieldBits s.cfg.bitOrder n.toNat v) ∧
        (n.toNat ≤ 8 → exec (.bswPut n) s = .next { s with w := w', result := endsWith 0x00 .none }) ∧
        (n.toNat ≤ 64 → exec (.bswPutw n) s = .next { s with w := w', result := endsWith 0x00 .none }))

/-- R207, R208: BSR.GET n and BSR.GETW n read the n-bit value that stands at the cursor and advance it by
n; with fewer bits left they return TruncatedPayload and consume nothing; a width out of range is the
fault InvalidBitLength. -/
def Obligations.GetReadsBits : Prop :=
  ∀ (s : State) (n : Byte),
    (encode (.bsrGet n)).toNat = wordOf 0x06 n.toNat 0 ∧ (encode (.bsrGetw n)).toNat = wordOf 0x07 n.toNat 0 ∧
    (n.toNat = 0 ∨ 8 < n.toNat → exec (.bsrGet n) s = .next (faulted 0x30 s)) ∧
    (n.toNat = 0 ∨ 64 < n.toNat → exec (.bsrGetw n) s = .next (faulted 0x30 s)) ∧
    (1 ≤ n.toNat → ∀ v, v < 2 ^ n.toNat → Holds s.cfg.bitOrder s.r (fieldBits s.cfg.bitOrder n.toNat v) →
      (n.toNat ≤ 8 → exec (.bsrGet n) s = .next
        { s with r := { s.r with pos := s.r.pos + n.toNat }, result := endsWith 0x00 (.number v) }) ∧
      (n.toNat ≤ 64 → exec (.bsrGetw n) s = .next
        { s with r := { s.r with pos := s.r.pos + n.toNat }, result := endsWith 0x00 (.number v) })) ∧
    (1 ≤ n.toNat → 8 * s.r.buf.length < s.r.pos + n.toNat →
      (n.toNat ≤ 8 → exec (.bsrGet n) s = .next { s with result := endsWith 0x20 .none }) ∧
      (n.toNat ≤ 64 → exec (.bsrGetw n) s = .next { s with result := endsWith 0x20 .none }))

/-- R210: what BSW.PUTW commands write from an empty writer, BSR.GETW commands read back in order, under
either bit order. -/
def Obligations.BitStreamRoundTrip : Prop :=
  ∀ (s t u : State) (xs : List (Byte × Nat)) (results : List (Option Result)) (p : Ports),
    s.w = { buf := [], pos := 0 } →
    (∀ x ∈ xs, 1 ≤ x.1.toNat ∧ x.1.toNat ≤ 64 ∧ x.2 < 2 ^ x.1.toNat) →
    (∀ c ∈ s.cfg.wCapBits, (xs.map (·.1.toNat)).sum ≤ c) →
    serve (xs.map fun x => command (.bswPutw x.1) { p with vNum := x.2 }) s = (results, t) →
    u.cfg = s.cfg → u.r = { buf := t.w.buf, pos := 0 } →
    results = xs.map (fun _ => endsWith 0x00 .none) ∧
    (serve (xs.map fun x => command (.bsrGetw x.1) p) u).1 = xs.map (fun x => endsWith 0x00 (.number x.2)) ∧
    ∀ q, (xs.map (·.1.toNat)).sum ≤ q → readBit u.cfg.bitOrder u.r.buf q = false

/-! ### CRC -/

/-- R253, R256, R259, R261: the seeds and the reads; CRC64.RD complements what it gives out. -/
def Obligations.CrcSeedsAndReads : Prop :=
  encode .crc16Init = 0x00000010 ∧ encode .crc16Rd = 0x00000013 ∧ encode .crc64Init = 0x00000018 ∧
  encode .crc64Rd = 0x0000001A ∧
  ∀ s : State,
    exec .crc16Init s = .next { s with c16 := 0xFFFF, result := endsWith 0x00 .none } ∧
    exec .crc16Rd s = .next { s with result := endsWith 0x00 (.crc16 s.c16) } ∧
    exec .crc64Init s = .next { s with c64 := 0xFFFFFFFFFFFFFFFF, result := endsWith 0x00 .none } ∧
    exec .crc64Rd s = .next { s with result := endsWith 0x00 (.crc64 (~~~s.c64)) }

/-- R250 to R252, R254, R255, R257, R260: CRC16.BYTE and CRC16.SIG absorb their operand by the CCITT-FALSE
polynomial and CRC64.BYTE by the CRC-64-WE polynomial, computed here on natural numbers; CRC16.XFER loads
and returns the CRC-16, from the seed 0xFFFF, of the signature's bytes and then the payload's; an operand
out of range is InvalidArgument. -/
def Obligations.CrcAbsorbs : Prop :=
  encode .crc16Byte = 0x00000011 ∧ encode .crc16Sig = 0x00000012 ∧ encode .crc16Xfer = 0x00000014 ∧
  encode .crc64Byte = 0x00000019 ∧
  ∀ s : State,
    (s.ports.b < 256 →
      (∃ c, exec .crc16Byte s = .next { s with c16 := c, result := endsWith 0x00 .none } ∧
        c.toNat = crc16ByteNat s.c16.toNat s.ports.b) ∧
      ∃ c, exec .crc64Byte s = .next { s with c64 := c, result := endsWith 0x00 .none } ∧
        c.toNat = crc64ByteNat s.c64.toNat s.ports.b) ∧
    (256 ≤ s.ports.b →
      exec .crc16Byte s = .next (faulted 0x34 s) ∧ exec .crc64Byte s = .next (faulted 0x34 s)) ∧
    (s.ports.sig < 2 ^ 64 →
      (∃ c, exec .crc16Sig s = .next { s with c16 := c, result := endsWith 0x00 .none } ∧
        c.toNat = crc16Nat s.c16.toNat (le64Nat s.ports.sig)) ∧
      ∃ c, exec .crc16Xfer s = .next { s with c16 := c, result := endsWith 0x00 (.crc16 c) } ∧
        c.toNat = crc16Nat 0xFFFF (le64Nat s.ports.sig ++ s.ports.payload.map (·.toNat))) ∧
    (2 ^ 64 ≤ s.ports.sig →
      exec .crc16Sig s = .next (faulted 0x34 s) ∧ exec .crc16Xfer s = .next (faulted 0x34 s))

/-- R156, R251, R260: CRC16.BLOCK and CRC64.BLOCK absorb their bytes one command each, first byte first,
and write nothing but their accumulator. -/
def Obligations.CrcBlocksAbsorbTheirBytes : Prop :=
  ∀ (s t u : State) (p : Ports) (rs16 rs64 : List (Option Result)), p.bytes ≠ [] →
    serve (pseudoCrc16Block p) s = (rs16, t) → serve (pseudoCrc64Block p) s = (rs64, u) →
    rs16 = p.bytes.map (fun _ => endsWith 0x00 .none) ∧
    t.c16.toNat = crc16Nat s.c16.toNat (p.bytes.map (·.toNat)) ∧
    t = { s with c16 := t.c16, cmds := [], ports := t.ports, result := endsWith 0x00 .none } ∧
    rs64 = p.bytes.map (fun _ => endsWith 0x00 .none) ∧
    u.c64.toNat = (p.bytes.map (·.toNat)).foldl crc64ByteNat s.c64.toNat ∧
    u = { s with c64 := u.c64, cmds := [], ports := u.ports, result := endsWith 0x00 .none }

/-- The transfer CRC finds every corruption of one payload byte (R252, R258, R724 item 3). -/
def Obligations.CrcFindsOneChangedByte : Prop :=
  ∀ (sig : Signature) (p q : List Byte) (a b : Byte), a ≠ b →
    xferCrc sig (p ++ a :: q) ≠ xferCrc sig (p ++ b :: q)

/-! ### Encode -/

/-- R305, R309: ENC.BOOL appends one bit, ENC.VOID n appends n zero bits, and they change nothing else; a
value that is no Bool, a width out of range and a full writer are faults. -/
def Obligations.EncodeBoolAndVoid : Prop :=
  ∀ (s : State) (n : Byte),
    encode .encBool = 0x00000020 ∧ (encode (.encVoid n)).toNat = wordOf 0x24 n.toNat 0 ∧
    (writerInv s.cfg s.w → ∀ b, s.ports.v = .bool b → (∀ c ∈ s.cfg.wCapBits, s.w.pos + 1 ≤ c) →
      ∃ w', Appended s.cfg.bitOrder s.w w' [b] ∧
        exec .encBool s = .next { s with w := w', result := endsWith 0x00 .none }) ∧
    ((∀ b, s.ports.v ≠ .bool b) → exec .encBool s = .next (faulted 0x32 s)) ∧
    (∀ b, s.ports.v = .bool b → (∃ c ∈ s.cfg.wCapBits, c < s.w.pos + 1) →
      exec .encBool s = .next (faulted 0x36 s)) ∧
    (writerInv s.cfg s.w → 1 ≤ n.toNat → n.toNat ≤ 64 → (∀ c ∈ s.cfg.wCapBits, s.w.pos + n.toNat ≤ c) →
      ∃ w', Appended s.cfg.bitOrder s.w w' (List.replicate n.toNat false) ∧
        exec (.encVoid n) s = .next { s with w := w', result := endsWith 0x00 .none }) ∧
    (n.toNat = 0 ∨ 64 < n.toNat → exec (.encVoid n) s = .next (faulted 0x30 s)) ∧
    (1 ≤ n.toNat → n.toNat ≤ 64 → (∃ c ∈ s.cfg.wCapBits, c < s.w.pos + n.toNat) →
      exec (.encVoid n) s = .next (faulted 0x36 s))

/-- R302, R303, R306, R307: ENC.UINT and ENC.INT append the n bits of the operand after the cast-mode
multiplexer: clamped to the nearest bound, or wrapped modulo 2^n; no value of the domain faults. -/
def Obligations.EncodeIntegersCast : Prop :=
  ∀ (s : State) (n : Byte) (i : Int), writerInv s.cfg s.w → s.ports.v = .int i →
    2 ≤ n.toNat → n.toNat ≤ 64 → -(2 ^ 63) ≤ i → i ≤ 2 ^ 64 - 1 →
    (∀ c ∈ s.cfg.wCapBits, s.w.pos + n.toNat ≤ c) →
    ∀ (cm : CastMode) (u k : Nat), u < 2 ^ n.toNat → k < 2 ^ n.toNat →
      (cm = .truncated → ∃ q : Int, i = q * 2 ^ n.toNat + u ∧ u = k) →
      (cm = .saturated →
        ((u : Int) = if i < 0 then 0 else if 2 ^ n.toNat ≤ i then 2 ^ n.toNat - 1 else i) ∧
        sext n.toNat k = (if i < -(2 ^ (n.toNat - 1)) then -(2 ^ (n.toNat - 1))
          else if 2 ^ (n.toNat - 1) ≤ i then 2 ^ (n.toNat - 1) - 1 else i)) →
      (∃ w', Appended s.cfg.bitOrder s.w w' (fieldBits s.cfg.bitOrder n.toNat u) ∧
        exec (.encUint n cm) s = .next { s with w := w', result := endsWith 0x00 .none }) ∧
      (∃ w', Appended s.cfg.bitOrder s.w w' (fieldBits s.cfg.bitOrder n.toNat k) ∧
        exec (.encInt n cm) s = .next { s with w := w', result := endsWith 0x00 .none })

/-- R306, R307, R308, R812: the faults of ENC.UINT, ENC.INT and ENC.FLOAT, in their order of priority: the
width, the value's kind, the value domain, the writer's capacity. -/
def Obligations.EncodeNumberFaults : Prop :=
  ∀ (s : State) (n : Byte) (cm : CastMode),
    (encode (.encUint n cm)).toNat = wordOf 0x21 n.toNat (if cm = .truncated then 1 else 0) ∧
    (encode (.encInt n cm)).toNat = wordOf 0x22 n.toNat (if cm = .truncated then 1 else 0) ∧
    (encode (.encFloat n cm)).toNat = wordOf 0x23 n.toNat (if cm = .truncated then 1 else 0) ∧
    (n.toNat < 2 ∨ 64 < n.toNat →
      exec (.encUint n cm) s = .next (faulted 0x30 s) ∧ exec (.encInt n cm) s = .next (faulted 0x30 s)) ∧
    (n.toNat ∉ [16, 32, 64] → exec (.encFloat n cm) s = .next (faulted 0x30 s)) ∧
    (2 ≤ n.toNat → n.toNat ≤ 64 →
      ((∀ i, s.ports.v ≠ .int i) →
        exec (.encUint n cm) s = .next (faulted 0x32 s) ∧ exec (.encInt n cm) s = .next (faulted 0x32 s)) ∧
      ∀ i, s.ports.v = .int i →
        (i < -(2 ^ 63) ∨ 2 ^ 64 ≤ i →
          exec (.encUint n cm) s = .next (faulted 0x34 s) ∧ exec (.encInt n cm) s = .next (faulted 0x34 s)) ∧
        (-(2 ^ 63) ≤ i → i < 2 ^ 64 → (∃ c ∈ s.cfg.wCapBits, c < s.w.pos + n.toNat) →
          exec (.encUint n cm) s = .next (faulted 0x36 s) ∧ exec (.encInt n cm) s = .next (faulted 0x36 s))) ∧
    (n.toNat ∈ [16, 32, 64] →
      ((∀ x, s.ports.v ≠ .float x) → exec (.encFloat n cm) s = .next (faulted 0x32 s)) ∧
      ∀ x, s.ports.v = .float x → (∃ c ∈ s.cfg.wCapBits, c < s.w.pos + n.toNat) →
        exec (.encFloat n cm) s = .next (faulted 0x36 s))

/-- R304, R308: ENC.FLOAT appends n bits: for 64 the operand's pattern; for 16 and 32 what CVTn makes of the
operand, which Saturated mode first clamps to MAXn. With the default conversions, which
`NarrowingRoundsToNearest` describes, that is the pattern whose value is the operand's, where there is
one, a NaN for a NaN, and for a finite operand of 2^16 (2^128) or more the largest finite value in
Saturated mode and infinity in Truncated mode, with the operand's sign. A conversion that is not the
default is a free function (assumption 4). -/
def Obligations.EncodeFloats : Prop :=
  ∀ (s : State) (cm : CastMode) (x : BitVec 64), writerInv s.cfg s.w → s.ports.v = .float x →
    ∀ n : Byte, n.toNat = 16 ∨ n.toNat = 32 ∨ n.toNat = 64 → (∀ c ∈ s.cfg.wCapBits, s.w.pos + n.toNat ≤ c) →
      ∃ w' u, u < 2 ^ n.toNat ∧ Appended s.cfg.bitOrder s.w w' (fieldBits s.cfg.bitOrder n.toNat u) ∧
        exec (.encFloat n cm) s = .next { s with w := w', result := endsWith 0x00 .none } ∧
        (n.toNat = 64 → u = x.toNat) ∧
        (n.toNat ≠ 64 → ∃ y, ClampedTo n.toNat cm x y ∧
          (n.toNat = 16 → u = match s.cfg.cvt16 with
            | .ieee => narrowIeee binary16 y.toNat
            | .other => (Config.otherCvt16 y).toNat) ∧
          (n.toNat = 32 → u = match s.cfg.cvt32 with
            | .ieee => narrowIeee binary32 y.toNat
            | .other => (Config.otherCvt32 y).toNat)) ∧
        (n.toNat ≠ 64 → convertsByIeee s.cfg n.toNat →
          (∀ k, k < 2 ^ n.toNat → (narrowFormat n.toNat).isNan k = false →
            SameValue (narrowFormat n.toNat) k x.toNat → u = k) ∧
          (binary64.isNan x.toNat = true → (narrowFormat n.toNat).isNan u = true) ∧
          (binary64.isFinite x.toNat = true →
            (if n.toNat = 16 then 1039 else 1151) ≤ binary64.expOf x.toNat →
            u = match cm with
              | .saturated => (narrowFormat n.toNat).pack (binary64.signOf x.toNat)
                  ((narrowFormat n.toNat).expMax - 1) (2 ^ (narrowFormat n.toNat).fracBits - 1)
              | .truncated => (narrowFormat n.toNat).pack (binary64.signOf x.toNat)
                  (narrowFormat n.toNat).expMax 0))

/-- R304: the default conversion to binary16 and binary32 keeps the sign, gives a nearest value of the
format, of two nearest the one with an even fraction, and infinity exactly from half a unit beyond the
largest finite value on; an infinity stays one, and a NaN becomes the quiet NaN with its sign and its top
fraction bits. -/
def Obligations.NarrowingRoundsToNearest : Prop :=
  ∀ f : FloatFormat, f = binary16 ∨ f = binary32 → ∀ x, x < 2 ^ 64 →
    (binary64.isFinite x = true →
      f.signOf (narrowIeee f x) = binary64.signOf x ∧
      (f.isFinite (narrowIeee f x) = true → ∀ k, f.isFinite k = true →
        |magnitudeOf binary64 x - magnitudeOf f (narrowIeee f x)| ≤ |magnitudeOf binary64 x - magnitudeOf f k| ∧
        (|magnitudeOf binary64 x - magnitudeOf f (narrowIeee f x)| = |magnitudeOf binary64 x - magnitudeOf f k| →
          magnitudeOf f k ≠ magnitudeOf f (narrowIeee f x) → narrowIeee f x % 2 = 0)) ∧
      (f.isFinite (narrowIeee f x) = false ↔
        (2 ^ (f.fracBits + 2) - 1) * 2 ^ ((f.bias : Int) - f.fracBits - 1) ≤ magnitudeOf binary64 x) ∧
      (f.isFinite (narrowIeee f x) = false → f.isNan (narrowIeee f x) = false)) ∧
    (binary64.isFinite x = false → binary64.isNan x = false →
      narrowIeee f x = f.pack (binary64.signOf x) f.expMax 0) ∧
    (binary64.isNan x = true →
      f.isNan (narrowIeee f x) = true ∧ f.signOf (narrowIeee f x) = binary64.signOf x ∧
      (f.fracOf (narrowIeee f x)).testBit (f.fracBits - 1) = true ∧
      ∀ i < f.fracBits - 1, (narrowIeee f x).testBit i = x.testBit (52 - f.fracBits + i))

/-- R300, R310 to R313: on a descriptor of its kind that is valid, with a value that conforms and room in
the writer, each composite encode command appends the bits of `Emit(T, v, t)` and changes nothing else.
R121 to R123, R125, R300, R320: those bits are, of a static array, the elements; of a dynamic array the
number of elements and the elements, in TAO form the elements alone; of a Union the tag and the active
member; of a Struct the fields in declaration order, Void fields as zeros, the tail flag for the last. -/
def Obligations.EncodeComposites : Prop :=
  (∀ (s : State) (t : Bool), writerInv s.cfg s.w →
    checkTy s.ports.ty = none → conform s.ports.ty s.ports.v = none →
    (∀ c ∈ s.cfg.wCapBits, s.w.pos + encLen s.ports.ty s.ports.v t ≤ c) →
    ∃ w', Appended s.cfg.bitOrder s.w w' (emit s.cfg s.ports.ty s.ports.v t) ∧
      (s.ports.ty.isFixedArray = true → t = false →
        exec .encSarray s = .next { s with w := w', result := endsWith 0x00 .none }) ∧
      (s.ports.ty.isDynamicArray = true → (t = true → taoEligible s.ports.ty = true) →
        exec (.encDarray t) s = .next { s with w := w', result := endsWith 0x00 .none }) ∧
      (s.ports.ty.isUnion = true → t = false →
        exec .encUnion s = .next { s with w := w', result := endsWith 0x00 .none }) ∧
      (s.ports.ty.isStruct = true →
        exec (.encStruct t) s = .next { s with w := w', result := endsWith 0x00 .none })) ∧
  (∀ T : Ty, taoEligible T = true ↔ ∃ E m n cm, T = .array E .dynamic m ∧ 8 ≤ n ∧
    (E = .uint n cm ∨ E = .int n cm ∨ E = .float n cm)) ∧
  ∀ (cfg : Config) (t : Bool),
    (∀ b, emit cfg .bool (.bool b) t = [b]) ∧
    (∀ n cm i,
      emit cfg (.uint n cm) (.int i) t = fieldBits cfg.bitOrder n (castU i n cm) ∧
      emit cfg (.int n cm) (.int i) t = fieldBits cfg.bitOrder n (castS i n cm)) ∧
    (∀ n cm x, emit cfg (.float n cm) (.float x) t = fieldBits cfg.bitOrder n (castF cfg x n cm)) ∧
    (∀ E m vs,
      emit cfg (.array E .fixed m) (.array vs) t = vs.toList.flatMap (fun v => emit cfg E v false) ∧
      (t = true → taoEligible (.array E .dynamic m) = true →
        emit cfg (.array E .dynamic m) (.array vs) t = vs.toList.flatMap fun v => emit cfg E v false) ∧
      (t = false ∨ taoEligible (.array E .dynamic m) = false →
        emit cfg (.array E .dynamic m) (.array vs) t =
          fieldBits cfg.bitOrder (bitlen m) vs.toList.length ++
            vs.toList.flatMap fun v => emit cfg E v false)) ∧
    (∀ fs idx name T v, fs.toList[idx]? = some (name, T) →
      emit cfg (.union fs) (.union idx v) t =
        fieldBits cfg.bitOrder (bitlen (fs.toList.length - 1)) idx ++ emit cfg T v false) ∧
    ∀ (fs : Fields) (es : Entries) (bits : List (List Bool)), conform (.struct fs) (.record es) = none →
      bits.length = fs.toList.length →
      (∀ k name T, fs.toList[k]? = some (name, T) →
        (∀ n, T = .void n → bits[k]? = some (List.replicate n false)) ∧
        (T.isVoid = false → ∃ v, (name, v) ∈ es.toList ∧
          bits[k]? = some (emit cfg T v (t && k + 1 == fs.toList.length)))) →
      emit cfg (.struct fs) (.record es) t = bits.flatten

/-- R314: ENC writes the whole payload from an empty writer and gives it out; a fault leaves the writer
as it was, not cleared. -/
def Obligations.EncodeWholePayload : Prop :=
  ∀ (s : State), checkTy s.ports.ty = none → conform s.ports.ty s.ports.v = none →
    ((∀ c ∈ s.cfg.wCapBits, encLen s.ports.ty s.ports.v s.ports.ty.isStruct ≤ c) →
      ∃ w', Appended s.cfg.bitOrder { buf := [], pos := 0 } w'
          (emit s.cfg s.ports.ty s.ports.v s.ports.ty.isStruct) ∧
        exec .enc s = .next { s with w := w', result := endsWith 0x00 (.written w'.buf w'.pos) }) ∧
    ((∃ c ∈ s.cfg.wCapBits, c < encLen s.ports.ty s.ports.v s.ports.ty.isStruct) →
      exec .enc s = .next (faulted 0x36 s))

/-- R131, R141, R300, R310 to R316, R400, R413, R812: a descriptor fails with the first code that one of its
nodes, in pre-order, fails with; a value with the first that one of its places, in encode order, fails
with. Every command that takes a descriptor raises the descriptor's as a fault, before the value's, and
every encode command that takes one raises the value's, before the writer's capacity; TYPE.CHECK returns
them as statuses; DEC of more bytes than R_CAP_BYTES is InvalidArgument before all that. The order of two
failures of one tree and what a top-level Void is rest on assumptions 11, 12 and 14, `vGiven` on
assumption 7. -/
def Obligations.DescriptorAndValueChecks : Prop :=
  encode .typeBitlen = 0x0000002A ∧ encode .typeCheck = 0x0000002B ∧
  (∀ T : Ty, (checkTy T).map statusCode = (nodes T).findSome? nodeFault) ∧
  (∀ (T : Ty) (v : Val), (conform T v).map statusCode = (places T v).findSome? placeFault) ∧
  ∀ (s : State) (e : Status) (t : Bool),
    (checkTy s.ports.ty = some e →
      exec .enc s = .next (faulted (statusCode e) s) ∧
      (takesDescriptor s.ports.ty = true →
        exec (encodeCommand s.ports.ty t) s = .next (faulted (statusCode e) s) ∧
        exec (decodeCommand s.ports.ty t) s = .next (faulted (statusCode e) s)) ∧
      ((∀ c ∈ s.cfg.rCapBytes, s.ports.bytes.length ≤ c) →
        exec .dec s = .next (faulted (statusCode e) s)) ∧
      exec .typeBitlen s = .next (faulted (statusCode e) s) ∧
      exec .typeCheck s = .next { s with result := endsWith (statusCode e) .none }) ∧
    ((∃ c ∈ s.cfg.rCapBytes, c < s.ports.bytes.length) → exec .dec s = .next (faulted 0x34 s)) ∧
    (checkTy s.ports.ty = none → conform s.ports.ty s.ports.v = some e →
      exec .enc s = .next (faulted (statusCode e) s) ∧
      (takesDescriptor s.ports.ty = true →
        exec (encodeCommand s.ports.ty t) s = .next (faulted (statusCode e) s)) ∧
      (s.ports.vGiven = true → exec .typeCheck s = .next { s with result := endsWith (statusCode e) .none })) ∧
    (checkTy s.ports.ty = none → conform s.ports.ty s.ports.v = none → takesDescriptor s.ports.ty = true →
      (∃ c ∈ s.cfg.wCapBits, c < s.w.pos + encLen s.ports.ty s.ports.v t) →
      exec (encodeCommand s.ports.ty t) s = .next (faulted 0x36 s)) ∧
    (checkTy s.ports.ty = none →
      exec .typeBitlen s =
        .next { s with result := endsWith 0x00 (.bitLengths (minBits s.ports.ty) (maxBits s.ports.ty)) } ∧
      (s.ports.vGiven = true → conform s.ports.ty s.ports.v = none →
        exec .typeCheck s = .next { s with result := endsWith 0x00 .none }) ∧
      (s.ports.vGiven = false → exec .typeCheck s = .next { s with result := endsWith 0x00 .none })) ∧
    ∃ u r, exec .typeCheck s = .next u ∧ u = { s with result := some r } ∧
      r.status ∈ ([0x00, 0x30, 0x31, 0x32, 0x33, 0x34] : List (BitVec 8))

/-- R310 to R313, R408, R409, R411, R412: a composite command given a descriptor of another kind is the
fault SchemaMismatch, and the TAO form of an array that is not eligible is InvalidSchema. That these two
checks come before the descriptor's validity, as in the pseudocode of the commands, is the model's reading
(assumption 18). -/
def Obligations.CompositeKindFaults : Prop :=
  ∀ (s : State) (t : Bool),
    (s.ports.ty.isFixedArray = false →
      exec .encSarray s = .next (faulted 0x32 s) ∧ exec .decSarray s = .next (faulted 0x32 s)) ∧
    (s.ports.ty.isDynamicArray = false →
      exec (.encDarray t) s = .next (faulted 0x32 s) ∧ exec (.decDarray t) s = .next (faulted 0x32 s)) ∧
    (s.ports.ty.isUnion = false →
      exec .encUnion s = .next (faulted 0x32 s) ∧ exec .decUnion s = .next (faulted 0x32 s)) ∧
    (s.ports.ty.isStruct = false →
      exec (.encStruct t) s = .next (faulted 0x32 s) ∧ exec (.decStruct t) s = .next (faulted 0x32 s)) ∧
    (s.ports.ty.isDynamicArray = true → taoEligible s.ports.ty = false →
      exec (.encDarray true) s = .next (faulted 0x33 s) ∧ exec (.decDarray true) s = .next (faulted 0x33 s))

/-- R301, R134: for every value that conforms, Emit writes EncLen bits; EncLen lies between MinBits, less
a prefix that the TAO form saves, and MaxBits, and is MaxBits where the descriptor holds no dynamic
array and no union. R134: MinBits and MaxBits by the kind of the descriptor; without the TAO form both
bounds are met by some value of a valid descriptor. R9, R121: a prefix or tag has just the bits that its
greatest value needs. -/
def Obligations.EncodedLengthBounds : Prop :=
  (∀ (cfg : Config) (T : Ty) (v : Val) (t : Bool), checkTy T = none → conform T v = none →
    (emit cfg T v t).length = encLen T v t ∧
    minBits T ≤ encLen T v t + taoSaved T t ∧ encLen T v t ≤ maxBits T ∧
    (fixedLength T = true → encLen T v t = maxBits T)) ∧
  (∀ T : Ty, checkTy T = none → T.isVoid = false →
    (∃ v, conform T v = none ∧ encLen T v false = minBits T) ∧
    ∃ v, conform T v = none ∧ encLen T v false = maxBits T) ∧
  (∀ x k, bitlen x ≤ k ↔ x < 2 ^ k) ∧
  (∀ (T : Ty) (n : Nat) (cm : CastMode),
    T = .void n ∨ T = .uint n cm ∨ T = .int n cm ∨ T = .float n cm ∨ (T = .bool ∧ n = 1) →
    minBits T = n ∧ maxBits T = n) ∧
  (∀ (E : Ty) (m : Nat),
    minBits (.array E .fixed m) = m * minBits E ∧ maxBits (.array E .fixed m) = m * maxBits E ∧
    minBits (.array E .dynamic m) = bitlen m ∧ maxBits (.array E .dynamic m) = bitlen m + m * maxBits E) ∧
  ∀ fs : Fields,
    minBits (.struct fs) = (fs.toList.map fun f => minBits f.2).sum ∧
    maxBits (.struct fs) = (fs.toList.map fun f => maxBits f.2).sum ∧
    ∀ k, k = bitlen (fs.toList.length - 1) → fs.toList ≠ [] →
      (∃ f ∈ fs.toList, minBits (.union fs) = k + minBits f.2) ∧
      (∃ f ∈ fs.toList, maxBits (.union fs) = k + maxBits f.2) ∧
      ∀ f ∈ fs.toList, minBits (.union fs) ≤ k + minBits f.2 ∧ k + maxBits f.2 ≤ maxBits (.union fs)

/-! ### Decode -/

/-- R401 to R403, R405: DEC.BOOL, DEC.UINT, DEC.INT and DEC.VOID read the value that stands at the cursor,
zero-extended or sign-extended, or skip it, and advance the cursor by its width; with too few bits left
they return TruncatedPayload and the reader stays; a width out of range is the fault InvalidBitLength. -/
def Obligations.DecodePrimitives : Prop :=
  ∀ (s : State) (n : Byte),
    encode .decBool = 0x00000030 ∧ (encode (.decUint n)).toNat = wordOf 0x31 n.toNat 0 ∧
    (encode (.decInt n)).toNat = wordOf 0x32 n.toNat 0 ∧ (encode (.decVoid n)).toNat = wordOf 0x34 n.toNat 0 ∧
    (∀ b, Holds s.cfg.bitOrder s.r [b] → exec .decBool s = .next
      { s with r := { s.r with pos := s.r.pos + 1 }, result := endsWith 0x00 (.value (.bool b)) }) ∧
    (8 * s.r.buf.length < s.r.pos + 1 → exec .decBool s = .next { s with result := endsWith 0x20 .none }) ∧
    (n.toNat < 2 ∨ 64 < n.toNat →
      exec (.decUint n) s = .next (faulted 0x30 s) ∧ exec (.decInt n) s = .next (faulted 0x30 s)) ∧
    (2 ≤ n.toNat → n.toNat ≤ 64 →
      (∀ v, v < 2 ^ n.toNat → Holds s.cfg.bitOrder s.r (fieldBits s.cfg.bitOrder n.toNat v) →
        exec (.decUint n) s = .next
          { s with r := { s.r with pos := s.r.pos + n.toNat }, result := endsWith 0x00 (.value (.int v)) } ∧
        exec (.decInt n) s = .next
          { s with
            r := { s.r with pos := s.r.pos + n.toNat }
            result := endsWith 0x00 (.value (.int (if v < 2 ^ (n.toNat - 1) then v else v - 2 ^ n.toNat))) }) ∧
      (8 * s.r.buf.length < s.r.pos + n.toNat →
        exec (.decUint n) s = .next { s with result := endsWith 0x20 .none } ∧
        exec (.decInt n) s = .next { s with result := endsWith 0x20 .none })) ∧
    (n.toNat = 0 ∨ 64 < n.toNat → exec (.decVoid n) s = .next (faulted 0x30 s)) ∧
    (1 ≤ n.toNat → n.toNat ≤ 64 →
      (s.r.pos + n.toNat ≤ 8 * s.r.buf.length → exec (.decVoid n) s = .next
        { s with r := { s.r with pos := s.r.pos + n.toNat }, result := endsWith 0x00 .none }) ∧
      (8 * s.r.buf.length < s.r.pos + n.toNat →
        exec (.decVoid n) s = .next { s with result := endsWith 0x20 .none }))

/-- R404, R406: DEC.FLOAT gives the pattern of the same value: the same sign, and the same magnitude or
infinity; a NaN of 16 or 32 bits gives some binary64 NaN, whatever the NAN_WIDEN draw is (assumption 3,
which also counts the draws); a short reader and a wrong width as for DEC.UINT. -/
def Obligations.DecodeFloats : Prop :=
  ∀ (s : State) (n : Byte),
    (encode (.decFloat n)).toNat = wordOf 0x33 n.toNat 0 ∧
    (n.toNat ∉ [16, 32, 64] → exec (.decFloat n) s = .next (faulted 0x30 s)) ∧
    (n.toNat ∈ [16, 32, 64] →
      (8 * s.r.buf.length < s.r.pos + n.toNat →
        exec (.decFloat n) s = .next { s with result := endsWith 0x20 .none }) ∧
      ∀ u, u < 2 ^ n.toNat → Holds s.cfg.bitOrder s.r (fieldBits s.cfg.bitOrder n.toNat u) →
        ∃ x : BitVec 64, exec (.decFloat n) s = .next
            { s with
              r := { s.r with pos := s.r.pos + n.toNat }
              nanDraws :=
                if n.toNat ≠ 64 ∧ (narrowFormat n.toNat).isNan u = true then s.nanDraws + 1 else s.nanDraws
              result := endsWith 0x00 (.value (.float x)) } ∧
          (n.toNat = 64 → x.toNat = u) ∧
          (n.toNat ≠ 64 → (narrowFormat n.toNat).isNan u = false →
            x.toNat = widenExact (narrowFormat n.toNat) u ∧ SameValue (narrowFormat n.toNat) u x.toNat) ∧
          (n.toNat ≠ 64 → (narrowFormat n.toNat).isNan u = true → binary64.isNan x.toNat = true))

/-- R406, R304: widening gives a binary64 pattern of the same value, for every pattern of the two narrow
formats that is no NaN: the same sign, and the same magnitude or infinity. The default narrowing undoes
it, so widening loses nothing. -/
def Obligations.NarrowUndoesWiden : Prop :=
  (∀ u, u < 2 ^ 16 → binary16.isNan u = false →
    widenExact binary16 u < 2 ^ 64 ∧ SameValue binary16 u (widenExact binary16 u) ∧
    narrowIeee binary16 (widenExact binary16 u) = u) ∧
  ∀ u, u < 2 ^ 32 → binary32.isNan u = false →
    widenExact binary32 u < 2 ^ 64 ∧ SameValue binary32 u (widenExact binary32 u) ∧
    narrowIeee binary32 (widenExact binary32 u) = u

/-- R400, R407, R408 to R412, R416: a composite decode command that finds the encoding of a value at the
cursor gives that value, its records in declaration order, and advances the cursor past it, whatever
follows; in TAO form or tail position too few bits follow for one more element, or the array is full. A
NaN of 16 or 32 bits comes back as some NaN (assumption 3, which also counts the draws). -/
def Obligations.DecodeFindsWhatWasEncoded : Prop :=
  ∀ (s : State) (v : Val) (t : Bool),
    checkTy s.ports.ty = none → conform s.ports.ty v = none → leavesReadable s.cfg s.ports.ty v →
    Holds s.cfg.bitOrder s.r (emit s.cfg s.ports.ty v t) →
    (∀ e ∈ tailRoom s.ports.ty v t, 8 * s.r.buf.length < s.r.pos + (emit s.cfg s.ports.ty v t).length + e) →
    ∃ (v' : Val) (draws : Nat), readsAs s.ports.ty v v' ∧
      (leavesFit s.cfg s.ports.ty v → v' = declOrder s.ports.ty v ∧ draws = s.nanDraws) ∧
      (s.ports.ty.isFixedArray = true → t = false →
        exec .decSarray s = .next
          { s with
            r := { s.r with pos := s.r.pos + (emit s.cfg s.ports.ty v t).length }
            nanDraws := draws
            result := endsWith 0x00 (.value v') }) ∧
      (s.ports.ty.isDynamicArray = true → (t = true → taoEligible s.ports.ty = true) →
        exec (.decDarray t) s = .next
          { s with
            r := { s.r with pos := s.r.pos + (emit s.cfg s.ports.ty v t).length }
            nanDraws := draws
            result := endsWith 0x00 (.value v') }) ∧
      (s.ports.ty.isUnion = true → t = false →
        exec .decUnion s = .next
          { s with
            r := { s.r with pos := s.r.pos + (emit s.cfg s.ports.ty v t).length }
            nanDraws := draws
            result := endsWith 0x00 (.value v') }) ∧
      (s.ports.ty.isStruct = true →
        exec (.decStruct t) s = .next
          { s with
            r := { s.r with pos := s.r.pos + (emit s.cfg s.ports.ty v t).length }
            nanDraws := draws
            result := endsWith 0x00 (.value v') })

/-- R413, R415, R416: DEC of a payload that begins with the encoding of a value loads the payload, gives
that value, its records in declaration order, and counts the bits after it, however many; for a Struct,
which is in tail position, they are too few for one more element of an array in TAO form, or that array
is full. A NaN of 16 or 32 bits comes back as some NaN (assumption 3, which also counts the draws). -/
def Obligations.DecodeWholePayload : Prop :=
  ∀ (s : State) (v : Val),
    checkTy s.ports.ty = none → conform s.ports.ty v = none → leavesReadable s.cfg s.ports.ty v →
    (∀ c ∈ s.cfg.rCapBytes, s.ports.bytes.length ≤ c) →
    Holds s.cfg.bitOrder { buf := s.ports.bytes, pos := 0 } (emit s.cfg s.ports.ty v s.ports.ty.isStruct) →
    (∀ e ∈ tailRoom s.ports.ty v s.ports.ty.isStruct,
      8 * s.ports.bytes.length < (emit s.cfg s.ports.ty v s.ports.ty.isStruct).length + e) →
    ∃ (v' : Val) (draws : Nat), readsAs s.ports.ty v v' ∧
      (leavesFit s.cfg s.ports.ty v → v' = declOrder s.ports.ty v ∧ draws = s.nanDraws) ∧
      exec .dec s = .next
        { s with
          r := { buf := s.ports.bytes, pos := (emit s.cfg s.ports.ty v s.ports.ty.isStruct).length }
          nanDraws := draws
          result := endsWith 0x00 (.decoded (some v')
            (8 * s.ports.bytes.length - (emit s.cfg s.ports.ty v s.ports.ty.isStruct).length)) }

/-- R416: DEC of what ENC gave out is the value that was encoded, records in declaration order, under
either bit order; fewer than 8 bits remain (R415). -/
def Obligations.DecodeOfEncodedPayload : Prop :=
  ∀ (s u : State),
    checkTy s.ports.ty = none → conform s.ports.ty s.ports.v = none →
    leavesFit s.cfg s.ports.ty s.ports.v →
    (∀ c ∈ s.cfg.wCapBits, encLen s.ports.ty s.ports.v s.ports.ty.isStruct ≤ c) →
    ∃ (t t' : State) (bytes : List Byte) (bits rem : Nat),
      exec .enc s = .next t ∧ t.result = endsWith 0x00 (.written bytes bits) ∧
      (u.cfg = s.cfg → u.ports.ty = s.ports.ty → u.ports.bytes = bytes →
        (∀ c ∈ u.cfg.rCapBytes, bytes.length ≤ c) →
        exec .dec u = .next t' ∧
        t'.result = endsWith 0x00 (.decoded (some (declOrder s.ports.ty s.ports.v)) rem) ∧ rem < 8 ∧
        t' = { u with r := { buf := bytes, pos := bits }, result := t'.result })

/-- R400, R407, R410 to R414: a length prefix beyond the array's maximum is BadArrayLength, a union tag past
the fields is BadUnionTag; a missing prefix or tag, content that ends within the encoding of a value not
in TAO form, and any content too short for a type of fixed length are TruncatedPayload. The first error of
a part, a field of a Struct, an element of an array, the member of a Union, the whole of a payload, is the
error of the command. In each case the reader stays where it was. -/
def Obligations.DecodeErrorsKeepReader : Prop :=
  ∀ (s : State), readerInv s.r → checkTy s.ports.ty = none →
    (∀ e m k, s.ports.ty = .array e .dynamic m → m < k → k < 2 ^ bitlen m →
      Holds s.cfg.bitOrder s.r (fieldBits s.cfg.bitOrder (bitlen m) k) → FailsWith (.decDarray false) s 0x21) ∧
    (∀ fs k, s.ports.ty = .union fs → fs.toList.length ≤ k → k < 2 ^ bitlen (fs.toList.length - 1) →
      Holds s.cfg.bitOrder s.r (fieldBits s.cfg.bitOrder (bitlen (fs.toList.length - 1)) k) →
      FailsWith .decUnion s 0x22) ∧
    (∀ e m, s.ports.ty = .array e .dynamic m → 8 * s.r.buf.length < s.r.pos + bitlen m →
      FailsWith (.decDarray false) s 0x20) ∧
    (∀ fs, s.ports.ty = .union fs → 8 * s.r.buf.length < s.r.pos + bitlen (fs.toList.length - 1) →
      FailsWith .decUnion s 0x20) ∧
    (∀ t, fixedLength s.ports.ty = true → 8 * s.r.buf.length < s.r.pos + maxBits s.ports.ty →
      FailsWith (decodeCommand s.ports.ty t) s 0x20) ∧
    (∀ t v, conform s.ports.ty v = none → taoSaved s.ports.ty t = 0 →
      CutShort s.cfg.bitOrder s.r (emit s.cfg s.ports.ty v t) →
      FailsWith (decodeCommand s.ports.ty t) s 0x20) ∧
    (∀ code t fs (pre post : Fields) name T es, s.ports.ty = .struct fs →
      fs.toList = pre.toList ++ (name, T) :: post.toList →
      conform (.struct pre) (.record es) = none →
      Holds s.cfg.bitOrder s.r (emit s.cfg (.struct pre) (.record es) false) →
      FailsWith (decodeCommand T (t && post.toList.isEmpty))
        (atPart s T (emit s.cfg (.struct pre) (.record es) false).length) code →
      FailsWith (.decStruct t) s code) ∧
    (∀ code E m (vs : List Val), s.ports.ty = .array E .fixed m → vs.length < m → (∀ v ∈ vs, conform E v = none) →
      Holds s.cfg.bitOrder s.r (vs.flatMap fun v => emit s.cfg E v false) →
      FailsWith (decodeCommand E false)
        (atPart s E (vs.flatMap fun v => emit s.cfg E v false).length) code →
      FailsWith .decSarray s code) ∧
    (∀ code E m n (vs : List Val), s.ports.ty = .array E .dynamic m → vs.length < n → n ≤ m →
      (∀ v ∈ vs, conform E v = none) →
      Holds s.cfg.bitOrder s.r
        (fieldBits s.cfg.bitOrder (bitlen m) n ++ vs.flatMap fun v => emit s.cfg E v false) →
      FailsWith (decodeCommand E false)
        (atPart s E (bitlen m + (vs.flatMap fun v => emit s.cfg E v false).length)) code →
      FailsWith (.decDarray false) s code) ∧
    (∀ code fs k name T, s.ports.ty = .union fs → fs.toList[k]? = some (name, T) →
      Holds s.cfg.bitOrder s.r (fieldBits s.cfg.bitOrder (bitlen (fs.toList.length - 1)) k) →
      FailsWith (decodeCommand T false) (atPart s T (bitlen (fs.toList.length - 1))) code →
      FailsWith .decUnion s code) ∧
    ∀ code, (∀ c ∈ s.cfg.rCapBytes, s.ports.bytes.length ≤ c) →
      FailsWith (decodeCommand s.ports.ty s.ports.ty.isStruct)
        { s with r := { buf := s.ports.bytes, pos := 0 } } code →
      FailsWith .dec s code

/-! ### Identifiers, tail byte, transfer ids -/

/-- R500, R503: CANID.MSG and CANID.SVC build the identifier from its fields; an operand out of range is
InvalidArgument. -/
def Obligations.BuildIdentifiers : Prop :=
  encode .canidMsg = 0x00000040 ∧ encode .canidSvc = 0x00000042 ∧
  ∀ s : State,
    (s.ports.prio ≤ 31 ∧ s.ports.dtid ≤ 65535 ∧ 1 ≤ s.ports.src ∧ s.ports.src ≤ 127 →
      ∃ id : CanId, exec .canidMsg s = .next { s with result := endsWith 0x00 (.canId id) } ∧
        id.toNat = s.ports.prio * 2 ^ 24 + s.ports.dtid * 2 ^ 8 + s.ports.src) ∧
    (31 < s.ports.prio ∨ 65535 < s.ports.dtid ∨ s.ports.src < 1 ∨ 127 < s.ports.src →
      exec .canidMsg s = .next (faulted 0x34 s)) ∧
    (s.ports.prio ≤ 31 ∧ s.ports.dtid ≤ 255 ∧ (s.ports.kind = 1 ∨ s.ports.kind = 2) ∧
        1 ≤ s.ports.dst ∧ s.ports.dst ≤ 127 ∧ 1 ≤ s.ports.src ∧ s.ports.src ≤ 127 →
      ∃ id : CanId, exec .canidSvc s = .next { s with result := endsWith 0x00 (.canId id) } ∧
        id.toNat = s.ports.prio * 2 ^ 24 + s.ports.dtid * 2 ^ 16 + (2 - s.ports.kind) * 2 ^ 15 +
          s.ports.dst * 2 ^ 8 + 2 ^ 7 + s.ports.src) ∧
    (31 < s.ports.prio ∨ 255 < s.ports.dtid ∨ (s.ports.kind ≠ 1 ∧ s.ports.kind ≠ 2) ∨
        s.ports.dst < 1 ∨ 127 < s.ports.dst ∨ s.ports.src < 1 ∨ 127 < s.ports.src →
      exec .canidSvc s = .next (faulted 0x34 s))

/-- R501, R502: CANID.ANON and ANON.DISC, the discriminator the low 14 bits of the payload's CRC-16 by
default; more than 7 bytes are AnonymousTooLong for CANID.ANON. -/
def Obligations.AnonymousIdentifiers : Prop :=
  encode .canidAnon = 0x00000041 ∧ encode .anonDisc = 0x00000048 ∧
  ∀ s : State,
    (∃ disc : BitVec 14, exec .anonDisc s = .next { s with result := endsWith 0x00 (.disc disc) } ∧
      (s.cfg.anonDisc = .crcLow14 →
        disc.toNat = crc16Nat 0xFFFF (s.ports.payload.map (·.toNat)) % 2 ^ 14) ∧
      (s.ports.prio ≤ 31 ∧ s.ports.dtid ≤ 65535 ∧ s.ports.payload.length ≤ 7 →
        ∃ id : CanId, exec .canidAnon s = .next { s with result := endsWith 0x00 (.canId id) } ∧
          id.toNat = s.ports.prio * 2 ^ 24 + disc.toNat * 2 ^ 10 + s.ports.dtid % 4 * 2 ^ 8)) ∧
    (31 < s.ports.prio ∨ 65535 < s.ports.dtid → exec .canidAnon s = .next (faulted 0x34 s)) ∧
    (s.ports.prio ≤ 31 ∧ s.ports.dtid ≤ 65535 ∧ 7 < s.ports.payload.length →
      exec .canidAnon s = .next (faulted 0x35 s))

/-- R504: CANID.DEC reads every field out of a 29-bit identifier, by its kind. -/
def Obligations.ReadIdentifier : Prop :=
  encode .canidDec = 0x00000043 ∧
  ∀ s : State,
    (2 ^ 29 ≤ s.ports.id → exec .canidDec s = .next (faulted 0x34 s)) ∧
    (s.ports.id < 2 ^ 29 → ∃ f : IdFields,
      exec .canidDec s = .next { s with result := endsWith 0x00 (.idFields f) } ∧
      f.prio.toNat = s.ports.id / 2 ^ 24 ∧
      (s.ports.id / 2 ^ 7 % 2 = 1 →
        f.kind = (if s.ports.id / 2 ^ 15 % 2 = 1 then .request else .response) ∧ f.anon = false ∧
        f.dtid.toNat = s.ports.id / 2 ^ 16 % 2 ^ 8 ∧ f.src.toNat = s.ports.id % 2 ^ 7 ∧
        f.dst.toNat = s.ports.id / 2 ^ 8 % 2 ^ 7 ∧ f.disc = 0) ∧
      (s.ports.id / 2 ^ 7 % 2 = 0 → s.ports.id % 2 ^ 7 = 0 →
        f.kind = .broadcast ∧ f.anon = true ∧ f.dtid.toNat = s.ports.id / 2 ^ 8 % 4 ∧ f.src = 0 ∧
        f.dst = 0 ∧ f.disc.toNat = s.ports.id / 2 ^ 10 % 2 ^ 14) ∧
      (s.ports.id / 2 ^ 7 % 2 = 0 → s.ports.id % 2 ^ 7 ≠ 0 →
        f.kind = .broadcast ∧ f.anon = false ∧ f.dtid.toNat = s.ports.id / 2 ^ 8 % 2 ^ 16 ∧
        f.src.toNat = s.ports.id % 2 ^ 7 ∧ f.dst = 0 ∧ f.disc = 0))

/-- R104, R105, R106, R109, R504: the fields read out of an identifier are the fields it was built from,
and so is its transfer descriptor. -/
def Obligations.IdentifierRoundTrip : Prop :=
  (∀ (prio : BitVec 5) (dtid : BitVec 16) (src : NodeId), src ≠ 0 →
    idFields (messageId prio dtid src) =
      { prio := prio, kind := .broadcast, anon := false, dtid := dtid, src := src, dst := 0, disc := 0 } ∧
    descriptor (messageId prio dtid src) = { dtid := dtid, kind := .broadcast, src := src, dst := 0 }) ∧
  (∀ (prio : BitVec 5) (disc : BitVec 14) (dtid : BitVec 2),
    idFields (anonymousId prio disc dtid) =
      { prio := prio, kind := .broadcast, anon := true, dtid := dtid.setWidth 16, src := 0, dst := 0,
        disc := disc } ∧
    descriptor (anonymousId prio disc dtid) =
      { dtid := dtid.setWidth 16, kind := .broadcast, src := 0, dst := 0 }) ∧
  ∀ (prio : BitVec 5) (dtid : BitVec 8) (request : Bool) (dst src : NodeId),
    idFields (serviceId prio dtid request dst src) =
      { prio := prio, kind := if request then .request else .response, anon := false,
        dtid := dtid.setWidth 16, src := src, dst := dst, disc := 0 } ∧
    descriptor (serviceId prio dtid request dst src) =
      { dtid := dtid.setWidth 16, kind := if request then .request else .response, src := src, dst := dst }

/-- R505, R506: CANID.CMP compares the 11-bit prefixes of frames of different formats, a tie to the
standard one; the data frame before the RTR frame of the same identifier; else the identifiers. -/
def Obligations.CompareFrames : Prop :=
  encode .canidCmp = 0x00000044 ∧
  ∀ s : State,
    let a := s.ports.fa
    let b := s.ports.fb
    let good (f : Frame) : Prop := f.data.length ≤ 8 ∧ f.id < (if f.ext = true then 2 ^ 29 else 2 ^ 11)
    (¬good a ∨ ¬good b → exec .canidCmp s = .next (faulted 0x34 s)) ∧
    (good a → good b → ∃ o : Int, exec .canidCmp s = .next { s with result := endsWith 0x00 (.order o) } ∧
      (a.ext = true → b.ext = false → o = if a.id / 2 ^ 18 < b.id then -1 else 1) ∧
      (a.ext = false → b.ext = true → o = if b.id / 2 ^ 18 < a.id then 1 else -1) ∧
      (a.ext = b.ext → a.id < b.id → o = -1) ∧ (a.ext = b.ext → b.id < a.id → o = 1) ∧
      (a.ext = b.ext → a.id = b.id → o = if a.rtr = b.rtr then 0 else if a.rtr = true then 1 else -1))

/-- R506, R507: the arbitration order is a total order on identifier, format and RTR: antisymmetric, with
a tie only between frames alike in all three, and transitive; and of two extended identifiers that
differ only in priority the lower priority value wins. -/
def Obligations.ArbitrationIsATotalOrder : Prop :=
  (∀ a b : Frame, arbitrate b a = -arbitrate a b) ∧
  (∀ a b : Frame, arbitrate a b = 0 ↔ a.id = b.id ∧ a.ext = b.ext ∧ a.rtr = b.rtr) ∧
  (∀ a b c : Frame, arbitrate a b ≤ 0 → arbitrate b c ≤ 0 → arbitrate a c ≤ 0) ∧
  ∀ (p q low : Nat) (a b : Frame), a.ext = true → b.ext = true → low < 2 ^ 24 →
    a.id = p * 2 ^ 24 + low → b.id = q * 2 ^ 24 + low → p < q → arbitrate a b = -1

/-- R508, R509, R510: TAIL.ENC packs a tail byte, TAIL.DEC unpacks one, TID.DIST gives the forward
distance modulo 32; an operand out of range is InvalidArgument. -/
def Obligations.TailBytesAndDistance : Prop :=
  encode .tailEnc = 0x00000045 ∧ encode .tailDec = 0x00000046 ∧ encode .tidDist = 0x00000047 ∧
  ∀ s : State,
    (s.ports.sot ≤ 1 ∧ s.ports.eot ≤ 1 ∧ s.ports.tog ≤ 1 ∧ s.ports.tid ≤ 31 →
      ∃ b : Byte, exec .tailEnc s = .next { s with result := endsWith 0x00 (.tailByte b) } ∧
        b.toNat = 128 * s.ports.sot + 64 * s.ports.eot + 32 * s.ports.tog + s.ports.tid) ∧
    (1 < s.ports.sot ∨ 1 < s.ports.eot ∨ 1 < s.ports.tog ∨ 31 < s.ports.tid →
      exec .tailEnc s = .next (faulted 0x34 s)) ∧
    (s.ports.b ≤ 255 → ∃ (sot eot tog : Bool) (tid : TransferId),
      exec .tailDec s = .next { s with result := endsWith 0x00 (.tailFields sot eot tog tid) } ∧
      s.ports.b = 128 * sot.toNat + 64 * eot.toNat + 32 * tog.toNat + tid.toNat) ∧
    (255 < s.ports.b → exec .tailDec s = .next (faulted 0x34 s)) ∧
    (s.ports.ta ≤ 31 ∧ s.ports.tb ≤ 31 → ∃ d : TransferId,
      exec .tidDist s = .next { s with result := endsWith 0x00 (.distance d) } ∧
      (d.toNat : Int) = ((s.ports.tb : Int) - s.ports.ta) % 32) ∧
    (31 < s.ports.ta ∨ 31 < s.ports.tb → exec .tidDist s = .next (faulted 0x34 s))

/-! ### Generator -/

/-- R600, R604, R114: GEN.START loads the registers and gives the frame count; its faults, in order, leave
the generator as it was. GEN.COUNT gives the frame count alone. -/
def Obligations.GeneratorStart : Prop :=
  encode .genStart = 0x00000050 ∧ encode .genCount = 0x00000053 ∧
  ∀ s : State,
    let p := s.ports
    let len := p.payload.length
    let anon := p.id % 2 ^ 8 = 0
    exec .genCount s = .next
      { s with result := endsWith 0x00 (.count (if len < 8 then 1 else (len - 5 + 6) / 7 + 1)) } ∧
    (2 ^ 29 ≤ p.id ∨ 31 < p.tid ∨ 2 ^ 64 ≤ p.sig → exec .genStart s = .next (faulted 0x34 s)) ∧
    (p.id < 2 ^ 29 → p.tid ≤ 31 → p.sig < 2 ^ 64 →
      ((∃ c ∈ s.cfg.genMaxPayload, c < len) → exec .genStart s = .next (faulted 0x34 s)) ∧
      ((∀ c ∈ s.cfg.genMaxPayload, len ≤ c) → anon → 7 < len → exec .genStart s = .next (faulted 0x35 s)) ∧
      ((∀ c ∈ s.cfg.genMaxPayload, len ≤ c) → (anon → len ≤ 7) →
        ∃ g : Gen, exec .genStart s = .next
            { s with
              g := g
              result := endsWith 0x00 (.count (if len < 8 then 1 else (len - 5 + 6) / 7 + 1)) } ∧
          g.active = true ∧ g.id.toNat = p.id ∧ g.tid.toNat = p.tid ∧ g.payload = p.payload ∧
          g.multi = decide (8 ≤ len) ∧ g.off = 0 ∧ g.idx = 0 ∧
          g.crc = if len < 8 then 0 else xferCrc (BitVec.ofNat 64 p.sig) p.payload))

/-- R602, R603: GEN.NEXT in each of its cases: idle, single frame, first frame, later frame; GEN.ABORT
drops the sequence. -/
def Obligations.GeneratorNext : Prop :=
  encode .genNext = 0x00000051 ∧ encode .genAbort = 0x00000052 ∧
  ∀ s : State,
    let g := s.g
    let frame (data : List Byte) : Frame :=
      { id := g.id.toNat, ext := true, rtr := false, err := false, data := data }
    exec .genAbort s = .next { s with g := { g with active := false }, result := endsWith 0x00 .none } ∧
    (g.active = false → exec .genNext s = .next { s with result := endsWith 0x03 .none }) ∧
    (g.active = true → g.multi = false → exec .genNext s = .next
      { s with
        g := { g with active := false, idx := g.idx + 1 }
        result := endsWith 0x00 (.genFrame (frame (g.payload ++ [tailByte true true false g.tid])) true) }) ∧
    (g.active = true → g.multi = true → g.idx = 0 → exec .genNext s = .next
      { s with
        g := { g with off := 5, idx := 1 }
        result := endsWith 0x00 (.genFrame
          (frame ([g.crc.extractLsb' 0 8, g.crc.extractLsb' 8 8] ++ g.payload.take 5 ++
            [tailByte true false false g.tid])) false) }) ∧
    (g.active = true → g.multi = true → g.idx ≠ 0 → ∀ chunk, chunk = (g.payload.drop g.off).take 7 →
      ∀ last, last = decide (g.payload.length ≤ g.off + 7) → exec .genNext s = .next
      { s with
        g := { g with active := !last, off := g.off + chunk.length, idx := g.idx + 1 }
        result := endsWith 0x00 (.genFrame
          (frame (chunk ++ [tailByte false last (g.idx % 2 == 1) g.tid])) last) })

/-- R601, R605 item 1: GEN.START and then GEN.NEXT commands hand out exactly the frames of R601, the last
one marked, and then GEN_DONE. -/
def Obligations.GeneratorHandsOutFrames : Prop :=
  ∀ (s : State) (p : Ports) (id : CanId) (tid : TransferId) (sig : Signature),
    p.id = id.toNat → p.tid = tid.toNat → p.sig = sig.toNat →
    (∀ c ∈ s.cfg.genMaxPayload, p.payload.length ≤ c) →
    (id.toNat % 2 ^ 8 = 0 → p.payload.length ≤ 7) →
    (serve (pseudoGenAll p) s).1 =
      [endsWith 0x00 (.count (framesOf id tid sig p.payload).length)] ++
      (framesOf id tid sig p.payload).dropLast.map (fun f => endsWith 0x00 (.genFrame f false)) ++
      (framesOf id tid sig p.payload).getLast?.toList.map (fun f => endsWith 0x00 (.genFrame f true)) ++
      [endsWith 0x03 .none]

/-- R605 items 2 and 3, R102, R114: the frames carry the payload, in order and whole; each is extended,
with 1 to 8 data bytes; SOT stands in the first alone, EOT in the last alone, the toggle alternates
from 0, and all have the transfer id. -/
def Obligations.FramesCarryThePayload : Prop :=
  ∀ (id : CanId) (tid : TransferId) (sig : Signature) (p : List Byte),
    let fs := framesOf id tid sig p
    fs.length = (if p.length < 8 then 1 else (p.length - 5 + 6) / 7 + 1) ∧
    (fs.zipIdx.map fun x => carried (8 ≤ p.length) x.2 x.1).flatten = p ∧
    ∀ k f, fs[k]? = some f →
      f.id = id.toNat ∧ f.ext = true ∧ f.rtr = false ∧ f.err = false ∧
      1 ≤ f.data.length ∧ f.data.length ≤ 8 ∧
      f.data.getLast? = some (tailByte (k == 0) (k + 1 == fs.length) (k % 2 == 1) tid)

/-! ### Reassembler -/

/-- R709, R701: a well-formed frame in standard format, an RTR frame, an error frame or a frame without
data is IncompatibleFrame and changes nothing; an ill-formed frame or timestamp is InvalidArgument. -/
def Obligations.IncompatibleFrames : Prop :=
  encode .rxFrame = 0x00000060 ∧
  ∀ s : State,
    let f := s.ports.frame
    let good : Prop := f.data.length ≤ 8 ∧ f.id < (if f.ext = true then 2 ^ 29 else 2 ^ 11) ∧ s.ports.now < 2 ^ 64
    (¬good → exec .rxFrame s = .next (faulted 0x34 s)) ∧
    (good → f.ext = false ∨ f.rtr = true ∨ f.err = true ∨ f.data = [] →
      exec .rxFrame s = .next { s with result := endsWith 0x10 (.frames [f]) })

/-- R702, R703: the predicate is asked for start frames alone; a refused start frame, a start frame that
finds the table full and a later frame without an entry change nothing. -/
def Obligations.FramesWithoutEntry : Prop :=
  ∀ (s : State) (body : List Byte) (sot eot tog : Bool) (tid : TransferId), Receivable s →
    s.ports.frame.data = body ++ [tailByte sot eot tog tid] →
    let f := s.ports.frame
    let d := descriptor (BitVec.ofNat 29 f.id)
    (sot = true → s.ports.accept = none →
      exec .rxFrame s = .next { s with result := some { status := 0x01, out := .none, asked := some d } }) ∧
    (sot = true → s.ports.accept ≠ none → tableGet s.rxTable d = none →
      s.cfg.rxCap = some s.rxTable.length →
      exec .rxFrame s = .next { s with result := some { status := 0x16, out := .frames [f], asked := some d } }) ∧
    (sot = false → tableGet s.rxTable d = none →
      exec .rxFrame s = .next { s with result := some { status := 0x11, out := .frames [f], asked := none } })

/-- R707, R712: an accepted single-frame transfer is emitted at once, payload = data without the tail byte,
whatever the entry holds and whatever the toggle is; the entry is then idle, at the id after the
frame's or, by RESET_TID_BASE, the stored one. -/
def Obligations.SingleFrameTransfer : Prop :=
  ∀ (s : State) (body : List Byte) (tog : Bool) (tid cur : TransferId) (sig : Signature), Receivable s →
    s.ports.frame.data = body ++ [tailByte true true tog tid] → s.ports.accept = some sig →
    let f := s.ports.frame
    let d := descriptor (BitVec.ofNat 29 f.id)
    (tableGet s.rxTable d = none → s.cfg.rxCap ≠ some s.rxTable.length ∧ cur = tid) →
    (∀ st ∈ tableGet s.rxTable d, cur = if startRestarts st tid s.ports.now then tid else st.tid) →
    ∃ t st, exec .rxFrame s = .next t ∧ idleWith (resetBase s.cfg tid cur + 1) s.ports.now st ∧
      rxEnded s t d st 0x02 (.transfer { desc := d, tid := tid, payload := body, frames := [f] }) (some d)

/-- R704, R706, R710, R711: an accepted start frame of a multi-frame transfer. The toggle, the id and the
frames it is held against are those of a restart (toggle 0, its own id, none) where the entry is new or
restarts, and the entry's otherwise. Another toggle is WrongToggle, another id UnexpectedTransferId,
3 or fewer bytes ShortFrame; else the transfer begins. The report of an error repeats no frame: the
model's reading of R712 (assumption 13). -/
def Obligations.MultiFrameStart : Prop :=
  ∀ (s : State) (body : List Byte) (tog held : Bool) (tid cur : TransferId) (frames : List Frame)
    (sig : Signature), Receivable s →
    s.ports.frame.data = body ++ [tailByte true false tog tid] → s.ports.accept = some sig →
    let f := s.ports.frame
    let d := descriptor (BitVec.ofNat 29 f.id)
    let report : List Frame := if f ∈ frames then frames else frames ++ [f]
    (tableGet s.rxTable d = none →
      s.cfg.rxCap ≠ some s.rxTable.length ∧ held = false ∧ cur = tid ∧ frames = []) →
    (∀ st ∈ tableGet s.rxTable d,
      if startRestarts st tid s.ports.now then held = false ∧ cur = tid ∧ frames = []
      else held = st.toggle ∧ cur = st.tid ∧ frames = st.frames) →
    ∃ t st, exec .rxFrame s = .next t ∧
      (tog ≠ held → idleWith (resetBase s.cfg tid cur + 1) s.ports.now st ∧
        rxEnded s t d st 0x12 (.frames report) (some d)) ∧
      (tog = held → tid ≠ cur → idleWith (resetBase s.cfg tid cur + 1) s.ports.now st ∧
        rxEnded s t d st 0x13 (.frames report) (some d)) ∧
      (tog = held → tid = cur → f.data.length ≤ 3 →
        idleWith (tid + 1) s.ports.now st ∧ rxEnded s t d st 0x14 (.frames report) (some d)) ∧
      (tog = held → tid = cur → 3 < f.data.length → rxEnded s t d st 0x01 .none (some d) ∧
        st.initialized = true ∧ st.collecting = true ∧ st.tid = tid ∧ st.toggle = !tog ∧
        st.lastTs.toNat = s.ports.now ∧ st.buf = body.drop 2 ∧ st.frames = [f] ∧ st.signature = sig ∧
        st.crcExpected.toNat = (body.getD 0 0).toNat + 256 * (body.getD 1 0).toNat)

/-- R710, R713, R714, R258: a later frame of the transfer being collected, in time, with the expected
toggle and transfer id: the buffer's limit, then the frame is added; at the end the transfer CRC decides
between the transfer and BadCrc. The report of PayloadOverflow repeats no frame (assumption 13). -/
def Obligations.MultiFrameContinue : Prop :=
  ∀ (s : State) (body : List Byte) (eot : Bool) (st : RxState), Receivable s →
    let f := s.ports.frame
    let d := descriptor (BitVec.ofNat 29 f.id)
    f.data = body ++ [tailByte false eot st.toggle st.tid] → tableGet s.rxTable d = some st →
    st.initialized = true → st.collecting = true → s.ports.now ≤ st.lastTs.toNat + 2000000 →
    ∃ t st', exec .rxFrame s = .next t ∧
      ((∃ m ∈ s.cfg.rxMaxPayload, m < st.buf.length + body.length) →
        idleWith (st.tid + 1) s.ports.now st' ∧
        rxEnded s t d st' 0x17 (.frames (if f ∈ st.frames then st.frames else st.frames ++ [f])) none) ∧
      ((∀ m ∈ s.cfg.rxMaxPayload, st.buf.length + body.length ≤ m) →
        (eot = false → rxEnded s t d st' 0x01 .none none ∧
          st' = { st with
            toggle := !st.toggle, lastTs := BitVec.ofNat 64 s.ports.now, buf := st.buf ++ body,
            frames := st.frames ++ [f] }) ∧
        (eot = true → idleWith (st.tid + 1) s.ports.now st' ∧
          (xferCrc st.signature (st.buf ++ body) ≠ st.crcExpected →
            rxEnded s t d st' 0x15 (.frames (st.frames ++ [f])) none) ∧
          (xferCrc st.signature (st.buf ++ body) = st.crcExpected →
            rxEnded s t d st' 0x02 (.transfer { desc := d, tid := st.tid, payload := st.buf ++ body,
                                                frames := st.frames ++ [f] }) none)))

/-- R704 to R706, R708, R710: a frame that starts nothing, at an entry: after T_TIMEOUT or on an idle
entry it is MissedTransferStart; with another toggle than expected WrongToggle; with the toggle but
another transfer id UnexpectedTransferId. The entry ends idle. The reports of the last two repeat no
frame (assumption 13). -/
def Obligations.LaterFrameRejected : Prop :=
  ∀ (s : State) (body : List Byte) (eot tog : Bool) (tid : TransferId) (st : RxState), Receivable s →
    let f := s.ports.frame
    let d := descriptor (BitVec.ofNat 29 f.id)
    let report : List Frame := if f ∈ st.frames then st.frames else st.frames ++ [f]
    f.data = body ++ [tailByte false eot tog tid] → tableGet s.rxTable d = some st →
    ∃ t st', exec .rxFrame s = .next t ∧
      (st.initialized = false ∨ st.lastTs.toNat + 2000000 < s.ports.now →
        idleWith (tid + 1) s.ports.now st' ∧ rxEnded s t d st' 0x11 (.frames [f]) none) ∧
      (st.initialized = true → s.ports.now ≤ st.lastTs.toNat + 2000000 →
        (st.collecting = false →
          idleWith (resetBase s.cfg tid st.tid + 1) s.ports.now st' ∧
          rxEnded s t d st' 0x11 (.frames [f]) none) ∧
        (st.collecting = true → tog ≠ st.toggle →
          idleWith (resetBase s.cfg tid st.tid + 1) s.ports.now st' ∧
          rxEnded s t d st' 0x12 (.frames report) none) ∧
        (st.collecting = true → tog = st.toggle → tid ≠ st.tid →
          idleWith (resetBase s.cfg tid st.tid + 1) s.ports.now st' ∧
          rxEnded s t d st' 0x13 (.frames report) none))

/-- R701, R811: RX.FRAME changes the entry of one descriptor at most, the frame's; it never removes an
entry. A well-formed frame and timestamp leave SYS alone, whatever comes of them; an ill-formed one is
InvalidArgument. -/
def Obligations.FrameTouchesOnlyItsEntry : Prop :=
  ∀ s : State, ∃ t, exec .rxFrame s = .next t ∧
    (∀ d, d ≠ descriptor (BitVec.ofNat 29 s.ports.frame.id) → tableGet t.rxTable d = tableGet s.rxTable d) ∧
    (∀ d, tableGet s.rxTable d ≠ none → tableGet t.rxTable d ≠ none) ∧
    t.rxLastSweep = s.rxLastSweep ∧
    let f := s.ports.frame
    if f.data.length ≤ 8 ∧ f.id < (if f.ext = true then 2 ^ 29 else 2 ^ 11) ∧ s.ports.now < 2 ^ 64 then
      t.sys = s.sys
    else t = faulted 0x34 s

/-- R605 item 5, R724 item 1, R601: the frames of a transfer, fed in order to a reassembler that has no
entry for their descriptor and room for one, with the sender's signature and no gap beyond T_TIMEOUT,
give RX_NONE for each but the last and the transfer, whole, on the last. -/
def Obligations.ReassemblesGeneratedTransfer : Prop :=
  ∀ (s : State) (p : Ports) (id : CanId) (tid : TransferId) (sig : Signature) (payload : List Byte)
    (times : List Nat),
    let fs := framesOf id tid sig payload
    p.accept = some sig → times.length = fs.length → (∀ n ∈ times, n < 2 ^ 64) →
    times.IsChain (fun a b => b ≤ a + 2000000) →
    tableGet s.rxTable (descriptor id) = none → s.cfg.rxCap ≠ some s.rxTable.length →
    (∀ m ∈ s.cfg.rxMaxPayload, payload.length ≤ m) →
    (serve ((fs.zip times).map fun x => command .rxFrame { p with frame := x.1, now := x.2 }) s).1.map
        (·.map Result.ending) =
      List.replicate (fs.length - 1) (some (0x01, .none)) ++
      [some (0x02, .transfer { desc := descriptor id, tid := tid, payload := payload, frames := fs })]

/-- R721: RX.SWEEP runs at most once in T_SWEEP; when it runs it removes exactly the entries older than
T_TIMEOUT and counts them. -/
def Obligations.SweepEvictsStaleEntries : Prop :=
  encode .rxSweep = 0x00000061 ∧
  ∀ s : State,
    let now := s.ports.now
    let stale (st : RxState) : Bool := decide (st.lastTs.toNat + 2000000 < now)
    (2 ^ 64 ≤ now → exec .rxSweep s = .next (faulted 0x34 s)) ∧
    (now < 2 ^ 64 → (∃ l ∈ s.rxLastSweep, now < l.toNat + 1000000) →
      exec .rxSweep s = .next { s with result := endsWith 0x00 (.swept false 0) }) ∧
    (now < 2 ^ 64 → (∀ l ∈ s.rxLastSweep, l.toNat + 1000000 ≤ now) →
      ∃ l : Time, l.toNat = now ∧ exec .rxSweep s = .next
        { s with
          rxTable := s.rxTable.filter (fun e => !stale e.2), rxLastSweep := some l
          result := endsWith 0x00 (.swept true (s.rxTable.countP fun e => stale e.2)) })

/-- R722, R723: RX.CLEAR empties the table and keeps the time of the last sweep; RX.LOOKUP copies one entry
out and changes nothing; a descriptor out of range is InvalidArgument. -/
def Obligations.ClearAndLookup : Prop :=
  encode .rxClear = 0x00000062 ∧ encode .rxLookup = 0x00000063 ∧
  ∀ s : State,
    exec .rxClear s = .next { s with rxTable := [], result := endsWith 0x00 .none } ∧
    (2 < s.ports.desc.kind ∨ 65535 < s.ports.desc.dtid ∨ 127 < s.ports.desc.src ∨ 127 < s.ports.desc.dst →
      exec .rxLookup s = .next (faulted 0x34 s)) ∧
    ∀ d : Desc, s.ports.desc = { dtid := d.dtid.toNat, kind := kindNumber d.kind, src := d.src.toNat,
                                 dst := d.dst.toNat } →
      (tableGet s.rxTable d = none → exec .rxLookup s = .next { s with result := endsWith 0x00 (.entry none) }) ∧
      ∀ st, tableGet s.rxTable d = some st → exec .rxLookup s = .next
        { s with
          result := endsWith 0x00 (.entry (some
            { initialized := st.initialized, collecting := st.collecting, tid := st.tid, toggle := st.toggle,
              lastTs := st.lastTs, bufLen := st.buf.length, frameCount := st.frames.length })) }
end

