-- ==== Sys2Proof/Laws/State.lean ====
section
/-! SUPPORT. One lemma per field for each named update of the state and of a table entry, true by `rfl`,
so that no proof unfolds a record update. -/

namespace Sys2Proof.Machine

/-! ### The end of a command -/

@[simp] theorem withResult_cfg (st : Status) (out : Output) (s : State) :
    (withResult st out s).cfg = s.cfg := rfl
@[simp] theorem withResult_w (st : Status) (out : Output) (s : State) : (withResult st out s).w = s.w := rfl
@[simp] theorem withResult_r (st : Status) (out : Output) (s : State) : (withResult st out s).r = s.r := rfl
@[simp] theorem withResult_c16 (st : Status) (out : Output) (s : State) :
    (withResult st out s).c16 = s.c16 := rfl
@[simp] theorem withResult_c64 (st : Status) (out : Output) (s : State) :
    (withResult st out s).c64 = s.c64 := rfl
@[simp] theorem withResult_g (st : Status) (out : Output) (s : State) : (withResult st out s).g = s.g := rfl
@[simp] theorem withResult_rxTable (st : Status) (out : Output) (s : State) :
    (withResult st out s).rxTable = s.rxTable := rfl
@[simp] theorem withResult_rxLastSweep (st : Status) (out : Output) (s : State) :
    (withResult st out s).rxLastSweep = s.rxLastSweep := rfl
@[simp] theorem withResult_sys (st : Status) (out : Output) (s : State) :
    (withResult st out s).sys = s.sys := rfl
@[simp] theorem withResult_cmds (st : Status) (out : Output) (s : State) :
    (withResult st out s).cmds = s.cmds := rfl
@[simp] theorem withResult_ports (st : Status) (out : Output) (s : State) :
    (withResult st out s).ports = s.ports := rfl
@[simp] theorem withResult_result (st : Status) (out : Output) (s : State) :
    (withResult st out s).result = some { status := statusCode st, out := out, asked := none } := rfl
@[simp] theorem withResult_nanDraws (st : Status) (out : Output) (s : State) :
    (withResult st out s).nanDraws = s.nanDraws := rfl

@[simp] theorem faulted_cfg (code : BitVec 8) (s : State) : (faulted code s).cfg = s.cfg := rfl
@[simp] theorem faulted_w (code : BitVec 8) (s : State) : (faulted code s).w = s.w := rfl
@[simp] theorem faulted_r (code : BitVec 8) (s : State) : (faulted code s).r = s.r := rfl
@[simp] theorem faulted_c16 (code : BitVec 8) (s : State) : (faulted code s).c16 = s.c16 := rfl
@[simp] theorem faulted_c64 (code : BitVec 8) (s : State) : (faulted code s).c64 = s.c64 := rfl
@[simp] theorem faulted_g (code : BitVec 8) (s : State) : (faulted code s).g = s.g := rfl
@[simp] theorem faulted_rxTable (code : BitVec 8) (s : State) : (faulted code s).rxTable = s.rxTable := rfl
@[simp] theorem faulted_rxLastSweep (code : BitVec 8) (s : State) :
    (faulted code s).rxLastSweep = s.rxLastSweep := rfl
@[simp] theorem faulted_sys (code : BitVec 8) (s : State) :
    (faulted code s).sys = recordFault code s.sys := rfl
@[simp] theorem faulted_cmds (code : BitVec 8) (s : State) : (faulted code s).cmds = s.cmds := rfl
@[simp] theorem faulted_ports (code : BitVec 8) (s : State) : (faulted code s).ports = s.ports := rfl
@[simp] theorem faulted_result (code : BitVec 8) (s : State) :
    (faulted code s).result = endsWith code .none := rfl
@[simp] theorem faulted_nanDraws (code : BitVec 8) (s : State) : (faulted code s).nanDraws = s.nanDraws := rfl

@[simp] theorem recordFault_fault (code : BitVec 8) (y : Sys) : (recordFault code y).fault = true := rfl
@[simp] theorem recordFault_faultCode (code : BitVec 8) (y : Sys) :
    (recordFault code y).faultCode = if y.fault then y.faultCode else code := rfl

/-! ### SYS.RESET -/

@[simp] theorem resetBlock_cfg (s : State) : (resetBlock s).cfg = s.cfg := rfl
@[simp] theorem resetBlock_w (s : State) : (resetBlock s).w = Writer.empty := rfl
@[simp] theorem resetBlock_r (s : State) : (resetBlock s).r = Reader.empty := rfl
@[simp] theorem resetBlock_c16 (s : State) : (resetBlock s).c16 = 0xFFFF := rfl
@[simp] theorem resetBlock_c64 (s : State) : (resetBlock s).c64 = 0xFFFFFFFFFFFFFFFF := rfl
@[simp] theorem resetBlock_g (s : State) : (resetBlock s).g = Gen.idle := rfl
@[simp] theorem resetBlock_rxTable (s : State) : (resetBlock s).rxTable = [] := rfl
@[simp] theorem resetBlock_rxLastSweep (s : State) : (resetBlock s).rxLastSweep = none := rfl
@[simp] theorem resetBlock_sys (s : State) : (resetBlock s).sys = Sys.clear := rfl
@[simp] theorem resetBlock_cmds (s : State) : (resetBlock s).cmds = s.cmds := rfl
@[simp] theorem resetBlock_ports (s : State) : (resetBlock s).ports = s.ports := rfl
@[simp] theorem resetBlock_result (s : State) : (resetBlock s).result = s.result := rfl
@[simp] theorem resetBlock_nanDraws (s : State) : (resetBlock s).nanDraws = s.nanDraws := rfl

/-! ### An entry of the reassembler's table -/

@[simp] theorem resetAfter_initialized (cfg : Config) (tid : TransferId) (st : RxState) :
    (resetAfter cfg tid st).initialized = st.initialized := rfl
@[simp] theorem resetAfter_collecting (cfg : Config) (tid : TransferId) (st : RxState) :
    (resetAfter cfg tid st).collecting = false := rfl
@[simp] theorem resetAfter_tid (cfg : Config) (tid : TransferId) (st : RxState) :
    (resetAfter cfg tid st).tid = resetBase cfg tid st.tid + 1 := by
  cases h : cfg.resetTidBase <;> simp [resetAfter, resetBase, tidNext, h]
@[simp] theorem resetAfter_toggle (cfg : Config) (tid : TransferId) (st : RxState) :
    (resetAfter cfg tid st).toggle = false := rfl
@[simp] theorem resetAfter_lastTs (cfg : Config) (tid : TransferId) (st : RxState) :
    (resetAfter cfg tid st).lastTs = st.lastTs := rfl
@[simp] theorem resetAfter_buf (cfg : Config) (tid : TransferId) (st : RxState) :
    (resetAfter cfg tid st).buf = [] := rfl
@[simp] theorem resetAfter_frames (cfg : Config) (tid : TransferId) (st : RxState) :
    (resetAfter cfg tid st).frames = [] := rfl
@[simp] theorem resetAfter_crcExpected (cfg : Config) (tid : TransferId) (st : RxState) :
    (resetAfter cfg tid st).crcExpected = 0 := rfl
@[simp] theorem resetAfter_signature (cfg : Config) (tid : TransferId) (st : RxState) :
    (resetAfter cfg tid st).signature = 0 := rfl

@[simp] theorem rxRestart_initialized (tid : TransferId) (st : RxState) :
    (rxRestart tid st).initialized = true := rfl
@[simp] theorem rxRestart_collecting (tid : TransferId) (st : RxState) :
    (rxRestart tid st).collecting = false := rfl
@[simp] theorem rxRestart_tid (tid : TransferId) (st : RxState) : (rxRestart tid st).tid = tid := rfl
@[simp] theorem rxRestart_toggle (tid : TransferId) (st : RxState) : (rxRestart tid st).toggle = false := rfl
@[simp] theorem rxRestart_lastTs (tid : TransferId) (st : RxState) :
    (rxRestart tid st).lastTs = st.lastTs := rfl
@[simp] theorem rxRestart_buf (tid : TransferId) (st : RxState) : (rxRestart tid st).buf = [] := rfl
@[simp] theorem rxRestart_frames (tid : TransferId) (st : RxState) : (rxRestart tid st).frames = [] := rfl
@[simp] theorem rxRestart_crcExpected (tid : TransferId) (st : RxState) :
    (rxRestart tid st).crcExpected = st.crcExpected := rfl
@[simp] theorem rxRestart_signature (tid : TransferId) (st : RxState) :
    (rxRestart tid st).signature = st.signature := rfl

@[simp] theorem rxBegin_initialized (f : Frame) (sig : Signature) (st : RxState) :
    (rxBegin f sig st).initialized = st.initialized := rfl
@[simp] theorem rxBegin_collecting (f : Frame) (sig : Signature) (st : RxState) :
    (rxBegin f sig st).collecting = true := rfl
@[simp] theorem rxBegin_tid (f : Frame) (sig : Signature) (st : RxState) :
    (rxBegin f sig st).tid = st.tid := rfl
@[simp] theorem rxBegin_toggle (f : Frame) (sig : Signature) (st : RxState) :
    (rxBegin f sig st).toggle = st.toggle := rfl
@[simp] theorem rxBegin_lastTs (f : Frame) (sig : Signature) (st : RxState) :
    (rxBegin f sig st).lastTs = st.lastTs := rfl
@[simp] theorem rxBegin_buf (f : Frame) (sig : Signature) (st : RxState) :
    (rxBegin f sig st).buf = slice f.data 2 (f.data.length - 1) := rfl
@[simp] theorem rxBegin_frames (f : Frame) (sig : Signature) (st : RxState) :
    (rxBegin f sig st).frames = [f] := rfl
@[simp] theorem rxBegin_crcExpected (f : Frame) (sig : Signature) (st : RxState) :
    (rxBegin f sig st).crcExpected = f.data.getD 1 0 ++ f.data.getD 0 0 := rfl
@[simp] theorem rxBegin_signature (f : Frame) (sig : Signature) (st : RxState) :
    (rxBegin f sig st).signature = sig := rfl

@[simp] theorem rxExtend_initialized (f : Frame) (st : RxState) :
    (rxExtend f st).initialized = st.initialized := rfl
@[simp] theorem rxExtend_collecting (f : Frame) (st : RxState) :
    (rxExtend f st).collecting = st.collecting := rfl
@[simp] theorem rxExtend_tid (f : Frame) (st : RxState) : (rxExtend f st).tid = st.tid := rfl
@[simp] theorem rxExtend_toggle (f : Frame) (st : RxState) : (rxExtend f st).toggle = st.toggle := rfl
@[simp] theorem rxExtend_lastTs (f : Frame) (st : RxState) : (rxExtend f st).lastTs = st.lastTs := rfl
@[simp] theorem rxExtend_buf (f : Frame) (st : RxState) :
    (rxExtend f st).buf = st.buf ++ f.data.dropLast := rfl
@[simp] theorem rxExtend_frames (f : Frame) (st : RxState) : (rxExtend f st).frames = st.frames ++ [f] := rfl
@[simp] theorem rxExtend_crcExpected (f : Frame) (st : RxState) :
    (rxExtend f st).crcExpected = st.crcExpected := rfl
@[simp] theorem rxExtend_signature (f : Frame) (st : RxState) :
    (rxExtend f st).signature = st.signature := rfl

end Sys2Proof.Machine
end

