-- ==== Sys2Proof/Laws/Ops.lean ====
section
/-! SUPPORT. One lemma per shared operation that says once everything it can do, for the provers to cite
instead of unfolding it. -/

namespace Sys2Proof.Machine

/-! ### The end of a command -/

theorem ret_eq (st : Status) (out : Output) (s : State) : ret st out s = .next (withResult st out s) := rfl

theorem ok_eq (out : Output) (s : State) : ok out s = .next { s with result := endsWith 0x00 out } := rfl

theorem fault_eq (code : Status) (s : State) : fault code s = .next (faulted (statusCode code) s) := rfl

/-- Every status has a code of the list of 60_exceptions.md R801. -/
theorem statusCode_listed (st : Status) : statusCode st ∈ listedCodes := by
  cases st <;> decide

theorem statusCode_injective (a b : Status) (h : statusCode a = statusCode b) : a = b := by
  revert h
  cases a <;> cases b <;> decide

theorem exceeds_eq_true_iff (cap : Option Nat) (n : Nat) : exceeds cap n = true ↔ ∃ c ∈ cap, c < n := by
  cases cap <;> simp [exceeds]

theorem exceeds_eq_false_iff (cap : Option Nat) (n : Nat) : exceeds cap n = false ↔ ∀ c ∈ cap, n ≤ c := by
  cases cap <;> simp [exceeds]

theorem aInRange_iff (lo hi : Nat) (n : Byte) : aInRange lo hi n = true ↔ lo ≤ n.toNat ∧ n.toNat ≤ hi := by
  simp [aInRange]

theorem aFloatWidth_iff (n : Byte) : aFloatWidth n = true ↔ n.toNat = 16 ∨ n.toNat = 32 ∨ n.toNat = 64 := by
  simp [aFloatWidth, or_assoc]

theorem fitsBits_iff (w n : Nat) : fitsBits w n = true ↔ n < 2 ^ w := by simp [fitsBits]

theorem isNodeId_iff (n : Nat) : isNodeId n = true ↔ 1 ≤ n ∧ n ≤ 127 := by simp [isNodeId]

theorem frameWellFormed_iff (f : Frame) :
    frameWellFormed f = true ↔ f.data.length ≤ 8 ∧ f.id < (if f.ext = true then 2 ^ 29 else 2 ^ 11) := by
  unfold frameWellFormed
  cases f.ext <;> simp

/-! ### Delivery of commands -/

theorem nextCommand_nil (s : State) (h : s.cmds = []) : nextCommand s = none := by simp [nextCommand, h]

theorem nextCommand_cons (s : State) (c : Command) (rest : List Command) (h : s.cmds = c :: rest) :
    nextCommand s = some (c.word, { s with cmds := rest, ports := c.ports }) := by simp [nextCommand, h]

/-! ### Bits -/

@[simp] theorem chunkBits_length (o : BitOrder) (v n : Nat) : (chunkBits o v n).length = n := by
  simp [chunkBits]

theorem pushBits_nil (o : BitOrder) (w : Writer) : pushBits o w [] = w := rfl

theorem pushBits_cons (o : BitOrder) (w : Writer) (b : Bool) (bits : List Bool) :
    pushBits o w (b :: bits) = pushBits o (pushBit o w b) bits := rfl

theorem pushBits_append (o : BitOrder) (w : Writer) (xs ys : List Bool) :
    pushBits o w (xs ++ ys) = pushBits o (pushBits o w xs) ys := by
  simp [pushBits, List.foldl_append]

@[simp] theorem pushBits_pos (o : BitOrder) (w : Writer) (bits : List Bool) :
    (pushBits o w bits).pos = w.pos + bits.length := by
  induction bits generalizing w with
  | nil => rfl
  | cons b bits ih => rw [pushBits_cons, ih]; simp [pushBit]; omega

theorem chunkWidth_le (w c : Nat) : chunkWidth w c ≤ 8 := Nat.min_le_left _ _

theorem slice_eq (xs : List Byte) (a b : Nat) : slice xs a b = (xs.take b).drop a := rfl

/-- Everything `readBits` can do (40_bitstream.md R201). -/
theorem readBits_cases (o : BitOrder) (n : Nat) (r : Reader) :
    (8 * r.buf.length < r.pos + n ∧ readBits o n r = none) ∨
    (r.pos + n ≤ 8 * r.buf.length ∧
      readBits o n r = some (chunkAt o r.buf r.pos n, { r with pos := r.pos + n })) := by
  unfold readBits
  split
  · exact .inl ⟨by omega, rfl⟩
  · exact .inr ⟨by omega, rfl⟩

/-- Everything `readWide` can do (40_bitstream.md R201). -/
theorem readWide_cases (o : BitOrder) (w : Nat) (r : Reader) :
    (8 * r.buf.length < r.pos + w ∧ readWide o w r = none) ∨
    (r.pos + w ≤ 8 * r.buf.length ∧
      readWide o w r = some (wideAt o r.buf r.pos w, { r with pos := r.pos + w })) := by
  unfold readWide
  split
  · exact .inl ⟨by omega, rfl⟩
  · exact .inr ⟨by omega, rfl⟩

/-! ### Writing and reading commands -/

/-- Everything `putNumber` can do (40_bitstream.md R203, R204). -/
theorem putNumber_cases (n : Nat) (bits : Nat → List Bool) (s : State) :
    ((s.ports.vNum < 0 ∨ 2 ^ n ≤ s.ports.vNum) ∧ putNumber n bits s = .next (faulted 0x34 s)) ∨
    (0 ≤ s.ports.vNum ∧ s.ports.vNum < 2 ^ n ∧ (∃ c ∈ s.cfg.wCapBits, c < s.w.pos + n) ∧
      putNumber n bits s = .next (faulted 0x36 s)) ∨
    (0 ≤ s.ports.vNum ∧ s.ports.vNum < 2 ^ n ∧ (∀ c ∈ s.cfg.wCapBits, s.w.pos + n ≤ c) ∧
      putNumber n bits s = .next
        { s with
          w := pushBits s.cfg.bitOrder s.w (bits s.ports.vNum.toNat)
          result := endsWith 0x00 .none }) := by
  unfold putNumber
  split
  next h => exact .inl ⟨h, rfl⟩
  next h =>
    have hr : 0 ≤ s.ports.vNum ∧ s.ports.vNum < 2 ^ n := by omega
    split
    next hc => exact .inr (.inl ⟨hr.1, hr.2, (exceeds_eq_true_iff _ _).1 hc, rfl⟩)
    next hc =>
      exact .inr (.inr ⟨hr.1, hr.2, (exceeds_eq_false_iff _ _).1 (Bool.eq_false_iff.2 hc), rfl⟩)

theorem gotNumber_none (s : State) :
    gotNumber none s = .next { s with result := endsWith 0x20 .none } := rfl

theorem gotNumber_some (v : Nat) (r : Reader) (s : State) :
    gotNumber (some (v, r)) s = .next { s with r := r, result := endsWith 0x00 (.number v) } := rfl

/-- Everything `appendBits` can do (42_codec_encode.md R300 phases 3 and 4). -/
theorem appendBits_cases (len : Nat) (bits : List Bool) (s : State) :
    ((∃ c ∈ s.cfg.wCapBits, c < s.w.pos + len) ∧ appendBits len bits s = .next (faulted 0x36 s)) ∨
    ((∀ c ∈ s.cfg.wCapBits, s.w.pos + len ≤ c) ∧
      appendBits len bits s = .next
        { s with w := pushBits s.cfg.bitOrder s.w bits, result := endsWith 0x00 .none }) := by
  unfold appendBits
  split
  next hc => exact .inl ⟨(exceeds_eq_true_iff _ _).1 hc, rfl⟩
  next hc => exact .inr ⟨(exceeds_eq_false_iff _ _).1 (Bool.eq_false_iff.2 hc), rfl⟩

theorem encodeCheck_of_checkTy (T : Ty) (v : Val) (e : Status) (h : checkTy T = some e) :
    encodeCheck T v = some e := by simp [encodeCheck, h]

theorem encodeCheck_of_valid (T : Ty) (v : Val) (h : checkTy T = none) : encodeCheck T v = conform T v := by
  simp [encodeCheck, h]

/-- Everything `encodeAtCursor` can do (42_codec_encode.md R300). -/
theorem encodeAtCursor_cases (T : Ty) (v : Val) (t : Bool) (s : State) :
    (∃ e, encodeCheck T v = some e ∧ encodeAtCursor T v t s = .next (faulted (statusCode e) s)) ∨
    (encodeCheck T v = none ∧ encodeAtCursor T v t s = appendBits (encLen T v t) (emit s.cfg T v t) s) := by
  unfold encodeAtCursor
  split
  next e h => exact .inl ⟨e, h, rfl⟩
  next h => exact .inr ⟨h, rfl⟩

/-- Everything `decodeAtCursor` can do (43_codec_decode.md R400). -/
theorem decodeAtCursor_cases (T : Ty) (t : Bool) (s : State) :
    (∃ e, checkTy T = some e ∧ decodeAtCursor T t s = .next (faulted (statusCode e) s)) ∨
    (checkTy T = none ∧
      ((∃ e, parse s.cfg T t { r := s.r, draws := s.nanDraws } = .error e ∧
          decodeAtCursor T t s = .next { s with result := endsWith (statusCode e) .none }) ∨
        ∃ v c, parse s.cfg T t { r := s.r, draws := s.nanDraws } = .ok (v, c) ∧
          decodeAtCursor T t s = .next
            { s with r := c.r, nanDraws := c.draws, result := endsWith 0x00 (valueOutput v) })) := by
  unfold decodeAtCursor
  split
  next e h => exact .inl ⟨e, h, rfl⟩
  next h =>
    refine .inr ⟨h, ?_⟩
    split
    next e he => exact .inl ⟨e, he, rfl⟩
    next v c hv => exact .inr ⟨v, c, hv, rfl⟩

/-- Everything `parseWide` can do (43_codec_decode.md R400). -/
theorem parseWide_cases (cfg : Config) (w : Nat) (c : Cursor) :
    (8 * c.r.buf.length < c.r.pos + w ∧ parseWide cfg w c = .error .truncatedPayload) ∨
    (c.r.pos + w ≤ 8 * c.r.buf.length ∧
      parseWide cfg w c =
        .ok (wideAt cfg.bitOrder c.r.buf c.r.pos w, { c with r := { c.r with pos := c.r.pos + w } })) := by
  rcases readWide_cases cfg.bitOrder w c.r with ⟨h, e⟩ | ⟨h, e⟩
  · exact .inl ⟨h, by simp [parseWide, e]⟩
  · exact .inr ⟨h, by simp [parseWide, e]⟩

/-- Everything `parseCount` can do (43_codec_decode.md R407). -/
theorem parseCount_cases (cfg : Config) (m : Nat) (c : Cursor) :
    (bitlen m = 0 ∧ parseCount cfg m c = .ok (0, c)) ∨
    (bitlen m ≠ 0 ∧
      ((8 * c.r.buf.length < c.r.pos + bitlen m ∧ parseCount cfg m c = .error .truncatedPayload) ∨
        (c.r.pos + bitlen m ≤ 8 * c.r.buf.length ∧
          parseCount cfg m c =
            if m < wideAt cfg.bitOrder c.r.buf c.r.pos (bitlen m) then .error .badArrayLength
            else .ok (wideAt cfg.bitOrder c.r.buf c.r.pos (bitlen m),
              { c with r := { c.r with pos := c.r.pos + bitlen m } })))) := by
  by_cases h : bitlen m = 0
  · exact .inl ⟨h, by simp [parseCount, h]⟩
  · refine .inr ⟨h, ?_⟩
    rcases parseWide_cases cfg (bitlen m) c with ⟨hl, e⟩ | ⟨hl, e⟩
    · exact .inl ⟨hl, by simp [parseCount, h, e]⟩
    · exact .inr ⟨hl, by simp [parseCount, h, e]⟩

/-! ### Floats -/

/-- What the spec promises of a NAN_WIDEN draw (43_codec_decode.md R406). -/
theorem forceNan_of_isNan (x : BitVec 64) (h : binary64.isNan x.toNat = true) : forceNan x = x := by
  simp [forceNan, h]

/-! ### The reassembler -/

/-- The four ways step 6 ends (46_reassembler.md R714). -/
theorem rxFinish_cases (cfg : Config) (d : Desc) (f : Frame) (eot : Bool) (tid : TransferId) (st : RxState) :
    (eot = false ∧ rxFinish cfg d f eot tid st =
      { status := .rxNone, out := .none, entry := { st with toggle := !st.toggle } }) ∨
    (eot = true ∧ xferCrc st.signature st.buf ≠ st.crcExpected ∧
      rxFinish cfg d f eot tid st = rxFail cfg .badCrc f tid { st with toggle := !st.toggle }) ∨
    (eot = true ∧ xferCrc st.signature st.buf = st.crcExpected ∧
      rxFinish cfg d f eot tid st =
        rxComplete cfg d st.tid st.buf st.frames tid { st with toggle := !st.toggle }) := by
  cases eot
  · exact .inl ⟨rfl, by simp [rxFinish]⟩
  · by_cases h : xferCrc st.signature st.buf = st.crcExpected
    · exact .inr (.inr ⟨rfl, h, by simp [rxFinish, h]⟩)
    · exact .inr (.inl ⟨rfl, h, by simp [rxFinish, h]⟩)

theorem rxRestarts_iff (st : RxState) (now : Time) (sot : Bool) (tid : TransferId) :
    rxRestarts st now sot tid = true ↔
      st.initialized = false ∨ st.lastTs.toNat + 2000000 < now.toNat ∨
        (sot = true ∧ 1 < (forwardDistance st.tid tid).toNat) := by
  have h : tTimeout < elapsed now st.lastTs ↔ st.lastTs.toNat + 2000000 < now.toNat := by
    unfold tTimeout elapsed
    omega
  simp only [rxRestarts, Bool.or_eq_true, Bool.not_eq_true', Bool.and_eq_true, decide_eq_true_iff, h, or_assoc]

theorem rxStale_iff (now : Time) (st : RxState) :
    rxStale now st = true ↔ st.lastTs.toNat + 2000000 < now.toNat := by
  unfold rxStale
  rw [decide_eq_true_iff]
  unfold tTimeout elapsed
  omega

theorem sweepEarly_iff (now : Time) (last : Option Time) :
    sweepEarly now last = true ↔ ∃ l ∈ last, now.toNat < l.toNat + 1000000 := by
  cases last with
  | none => simp [sweepEarly]
  | some l =>
    have h : elapsed now l < tSweep ↔ now.toNat < l.toNat + 1000000 := by
      unfold tSweep elapsed
      omega
    simp [sweepEarly, h]

theorem rxCompatible_iff (f : Frame) :
    rxCompatible f = true ↔ f.ext = true ∧ f.rtr = false ∧ f.err = false ∧ f.data ≠ [] := by
  simp [rxCompatible, and_assoc]

end Sys2Proof.Machine
end

