-- ==== Sys2Proof/Laws/Codec.lean ====
section
/-! SUPPORT. What the terms of the statements about the codec are in terms of its shared operations: the
command of a descriptor, and the conditions on the leaves of a value. -/

namespace Sys2Proof.Machine

/-! ### The command of a descriptor -/

theorem toNat_ofNat_of_le {n : Nat} (h : n ≤ 64) : (BitVec.ofNat 8 n).toNat = n := by
  simp only [BitVec.toNat_ofNat]; omega

/-- The encode command of an array, a Union or a Struct encodes it at the cursor. -/
theorem exec_encodeCommand {T : Ty} (t : Bool) (s : State) (hT : takesDescriptor T = true) (hs : s.ports.ty = T) :
    exec (encodeCommand T t) s = encodeAtCursor T s.ports.v t s := by
  subst hs
  cases h : s.ports.ty with
  | array e mode m =>
    cases mode
    · simp [encodeCommand, exec, execEncSarray, h, Ty.isFixedArray, encodeAtCursor]
      cases hv : s.ports.v <;> simp [emit, encLen]
    · cases ht : t && taoEligible (.array e .dynamic m) <;>
        simp [encodeCommand, exec, execEncDarray, h, Ty.isDynamicArray, encodeAtCursor, ht]
      · cases hv : s.ports.v <;> simp [emit, encLen, ht]
      · simp_all
  | union fs =>
    simp [encodeCommand, exec, execEncUnion, h, Ty.isUnion, encodeAtCursor]
    cases hv : s.ports.v <;> simp [emit, encLen]
  | struct fs => simp [encodeCommand, exec, execEncStruct, h, Ty.isStruct]
  | _ => simp [h, takesDescriptor] at hT

/-- The decode command of a valid descriptor decodes it at the cursor. -/
theorem exec_decodeCommand {T : Ty} (t : Bool) (s : State) (hT : checkTy T = none) (hs : s.ports.ty = T) :
    exec (decodeCommand T t) s = decodeAtCursor T t s := by
  subst hs
  generalize h : s.ports.ty = T at hT
  cases T with
  | array e mode m =>
    cases mode
    · simp [decodeCommand, exec, execDecSarray, h, Ty.isFixedArray, decodeAtCursor, parse]
    · cases ht : t && taoEligible (.array e .dynamic m) <;>
        simp [decodeCommand, exec, execDecDarray, h, Ty.isDynamicArray, decodeAtCursor, parse, ht]
      simp_all
  | union fs => simp [decodeCommand, exec, execDecUnion, h, Ty.isUnion, decodeAtCursor, parse]
  | struct fs => simp [decodeCommand, exec, execDecStruct, h, Ty.isStruct]
  | bool => simp [decodeCommand, exec, execDecBool, decodeAtCursor, parse]
  | void n =>
    have hn : 1 ≤ n ∧ n ≤ 64 := by simpa [checkTy] using hT
    simp [decodeCommand, exec, execDecVoid, aInRange, toNat_ofNat_of_le hn.2, hn, decodeAtCursor, parse]
  | uint n cm =>
    have hn : 2 ≤ n ∧ n ≤ 64 := by simpa [checkTy] using hT
    simp [decodeCommand, exec, execDecUint, aInRange, toNat_ofNat_of_le hn.2, hn, decodeAtCursor, parse, checkTy]
  | int n cm =>
    have hn : 2 ≤ n ∧ n ≤ 64 := by simpa [checkTy] using hT
    simp [decodeCommand, exec, execDecInt, aInRange, toNat_ofNat_of_le hn.2, hn, decodeAtCursor, parse, checkTy]
  | float n cm =>
    have hn : n = 16 ∨ n = 32 ∨ n = 64 := by
      simp only [checkTy] at hT
      split at hT <;> simp_all
    rcases hn with rfl | rfl | rfl <;>
      simp [decodeCommand, exec, execDecFloat, aFloatWidth, decodeAtCursor, parse, checkTy]

/-! ### Leaves of a value -/

mutual

/-- A weaker condition on float leaves is met where a stronger one is. -/
theorem leavesMeet_mono {p q : Nat → BitVec 64 → Prop} (h : ∀ n x, p n x → q n x) :
    ∀ (T : Ty) (v : Val), leavesMeet p T v → leavesMeet q T v := by
  intro T v hv
  cases T with
  | array e mode m =>
    cases v <;> simp only [leavesMeet] at hv ⊢
    exact fun v hm => leavesMeet_mono h e v (hv v hm)
  | struct fs =>
    cases v <;> simp only [leavesMeet] at hv ⊢
    exact leavesMeetFields_mono h fs _ hv
  | union fs =>
    cases v <;> simp only [leavesMeet] at hv ⊢
    exact leavesMeetMember_mono h fs _ _ hv
  | float n cm =>
    cases v <;> simp only [leavesMeet] at hv ⊢
    exact h _ _ hv
  | _ => cases v <;> simp_all only [leavesMeet, and_self]

theorem leavesMeetFields_mono {p q : Nat → BitVec 64 → Prop} (h : ∀ n x, p n x → q n x) :
    ∀ (fs : Fields) (es : Entries), leavesMeetFields p fs es → leavesMeetFields q fs es
  | .nil, _, _ => by simp only [leavesMeetFields]
  | .cons _ t rest, es, hv => by
    simp only [leavesMeetFields] at hv ⊢
    exact ⟨fun v hm => leavesMeet_mono h t v (hv.1 v hm), leavesMeetFields_mono h rest es hv.2⟩

theorem leavesMeetMember_mono {p q : Nat → BitVec 64 → Prop} (h : ∀ n x, p n x → q n x) :
    ∀ (fs : Fields) (idx : Nat) (v : Val), leavesMeetMember p fs idx v → leavesMeetMember q fs idx v
  | .nil, _, _, _ => by simp only [leavesMeetMember]
  | .cons _ t _, 0, v, hv => by
    simp only [leavesMeetMember] at hv ⊢
    exact leavesMeet_mono h t v hv
  | .cons _ _ rest, k + 1, v, hv => by
    simp only [leavesMeetMember] at hv ⊢
    exact leavesMeetMember_mono h rest k v hv

end

theorem leavesReadable_of_leavesFit {cfg : Config} {T : Ty} {v : Val} (h : leavesFit cfg T v) :
    leavesReadable cfg T v :=
  leavesMeet_mono (fun _ _ hx => ⟨hx.2.1, .inr hx.2.2⟩) T v h

end Sys2Proof.Machine
end

