-- ==== Sys2Proof/Laws/PerInstr.lean ====
section
/-! SUPPORT. One lemma per command for the family `WordFields`, a statement about the command's word. -/

namespace Sys2Proof.Laws

/-- The word of a command has field C = 0, an opcode of the opcode map and no unused bit of field B set
(30_encoding.md R150, R153, R154). -/
def WordFields.Statement (i : Instr) : Prop :=
  fieldC (encode i) = 0 ∧ (fieldOp (encode i)).toNat ∈ Machine.opcodes ∧ (fieldB (encode i)).toNat < 4

theorem mkWord_toNat (b a op : Byte) : (mkWord b a op).toNat = Machine.wordOf op.toNat a.toNat b.toNat := by
  have ha := a.isLt
  have hop := op.isLt
  have h : (mkWord b a op).toNat = ((0 <<< 8 ||| b.toNat) <<< 8 ||| a.toNat) <<< 8 ||| op.toNat := by
    unfold mkWord
    exact (BitVec.toNat_append _ _).trans (by rw [BitVec.toNat_append, BitVec.toNat_append]; rfl)
  rw [h, Nat.zero_shiftLeft, Nat.zero_or, ← Nat.shiftLeft_add_eq_or_of_lt ha,
    ← Nat.shiftLeft_add_eq_or_of_lt hop, Machine.wordOf, Nat.shiftLeft_eq, Nat.shiftLeft_eq]
  omega

theorem fieldC_mkWord (b a op : Byte) : fieldC (mkWord b a op) = 0 := by
  have hb := b.isLt
  have ha := a.isLt
  have hop := op.isLt
  apply BitVec.eq_of_toNat_eq
  rw [fieldC, BitVec.extractLsb'_toNat, mkWord_toNat, Machine.wordOf, Nat.shiftRight_eq_div_pow]
  simp only [BitVec.ofNat_eq_ofNat, BitVec.toNat_ofNat]
  omega

theorem fieldOp_mkWord (b a op : Byte) : fieldOp (mkWord b a op) = op := by
  have hop := op.isLt
  apply BitVec.eq_of_toNat_eq
  rw [fieldOp, BitVec.extractLsb'_toNat, mkWord_toNat, Machine.wordOf, Nat.shiftRight_eq_div_pow]
  omega

theorem fieldA_mkWord (b a op : Byte) : fieldA (mkWord b a op) = a := by
  have ha := a.isLt
  have hop := op.isLt
  apply BitVec.eq_of_toNat_eq
  rw [fieldA, BitVec.extractLsb'_toNat, mkWord_toNat, Machine.wordOf, Nat.shiftRight_eq_div_pow]
  omega

theorem fieldB_mkWord (b a op : Byte) : fieldB (mkWord b a op) = b := by
  have hb := b.isLt
  have ha := a.isLt
  have hop := op.isLt
  apply BitVec.eq_of_toNat_eq
  rw [fieldB, BitVec.extractLsb'_toNat, mkWord_toNat, Machine.wordOf, Nat.shiftRight_eq_div_pow]
  omega

theorem wordFields_mkWord (b a op : Byte) (hop : op.toNat ∈ Machine.opcodes) (hb : b.toNat < 4) :
    fieldC (mkWord b a op) = 0 ∧ (fieldOp (mkWord b a op)).toNat ∈ Machine.opcodes ∧
      (fieldB (mkWord b a op)).toNat < 4 := by
  rw [fieldC_mkWord, fieldOp_mkWord, fieldB_mkWord]
  exact ⟨rfl, hop, hb⟩

theorem flagOfCast_lt (cm : CastMode) : (flagOfCast cm).toNat < 4 := by cases cm <;> decide

theorem flagOfTail_lt (t : Bool) : (flagOfTail t).toNat < 4 := by cases t <;> decide

theorem WordFields.bswClr : WordFields.Statement .bswClr :=
  wordFields_mkWord _ _ _ (by decide) (by decide)

theorem WordFields.bswPut (n : Byte) : WordFields.Statement (.bswPut n) :=
  wordFields_mkWord _ _ _ (by decide) (by decide)

theorem WordFields.bswPutw (n : Byte) : WordFields.Statement (.bswPutw n) :=
  wordFields_mkWord _ _ _ (by decide) (by decide)

theorem WordFields.bswBytes : WordFields.Statement .bswBytes :=
  wordFields_mkWord _ _ _ (by decide) (by decide)

theorem WordFields.bsrLoad : WordFields.Statement .bsrLoad :=
  wordFields_mkWord _ _ _ (by decide) (by decide)

theorem WordFields.bsrGet (n : Byte) : WordFields.Statement (.bsrGet n) :=
  wordFields_mkWord _ _ _ (by decide) (by decide)

theorem WordFields.bsrGetw (n : Byte) : WordFields.Statement (.bsrGetw n) :=
  wordFields_mkWord _ _ _ (by decide) (by decide)

theorem WordFields.bsrRem : WordFields.Statement .bsrRem :=
  wordFields_mkWord _ _ _ (by decide) (by decide)

theorem WordFields.crc16Init : WordFields.Statement .crc16Init :=
  wordFields_mkWord _ _ _ (by decide) (by decide)

theorem WordFields.crc16Byte : WordFields.Statement .crc16Byte :=
  wordFields_mkWord _ _ _ (by decide) (by decide)

theorem WordFields.crc16Sig : WordFields.Statement .crc16Sig :=
  wordFields_mkWord _ _ _ (by decide) (by decide)

theorem WordFields.crc16Rd : WordFields.Statement .crc16Rd :=
  wordFields_mkWord _ _ _ (by decide) (by decide)

theorem WordFields.crc16Xfer : WordFields.Statement .crc16Xfer :=
  wordFields_mkWord _ _ _ (by decide) (by decide)

theorem WordFields.crc64Init : WordFields.Statement .crc64Init :=
  wordFields_mkWord _ _ _ (by decide) (by decide)

theorem WordFields.crc64Byte : WordFields.Statement .crc64Byte :=
  wordFields_mkWord _ _ _ (by decide) (by decide)

theorem WordFields.crc64Rd : WordFields.Statement .crc64Rd :=
  wordFields_mkWord _ _ _ (by decide) (by decide)

theorem WordFields.encBool : WordFields.Statement .encBool :=
  wordFields_mkWord _ _ _ (by decide) (by decide)

theorem WordFields.encUint (n : Byte) (cm : CastMode) : WordFields.Statement (.encUint n cm) :=
  wordFields_mkWord _ _ _ (by decide) (flagOfCast_lt cm)

theorem WordFields.encInt (n : Byte) (cm : CastMode) : WordFields.Statement (.encInt n cm) :=
  wordFields_mkWord _ _ _ (by decide) (flagOfCast_lt cm)

theorem WordFields.encFloat (n : Byte) (cm : CastMode) : WordFields.Statement (.encFloat n cm) :=
  wordFields_mkWord _ _ _ (by decide) (flagOfCast_lt cm)

theorem WordFields.encVoid (n : Byte) : WordFields.Statement (.encVoid n) :=
  wordFields_mkWord _ _ _ (by decide) (by decide)

theorem WordFields.encSarray : WordFields.Statement .encSarray :=
  wordFields_mkWord _ _ _ (by decide) (by decide)

theorem WordFields.encDarray (tail : Bool) : WordFields.Statement (.encDarray tail) :=
  wordFields_mkWord _ _ _ (by decide) (flagOfTail_lt tail)

theorem WordFields.encUnion : WordFields.Statement .encUnion :=
  wordFields_mkWord _ _ _ (by decide) (by decide)

theorem WordFields.encStruct (tail : Bool) : WordFields.Statement (.encStruct tail) :=
  wordFields_mkWord _ _ _ (by decide) (flagOfTail_lt tail)

theorem WordFields.enc : WordFields.Statement .enc :=
  wordFields_mkWord _ _ _ (by decide) (by decide)

theorem WordFields.typeBitlen : WordFields.Statement .typeBitlen :=
  wordFields_mkWord _ _ _ (by decide) (by decide)

theorem WordFields.typeCheck : WordFields.Statement .typeCheck :=
  wordFields_mkWord _ _ _ (by decide) (by decide)

theorem WordFields.decBool : WordFields.Statement .decBool :=
  wordFields_mkWord _ _ _ (by decide) (by decide)

theorem WordFields.decUint (n : Byte) : WordFields.Statement (.decUint n) :=
  wordFields_mkWord _ _ _ (by decide) (by decide)

theorem WordFields.decInt (n : Byte) : WordFields.Statement (.decInt n) :=
  wordFields_mkWord _ _ _ (by decide) (by decide)

theorem WordFields.decFloat (n : Byte) : WordFields.Statement (.decFloat n) :=
  wordFields_mkWord _ _ _ (by decide) (by decide)

theorem WordFields.decVoid (n : Byte) : WordFields.Statement (.decVoid n) :=
  wordFields_mkWord _ _ _ (by decide) (by decide)

theorem WordFields.decSarray : WordFields.Statement .decSarray :=
  wordFields_mkWord _ _ _ (by decide) (by decide)

theorem WordFields.decDarray (tail : Bool) : WordFields.Statement (.decDarray tail) :=
  wordFields_mkWord _ _ _ (by decide) (flagOfTail_lt tail)

theorem WordFields.decUnion : WordFields.Statement .decUnion :=
  wordFields_mkWord _ _ _ (by decide) (by decide)

theorem WordFields.decStruct (tail : Bool) : WordFields.Statement (.decStruct tail) :=
  wordFields_mkWord _ _ _ (by decide) (flagOfTail_lt tail)

theorem WordFields.dec : WordFields.Statement .dec :=
  wordFields_mkWord _ _ _ (by decide) (by decide)

theorem WordFields.canidMsg : WordFields.Statement .canidMsg :=
  wordFields_mkWord _ _ _ (by decide) (by decide)

theorem WordFields.canidAnon : WordFields.Statement .canidAnon :=
  wordFields_mkWord _ _ _ (by decide) (by decide)

theorem WordFields.canidSvc : WordFields.Statement .canidSvc :=
  wordFields_mkWord _ _ _ (by decide) (by decide)

theorem WordFields.canidDec : WordFields.Statement .canidDec :=
  wordFields_mkWord _ _ _ (by decide) (by decide)

theorem WordFields.canidCmp : WordFields.Statement .canidCmp :=
  wordFields_mkWord _ _ _ (by decide) (by decide)

theorem WordFields.tailEnc : WordFields.Statement .tailEnc :=
  wordFields_mkWord _ _ _ (by decide) (by decide)

theorem WordFields.tailDec : WordFields.Statement .tailDec :=
  wordFields_mkWord _ _ _ (by decide) (by decide)

theorem WordFields.tidDist : WordFields.Statement .tidDist :=
  wordFields_mkWord _ _ _ (by decide) (by decide)

theorem WordFields.anonDisc : WordFields.Statement .anonDisc :=
  wordFields_mkWord _ _ _ (by decide) (by decide)

theorem WordFields.genStart : WordFields.Statement .genStart :=
  wordFields_mkWord _ _ _ (by decide) (by decide)

theorem WordFields.genNext : WordFields.Statement .genNext :=
  wordFields_mkWord _ _ _ (by decide) (by decide)

theorem WordFields.genAbort : WordFields.Statement .genAbort :=
  wordFields_mkWord _ _ _ (by decide) (by decide)

theorem WordFields.genCount : WordFields.Statement .genCount :=
  wordFields_mkWord _ _ _ (by decide) (by decide)

theorem WordFields.rxFrame : WordFields.Statement .rxFrame :=
  wordFields_mkWord _ _ _ (by decide) (by decide)

theorem WordFields.rxSweep : WordFields.Statement .rxSweep :=
  wordFields_mkWord _ _ _ (by decide) (by decide)

theorem WordFields.rxClear : WordFields.Statement .rxClear :=
  wordFields_mkWord _ _ _ (by decide) (by decide)

theorem WordFields.rxLookup : WordFields.Statement .rxLookup :=
  wordFields_mkWord _ _ _ (by decide) (by decide)

theorem WordFields.sysReset : WordFields.Statement .sysReset :=
  wordFields_mkWord _ _ _ (by decide) (by decide)

theorem WordFields.sysStatus : WordFields.Statement .sysStatus :=
  wordFields_mkWord _ _ _ (by decide) (by decide)

end Sys2Proof.Laws
end

