-- ==== Sys2Proof/Laws/Table.lean ====
section
/-! SUPPORT. The reassembler's table: reading after a write, and that every operation over the table keeps
its canonical form. -/

namespace Sys2Proof.Machine

theorem kindNumber_lt (k : TransferType) : kindNumber k < 3 := by cases k <;> decide

theorem kindNumber_injective (a b : TransferType) (h : kindNumber a = kindNumber b) : a = b := by
  revert h
  cases a <;> cases b <;> decide

/-- Different descriptors have different places. -/
theorem descKey_injective (a b : Desc) (h : descKey a = descKey b) : a = b := by
  obtain ⟨da, ka, sa, ta⟩ := a
  obtain ⟨db, kb, sb, tb⟩ := b
  simp only [descKey] at h
  have h1 := ta.isLt
  have h2 := tb.isLt
  have h3 := sa.isLt
  have h4 := sb.isLt
  have h5 := kindNumber_lt ka
  have h6 := kindNumber_lt kb
  have ht : ta = tb := BitVec.eq_of_toNat_eq (by omega)
  have hs : sa = sb := BitVec.eq_of_toNat_eq (by omega)
  have hk : ka = kb := kindNumber_injective _ _ (by omega)
  have hd : da = db := BitVec.eq_of_toNat_eq (by omega)
  rw [ht, hs, hk, hd]

@[simp] theorem tableGet_nil (d : Desc) : tableGet [] d = none := rfl

theorem tableGet_cons (e : Desc × RxState) (t : RxTable) (d : Desc) :
    tableGet (e :: t) d = if e.1 = d then some e.2 else tableGet t d := by
  by_cases h : e.1 = d <;> simp [tableGet, h]

@[simp] theorem tableGet_tablePut_self (d : Desc) (st : RxState) (t : RxTable) :
    tableGet (tablePut d st t) d = some st := by
  induction t with
  | nil => simp [tablePut, tableGet_cons]
  | cons e t ih =>
    unfold tablePut
    split
    · simp [tableGet_cons]
    · split
      · simp [tableGet_cons]
      · next h _ => simp [tableGet_cons, h, ih]

theorem tableGet_tablePut_other (d d' : Desc) (st : RxState) (t : RxTable) (h : d' ≠ d) :
    tableGet (tablePut d st t) d' = tableGet t d' := by
  have h' : d ≠ d' := fun e => h e.symm
  induction t with
  | nil => simp [tablePut, tableGet_cons, h']
  | cons e t ih =>
    unfold tablePut
    split
    · next he => simp [tableGet_cons, h', he]
    · split
      · simp [tableGet_cons, h']
      · simp [tableGet_cons, ih]

/-- Every entry of a table after a write is the written one or was there before. -/
theorem mem_tablePut (d : Desc) (st : RxState) (t : RxTable) (e : Desc × RxState) (h : e ∈ tablePut d st t) :
    e = (d, st) ∨ e ∈ t := by
  induction t with
  | nil => simpa [tablePut] using h
  | cons a t ih =>
    unfold tablePut at h
    split at h
    · rcases List.mem_cons.1 h with h | h
      · exact .inl h
      · exact .inr (List.mem_cons_of_mem _ h)
    · split at h
      · rcases List.mem_cons.1 h with h | h
        · exact .inl h
        · exact .inr h
      · rcases List.mem_cons.1 h with h | h
        · exact .inr (h ▸ List.mem_cons_self)
        · exact (ih h).imp_right (List.mem_cons_of_mem _)

/-- A write keeps the canonical form. -/
theorem tablePut_wf (d : Desc) (st : RxState) (t : RxTable) (h : tableWf t) : tableWf (tablePut d st t) := by
  induction t with
  | nil => simp [tablePut, tableWf]
  | cons a t ih =>
    obtain ⟨ha, ht⟩ := List.pairwise_cons.1 h
    unfold tablePut
    split
    · next he => exact List.pairwise_cons.2 ⟨fun b hb => he ▸ ha b hb, ht⟩
    · next hne =>
      split
      · next hlt =>
        refine List.pairwise_cons.2 ⟨fun b hb => ?_, h⟩
        rcases List.mem_cons.1 hb with hb | hb
        · exact hb ▸ hlt
        · exact lt_trans hlt (ha b hb)
      · next hle =>
        refine List.pairwise_cons.2 ⟨fun b hb => ?_, ih ht⟩
        rcases mem_tablePut d st t b hb with hb | hb
        · subst hb
          have : descKey a.1 ≠ descKey d := fun e => hne (descKey_injective _ _ e)
          simp only
          omega
        · exact ha b hb

/-- Evicting entries keeps the canonical form. -/
theorem filter_wf (p : Desc × RxState → Bool) (t : RxTable) (h : tableWf t) : tableWf (t.filter p) :=
  List.Pairwise.filter p h

/-- A write grows the table by at most one entry, and only for a new descriptor. -/
theorem tablePut_length_le (d : Desc) (st : RxState) (t : RxTable) :
    (tablePut d st t).length ≤ t.length + 1 ∧
      (tableGet t d ≠ none → tableWf t → (tablePut d st t).length = t.length) := by
  induction t with
  | nil => simp [tablePut]
  | cons a t ih =>
    unfold tablePut
    split
    · simp
    · next hne =>
      split
      · next hlt =>
        refine ⟨by simp, fun hg hw => absurd ?_ hg⟩
        obtain ⟨ha, ht⟩ := List.pairwise_cons.1 hw
        rw [tableGet_cons, if_neg hne]
        simp only [tableGet, Option.map_eq_none_iff, List.find?_eq_none, beq_iff_eq]
        intro e he heq
        have := ha e he
        rw [heq] at this
        omega
      · refine ⟨by simpa using ih.1, fun hg hw => ?_⟩
        rw [tableGet_cons, if_neg hne] at hg
        simpa using ih.2 hg (List.pairwise_cons.1 hw).2

/-- The table after reset has the canonical form. -/
theorem reset_table_wf : tableWf State.reset.rxTable := List.Pairwise.nil

end Sys2Proof.Machine
end

