-- ==== Sys2Proof/Tests/Slice0.lean ====
section
/-! SUPPORT. The model's own tests: the words of the opcode map, the refusals of `wellFormed`, one-step
vectors of 95_test_vectors.md, and for every statement with hypotheses a witness that meets them. -/

namespace Sys2Proof.Tests

set_option Elab.async false

open Sys2Proof Sys2Proof.Machine

/-! ### Command words, written out from 30_encoding.md R150 and R153 -/

theorem test_decode_writer :
    decode 0x00000001 = .ok .bswClr ∧ decode 0x00000802 = .ok (.bswPut 8) ∧
    decode 0x00004003 = .ok (.bswPutw 64) ∧ decode 0x00000004 = .ok .bswBytes := ⟨rfl, rfl, rfl, rfl⟩

theorem test_decode_reader :
    decode 0x00000005 = .ok .bsrLoad ∧ decode 0x00000106 = .ok (.bsrGet 1) ∧
    decode 0x00001007 = .ok (.bsrGetw 16) ∧ decode 0x00000008 = .ok .bsrRem := ⟨rfl, rfl, rfl, rfl⟩

theorem test_decode_crc :
    decode 0x00000010 = .ok .crc16Init ∧ decode 0x00000011 = .ok .crc16Byte ∧
    decode 0x00000012 = .ok .crc16Sig ∧ decode 0x00000013 = .ok .crc16Rd ∧
    decode 0x00000014 = .ok .crc16Xfer ∧ decode 0x00000018 = .ok .crc64Init ∧
    decode 0x00000019 = .ok .crc64Byte ∧ decode 0x0000001A = .ok .crc64Rd :=
  ⟨rfl, rfl, rfl, rfl, rfl, rfl, rfl, rfl⟩

theorem test_decode_encode_commands :
    decode 0x00000020 = .ok .encBool ∧ decode 0x00000C21 = .ok (.encUint 12 .saturated) ∧
    decode 0x00010822 = .ok (.encInt 8 .truncated) ∧ decode 0x00011023 = .ok (.encFloat 16 .truncated) ∧
    decode 0x00000524 = .ok (.encVoid 5) ∧ decode 0x00000025 = .ok .encSarray ∧
    decode 0x00020026 = .ok (.encDarray true) ∧ decode 0x00000026 = .ok (.encDarray false) ∧
    decode 0x00000027 = .ok .encUnion ∧ decode 0x00020028 = .ok (.encStruct true) ∧
    decode 0x00000029 = .ok .enc ∧ decode 0x0000002A = .ok .typeBitlen ∧
    decode 0x0000002B = .ok .typeCheck :=
  ⟨rfl, rfl, rfl, rfl, rfl, rfl, rfl, rfl, rfl, rfl, rfl, rfl, rfl⟩

theorem test_decode_decode_commands :
    decode 0x00000030 = .ok .decBool ∧ decode 0x00000C31 = .ok (.decUint 12) ∧
    decode 0x00000832 = .ok (.decInt 8) ∧ decode 0x00004033 = .ok (.decFloat 64) ∧
    decode 0x00000534 = .ok (.decVoid 5) ∧ decode 0x00000035 = .ok .decSarray ∧
    decode 0x00020036 = .ok (.decDarray true) ∧ decode 0x00000037 = .ok .decUnion ∧
    decode 0x00020038 = .ok (.decStruct true) ∧ decode 0x00000039 = .ok .dec :=
  ⟨rfl, rfl, rfl, rfl, rfl, rfl, rfl, rfl, rfl, rfl⟩

theorem test_decode_canid :
    decode 0x00000040 = .ok .canidMsg ∧ decode 0x00000041 = .ok .canidAnon ∧
    decode 0x00000042 = .ok .canidSvc ∧ decode 0x00000043 = .ok .canidDec ∧
    decode 0x00000044 = .ok .canidCmp ∧ decode 0x00000045 = .ok .tailEnc ∧
    decode 0x00000046 = .ok .tailDec ∧ decode 0x00000047 = .ok .tidDist ∧
    decode 0x00000048 = .ok .anonDisc := ⟨rfl, rfl, rfl, rfl, rfl, rfl, rfl, rfl, rfl⟩

theorem test_decode_transfers :
    decode 0x00000050 = .ok .genStart ∧ decode 0x00000051 = .ok .genNext ∧
    decode 0x00000052 = .ok .genAbort ∧ decode 0x00000053 = .ok .genCount ∧
    decode 0x00000060 = .ok .rxFrame ∧ decode 0x00000061 = .ok .rxSweep ∧
    decode 0x00000062 = .ok .rxClear ∧ decode 0x00000063 = .ok .rxLookup ∧
    decode 0x00000070 = .ok .sysReset ∧ decode 0x00000071 = .ok .sysStatus :=
  ⟨rfl, rfl, rfl, rfl, rfl, rfl, rfl, rfl, rfl, rfl⟩

/-- The illegal words of 95_test_vectors.md, each by the item of R154 it breaks. -/
theorem test_decode_illegal :
    decode 0x00000000 = .error .reservedOpcode ∧ decode 0x000000FF = .error .reservedOpcode ∧
    decode 0x01000001 = .error .reservedFieldC ∧ decode 0x00010002 = .error .unusedFlag ∧
    decode 0x00040021 = .error .unusedFlag ∧ decode 0x00000101 = .error .unusedFieldA ∧
    decode 0x00000170 = .error .unusedFieldA := ⟨rfl, rfl, rfl, rfl, rfl, rfl, rfl⟩

/-- Every check of `wellFormed` refuses an ill-formed term at each end of its range. -/
theorem test_wellFormed_refuses :
    (Instr.bswPut 0).wellFormed = false ∧ (Instr.bswPut 9).wellFormed = false ∧
    (Instr.bsrGet 0).wellFormed = false ∧ (Instr.bsrGet 9).wellFormed = false ∧
    (Instr.bswPutw 0).wellFormed = false ∧ (Instr.bswPutw 65).wellFormed = false ∧
    (Instr.bsrGetw 0).wellFormed = false ∧ (Instr.bsrGetw 65).wellFormed = false ∧
    (Instr.encUint 1 .saturated).wellFormed = false ∧ (Instr.encUint 65 .saturated).wellFormed = false ∧
    (Instr.encInt 1 .truncated).wellFormed = false ∧ (Instr.encInt 65 .truncated).wellFormed = false ∧
    (Instr.encFloat 24 .saturated).wellFormed = false ∧ (Instr.encVoid 0).wellFormed = false ∧
    (Instr.encVoid 65).wellFormed = false ∧ (Instr.decUint 1).wellFormed = false ∧
    (Instr.decUint 65).wellFormed = false ∧ (Instr.decInt 1).wellFormed = false ∧
    (Instr.decInt 65).wellFormed = false ∧ (Instr.decFloat 24).wellFormed = false ∧
    (Instr.decVoid 0).wellFormed = false ∧ (Instr.decVoid 65).wellFormed = false := by decide

theorem test_wellFormed_accepts :
    (Instr.bswPut 1).wellFormed = true ∧ (Instr.bswPut 8).wellFormed = true ∧
    (Instr.bswPutw 64).wellFormed = true ∧ (Instr.encUint 2 .saturated).wellFormed = true ∧
    (Instr.encFloat 16 .saturated).wellFormed = true ∧ (Instr.encFloat 32 .saturated).wellFormed = true ∧
    (Instr.decFloat 64).wellFormed = true ∧ (Instr.decVoid 1).wellFormed = true := by decide

/-! ### One-step vectors, from 95_test_vectors.md -/

/-- The machine after a command. -/
def after (i : Instr) (s : State) : State :=
  match exec i s with
  | .next t => t
  | .fault _ => s
  | .refused _ => s

/-- Status and outputs of a command. -/
def ends (i : Instr) (s : State) : Option (BitVec 8 × Output) := (after i s).result.map Result.ending

/-- The machine after reset with these operands on the ports. -/
def given (p : Ports) : State := { State.reset with ports := p }

/-- The machine after reset with this writer and this number on port `v`. -/
def writing (buf : List Byte) (pos : Nat) (v : Int) : State :=
  { given { Ports.blank with vNum := v } with w := { buf := buf, pos := pos } }

/-- The machine after reset with these bytes in the reader and this descriptor on port `T`. -/
def reading (buf : List Byte) (ty : Ty) : State :=
  { given { Ports.blank with ty := ty } with r := { buf := buf, pos := 0 } }

/-- The machine after reset with this descriptor and this value on the ports. -/
def encoding (ty : Ty) (v : Val) : State := given { Ports.blank with ty := ty, v := v }

/-- The same machine with MSB_FIRST buffers. -/
def msb (s : State) : State := { s with cfg := { s.cfg with bitOrder := .msbFirst } }

theorem test_bswClr : (after .bswClr (writing [5] 3 0)).w = { buf := [], pos := 0 } := by decide

theorem test_bswPut : (after (.bswPut 4) (writing [0x0B] 4 0xA)).w = { buf := [0xAB], pos := 8 } := by decide

theorem test_bswPut_msb :
    (after (.bswPut 4) (msb (writing [0xD0] 4 0xA))).w = { buf := [0xDA], pos := 8 } := by decide

theorem test_bswPutw :
    (after (.bswPutw 16) (writing [5] 3 0x1234)).w = { buf := [0xA5, 0x91, 0x00], pos := 19 } := by
  decide +kernel

theorem test_bswPutw_msb :
    (after (.bswPutw 16) (msb (writing [0xA0] 3 0x1234))).w = { buf := [0xA6, 0x82, 0x40], pos := 19 } := by
  decide +kernel

theorem test_bswBytes : ends .bswBytes (writing [0x1F, 0x54] 15 0) = some (0x00, .written [0x1F, 0x54] 15) := by
  decide

theorem test_bsrLoad :
    (after .bsrLoad (given { Ports.blank with bytes := [0x5A] })).r = { buf := [0x5A], pos := 0 } := by decide

theorem test_bsrGet : ends (.bsrGet 3) (reading [0x5A] .bool) = some (0x00, .number 2) := by decide

theorem test_bsrGet_msb :
    ends (.bsrGet 5) (msb { reading [0x5A] .bool with r := { buf := [0x5A], pos := 3 } }) =
      some (0x00, .number 26) := by decide

theorem test_bsrGetw :
    ends (.bsrGetw 16) { reading [] .bool with r := { buf := [0xA5, 0x91, 0x00], pos := 3 } } =
      some (0x00, .number 0x1234) := by decide +kernel

theorem test_bsrGetw_truncated :
    after (.bsrGetw 16) { reading [] .bool with r := { buf := [0xA5, 0x91, 0x00], pos := 19 } } =
      { reading [] .bool with
        r := { buf := [0xA5, 0x91, 0x00], pos := 19 }, result := endsWith 0x20 .none } := by decide +kernel

theorem test_bsrRem :
    ends .bsrRem { reading [] .bool with r := { buf := [0x5A, 0x00], pos := 3 } } =
      some (0x00, .remaining 13) := by decide

theorem test_crc16Init : (after .crc16Init { State.reset with c16 := 0 }).c16 = 0xFFFF := by decide

theorem test_crc16Byte :
    (after .crc16Byte (given { Ports.blank with b := 0 })).c16 = 0xE1F0 ∧
    (after .crc16Byte (given { Ports.blank with b := 0xFF })).c16 = 0xFF00 := by decide +kernel

/-- The published check value of CRC-16/CCITT-FALSE (41_crc.md R251). -/
theorem test_crc16_check :
    crc16 crc16Seed [0x31, 0x32, 0x33, 0x34, 0x35, 0x36, 0x37, 0x38, 0x39] = 0x29B1 := by decide +kernel

theorem test_crc16Sig :
    (after .crc16Sig (given { Ports.blank with sig := 0x0123456789ABCDEF })).c16 = 0x11CA ∧
    (after .crc16Sig (given { Ports.blank with sig := 0 })).c16 = 0x313E := by decide +kernel

theorem test_crc16Rd : ends .crc16Rd State.reset = some (0x00, .crc16 0xFFFF) := by decide

theorem test_crc16Xfer :
    ends .crc16Xfer (given { Ports.blank with
      sig := 0x0123456789ABCDEF, payload := [1, 2, 3, 4, 5, 6, 7, 8] }) = some (0x00, .crc16 0x8990) := by
  decide +kernel

theorem test_crc64Init : (after .crc64Init { State.reset with c64 := 0 }).c64 = 0xFFFFFFFFFFFFFFFF := by decide

theorem test_crc64Byte :
    ends .crc64Rd (after .crc64Byte (given { Ports.blank with b := 0 })) =
      some (0x00, .crc64 0x9AFCE626CE85B5F8) := by decide +kernel

/-- The published check value of CRC-64/WE (41_crc.md R261). -/
theorem test_crc64_check :
    [0x31, 0x32, 0x33, 0x34, 0x35, 0x36, 0x37, 0x38, 0x39].foldl crc64Step crc64Seed ^^^ 0xFFFFFFFFFFFFFFFF =
      0x62EC59E3F1A4F00A#64 := by decide +kernel

theorem test_crc64Rd : ends .crc64Rd State.reset = some (0x00, .crc64 0) := by decide

theorem test_encBool : (after .encBool (encoding .bool (.bool true))).w = { buf := [1], pos := 1 } := by decide

theorem test_encBool_strict : ends .encBool (encoding .bool (.int 1)) = some (0x32, .none) := by decide

theorem test_encUint :
    (after (.encUint 8 .saturated) (encoding .bool (.int 300))).w = { buf := [0xFF], pos := 8 } ∧
    (after (.encUint 8 .saturated) (encoding .bool (.int (-5)))).w = { buf := [0x00], pos := 8 } ∧
    (after (.encUint 8 .truncated) (encoding .bool (.int 300))).w = { buf := [0x2C], pos := 8 } := by
  decide +kernel

theorem test_encUint_domain :
    ends (.encUint 8 .saturated) (encoding .bool (.int (2 ^ 64))) = some (0x34, .none) := by decide +kernel

theorem test_encInt :
    (after (.encInt 8 .saturated) (encoding .bool (.int (-200)))).w = { buf := [0x80], pos := 8 } ∧
    (after (.encInt 3 .saturated) (encoding .bool (.int 5))).w = { buf := [0x03], pos := 3 } ∧
    (after (.encInt 3 .truncated) (encoding .bool (.int 5))).w = { buf := [0x05], pos := 3 } := by
  decide +kernel

theorem test_encInt_wide :
    (after (.encInt 64 .saturated) (encoding .bool (.int (2 ^ 63)))).w =
      { buf := [0xFF, 0xFF, 0xFF, 0xFF, 0xFF, 0xFF, 0xFF, 0x7F], pos := 64 } := by decide +kernel

/-- The binary64 patterns of 65520, −infinity and 1.5. -/
theorem test_encFloat :
    (after (.encFloat 16 .saturated) (encoding .bool (.float 0x40EFFE0000000000))).w.buf = [0xFF, 0x7B] ∧
    (after (.encFloat 16 .truncated) (encoding .bool (.float 0x40EFFE0000000000))).w.buf = [0x00, 0x7C] ∧
    (after (.encFloat 32 .saturated) (encoding .bool (.float 0x3FF8000000000000))).w.buf = [0, 0, 0xC0, 0x3F] := by
  decide +kernel

/-- 1/3, 2^−24, 2^−25 (a tie to even) and 3 × 2^−26 as binary16, and 1e39 as binary32
(42_codec_encode.md R304). -/
theorem test_narrow :
    narrowIeee binary16 0x3FD5555555555555 = 0x3555 ∧ narrowIeee binary16 0x3E70000000000000 = 0x0001 ∧
    narrowIeee binary16 0x3E60000000000000 = 0x0000 ∧ narrowIeee binary16 0x3E68000000000000 = 0x0001 ∧
    narrowIeee binary32 0x48078287F49C4A1D = 0x7F800000 := by decide +kernel

theorem test_encVoid : (after (.encVoid 5) (writing [5] 3 0)).w = { buf := [5], pos := 8 } := by decide

/-- Array(Int(4), Static, 3). -/
def tyNibbles : Ty := .array (.int 4 .saturated) .fixed 3

/-- Array(UInt(8), Dynamic, 5). -/
def tyBytes : Ty := .array (.uint 8 .saturated) .dynamic 5

/-- Union([x: UInt(8), y: Bool, z: Int(4)]). -/
def tyUnion : Ty :=
  .union (.cons "x" (.uint 8 .saturated) (.cons "y" .bool (.cons "z" (.int 4 .saturated) .nil)))

/-- Struct([n: UInt(4), d: Array(UInt(8), Dynamic, 5)]). -/
def tyTail : Ty := .struct (.cons "n" (.uint 4 .saturated) (.cons "d" tyBytes .nil))

/-- Struct([a: UInt(3), Void(5), b: Int(16), c: Bool]). -/
def tyPadded : Ty :=
  .struct (.cons "a" (.uint 3 .saturated) (.cons "" (.void 5) (.cons "b" (.int 16 .saturated)
    (.cons "c" .bool .nil))))

/-- [−1, 2, −8]. -/
def vNibbles : Val := .array (Vals.ofList [.int (-1), .int 2, .int (-8)])

/-- [0x10, 0x20]. -/
def vBytes : Val := .array (Vals.ofList [.int 0x10, .int 0x20])

/-- {d = [0x10, 0x20], n = 1}, not in declaration order. -/
def vTail : Val := .record (.cons "d" vBytes (.cons "n" (.int 1) .nil))

/-- {n = 1, d = [32, 48, 64, 80, 96]}, of 43_codec_decode.md R413: the array is full. -/
def vFull : Val :=
  .record (.cons "n" (.int 1) (.cons "d" (.array (Vals.ofList [.int 32, .int 48, .int 64, .int 80, .int 96])) .nil))

/-- {a = 5, b = −2, c = 1}. -/
def vPadded : Val := .record (.cons "a" (.int 5) (.cons "b" (.int (-2)) (.cons "c" (.bool true) .nil)))

theorem test_encSarray :
    (after .encSarray (encoding tyNibbles vNibbles)).w = { buf := [0x2F, 0x08], pos := 12 } := by decide +kernel

theorem test_encSarray_count :
    ends .encSarray (encoding tyNibbles (.array (Vals.ofList [.int 1, .int 2]))) = some (0x32, .none) := by
  decide +kernel

theorem test_encDarray :
    (after (.encDarray false) (encoding tyBytes vBytes)).w = { buf := [0x82, 0x00, 0x01], pos := 19 } := by
  decide +kernel

theorem test_encDarray_tail :
    (after (.encDarray true) (encoding tyBytes vBytes)).w = { buf := [0x10, 0x20], pos := 16 } := by
  decide +kernel

theorem test_encUnion :
    (after .encUnion (encoding tyUnion (.union 2 (.int (-3))))).w = { buf := [0x36], pos := 6 } := by
  decide +kernel

theorem test_encUnion_index : ends .encUnion (encoding tyUnion (.union 3 (.int 0))) = some (0x32, .none) := by
  decide +kernel

theorem test_encStruct :
    (after (.encStruct false) (encoding tyTail vTail)).w = { buf := [0x21, 0x08, 0x10], pos := 23 } := by
  decide +kernel

theorem test_encStruct_tail :
    (after (.encStruct true) (encoding tyTail vTail)).w = { buf := [0x01, 0x01, 0x02], pos := 20 } := by
  decide +kernel

theorem test_enc :
    ends .enc (encoding tyPadded vPadded) = some (0x00, .written [0x05, 0xFE, 0xFF, 0x01] 25) := by
  decide +kernel

theorem test_enc_missing :
    ends .enc (encoding (.struct (.cons "a" (.uint 8 .saturated) .nil)) (.record .nil)) = some (0x31, .none) := by
  decide +kernel

theorem test_typeBitlen :
    ends .typeBitlen (encoding tyBytes (.int 0)) = some (0x00, .bitLengths 3 43) ∧
    ends .typeBitlen (encoding tyUnion (.int 0)) = some (0x00, .bitLengths 3 10) := by decide +kernel

theorem test_typeCheck :
    (after .typeCheck (encoding (.union (.cons "a" .bool .nil)) (.int 0))) =
      { encoding (.union (.cons "a" .bool .nil)) (.int 0) with result := endsWith 0x33 .none } := by
  decide +kernel

theorem test_decBool : ends .decBool (reading [0x01] .bool) = some (0x00, .value (.bool true)) := by decide

theorem test_decUint :
    ends (.decUint 12) (reading [0xBC, 0x0A] .bool) = some (0x00, .value (.int 0xABC)) := by decide +kernel

theorem test_decUint_truncated :
    after (.decUint 16) (reading [0x01] .bool) =
      { reading [0x01] .bool with result := endsWith 0x20 .none } := by decide +kernel

theorem test_decInt :
    ends (.decInt 8) (reading [0xC8] .bool) = some (0x00, .value (.int (-56))) ∧
    ends (.decInt 3) (reading [0x04] .bool) = some (0x00, .value (.int (-4))) := by decide +kernel

theorem test_decFloat :
    ends (.decFloat 16) (reading [0x01, 0x00] .bool) = some (0x00, .value (.float 0x3E70000000000000)) ∧
    ends (.decFloat 16) (reading [0x00, 0xFC] .bool) = some (0x00, .value (.float 0xFFF0000000000000)) ∧
    ends (.decFloat 32) (reading [0, 0, 0xC0, 0x3F] .bool) = some (0x00, .value (.float 0x3FF8000000000000)) := by
  decide +kernel

theorem test_decVoid : (after (.decVoid 5) (reading [0xFF] .bool)).r = { buf := [0xFF], pos := 5 } := by
  decide +kernel

theorem test_decSarray :
    ends .decSarray (reading [0x2F, 0x08] tyNibbles) = some (0x00, .value vNibbles) := by decide +kernel

theorem test_decDarray :
    ends (.decDarray false) (reading [0x82, 0x00, 0x01] tyBytes) = some (0x00, .value vBytes) ∧
    ends (.decDarray true) (reading [0x10, 0x20] tyBytes) = some (0x00, .value vBytes) := by decide +kernel

theorem test_decDarray_badLength : ends (.decDarray false) (reading [0x07] tyBytes) = some (0x21, .none) := by
  decide +kernel

theorem test_decUnion :
    ends .decUnion (reading [0x05] tyUnion) = some (0x00, .value (.union 1 (.bool true))) := by decide +kernel

theorem test_decUnion_badTag : ends .decUnion (reading [0x03] tyUnion) = some (0x22, .none) := by decide +kernel

theorem test_decStruct :
    ends (.decStruct false) (reading [0x05, 0xFE, 0xFF, 0x01] tyPadded) = some (0x00, .value vPadded) := by
  decide +kernel

theorem test_dec :
    ends .dec (given { Ports.blank with ty := tyTail, bytes := [0x01, 0x00] }) =
      some (0x00, .decoded (some (.record (.cons "n" (.int 1)
        (.cons "d" (.array (.cons (.int 0) .nil)) .nil)))) 4) := by decide +kernel

theorem test_dec_limit :
    ends .dec (given { Ports.blank with ty := tyTail, bytes := [1, 2, 3, 4, 5, 6, 7, 8] }) =
      some (0x00, .decoded (some (.record (.cons "n" (.int 1) (.cons "d"
        (.array (Vals.ofList [.int 32, .int 48, .int 64, .int 80, .int 96])) .nil)))) 20) := by decide +kernel

theorem test_canidMsg :
    ends .canidMsg (given { Ports.blank with prio := 16, dtid := 341, src := 42 }) =
      some (0x00, .canId 0x1001552A) := by decide

theorem test_canidAnon :
    ends .canidAnon (given { Ports.blank with prio := 24, dtid := 341, payload := [1, 2, 3] }) =
      some (0x00, .canId 0x18B6B500) := by decide +kernel

theorem test_canidSvc :
    ends .canidSvc (given { Ports.blank with prio := 30, dtid := 1, kind := 1, dst := 10, src := 42 }) =
      some (0x00, .canId 0x1E018AAA) ∧
    ends .canidSvc (given { Ports.blank with prio := 30, dtid := 1, kind := 2, dst := 42, src := 10 }) =
      some (0x00, .canId 0x1E012A8A) := by decide

theorem test_canidDec :
    ends .canidDec (given { Ports.blank with id := 0x1EB5A800 }) =
      some (0x00, .idFields { prio := 30, kind := .broadcast, anon := true, dtid := 0, src := 0, dst := 0,
                              disc := 11626 }) := by decide

theorem test_canidDec_request :
    ends .canidDec (given { Ports.blank with id := 0x1E018AAA }) =
      some (0x00, .idFields { prio := 30, kind := .request, anon := false, dtid := 1, src := 42, dst := 10,
                              disc := 0 }) := by decide

/-- A data frame with this format and identifier. -/
def frameOf (ext : Bool) (id : Nat) (data : List Byte) : Frame :=
  { id := id, ext := ext, rtr := false, err := false, data := data }

theorem test_canidCmp :
    ends .canidCmp (given { Ports.blank with fa := frameOf false 0x400 [], fb := frameOf true 0x10000000 [] }) =
      some (0x00, .order (-1)) ∧
    ends .canidCmp (given { Ports.blank with fa := frameOf false 0x401 [], fb := frameOf true 0x1003FFFF [] }) =
      some (0x00, .order 1) := by decide

theorem test_tailEnc :
    ends .tailEnc (given { Ports.blank with sot := 1, eot := 0, tog := 0, tid := 5 }) =
      some (0x00, .tailByte 0x85) ∧
    ends .tailEnc (given { Ports.blank with sot := 0, eot := 1, tog := 1, tid := 5 }) =
      some (0x00, .tailByte 0x65) := by decide

theorem test_tailDec :
    ends .tailDec (given { Ports.blank with b := 0x85 }) = some (0x00, .tailFields true false false 5) := by decide

theorem test_tidDist :
    ends .tidDist (given { Ports.blank with ta := 30, tb := 1 }) = some (0x00, .distance 3) ∧
    ends .tidDist (given { Ports.blank with ta := 6, tb := 5 }) = some (0x00, .distance 31) := by decide

theorem test_anonDisc :
    ends .anonDisc (given { Ports.blank with payload := [1, 2, 3] }) = some (0x00, .disc 0x2DAD) := by
  decide +kernel

/-- The identifier 0x1001552A and the signature of the vectors. -/
def sender (payload : List Byte) : State :=
  given { Ports.blank with id := 0x1001552A, tid := 5, sig := 0x0123456789ABCDEF, payload := payload }

theorem test_genStart :
    (after .genStart (sender [1, 2, 3, 4, 5, 6, 7, 8])).g.crc = 0x8990 ∧
    ends .genStart (sender [1, 2, 3, 4, 5, 6, 7, 8]) = some (0x00, .count 2) := by decide +kernel

theorem test_genNext :
    ends .genNext (after .genStart (sender [1, 2, 3, 4, 5, 6, 7, 8])) =
      some (0x00, .genFrame (frameOf true 0x1001552A [0x90, 0x89, 1, 2, 3, 4, 5, 0x85]) false) := by
  decide +kernel

theorem test_genNext_last :
    ends .genNext (after .genNext (after .genStart (sender [1, 2, 3, 4, 5, 6, 7, 8]))) =
      some (0x00, .genFrame (frameOf true 0x1001552A [6, 7, 8, 0x65]) true) := by decide +kernel

theorem test_genAbort :
    ends .genNext (after .genAbort (after .genStart (sender [1, 2, 3]))) = some (0x03, .none) := by
  decide +kernel

theorem test_genCount :
    ends .genCount (sender (List.replicate 50 0)) = some (0x00, .count 8) ∧
    ends .genCount (sender (List.replicate 12 0)) = some (0x00, .count 2) := by decide +kernel

/-- The machine `s` given this frame of identifier 0x1001552A at this time, the signature accepted. -/
def received (s : State) (data : List Byte) (now : Nat) : State :=
  { s with
    ports := { Ports.blank with
      frame := frameOf true 0x1001552A data, now := now, accept := some 0x0123456789ABCDEF } }

/-- The descriptor of identifier 0x1001552A. -/
def senderDesc : Desc := { dtid := 341, kind := .broadcast, src := 42, dst := 0 }

/-- The machine after the first frame of the payload 1, 2, …, 15, received at 7. -/
def collecting : State :=
  after .rxFrame (received State.reset [0x23, 0xD0, 1, 2, 3, 4, 5, 0x85] 7)

theorem test_rxFrame_first :
    collecting.result = some { status := 0x01, out := .none, asked := some senderDesc } ∧
    (tableGet collecting.rxTable senderDesc).map viewOf =
      some
        { initialized := true, collecting := true, tid := 5, toggle := true, lastTs := 7, bufLen := 5,
          frameCount := 1 } := by decide +kernel

theorem test_rxFrame_last :
    ends .rxFrame (received (after .rxFrame (received State.reset [0x90, 0x89, 1, 2, 3, 4, 5, 0x85] 0))
      [6, 7, 8, 0x65] 1000) =
      some (0x02, .transfer
        { desc := senderDesc, tid := 5, payload := [1, 2, 3, 4, 5, 6, 7, 8],
          frames := [frameOf true 0x1001552A [0x90, 0x89, 1, 2, 3, 4, 5, 0x85],
            frameOf true 0x1001552A [6, 7, 8, 0x65]] }) := by decide +kernel

theorem test_rxFrame_timeout :
    ends .rxFrame (received collecting [6, 7, 8, 9, 10, 11, 12, 0x25] 2000008) =
      some (0x11, .frames [frameOf true 0x1001552A [6, 7, 8, 9, 10, 11, 12, 0x25]]) := by decide +kernel

theorem test_rxSweep :
    ends .rxSweep { collecting with ports := { Ports.blank with now := 2000007 } } =
      some (0x00, .swept true 0) ∧
    ends .rxSweep { collecting with ports := { Ports.blank with now := 2000008 } } =
      some (0x00, .swept true 1) := by decide +kernel

theorem test_rxClear : (after .rxClear collecting).rxTable = [] := by decide +kernel

theorem test_rxLookup :
    ends .rxLookup { State.reset with
      ports := { Ports.blank with desc := { dtid := 341, kind := 0, src := 42, dst := 0 } } } =
      some (0x00, .entry none) := by decide

theorem test_sysReset :
    (after .sysReset { collecting with sys := { fault := true, faultCode := 0x30 } }).sys = Sys.clear ∧
    (after .sysReset collecting).rxTable = [] := by decide +kernel

theorem test_sysStatus :
    ends .sysStatus { State.reset with sys := { fault := true, faultCode := 0x30 } } =
      some (0x00, .sysStatus true 0x30) := by decide

/-- The first code since reset stays (60_exceptions.md R822). -/
theorem test_first_fault_stays :
    (serve [{ word := 0x00000902, ports := .blank }, { word := 0x01000001, ports := .blank }] State.reset).2.sys =
      { fault := true, faultCode := 0x30 } := by decide +kernel

/-- What the host asks of the fetch: the decoder reads a row's word, and the next step runs it. -/
theorem test_withFetchWord :
    decodeTableWord 32 0x00000002 = some (.bswPut 0) ∧
    step (State.reset.withFetchWord 32 0x00000018) = exec .crc64Init State.reset := ⟨rfl, rfl⟩

/-! ### Witnesses: states and operands that meet the hypotheses of a statement, clause by clause -/

/-- The machine `s` with this one command in the stream. -/
def offered (s : State) (word : CmdWord) : State := { s with cmds := [{ word := word, ports := .blank }] }

/-- The machine after reset with a writer capacity of `c` bits. -/
def capped (c : Nat) (s : State) : State := { s with cfg := { s.cfg with wCapBits := some c } }

theorem witness_StepPerformsDecodedCommand :
    (∃ s : State, ∃ c rest i, s.cmds = c :: rest ∧ decode c.word = .ok i) ∧ State.reset.cmds = [] :=
  ⟨⟨offered State.reset 0x00000070, _, [], _, rfl, rfl⟩, rfl⟩

theorem witness_IllegalWordFaults :
    wordFault (0x00000000 : CmdWord).toNat = some 0x37 ∧ wordFault (0x01000001 : CmdWord).toNat = some 0x37 ∧
    wordFault (0x00040021 : CmdWord).toNat = some 0x37 ∧ wordFault (0x00000170 : CmdWord).toNat = some 0x37 ∧
    wordFault (0x00000002 : CmdWord).toNat = some 0x30 ∧ wordFault (0x00004121 : CmdWord).toNat = some 0x30 ∧
    wordFault (0x00000102 : CmdWord).toNat = none ∧ wordFault (0x00004021 : CmdWord).toNat = none ∧
    ∃ c rest, (offered State.reset 0x00000002).cmds = c :: rest :=
  ⟨by decide, by decide, by decide, by decide, by decide, by decide, by decide, by decide, _, _, rfl⟩

theorem witness_EncodeOfDecode : decode 0x00020038 = .ok (.decStruct true) := rfl

theorem witness_EveryCommandReturnsAListedStatus : (offered State.reset 0xFFFFFFFF).cmds ≠ [] := by decide

/-- A fault, a status that is none, and TYPE.CHECK with a fault's code. -/
theorem witness_OnlyFaultsWriteSys :
    (∃ s t r, exec (.bswPut 9) s = .next t ∧ t.result = some r ∧ 0x30 ≤ r.status ∧
      Instr.bswPut 9 ≠ .typeCheck) ∧
    (∃ s t r, exec (.bsrGet 1) s = .next t ∧ t.result = some r ∧ r.status < 0x30 ∧
      Instr.bsrGet 1 ≠ .sysReset) ∧
    ∃ s t r, exec .typeCheck s = .next t ∧ t.result = some r ∧ 0x30 ≤ r.status :=
  ⟨⟨State.reset, _, _, rfl, rfl, by decide, by decide⟩, ⟨State.reset, _, _, rfl, rfl, by decide, by decide⟩,
    ⟨encoding (.void 0) (.int 0), _, _, rfl, rfl, by decide⟩⟩

theorem witness_RecordedFaultChangesNoOtherCommand :
    ∃ s t, Instr.bswClr ≠ .sysStatus ∧ exec .bswClr s = .next t := ⟨State.reset, _, by decide, rfl⟩

/-- A command of each part. -/
theorem witness_CommandsWriteOnlyTheirPart :
    (∃ t, exec .bswClr State.reset = .next t ∧ partOf .bswClr = .writer) ∧
    (∃ t, exec .bsrLoad State.reset = .next t ∧ partOf .bsrLoad = .reader) ∧
    (∃ t, exec .crc16Init State.reset = .next t ∧ partOf .crc16Init = .crc16) ∧
    (∃ t, exec .crc64Init State.reset = .next t ∧ partOf .crc64Init = .crc64) ∧
    (∃ t, exec .genAbort State.reset = .next t ∧ partOf .genAbort = .generator) ∧
    (∃ t, exec .rxClear State.reset = .next t ∧ partOf .rxClear = .table) ∧
    (∃ t, exec .sysReset State.reset = .next t ∧ partOf .sysReset = .whole) ∧
    ∃ t, exec .sysStatus State.reset = .next t ∧ partOf .sysStatus = .nothing :=
  ⟨⟨_, rfl, rfl⟩, ⟨_, rfl, rfl⟩, ⟨_, rfl, rfl⟩, ⟨_, rfl, rfl⟩, ⟨_, rfl, rfl⟩, ⟨_, rfl, rfl⟩, ⟨_, rfl, rfl⟩,
    ⟨_, rfl, rfl⟩⟩

theorem witness_QueriesAreIdempotent :
    ∃ s t out, partOf .crc16Rd = .nothing ∧ exec .crc16Rd s = .next t ∧ t.result = endsWith 0x00 out :=
  ⟨State.reset, _, _, rfl, rfl, rfl⟩

theorem witness_FailedCommandLeavesWriterAndReader :
    ∃ s t r, exec (.bsrGet 8) s = .next t ∧ t.result = some r ∧ r.status ≠ 0x00 :=
  ⟨State.reset, _, _, rfl, rfl, by decide⟩

/-- A machine with a transfer being collected, an active generator, bits in the writer and in the reader,
and a recorded fault. -/
def busy : State :=
  { collecting with
    w := { buf := [0x05], pos := 3 }, r := { buf := [0x5A], pos := 8 }
    g := genLoad 0x1001552A 5 0 [1, 2, 3, 4, 5, 6, 7, 8], sys := { fault := true, faultCode := 0x37 }
    cmds := [{ word := 0x00000051, ports := .blank }] }

theorem witness_EveryStepKeepsInv : ∃ t, Inv busy ∧ step busy = .next t :=
  ⟨(serve busy.cmds busy).2, by decide +kernel, rfl⟩

/-- BSR.LOAD with a load that just fits and with one byte more. -/
theorem witness_BufferCommands :
    (∀ c ∈ some 2, ([1, 2] : List Byte).length ≤ c) ∧ (∃ c ∈ some 2, c < ([1, 2, 3] : List Byte).length) := by
  decide

/-- The faults of BSW.PUT and BSW.PUTW at the ends of their ranges. -/
theorem witness_PutCommands_faults :
    ((0 : Byte).toNat = 0 ∧ 8 < (9 : Byte).toNat ∧ 64 < (65 : Byte).toNat) ∧
    (1 ≤ (8 : Byte).toNat ∧ (8 : Byte).toNat ≤ 8 ∧ 2 ^ (8 : Byte).toNat ≤ (writing [] 0 256).ports.vNum) ∧
    (0 ≤ (capped 8 (writing [5] 5 0)).ports.vNum ∧ (capped 8 (writing [5] 5 0)).ports.vNum < 2 ^ (4 : Byte).toNat ∧
      ∃ c ∈ (capped 8 (writing [5] 5 0)).cfg.wCapBits, c < (capped 8 (writing [5] 5 0)).w.pos + (4 : Byte).toNat) := by
  decide +kernel

/-- The least and the greatest width, with the writer just filled. -/
theorem witness_PutCommands :
    (writerInv (capped 8 (writing [5] 5 7)).cfg (capped 8 (writing [5] 5 7)).w ∧ 1 ≤ (3 : Byte).toNat ∧
      (capped 8 (writing [5] 5 7)).ports.vNum = (7 : Nat) ∧ 7 < 2 ^ (3 : Byte).toNat ∧
      ∀ c ∈ (capped 8 (writing [5] 5 7)).cfg.wCapBits, (capped 8 (writing [5] 5 7)).w.pos + (3 : Byte).toNat ≤ c) ∧
    (writerInv (writing [] 0 (2 ^ 64 - 1)).cfg (writing [] 0 (2 ^ 64 - 1)).w ∧ 1 ≤ (64 : Byte).toNat ∧
      (writing [] 0 (2 ^ 64 - 1)).ports.vNum = (2 ^ 64 - 1 : Nat) ∧ 2 ^ 64 - 1 < 2 ^ (64 : Byte).toNat ∧
      ∀ c ∈ (writing [] 0 (2 ^ 64 - 1)).cfg.wCapBits,
        (writing [] 0 (2 ^ 64 - 1)).w.pos + (64 : Byte).toNat ≤ c) := by
  decide +kernel

/-- A value that ends where the buffer ends, and a read of one bit more. -/
theorem witness_GetReadsBits :
    (1 ≤ (5 : Byte).toNat ∧ 11 < 2 ^ (5 : Byte).toNat ∧
      Holds .lsbFirst { buf := [0x5A], pos := 3 } (fieldBits .lsbFirst 5 11)) ∧
    (1 ≤ (6 : Byte).toNat ∧ 8 * ([0x5A] : List Byte).length < 3 + (6 : Byte).toNat) ∧
    ((0 : Byte).toNat = 0 ∧ 8 < (9 : Byte).toNat ∧ 64 < (65 : Byte).toNat) := by
  unfold Holds
  decide +kernel

/-- Two values written by BSW.PUTW, which just fill the writer. -/
def twoWrites : List (Option Result) × State :=
  serve (([(3, 5), (16, 0x1234)] : List (Byte × Nat)).map
    fun x => command (.bswPutw x.1) { Ports.blank with vNum := x.2 }) (capped 19 State.reset)

theorem witness_BitStreamRoundTrip :
    ∃ (s t u : State) (results : List (Option Result)), s.w = { buf := [], pos := 0 } ∧
      (∀ x ∈ ([(3, 5), (16, 0x1234)] : List (Byte × Nat)), 1 ≤ x.1.toNat ∧ x.1.toNat ≤ 64 ∧ x.2 < 2 ^ x.1.toNat) ∧
      (∀ c ∈ s.cfg.wCapBits, (([(3, 5), (16, 0x1234)] : List (Byte × Nat)).map (·.1.toNat)).sum ≤ c) ∧
      serve (([(3, 5), (16, 0x1234)] : List (Byte × Nat)).map
        fun x => command (.bswPutw x.1) { Ports.blank with vNum := x.2 }) s = (results, t) ∧
      u.cfg = s.cfg ∧ u.r = { buf := t.w.buf, pos := 0 } :=
  ⟨capped 19 State.reset, twoWrites.2, { capped 19 State.reset with r := { buf := twoWrites.2.w.buf, pos := 0 } },
    twoWrites.1, rfl, by decide +kernel, by decide +kernel, rfl, rfl, rfl⟩

theorem witness_CrcAbsorbs :
    (given { Ports.blank with b := 255 }).ports.b < 256 ∧ 256 ≤ (given { Ports.blank with b := 256 }).ports.b ∧
    (given { Ports.blank with sig := 2 ^ 64 - 1 }).ports.sig < 2 ^ 64 ∧
    2 ^ 64 ≤ (given { Ports.blank with sig := 2 ^ 64 }).ports.sig := by decide

theorem witness_CrcBlocksAbsorbTheirBytes :
    ∃ (s t u : State) (rs16 rs64 : List (Option Result)), ([1, 2] : List Byte) ≠ [] ∧
      serve (pseudoCrc16Block { Ports.blank with bytes := [1, 2] }) s = (rs16, t) ∧
      serve (pseudoCrc64Block { Ports.blank with bytes := [1, 2] }) s = (rs64, u) :=
  ⟨State.reset, (serve (pseudoCrc16Block { Ports.blank with bytes := [1, 2] }) State.reset).2,
    (serve (pseudoCrc64Block { Ports.blank with bytes := [1, 2] }) State.reset).2,
    (serve (pseudoCrc16Block { Ports.blank with bytes := [1, 2] }) State.reset).1,
    (serve (pseudoCrc64Block { Ports.blank with bytes := [1, 2] }) State.reset).1, by decide, rfl, rfl⟩

theorem witness_CrcFindsOneChangedByte : (0x00 : Byte) ≠ 0x01 := by decide

/-- A Bool, a value that is none, and voids of the least and greatest width, in a writer with no room and
in one that is just filled. -/
theorem witness_EncodeBoolAndVoid :
    (∃ s : State, writerInv s.cfg s.w ∧ s.ports.v = .bool true ∧ (∀ c ∈ s.cfg.wCapBits, s.w.pos + 1 ≤ c) ∧
      1 ≤ (1 : Byte).toNat ∧ (1 : Byte).toNat ≤ 64 ∧ ∀ c ∈ s.cfg.wCapBits, s.w.pos + (1 : Byte).toNat ≤ c) ∧
    (∃ s : State, ∀ b, s.ports.v ≠ .bool b) ∧
    (∃ s : State, s.ports.v = .bool true ∧ (∃ c ∈ s.cfg.wCapBits, c < s.w.pos + 1) ∧
      ∃ c ∈ s.cfg.wCapBits, c < s.w.pos + (64 : Byte).toNat) ∧
    ((0 : Byte).toNat = 0 ∧ 64 < (65 : Byte).toNat) :=
  ⟨⟨capped 1 (encoding .bool (.bool true)), by decide +kernel, rfl, by decide +kernel, by decide, by decide,
      by decide +kernel⟩,
    ⟨encoding .bool (.int 1), fun _ h => by cases h⟩,
    ⟨capped 0 (encoding .bool (.bool true)), rfl, by decide +kernel, by decide +kernel⟩, by decide⟩

/-- The ends of the value domain, in both modes: −2^63 in 2 bits clamped, 2^64 − 1 in 64 bits wrapped. -/
theorem witness_EncodeIntegersCast :
    (∃ (s : State) (n : Byte) (i : Int) (u k : Nat), writerInv s.cfg s.w ∧ s.ports.v = .int i ∧ 2 ≤ n.toNat ∧
      n.toNat ≤ 64 ∧ -(2 ^ 63) ≤ i ∧ i ≤ 2 ^ 64 - 1 ∧ (∀ c ∈ s.cfg.wCapBits, s.w.pos + n.toNat ≤ c) ∧
      u < 2 ^ n.toNat ∧ k < 2 ^ n.toNat ∧
      ((u : Int) = if i < 0 then 0 else if 2 ^ n.toNat ≤ i then 2 ^ n.toNat - 1 else i) ∧
      sext n.toNat k = (if i < -(2 ^ (n.toNat - 1)) then -(2 ^ (n.toNat - 1))
        else if 2 ^ (n.toNat - 1) ≤ i then 2 ^ (n.toNat - 1) - 1 else i)) ∧
    ∃ (s : State) (n : Byte) (i : Int) (u k : Nat), writerInv s.cfg s.w ∧ s.ports.v = .int i ∧ 2 ≤ n.toNat ∧
      n.toNat ≤ 64 ∧ -(2 ^ 63) ≤ i ∧ i ≤ 2 ^ 64 - 1 ∧ (∀ c ∈ s.cfg.wCapBits, s.w.pos + n.toNat ≤ c) ∧
      u < 2 ^ n.toNat ∧ k < 2 ^ n.toNat ∧ ∃ q : Int, i = q * 2 ^ n.toNat + u ∧ u = k :=
  ⟨⟨encoding .bool (.int (-(2 ^ 63))), 2, -(2 ^ 63), 0, 2, by decide +kernel, rfl, by decide, by decide,
      by decide, by decide, by decide +kernel, by decide, by decide, by decide, by decide⟩,
    ⟨encoding .bool (.int (2 ^ 64 - 1)), 64, 2 ^ 64 - 1, 2 ^ 64 - 1, 2 ^ 64 - 1, by decide +kernel, rfl,
      by decide, by decide, by decide, by decide, by decide +kernel, by decide, by decide, 0, by decide, rfl⟩⟩

/-- Widths next to the ranges, values of another kind, integers next to the domain, writers one bit short. -/
theorem witness_EncodeNumberFaults :
    ((1 : Byte).toNat < 2 ∧ 64 < (65 : Byte).toNat ∧ (24 : Byte).toNat ∉ [16, 32, 64]) ∧
    (∃ s : State, 2 ≤ (2 : Byte).toNat ∧ (64 : Byte).toNat ≤ 64 ∧ (∀ i, s.ports.v ≠ .int i) ∧
      ∀ x, s.ports.v ≠ .float x) ∧
    (∃ s : State, ∃ i : Int, s.ports.v = .int i ∧ i < -(2 ^ 63)) ∧
    (∃ s : State, ∃ i : Int, s.ports.v = .int i ∧ 2 ^ 64 ≤ i) ∧
    (∃ s : State, ∃ i : Int, s.ports.v = .int i ∧ -(2 ^ 63) ≤ i ∧ i < 2 ^ 64 ∧
      ∃ c ∈ s.cfg.wCapBits, c < s.w.pos + (2 : Byte).toNat) ∧
    ∃ s : State, ∃ x, (16 : Byte).toNat ∈ [16, 32, 64] ∧ s.ports.v = .float x ∧
      ∃ c ∈ s.cfg.wCapBits, c < s.w.pos + (16 : Byte).toNat :=
  ⟨by decide,
    ⟨encoding .bool (.bool true), by decide, by decide, fun _ h => Val.noConfusion h, fun _ h => Val.noConfusion h⟩,
    ⟨encoding .bool (.int (-(2 ^ 63) - 1)), _, rfl, by decide⟩, ⟨encoding .bool (.int (2 ^ 64)), _, rfl, by decide⟩,
    ⟨capped 1 (encoding .bool (.int (2 ^ 64 - 1))), _, rfl, by decide, by decide, by decide +kernel⟩,
    ⟨capped 15 (encoding .bool (.float 0)), _, by decide, rfl, by decide +kernel⟩⟩

/-- Every width, in a writer that the widest just fills; a value of the format, a NaN, the least finite
values that overflow. -/
theorem witness_EncodeFloats :
    (∃ s : State, writerInv s.cfg s.w ∧ s.ports.v = .float 0x3FF8000000000000 ∧ (64 : Byte).toNat = 64 ∧
      (∀ c ∈ s.cfg.wCapBits, s.w.pos + (64 : Byte).toNat ≤ c) ∧ s.cfg.cvt16 = .ieee ∧ s.cfg.cvt32 = .ieee) ∧
    ((16 : Byte).toNat = 16 ∧ 0x3E00 < 2 ^ (16 : Byte).toNat ∧ (narrowFormat 16).isNan 0x3E00 = false ∧
      SameValue (narrowFormat 16) 0x3E00 (0x3FF8000000000000 : BitVec 64).toNat) ∧
    ((32 : Byte).toNat = 32 ∧ (narrowFormat 32).isNan 0xFF800000 = false ∧
      SameValue (narrowFormat 32) 0xFF800000 (0xFFF0000000000000 : BitVec 64).toNat) ∧
    (binary64.isFinite (0x40EFFC2000000000 : BitVec 64).toNat = true ∧
      maxFinite 16 < magnitudeOf binary64 (0x40EFFC2000000000 : BitVec 64).toNat ∧
      ClampedTo 16 .saturated 0xC0EFFC2000000000 0xC0EFFC0000000000) ∧
    binary64.isNan (0x7FF0000000000001 : BitVec 64).toNat = true ∧
    (binary64.isFinite (0x40F0000000000000 : BitVec 64).toNat = true ∧
      1039 ≤ binary64.expOf (0x40F0000000000000 : BitVec 64).toNat) ∧
    (binary64.isFinite (0x47F0000000000000 : BitVec 64).toNat = true ∧
      1151 ≤ binary64.expOf (0x47F0000000000000 : BitVec 64).toNat) := by
  unfold SameValue ClampedTo
  exact ⟨⟨capped 64 (encoding .bool (.float 0x3FF8000000000000)), by decide +kernel, rfl, by decide,
    by decide +kernel, rfl, rfl⟩, by decide +kernel, by decide +kernel, by decide +kernel, by decide +kernel,
    by decide +kernel, by decide +kernel⟩

/-- 65520 rounds to no finite binary16 value, 1/3 to one; 2^−25 is a tie between 0 and 2^−24. -/
theorem witness_NarrowingRoundsToNearest :
    (0x40EFFE0000000000 < 2 ^ 64 ∧ binary64.isFinite 0x40EFFE0000000000 = true ∧
      binary16.isFinite (narrowIeee binary16 0x40EFFE0000000000) = false) ∧
    (binary64.isFinite 0x3FD5555555555555 = true ∧
      binary16.isFinite (narrowIeee binary16 0x3FD5555555555555) = true ∧ binary16.isFinite 0x3556 = true) ∧
    (binary64.isFinite 0x3E60000000000000 = true ∧ narrowIeee binary16 0x3E60000000000000 = 0 ∧
      binary16.isFinite 1 = true) ∧
    (binary64.isFinite 0xFFF0000000000000 = false ∧ binary64.isNan 0xFFF0000000000000 = false) ∧
    binary64.isNan 0x7FF0000000000001 = true := by decide +kernel

/-- A value for each composite command, in a writer that it just fills, the TAO forms among them. -/
theorem witness_EncodeComposites :
    (∃ s : State, writerInv s.cfg s.w ∧ checkTy s.ports.ty = none ∧ conform s.ports.ty s.ports.v = none ∧
      (∀ c ∈ s.cfg.wCapBits, s.w.pos + encLen s.ports.ty s.ports.v false ≤ c) ∧
      s.ports.ty.isFixedArray = true) ∧
    (∃ s : State, writerInv s.cfg s.w ∧ checkTy s.ports.ty = none ∧ conform s.ports.ty s.ports.v = none ∧
      (∀ c ∈ s.cfg.wCapBits, s.w.pos + encLen s.ports.ty s.ports.v true ≤ c) ∧
      s.ports.ty.isDynamicArray = true ∧ taoEligible s.ports.ty = true) ∧
    (∃ s : State, writerInv s.cfg s.w ∧ checkTy s.ports.ty = none ∧ conform s.ports.ty s.ports.v = none ∧
      (∀ c ∈ s.cfg.wCapBits, s.w.pos + encLen s.ports.ty s.ports.v false ≤ c) ∧ s.ports.ty.isUnion = true) ∧
    ∃ s : State, writerInv s.cfg s.w ∧ checkTy s.ports.ty = none ∧ conform s.ports.ty s.ports.v = none ∧
      (∀ c ∈ s.cfg.wCapBits, s.w.pos + encLen s.ports.ty s.ports.v true ≤ c) ∧ s.ports.ty.isStruct = true :=
  ⟨⟨capped 12 (encoding tyNibbles vNibbles), by decide +kernel⟩,
    ⟨capped 16 (encoding tyBytes vBytes), by decide +kernel⟩,
    ⟨capped 6 (encoding tyUnion (.union 2 (.int (-3)))), by decide +kernel⟩,
    ⟨capped 20 (encoding tyTail vTail), by decide +kernel⟩⟩

/-- The layout of a Struct with a Void field, whose bits are told field by field. -/
theorem witness_EncodeComposites_layout :
    ∃ (fs : Fields) (es : Entries) (bits : List (List Bool)), conform (.struct fs) (.record es) = none ∧
      fs.toList = [("a", .uint 3 .saturated), ("", .void 2)] ∧ bits.length = fs.toList.length ∧
      bits[0]? = some (emit Config.default (.uint 3 .saturated) (.int 5) false) ∧ ("a", Val.int 5) ∈ es.toList ∧
      bits[1]? = some (List.replicate 2 false) :=
  ⟨.cons "a" (.uint 3 .saturated) (.cons "" (.void 2) .nil), .cons "a" (.int 5) .nil,
    [[true, false, true], [false, false]], by decide +kernel⟩

/-- A payload that just fills the writer, and one that is a bit too long. -/
theorem witness_EncodeWholePayload :
    (∃ s : State, checkTy s.ports.ty = none ∧ conform s.ports.ty s.ports.v = none ∧
      ∀ c ∈ s.cfg.wCapBits, encLen s.ports.ty s.ports.v s.ports.ty.isStruct ≤ c) ∧
    ∃ s : State, checkTy s.ports.ty = none ∧ conform s.ports.ty s.ports.v = none ∧
      ∃ c ∈ s.cfg.wCapBits, c < encLen s.ports.ty s.ports.v s.ports.ty.isStruct :=
  ⟨⟨capped 20 (encoding tyTail vTail), by decide +kernel⟩, ⟨capped 19 (encoding tyTail vTail), by decide +kernel⟩⟩

theorem witness_DescriptorAndValueChecks :
    (∃ s : State, checkTy s.ports.ty = some .invalidBitLength ∧ takesDescriptor s.ports.ty = true ∧
      ∀ c ∈ s.cfg.rCapBytes, s.ports.bytes.length ≤ c) ∧
    (∃ s : State, ∃ c ∈ s.cfg.rCapBytes, c < s.ports.bytes.length) ∧
    (∃ s : State, checkTy s.ports.ty = none ∧ conform s.ports.ty s.ports.v = none ∧
      takesDescriptor s.ports.ty = true ∧
      ∃ c ∈ s.cfg.wCapBits, c < s.w.pos + encLen s.ports.ty s.ports.v true) ∧
    (∃ s : State, checkTy s.ports.ty = none ∧ conform s.ports.ty s.ports.v = some .missingValue ∧
      takesDescriptor s.ports.ty = true ∧ s.ports.vGiven = true) ∧
    (∃ s : State, checkTy s.ports.ty = none ∧ s.ports.vGiven = true ∧ conform s.ports.ty s.ports.v = none) ∧
    ∃ s : State, checkTy s.ports.ty = none ∧ s.ports.vGiven = false :=
  ⟨⟨encoding (.array (.uint 65 .saturated) .fixed 1) (.int 0), by decide +kernel⟩,
    ⟨{ given { Ports.blank with bytes := [1, 2] } with cfg := { Config.default with rCapBytes := some 1 } },
      by decide +kernel⟩,
    ⟨capped 19 (encoding tyTail vTail), by decide +kernel⟩,
    ⟨given { Ports.blank with ty := tyTail, v := .record .nil, vGiven := true }, by decide +kernel⟩,
    ⟨given { Ports.blank with ty := tyTail, v := vTail, vGiven := true }, by decide +kernel⟩,
    ⟨encoding tyTail vTail, by decide +kernel⟩⟩

theorem witness_CompositeKindFaults :
    tyBytes.isFixedArray = false ∧ tyNibbles.isDynamicArray = false ∧ tyTail.isUnion = false ∧
    tyUnion.isStruct = false ∧
    ((Ty.array .bool .dynamic 5).isDynamicArray = true ∧ taoEligible (.array .bool .dynamic 5) = false) ∧
    ((Ty.array (.uint 7 .saturated) .dynamic 5).isDynamicArray = true ∧
      taoEligible (.array (.uint 7 .saturated) .dynamic 5) = false) := by decide +kernel

/-- A TAO-form Struct, and one whose length is fixed. -/
theorem witness_EncodedLengthBounds :
    (checkTy tyTail = none ∧ conform tyTail vTail = none ∧ taoSaved tyTail true = 3) ∧
    (checkTy tyPadded = none ∧ conform tyPadded vPadded = none ∧ fixedLength tyPadded = true) ∧
    tyPadded.isVoid = false ∧ (Fields.cons "x" .bool .nil).toList ≠ [] := by
  decide +kernel

/-- The last bit of the buffer, values at the end of the buffer, and reads one bit beyond it. -/
theorem witness_DecodePrimitives :
    Holds .lsbFirst { buf := [0x80], pos := 7 } [true] ∧ 8 * ([0x80] : List Byte).length < 8 + 1 ∧
    ((1 : Byte).toNat < 2 ∧ 64 < (65 : Byte).toNat) ∧
    (2 ≤ (2 : Byte).toNat ∧ (2 : Byte).toNat ≤ 64 ∧ 3 < 2 ^ (2 : Byte).toNat ∧
      Holds .lsbFirst { buf := [0xC0], pos := 6 } (fieldBits .lsbFirst 2 3)) ∧
    (2 ≤ (64 : Byte).toNat ∧ (64 : Byte).toNat ≤ 64 ∧ 2 ^ 63 < 2 ^ (64 : Byte).toNat ∧
      Holds .msbFirst { buf := [0, 0, 0, 0, 0, 0, 0, 0x80], pos := 0 } (fieldBits .msbFirst 64 (2 ^ 63))) ∧
    8 * ([0xC0] : List Byte).length < 7 + (2 : Byte).toNat ∧
    (1 ≤ (8 : Byte).toNat ∧ 0 + (8 : Byte).toNat ≤ 8 * ([0xFF] : List Byte).length) ∧
    8 * ([0xFF] : List Byte).length < 0 + (9 : Byte).toNat := by
  unfold Holds
  decide +kernel

/-- Patterns of each width, a NaN among them, and a reader one bit short. -/
theorem witness_DecodeFloats :
    (24 : Byte).toNat ∉ [16, 32, 64] ∧
    ((16 : Byte).toNat ∈ [16, 32, 64] ∧ 8 * ([0x00, 0x3C] : List Byte).length < 1 + (16 : Byte).toNat) ∧
    (0x3C00 < 2 ^ (16 : Byte).toNat ∧ (narrowFormat 16).isNan 0x3C00 = false ∧
      Holds .lsbFirst { buf := [0x00, 0x3C], pos := 0 } (fieldBits .lsbFirst 16 0x3C00)) ∧
    (0x7E01 < 2 ^ (16 : Byte).toNat ∧ (narrowFormat 16).isNan 0x7E01 = true ∧
      Holds .lsbFirst { buf := [0x01, 0x7E], pos := 0 } (fieldBits .lsbFirst 16 0x7E01)) ∧
    ((32 : Byte).toNat ∈ [16, 32, 64] ∧ (narrowFormat 32).isNan 0x7F800001 = true ∧
      Holds .lsbFirst { buf := [0x01, 0x00, 0x80, 0x7F], pos := 0 } (fieldBits .lsbFirst 32 0x7F800001)) ∧
    ((64 : Byte).toNat ∈ [16, 32, 64] ∧
      Holds .lsbFirst { buf := [0, 0, 0, 0, 0, 0, 0xF0, 0x7F], pos := 0 }
        (fieldBits .lsbFirst 64 0x7FF0000000000000)) := by
  unfold Holds
  decide +kernel

/-- The least subnormal, the greatest finite value and infinity. -/
theorem witness_NarrowUndoesWiden :
    (1 < 2 ^ 16 ∧ binary16.isNan 1 = false ∧ binary16.isNan 0x7BFF = false ∧ binary16.isNan 0x7C00 = false) ∧
    (1 < 2 ^ 32 ∧ binary32.isNan 1 = false ∧ binary32.isNan 0xFF800000 = false) := by decide +kernel

theorem leavesFit_vNibbles : leavesFit Config.default tyNibbles vNibbles := by
  simp [tyNibbles, vNibbles, leavesMeet, Vals.ofList, Vals.toList]

theorem leavesFit_vBytes (m : Nat) : leavesFit Config.default (.array (.uint 8 .saturated) .dynamic m) vBytes := by
  simp [vBytes, leavesMeet, Vals.ofList, Vals.toList]

theorem leavesFit_vTail : leavesFit Config.default tyTail vTail := by
  simp [tyTail, vTail, tyBytes, vBytes, leavesMeet, leavesMeetFields, Entries.get?, Vals.ofList, Vals.toList]

theorem leavesFit_vFull : leavesFit Config.default tyTail vFull := by
  simp [tyTail, vFull, tyBytes, leavesMeet, leavesMeetFields, Entries.get?, Vals.ofList, Vals.toList]

theorem leavesFit_union : leavesFit Config.default tyUnion (.union 2 (.int (-3))) := by
  simp [tyUnion, leavesMeet, leavesMeetMember]

/-- A binary16 leaf, 1.0. -/
theorem leavesFit_float :
    leavesFit Config.default (.float 16 .saturated) (.float 0x3FF0000000000000) := by
  simp only [leavesMeet, floatFits]
  exact ⟨by decide +kernel, ⟨fun _ => rfl, fun _ => rfl⟩,
    fun _ => ⟨0x3C00, by decide, by decide +kernel, by decide +kernel⟩⟩

/-- The same leaf is readable, and so is a NaN, in an array of binary16. -/
theorem leavesReadable_nan :
    leavesReadable Config.default (.array (.float 16 .saturated) .fixed 2)
      (.array (.cons (.float 0x3FF0000000000000) (.cons (.float 0x7FF8000000000000) .nil))) := by
  simp only [leavesMeet, Vals.toList, List.mem_cons, List.not_mem_nil, or_false]
  rintro v (rfl | rfl)
  · have h := leavesFit_float
    simp only [leavesMeet] at h ⊢
    exact ⟨h.2.1, .inr h.2.2⟩
  · simp only [leavesMeet]
    exact ⟨⟨fun _ => rfl, fun _ => rfl⟩, .inl (by decide +kernel)⟩

/-- A value for each composite command, the tail forms with the zero fill of the payload after them; an array
with a NaN; and a full array in TAO form with 8 bits after it. -/
theorem witness_DecodeFindsWhatWasEncoded :
    (∃ (s : State) (v : Val), checkTy s.ports.ty = none ∧ conform s.ports.ty v = none ∧
      leavesReadable s.cfg s.ports.ty v ∧ Holds s.cfg.bitOrder s.r (emit s.cfg s.ports.ty v false) ∧
      tailRoom s.ports.ty v false = none ∧ leavesFit s.cfg s.ports.ty v ∧ s.ports.ty.isFixedArray = true) ∧
    (∃ (s : State) (v : Val), checkTy s.ports.ty = none ∧ conform s.ports.ty v = none ∧
      leavesReadable s.cfg s.ports.ty v ∧ Holds s.cfg.bitOrder s.r (emit s.cfg s.ports.ty v true) ∧
      (∀ e ∈ tailRoom s.ports.ty v true,
        8 * s.r.buf.length < s.r.pos + (emit s.cfg s.ports.ty v true).length + e) ∧
      s.ports.ty.isDynamicArray = true ∧ taoEligible s.ports.ty = true) ∧
    (∃ (s : State) (v : Val), checkTy s.ports.ty = none ∧ conform s.ports.ty v = none ∧
      leavesReadable s.cfg s.ports.ty v ∧ Holds s.cfg.bitOrder s.r (emit s.cfg s.ports.ty v false) ∧
      tailRoom s.ports.ty v false = none ∧ s.ports.ty.isUnion = true) ∧
    (∃ (s : State) (v : Val), checkTy s.ports.ty = none ∧ conform s.ports.ty v = none ∧
      leavesReadable s.cfg s.ports.ty v ∧ Holds s.cfg.bitOrder s.r (emit s.cfg s.ports.ty v true) ∧
      (∀ e ∈ tailRoom s.ports.ty v true,
        8 * s.r.buf.length < s.r.pos + (emit s.cfg s.ports.ty v true).length + e) ∧ s.ports.ty.isStruct = true) ∧
    (∃ (s : State) (v : Val), checkTy s.ports.ty = none ∧ conform s.ports.ty v = none ∧
      leavesReadable s.cfg s.ports.ty v ∧ Holds s.cfg.bitOrder s.r (emit s.cfg s.ports.ty v false) ∧
      tailRoom s.ports.ty v false = none ∧ s.ports.ty = .array (.float 16 .saturated) .fixed 2) ∧
    ∃ (s : State) (v : Val), checkTy s.ports.ty = none ∧ conform s.ports.ty v = none ∧
      leavesReadable s.cfg s.ports.ty v ∧ Holds s.cfg.bitOrder s.r (emit s.cfg s.ports.ty v true) ∧
      tailRoom s.ports.ty v true = none ∧
      8 * s.r.buf.length = s.r.pos + (emit s.cfg s.ports.ty v true).length + 8 :=
  ⟨⟨reading [0x2F, 0x08] tyNibbles, vNibbles, by decide +kernel, by decide +kernel,
      leavesReadable_of_leavesFit leavesFit_vNibbles,
      by unfold Holds; decide +kernel, by decide, leavesFit_vNibbles, by decide⟩,
    ⟨reading [0x10, 0x20] tyBytes, vBytes, by decide +kernel, by decide +kernel,
      leavesReadable_of_leavesFit (leavesFit_vBytes 5),
      by unfold Holds; decide +kernel, by decide +kernel, by decide, by decide⟩,
    ⟨reading [0x36] tyUnion, .union 2 (.int (-3)), by decide +kernel, by decide +kernel,
      leavesReadable_of_leavesFit leavesFit_union,
      by unfold Holds; decide +kernel, by decide, by decide⟩,
    ⟨reading [0x01, 0x01, 0x02] tyTail, vTail, by decide +kernel, by decide +kernel,
      leavesReadable_of_leavesFit leavesFit_vTail,
      by unfold Holds; decide +kernel, by decide +kernel, by decide⟩,
    ⟨reading [0x00, 0x3C, 0x00, 0x7E] (.array (.float 16 .saturated) .fixed 2),
      .array (.cons (.float 0x3FF0000000000000) (.cons (.float 0x7FF8000000000000) .nil)),
      by decide +kernel, by decide +kernel, leavesReadable_nan, by unfold Holds; decide +kernel, by decide, rfl⟩,
    ⟨reading [0x10, 0x20, 0x30] (.array (.uint 8 .saturated) .dynamic 2), vBytes, by decide +kernel,
      by decide +kernel, leavesReadable_of_leavesFit (leavesFit_vBytes 2),
      by unfold Holds; decide +kernel, by decide, by decide +kernel⟩⟩

/-- A payload with its zero fill, and the payload of 43_codec_decode.md R413 whose array is full, with 20 bits
after it. -/
theorem witness_DecodeWholePayload :
    (∃ (s : State) (v : Val), checkTy s.ports.ty = none ∧ conform s.ports.ty v = none ∧
      leavesReadable s.cfg s.ports.ty v ∧ (∀ c ∈ s.cfg.rCapBytes, s.ports.bytes.length ≤ c) ∧
      Holds s.cfg.bitOrder { buf := s.ports.bytes, pos := 0 } (emit s.cfg s.ports.ty v s.ports.ty.isStruct) ∧
      leavesFit s.cfg s.ports.ty v ∧
      ∀ e ∈ tailRoom s.ports.ty v s.ports.ty.isStruct,
        8 * s.ports.bytes.length < (emit s.cfg s.ports.ty v s.ports.ty.isStruct).length + e) ∧
    ∃ (s : State) (v : Val), checkTy s.ports.ty = none ∧ conform s.ports.ty v = none ∧
      leavesReadable s.cfg s.ports.ty v ∧ (∀ c ∈ s.cfg.rCapBytes, s.ports.bytes.length ≤ c) ∧
      Holds s.cfg.bitOrder { buf := s.ports.bytes, pos := 0 } (emit s.cfg s.ports.ty v s.ports.ty.isStruct) ∧
      tailRoom s.ports.ty v s.ports.ty.isStruct = none ∧
      8 * s.ports.bytes.length = (emit s.cfg s.ports.ty v s.ports.ty.isStruct).length + 20 :=
  ⟨⟨given { Ports.blank with ty := tyTail, bytes := [0x01, 0x01, 0x02] }, vTail, by decide +kernel,
      by decide +kernel,
      leavesReadable_of_leavesFit leavesFit_vTail, by decide +kernel, by unfold Holds; decide +kernel,
      leavesFit_vTail, by decide +kernel⟩,
    ⟨given { Ports.blank with ty := tyTail, bytes := [1, 2, 3, 4, 5, 6, 7, 8] }, vFull, by decide +kernel,
      by decide +kernel,
      leavesReadable_of_leavesFit leavesFit_vFull, by decide +kernel, by unfold Holds; decide +kernel,
      by decide +kernel, by decide +kernel⟩⟩

theorem witness_DecodeOfEncodedPayload :
    ∃ s u : State, checkTy s.ports.ty = none ∧ conform s.ports.ty s.ports.v = none ∧
      leavesFit s.cfg s.ports.ty s.ports.v ∧
      (∀ c ∈ s.cfg.wCapBits, encLen s.ports.ty s.ports.v s.ports.ty.isStruct ≤ c) ∧ u.cfg = s.cfg ∧
      u.ports.ty = s.ports.ty ∧ u.ports.bytes = [0x01, 0x01, 0x02] ∧
      ends .enc s = some (0x00, .written [0x01, 0x01, 0x02] 20) ∧
      ∀ c ∈ u.cfg.rCapBytes, ([0x01, 0x01, 0x02] : List Byte).length ≤ c :=
  ⟨encoding tyTail vTail, given { Ports.blank with ty := tyTail, bytes := [0x01, 0x01, 0x02] },
    by decide +kernel, by decide +kernel, leavesFit_vTail, by decide +kernel, rfl, rfl, rfl, by decide +kernel,
    by decide +kernel⟩

/-- A prefix and a tag one too great; a prefix and a tag one bit short; a static array and a Struct cut
short; and an error in the last field of a Struct, the second element of an array, the member of a Union
and a whole payload. -/
theorem witness_DecodeErrorsKeepReader :
    (∃ s : State, readerInv s.r ∧ checkTy s.ports.ty = none ∧ s.ports.ty = .array (.uint 8 .saturated) .dynamic 5 ∧
      5 < 6 ∧ 6 < 2 ^ bitlen 5 ∧ Holds s.cfg.bitOrder s.r (fieldBits s.cfg.bitOrder (bitlen 5) 6)) ∧
    (∃ s : State, readerInv s.r ∧ checkTy s.ports.ty = none ∧ ∃ fs, s.ports.ty = .union fs ∧
      fs.toList.length ≤ 3 ∧ 3 < 2 ^ bitlen (fs.toList.length - 1) ∧
      Holds s.cfg.bitOrder s.r (fieldBits s.cfg.bitOrder (bitlen (fs.toList.length - 1)) 3)) ∧
    (∃ s : State, readerInv s.r ∧ s.ports.ty = .array (.uint 8 .saturated) .dynamic 5 ∧
      8 * s.r.buf.length < s.r.pos + bitlen 5) ∧
    (∃ s : State, readerInv s.r ∧ ∃ fs, s.ports.ty = .union fs ∧
      8 * s.r.buf.length < s.r.pos + bitlen (fs.toList.length - 1)) ∧
    (∃ s : State, readerInv s.r ∧ checkTy s.ports.ty = none ∧ fixedLength s.ports.ty = true ∧
      8 * s.r.buf.length < s.r.pos + maxBits s.ports.ty) ∧
    (∃ (s : State) (v : Val), readerInv s.r ∧ checkTy s.ports.ty = none ∧ conform s.ports.ty v = none ∧
      taoSaved s.ports.ty false = 0 ∧ 8 * s.r.buf.length < s.r.pos + (emit s.cfg s.ports.ty v false).length ∧
      ∀ i < 16, s.r.pos + i < 8 * s.r.buf.length →
        readBit s.cfg.bitOrder s.r.buf (s.r.pos + i) = (emit s.cfg s.ports.ty v false).getD i false) ∧
    (∃ (s : State) (fs pre : Fields) (es : Entries), readerInv s.r ∧ checkTy s.ports.ty = none ∧
      s.ports.ty = .struct fs ∧ fs.toList = pre.toList ++ [("d", tyBytes)] ∧
      conform (.struct pre) (.record es) = none ∧
      Holds s.cfg.bitOrder s.r (emit s.cfg (.struct pre) (.record es) false) ∧
      FailsWith (.decDarray false) (atPart s tyBytes (emit s.cfg (.struct pre) (.record es) false).length) 0x21) ∧
    (∃ (s : State) (vs : List Val), readerInv s.r ∧ checkTy s.ports.ty = none ∧
      s.ports.ty = .array tyUnion .fixed 2 ∧ vs.length < 2 ∧ (∀ v ∈ vs, conform tyUnion v = none) ∧
      Holds s.cfg.bitOrder s.r (vs.flatMap fun v => emit s.cfg tyUnion v false) ∧
      FailsWith .decUnion (atPart s tyUnion (vs.flatMap fun v => emit s.cfg tyUnion v false).length) 0x22) ∧
    (∃ (s : State) (vs : List Val), readerInv s.r ∧ checkTy s.ports.ty = none ∧
      s.ports.ty = .array tyUnion .dynamic 2 ∧ vs.length < 1 ∧ 1 ≤ 2 ∧ (∀ v ∈ vs, conform tyUnion v = none) ∧
      Holds s.cfg.bitOrder s.r
        (fieldBits s.cfg.bitOrder (bitlen 2) 1 ++ vs.flatMap fun v => emit s.cfg tyUnion v false) ∧
      FailsWith .decUnion
        (atPart s tyUnion (bitlen 2 + (vs.flatMap fun v => emit s.cfg tyUnion v false).length)) 0x22) ∧
    (∃ s : State, readerInv s.r ∧ checkTy s.ports.ty = none ∧ ∃ fs, s.ports.ty = .union fs ∧
      fs.toList[2]? = some ("z", .int 4 .saturated) ∧
      Holds s.cfg.bitOrder s.r (fieldBits s.cfg.bitOrder (bitlen (fs.toList.length - 1)) 2) ∧
      FailsWith (.decInt 4) (atPart s (.int 4 .saturated) (bitlen (fs.toList.length - 1))) 0x20) ∧
    ∃ s : State, readerInv s.r ∧ checkTy s.ports.ty = none ∧
      (∀ c ∈ s.cfg.rCapBytes, s.ports.bytes.length ≤ c) ∧
      FailsWith .decUnion { s with r := { buf := s.ports.bytes, pos := 0 } } 0x22 := by
  unfold Holds FailsWith
  exact
    ⟨⟨reading [0x06] tyBytes, by decide +kernel, by decide +kernel, rfl, by decide, by decide, by decide +kernel⟩,
    ⟨reading [0x03] tyUnion, by decide +kernel, by decide +kernel, _, rfl, by decide +kernel⟩,
    ⟨{ reading [0x06] tyBytes with r := { buf := [0x06], pos := 6 } }, by decide +kernel, rfl, by decide +kernel⟩,
    ⟨{ reading [0x03] tyUnion with r := { buf := [0x03], pos := 7 } }, by decide +kernel, _, rfl,
      by decide +kernel⟩,
    ⟨reading [0x2F] tyNibbles, by decide +kernel⟩,
    ⟨reading [0x21] tyTail, vTail, by decide +kernel⟩,
    ⟨reading [0x61] tyTail, _, .cons "n" (.uint 4 .saturated) .nil, .cons "n" (.int 1) .nil, by decide +kernel,
      by decide +kernel, rfl, rfl, by decide +kernel, by decide +kernel, by decide, rfl⟩,
    ⟨reading [0xF6] (.array tyUnion .fixed 2), [.union 2 (.int (-3))], by decide +kernel, by decide +kernel, rfl,
      by decide, by decide +kernel, by decide +kernel, by decide, rfl⟩,
    ⟨reading [0x0D] (.array tyUnion .dynamic 2), [], by decide +kernel, by decide +kernel, rfl, by decide,
      by decide, by decide +kernel, by decide +kernel, by decide, rfl⟩,
    ⟨{ reading [0x80] tyUnion with r := { buf := [0x80], pos := 6 } }, by decide +kernel, by decide +kernel, _, rfl,
      by decide +kernel, by decide +kernel, by decide, rfl⟩,
    ⟨given { Ports.blank with ty := tyUnion, bytes := [0x03] }, by decide +kernel, by decide +kernel,
      by decide +kernel, by decide, rfl⟩⟩

/-- Each operand of the identifier commands at its greatest value, and one of them one further. -/
theorem witness_BuildIdentifiers :
    (∃ s : State, s.ports.prio ≤ 31 ∧ s.ports.dtid ≤ 65535 ∧ 1 ≤ s.ports.src ∧ s.ports.src ≤ 127) ∧
    (∃ s : State, s.ports.src < 1) ∧ (∃ s : State, 31 < s.ports.prio) ∧
    (∃ s : State, s.ports.prio ≤ 31 ∧ s.ports.dtid ≤ 255 ∧ (s.ports.kind = 1 ∨ s.ports.kind = 2) ∧
      1 ≤ s.ports.dst ∧ s.ports.dst ≤ 127 ∧ 1 ≤ s.ports.src ∧ s.ports.src ≤ 127) ∧
    ∃ s : State, s.ports.kind ≠ 1 ∧ s.ports.kind ≠ 2 :=
  ⟨⟨given { Ports.blank with prio := 31, dtid := 65535, src := 127 }, by decide⟩, ⟨State.reset, by decide⟩,
    ⟨given { Ports.blank with prio := 32 }, by decide⟩,
    ⟨given { Ports.blank with prio := 31, dtid := 255, kind := 2, dst := 127, src := 127 }, by decide⟩,
    ⟨given { Ports.blank with kind := 3 }, by decide⟩⟩

theorem witness_AnonymousIdentifiers :
    (∃ s : State, s.cfg.anonDisc = .crcLow14 ∧ s.ports.prio ≤ 31 ∧ s.ports.dtid ≤ 65535 ∧
      s.ports.payload.length ≤ 7) ∧
    (∃ s : State, 65535 < s.ports.dtid) ∧
    ∃ s : State, s.ports.prio ≤ 31 ∧ s.ports.dtid ≤ 65535 ∧ 7 < s.ports.payload.length :=
  ⟨⟨given { Ports.blank with prio := 31, dtid := 65535, payload := [1, 2, 3, 4, 5, 6, 7] }, by decide⟩,
    ⟨given { Ports.blank with dtid := 65536 }, by decide⟩,
    ⟨given { Ports.blank with payload := [1, 2, 3, 4, 5, 6, 7, 8] }, by decide⟩⟩

theorem witness_ReadIdentifier :
    2 ^ 29 ≤ (given { Ports.blank with id := 2 ^ 29 }).ports.id ∧
    ((0x1FFFFFFF : Nat) < 2 ^ 29 ∧ 0x1FFFFFFF / 2 ^ 7 % 2 = 1) ∧
    ((0x18B6B500 : Nat) < 2 ^ 29 ∧ 0x18B6B500 / 2 ^ 7 % 2 = 0 ∧ 0x18B6B500 % 2 ^ 7 = 0) ∧
    ((0x1001552A : Nat) < 2 ^ 29 ∧ 0x1001552A / 2 ^ 7 % 2 = 0 ∧ 0x1001552A % 2 ^ 7 ≠ 0) := by decide

theorem witness_IdentifierRoundTrip : (127 : NodeId) ≠ 0 := by decide

/-- Frames for each clause: an ill-formed one, two formats, two identifiers, equal identifiers. -/
theorem witness_CompareFrames :
    ¬(frameOf false 0x800 []).id < (if (frameOf false 0x800 []).ext = true then 2 ^ 29 else 2 ^ 11) ∧
    ((frameOf true 0x1FFFFFFF []).ext = true ∧ (frameOf true 0x1FFFFFFF []).data.length ≤ 8 ∧
      (frameOf true 0x1FFFFFFF []).id < 2 ^ 29) ∧
    ((frameOf false 0x7FF []).ext = false ∧ (frameOf false 0x7FF []).id < 2 ^ 11) ∧
    ((frameOf true 1 []).ext = (frameOf true 2 []).ext ∧ (frameOf true 1 []).id < (frameOf true 2 []).id) ∧
    ((frameOf true 1 []).ext = { frameOf true 1 [] with rtr := true }.ext ∧
      (frameOf true 1 []).id = { frameOf true 1 [] with rtr := true }.id) := by decide

theorem witness_ArbitrationIsATotalOrder :
    (arbitrate (frameOf false 0x400 []) (frameOf true 0x10000000 []) ≤ 0 ∧
      arbitrate (frameOf true 0x10000000 []) (frameOf true 0x10000001 []) ≤ 0) ∧
    ((frameOf true (16 * 2 ^ 24 + 0x1552A) []).ext = true ∧ 0x1552A < 2 ^ 24 ∧
      (frameOf true (16 * 2 ^ 24 + 0x1552A) []).id = 16 * 2 ^ 24 + 0x1552A ∧
      (frameOf true (17 * 2 ^ 24 + 0x1552A) []).id = 17 * 2 ^ 24 + 0x1552A ∧ 16 < 17) := by decide

theorem witness_TailBytesAndDistance :
    (∃ s : State, s.ports.sot ≤ 1 ∧ s.ports.eot ≤ 1 ∧ s.ports.tog ≤ 1 ∧ s.ports.tid ≤ 31) ∧
    (∃ s : State, 31 < s.ports.tid) ∧ (∃ s : State, s.ports.b ≤ 255) ∧ (∃ s : State, 255 < s.ports.b) ∧
    (∃ s : State, s.ports.ta ≤ 31 ∧ s.ports.tb ≤ 31) ∧ ∃ s : State, 31 < s.ports.ta :=
  ⟨⟨given { Ports.blank with sot := 1, eot := 1, tog := 1, tid := 31 }, by decide⟩,
    ⟨given { Ports.blank with tid := 32 }, by decide⟩, ⟨given { Ports.blank with b := 255 }, by decide⟩,
    ⟨given { Ports.blank with b := 256 }, by decide⟩, ⟨given { Ports.blank with ta := 31, tb := 0 }, by decide⟩,
    ⟨given { Ports.blank with ta := 32 }, by decide⟩⟩

/-- GEN.START out of range, beyond its capacity, with an anonymous identifier and 8 bytes, and accepted. -/
theorem witness_GeneratorStart :
    (∃ s : State, 2 ^ 29 ≤ s.ports.id) ∧
    (∃ s : State, s.ports.id < 2 ^ 29 ∧ s.ports.tid ≤ 31 ∧ s.ports.sig < 2 ^ 64 ∧
      ∃ c ∈ s.cfg.genMaxPayload, c < s.ports.payload.length) ∧
    (∃ s : State, s.ports.id < 2 ^ 29 ∧ s.ports.tid ≤ 31 ∧ s.ports.sig < 2 ^ 64 ∧
      (∀ c ∈ s.cfg.genMaxPayload, s.ports.payload.length ≤ c) ∧ s.ports.id % 2 ^ 8 = 0 ∧
      7 < s.ports.payload.length) ∧
    ∃ s : State, s.ports.id < 2 ^ 29 ∧ s.ports.tid ≤ 31 ∧ s.ports.sig < 2 ^ 64 ∧
      (∀ c ∈ s.cfg.genMaxPayload, s.ports.payload.length ≤ c) ∧
      (s.ports.id % 2 ^ 8 = 0 → s.ports.payload.length ≤ 7) :=
  ⟨⟨given { Ports.blank with id := 2 ^ 29 }, by decide⟩,
    ⟨{ sender [1] with cfg := { Config.default with genMaxPayload := some 0 } }, by decide +kernel⟩,
    ⟨given { Ports.blank with id := 0x18B6B500, payload := [1, 2, 3, 4, 5, 6, 7, 8] }, by decide +kernel⟩,
    ⟨{ sender [1, 2, 3, 4, 5, 6, 7, 8] with cfg := { Config.default with genMaxPayload := some 8 } },
      by decide +kernel⟩⟩

/-- The generator idle, with one frame to give, before its first frame and before a later one. -/
theorem witness_GeneratorNext :
    State.reset.g.active = false ∧
    ((genLoad 1 5 0 [1]).active = true ∧ (genLoad 1 5 0 [1]).multi = false) ∧
    ((genLoad 1 5 0 [1, 2, 3, 4, 5, 6, 7, 8]).active = true ∧
      (genLoad 1 5 0 [1, 2, 3, 4, 5, 6, 7, 8]).multi = true ∧ (genLoad 1 5 0 [1, 2, 3, 4, 5, 6, 7, 8]).idx = 0) ∧
    ((genStep (genLoad 1 5 0 [1, 2, 3, 4, 5, 6, 7, 8])).2.2.active = true ∧
      (genStep (genLoad 1 5 0 [1, 2, 3, 4, 5, 6, 7, 8])).2.2.idx ≠ 0) := by decide +kernel

theorem witness_GeneratorHandsOutFrames :
    ∃ (s : State) (p : Ports) (id : CanId) (tid : TransferId) (sig : Signature), p.id = id.toNat ∧
      p.tid = tid.toNat ∧ p.sig = sig.toNat ∧ (∀ c ∈ s.cfg.genMaxPayload, p.payload.length ≤ c) ∧
      (id.toNat % 2 ^ 8 = 0 → p.payload.length ≤ 7) :=
  ⟨State.reset, (sender [1, 2, 3, 4, 5, 6, 7, 8]).ports, 0x1001552A, 5, 0x0123456789ABCDEF, by decide +kernel⟩

theorem witness_FramesCarryThePayload :
    ∃ f, (framesOf 0x1001552A 5 0 [1, 2, 3, 4, 5, 6, 7, 8])[1]? = some f := ⟨_, rfl⟩

/-- An ill-formed frame, a late timestamp, and a frame of each incompatible kind. -/
theorem witness_IncompatibleFrames :
    ¬(frameOf true (2 ^ 29) [0]).id < (if (frameOf true (2 ^ 29) [0]).ext = true then 2 ^ 29 else 2 ^ 11) ∧
    ¬(2 ^ 64 : Nat) < 2 ^ 64 ∧
    ((frameOf false 0x7FF [0xC5]).data.length ≤ 8 ∧ (frameOf false 0x7FF [0xC5]).id < 2 ^ 11 ∧
      (frameOf false 0x7FF [0xC5]).ext = false) ∧
    ((frameOf true 1 []).id < 2 ^ 29 ∧ (frameOf true 1 []).data = []) := by decide

/-- The machine `s` with a table of one entry at most. -/
def oneEntry (s : State) : State := { s with cfg := { s.cfg with rxCap := some 1 } }

/-- The machine `s` given a frame of identifier 0x1001562A, the signature accepted. -/
def other (s : State) (data : List Byte) : State :=
  { s with ports := { Ports.blank with frame := frameOf true 0x1001562A data, accept := some 0 } }

/-- A refused start frame, one that finds the table full, and a later frame without an entry. -/
theorem witness_FramesWithoutEntry :
    (∃ s : State, Receivable s ∧ s.ports.frame.data = [] ++ [tailByte true true false 5] ∧
      s.ports.accept = none) ∧
    (∃ s : State, Receivable s ∧ s.ports.frame.data = [] ++ [tailByte true true false 5] ∧
      s.ports.accept ≠ none ∧
      tableGet s.rxTable (descriptor (BitVec.ofNat 29 s.ports.frame.id)) = none ∧
      s.cfg.rxCap = some s.rxTable.length) ∧
    ∃ s : State, Receivable s ∧ s.ports.frame.data = [6] ++ [tailByte false false true 5] ∧
      tableGet s.rxTable (descriptor (BitVec.ofNat 29 s.ports.frame.id)) = none :=
  ⟨⟨given { Ports.blank with frame := frameOf true 0x1001552A [0xC5] }, by decide +kernel⟩,
    ⟨other (oneEntry collecting) [0xC5], by decide +kernel⟩, ⟨other State.reset [6, 0x25], by decide +kernel⟩⟩

/-- A single frame for a new entry, and one for an entry that is collecting. -/
theorem witness_SingleFrameTransfer :
    (∃ s : State, Receivable s ∧ s.ports.frame.data = [] ++ [tailByte true true false 5] ∧
      s.ports.accept = some 0 ∧
      tableGet s.rxTable (descriptor (BitVec.ofNat 29 s.ports.frame.id)) = none ∧
      s.cfg.rxCap ≠ some s.rxTable.length) ∧
    ∃ (s : State) (st : RxState), Receivable s ∧
      s.ports.frame.data = [1, 2] ++ [tailByte true true true 6] ∧ s.ports.accept = some 0x0123456789ABCDEF ∧
      tableGet s.rxTable (descriptor (BitVec.ofNat 29 s.ports.frame.id)) = some st ∧
      (5 : TransferId) = if startRestarts st 6 s.ports.now then 6 else st.tid :=
  ⟨⟨other State.reset [0xC5], by decide +kernel⟩,
    ⟨received collecting [1, 2, 0xE6] 8, (collecting.rxTable.map (·.2)).getD 0 newRxState, by decide +kernel⟩⟩

/-- Start frames of a multi-frame transfer: for a new entry, with the length just above the limit; for a
collecting entry with another toggle, with another id, and too short. -/
theorem witness_MultiFrameStart :
    (∃ s : State, Receivable s ∧ s.ports.frame.data = [1, 2, 3] ++ [tailByte true false false 5] ∧
      s.ports.accept = some 0 ∧ 3 < s.ports.frame.data.length ∧
      tableGet s.rxTable (descriptor (BitVec.ofNat 29 s.ports.frame.id)) = none ∧
      s.cfg.rxCap ≠ some s.rxTable.length) ∧
    (∃ (s : State) (st : RxState), Receivable s ∧ s.ports.frame.data = [1, 2] ++ [tailByte true false false 5] ∧
      tableGet s.rxTable (descriptor (BitVec.ofNat 29 s.ports.frame.id)) = some st ∧
      ¬startRestarts st 5 s.ports.now ∧ st.toggle = true) ∧
    (∃ (s : State) (st : RxState), Receivable s ∧ s.ports.frame.data = [1, 2] ++ [tailByte true false true 6] ∧
      tableGet s.rxTable (descriptor (BitVec.ofNat 29 s.ports.frame.id)) = some st ∧
      ¬startRestarts st 6 s.ports.now ∧ st.toggle = true ∧ st.tid = 5) ∧
    ∃ (s : State) (st : RxState), Receivable s ∧ s.ports.frame.data = [1, 2] ++ [tailByte true false true 5] ∧
      tableGet s.rxTable (descriptor (BitVec.ofNat 29 s.ports.frame.id)) = some st ∧
      ¬startRestarts st 5 s.ports.now ∧ st.toggle = true ∧ st.tid = 5 ∧ s.ports.frame.data.length ≤ 3 :=
  ⟨⟨other State.reset [1, 2, 3, 0x85], by decide +kernel⟩,
    ⟨received collecting [1, 2, 0x85] 2000007, (collecting.rxTable.map (·.2)).getD 0 newRxState, by decide +kernel⟩,
    ⟨received collecting [1, 2, 0xA6] 8, (collecting.rxTable.map (·.2)).getD 0 newRxState, by decide +kernel⟩,
    ⟨received collecting [1, 2, 0xA5] 8, (collecting.rxTable.map (·.2)).getD 0 newRxState, by decide +kernel⟩⟩

/-- A later frame just in time, within and beyond RX_MAX_PAYLOAD, and the end frame of a transfer whose
CRC is right. -/
theorem witness_MultiFrameContinue :
    (∃ (s : State) (st : RxState), Receivable s ∧
      s.ports.frame.data = [6, 7, 8, 9, 10, 11, 12] ++ [tailByte false false st.toggle st.tid] ∧
      tableGet s.rxTable (descriptor (BitVec.ofNat 29 s.ports.frame.id)) = some st ∧ st.initialized = true ∧
      st.collecting = true ∧ s.ports.now ≤ st.lastTs.toNat + 2000000 ∧
      ∀ m ∈ s.cfg.rxMaxPayload, st.buf.length + 7 ≤ m) ∧
    (∃ (s : State) (st : RxState), Receivable s ∧
      s.ports.frame.data = [6, 7, 8, 9, 10, 11, 12] ++ [tailByte false false st.toggle st.tid] ∧
      tableGet s.rxTable (descriptor (BitVec.ofNat 29 s.ports.frame.id)) = some st ∧ st.initialized = true ∧
      st.collecting = true ∧ s.ports.now ≤ st.lastTs.toNat + 2000000 ∧
      ∃ m ∈ s.cfg.rxMaxPayload, m < st.buf.length + 7) ∧
    ∃ (s : State) (st : RxState), Receivable s ∧
      s.ports.frame.data = [6, 7, 8] ++ [tailByte false true st.toggle st.tid] ∧
      tableGet s.rxTable (descriptor (BitVec.ofNat 29 s.ports.frame.id)) = some st ∧ st.initialized = true ∧
      st.collecting = true ∧ s.ports.now ≤ st.lastTs.toNat + 2000000 ∧
      xferCrc st.signature (st.buf ++ [6, 7, 8]) = st.crcExpected :=
  ⟨⟨{ received collecting [6, 7, 8, 9, 10, 11, 12, 0x25] 2000007 with
        cfg := { Config.default with rxMaxPayload := some 12 } },
      (collecting.rxTable.map (·.2)).getD 0 newRxState, by decide +kernel⟩,
    ⟨{ received collecting [6, 7, 8, 9, 10, 11, 12, 0x25] 2000007 with
        cfg := { Config.default with rxMaxPayload := some 11 } },
      (collecting.rxTable.map (·.2)).getD 0 newRxState, by decide +kernel⟩,
    ⟨received (after .rxFrame (received State.reset [0x90, 0x89, 1, 2, 3, 4, 5, 0x85] 0)) [6, 7, 8, 0x65] 0,
      ((after .rxFrame (received State.reset [0x90, 0x89, 1, 2, 3, 4, 5, 0x85] 0)).rxTable.map (·.2)).getD 0
        newRxState, by decide +kernel⟩⟩

/-- Later frames that are refused: a microsecond too late, on an idle entry, with another toggle, with
another transfer id. -/
theorem witness_LaterFrameRejected :
    (∃ (s : State) (st : RxState), Receivable s ∧ s.ports.frame.data = [6] ++ [tailByte false false true 5] ∧
      tableGet s.rxTable (descriptor (BitVec.ofNat 29 s.ports.frame.id)) = some st ∧
      st.lastTs.toNat + 2000000 < s.ports.now) ∧
    (∃ (s : State) (st : RxState), Receivable s ∧ s.ports.frame.data = [6] ++ [tailByte false false true 5] ∧
      tableGet s.rxTable (descriptor (BitVec.ofNat 29 s.ports.frame.id)) = some st ∧ st.initialized = true ∧
      s.ports.now ≤ st.lastTs.toNat + 2000000 ∧ st.collecting = false) ∧
    (∃ (s : State) (st : RxState), Receivable s ∧ s.ports.frame.data = [6] ++ [tailByte false false false 5] ∧
      tableGet s.rxTable (descriptor (BitVec.ofNat 29 s.ports.frame.id)) = some st ∧ st.initialized = true ∧
      s.ports.now ≤ st.lastTs.toNat + 2000000 ∧ st.collecting = true ∧ false ≠ st.toggle) ∧
    ∃ (s : State) (st : RxState), Receivable s ∧ s.ports.frame.data = [6] ++ [tailByte false false true 6] ∧
      tableGet s.rxTable (descriptor (BitVec.ofNat 29 s.ports.frame.id)) = some st ∧ st.initialized = true ∧
      s.ports.now ≤ st.lastTs.toNat + 2000000 ∧ st.collecting = true ∧ true = st.toggle ∧ 6 ≠ st.tid :=
  ⟨⟨received collecting [6, 0x25] 2000008, (collecting.rxTable.map (·.2)).getD 0 newRxState, by decide +kernel⟩,
    ⟨received (after .rxFrame (received State.reset [0xC5] 0)) [6, 0x25] 2000000,
      ((after .rxFrame (received State.reset [0xC5] 0)).rxTable.map (·.2)).getD 0 newRxState, by decide +kernel⟩,
    ⟨received collecting [6, 0x05] 2000007, (collecting.rxTable.map (·.2)).getD 0 newRxState, by decide +kernel⟩,
    ⟨received collecting [6, 0x26] 2000007, (collecting.rxTable.map (·.2)).getD 0 newRxState, by decide +kernel⟩⟩

/-- A table with an entry for another descriptor than the frame's, a well-formed frame, and one that is not. -/
theorem witness_FrameTouchesOnlyItsEntry :
    (∃ (s : State) (d : Desc), d ≠ descriptor (BitVec.ofNat 29 s.ports.frame.id) ∧
      tableGet s.rxTable d ≠ none ∧ s.ports.frame.data.length ≤ 8 ∧ s.ports.frame.ext = true ∧
      s.ports.frame.id < 2 ^ 29 ∧ s.ports.now < 2 ^ 64) ∧
    ∃ s : State, ¬s.ports.now < 2 ^ 64 :=
  ⟨⟨other collecting [0xC5], senderDesc, by decide +kernel⟩, ⟨given { Ports.blank with now := 2 ^ 64 }, by decide⟩⟩

/-- Two frames exactly T_TIMEOUT apart, in a table with room for one entry. -/
theorem witness_ReassemblesGeneratedTransfer :
    { Ports.blank with accept := some 0 }.accept = some (0 : Signature) ∧
    (oneEntry State.reset).cfg.rxCap ≠ some (oneEntry State.reset).rxTable.length ∧
    tableGet (oneEntry State.reset).rxTable (descriptor 0x1001552A) = none ∧
    ([0, 2000000] : List Nat).length = (framesOf 0x1001552A 5 0 [1, 2, 3, 4, 5, 6, 7, 8]).length ∧
    (∀ n ∈ ([0, 2000000] : List Nat), n < 2 ^ 64) ∧
    ([0, 2000000] : List Nat).IsChain (fun a b => b ≤ a + 2000000) ∧
    ∀ m ∈ (oneEntry State.reset).cfg.rxMaxPayload, ([1, 2, 3, 4, 5, 6, 7, 8] : List Byte).length ≤ m := by
  decide +kernel

/-- A timestamp out of range, a sweep too early by a microsecond, and one that is just due. -/
theorem witness_SweepEvictsStaleEntries :
    2 ^ 64 ≤ (given { Ports.blank with now := 2 ^ 64 }).ports.now ∧
    (∃ l ∈ (some 0 : Option Time), 999999 < l.toNat + 1000000) ∧
    (∀ l ∈ (some 0 : Option Time), l.toNat + 1000000 ≤ 1000000) ∧
    (∀ l ∈ (none : Option Time), l.toNat + 1000000 ≤ 0) := by
  have h0 : (0 : Time).toNat = 0 := rfl
  refine ⟨Nat.le_refl _, ⟨0, rfl, ?_⟩, fun l h => ?_, fun l h => ?_⟩
  · omega
  · cases h; omega
  · cases h

theorem witness_ClearAndLookup :
    (∃ s : State, 2 < s.ports.desc.kind) ∧ (∃ s : State, 65535 < s.ports.desc.dtid) ∧
    (∃ s : State, ∃ d : Desc, s.ports.desc = { dtid := d.dtid.toNat, kind := kindNumber d.kind,
                                               src := d.src.toNat, dst := d.dst.toNat } ∧
      tableGet s.rxTable d = none) ∧
    ∃ s : State, ∃ d : Desc, ∃ st, s.ports.desc = { dtid := d.dtid.toNat, kind := kindNumber d.kind,
                                                    src := d.src.toNat, dst := d.dst.toNat } ∧
      tableGet s.rxTable d = some st :=
  ⟨⟨given { Ports.blank with desc := { dtid := 0, kind := 3, src := 0, dst := 0 } }, by decide⟩,
    ⟨given { Ports.blank with desc := { dtid := 65536, kind := 0, src := 0, dst := 0 } }, by decide⟩,
    ⟨State.reset, { dtid := 0, kind := .broadcast, src := 0, dst := 0 }, by decide⟩,
    ⟨{ collecting with ports := { Ports.blank with desc := { dtid := 341, kind := 0, src := 42, dst := 0 } } },
      senderDesc, (collecting.rxTable.map (·.2)).getD 0 newRxState, by decide +kernel⟩⟩

end Sys2Proof.Tests
end

section
/-! The step delivers and performs the first command of the host's stream, and what a command leaves
unchanged. The frame is one predicate over a command's answer, `EndsWithin`: the command ends in a fault,
or it writes its own part of the state and the result port. Each shared operation of the commands gets its
frame lemma once; the split over the commands then cites them. -/

namespace Sys2Proof.Machine

/-! ### The step -/

/-- With no command in the host's stream a step changes nothing. -/
theorem step_of_cmds_nil (s : State) (h : s.cmds = []) : step s = .next s := by
  simp only [step, nextCommand_nil s h, noCommand]

/-- A first command whose word decodes is performed with its operands on the ports. -/
theorem step_of_decode_ok (s : State) (c : Command) (rest : List Command) (i : Instr)
    (h : s.cmds = c :: rest) (hi : decode c.word = .ok i) :
    step s = exec i { s with cmds := rest, ports := c.ports } := by
  simp only [step, nextCommand_cons s c rest h, hi]

/-- Settles O1: delivery takes the first command of the stream, and `step` dispatches on its decoded word. -/
theorem stepPerformsDecodedCommand : Obligations.StepPerformsDecodedCommand :=
  ⟨step_of_decode_ok, step_of_cmds_nil⟩

/-! ### The states that differ in one part -/

/-- `t` is `s` but for the part `p` and the result port. The reader's part has the count of NAN_WIDEN
draws with it (assumption 3); `whole` is the tuple of 10_state.md R30, so it leaves out the model's own
fields (assumption 15). -/
def WritesOnly (p : Part) (s t : State) : Prop :=
  match p with
  | .writer => t = { s with w := t.w, result := t.result }
  | .reader => t = { s with r := t.r, nanDraws := t.nanDraws, result := t.result }
  | .crc16 => t = { s with c16 := t.c16, result := t.result }
  | .crc64 => t = { s with c64 := t.c64, result := t.result }
  | .generator => t = { s with g := t.g, result := t.result }
  | .table => t = { s with rxTable := t.rxTable, rxLastSweep := t.rxLastSweep, result := t.result }
  | .whole => t = { t with cfg := s.cfg, cmds := s.cmds, ports := s.ports, nanDraws := s.nanDraws }
  | .nothing => t = { s with result := t.result }

namespace WritesOnly

variable {p : Part} {s t : State}

theorem refl (p : Part) (s : State) : WritesOnly p s s := by
  cases p <;> rfl

/-- Stated for any `c`, so that no unification computes a checksum. -/
theorem set_c16 (s : State) (c : BitVec 16) : WritesOnly .crc16 s { s with c16 := c } := rfl

theorem withResult (h : WritesOnly p s t) (st : Status) (out : Output) :
    WritesOnly p s (Machine.withResult st out t) := by
  cases p <;> rw [h] <;> rfl

theorem cfg_eq (h : WritesOnly p s t) : t.cfg = s.cfg := by
  cases p <;> rw [h]

theorem cmds_eq (h : WritesOnly p s t) : t.cmds = s.cmds := by
  cases p <;> rw [h]

theorem ports_eq (h : WritesOnly p s t) : t.ports = s.ports := by
  cases p <;> rw [h]

theorem w_eq (h : WritesOnly p s t) (hall : p ≠ .whole) (hp : p ≠ .writer) : t.w = s.w := by
  cases p with
  | whole | writer => contradiction
  | _ => rw [h]

theorem r_eq (h : WritesOnly p s t) (hall : p ≠ .whole) (hp : p ≠ .reader) : t.r = s.r := by
  cases p with
  | whole | reader => contradiction
  | _ => rw [h]

theorem nanDraws_eq (h : WritesOnly p s t) (hp : p ≠ .reader) : t.nanDraws = s.nanDraws := by
  cases p with
  | reader => contradiction
  | _ => rw [h]

theorem c16_eq (h : WritesOnly p s t) (hall : p ≠ .whole) (hp : p ≠ .crc16) : t.c16 = s.c16 := by
  cases p with
  | whole | crc16 => contradiction
  | _ => rw [h]

theorem c64_eq (h : WritesOnly p s t) (hall : p ≠ .whole) (hp : p ≠ .crc64) : t.c64 = s.c64 := by
  cases p with
  | whole | crc64 => contradiction
  | _ => rw [h]

theorem g_eq (h : WritesOnly p s t) (hall : p ≠ .whole) (hp : p ≠ .generator) : t.g = s.g := by
  cases p with
  | whole | generator => contradiction
  | _ => rw [h]

theorem rxTable_eq (h : WritesOnly p s t) (hall : p ≠ .whole) (hp : p ≠ .table) :
    t.rxTable = s.rxTable := by
  cases p with
  | whole | table => contradiction
  | _ => rw [h]

theorem rxLastSweep_eq (h : WritesOnly p s t) (hall : p ≠ .whole) (hp : p ≠ .table) :
    t.rxLastSweep = s.rxLastSweep := by
  cases p with
  | whole | table => contradiction
  | _ => rw [h]

end WritesOnly

/-! ### The answers of a command that writes one part -/

/-- How a command whose part is `p` may end from `s`: in a precondition fault, which writes SYS alone
(60_exceptions.md R810), or with its part written. -/
inductive EndsWithin (p : Part) (s : State) : Answer → Prop where
  | faults (code : Status) : EndsWithin p s (.next (faulted (statusCode code) s))
  | writes {t : State} (h : WritesOnly p s t) : EndsWithin p s (.next t)

namespace EndsWithin

variable {p : Part} {s t : State}

theorem fault (code : Status) : EndsWithin p s (Machine.fault code s) := .faults code

theorem ret (st : Status) (out : Output) (h : WritesOnly p s t) : EndsWithin p s (Machine.ret st out t) :=
  .writes (h.withResult st out)

theorem ok (out : Output) (h : WritesOnly p s t) : EndsWithin p s (Machine.ok out t) := .ret .ok out h

/-- A command that only returns a status and outputs writes no part. -/
theorem ret_same (st : Status) (out : Output) : EndsWithin p s (Machine.ret st out s) :=
  .ret st out (.refl p s)

theorem ok_same (out : Output) : EndsWithin p s (Machine.ok out s) := .ret_same .ok out

theorem ite {c : Prop} [Decidable c] {a b : Answer} (ha : EndsWithin p s a) (hb : EndsWithin p s b) :
    EndsWithin p s (if c then a else b) := by
  split
  · exact ha
  · exact hb

end EndsWithin

/-! ### The shared operations of the commands -/

theorem putNumber_endsWithin (n : Nat) (bits : Nat → List Bool) (s : State) :
    EndsWithin .writer s (putNumber n bits s) := by
  rcases putNumber_cases n bits s with ⟨_, h⟩ | ⟨_, _, _, h⟩ | ⟨_, _, _, h⟩ <;> rw [h]
  · exact .faults .invalidArgument
  · exact .faults .writerOverflow
  · exact .writes rfl

theorem gotNumber_endsWithin (got : Option (Nat × Reader)) (s : State) :
    EndsWithin .reader s (gotNumber got s) := by
  cases got with
  | none => exact .ret_same _ _
  | some vr => exact .ok _ rfl

theorem appendBits_endsWithin (len : Nat) (bits : List Bool) (s : State) :
    EndsWithin .writer s (appendBits len bits s) := by
  rcases appendBits_cases len bits s with ⟨_, h⟩ | ⟨_, h⟩ <;> rw [h]
  · exact .faults .writerOverflow
  · exact .writes rfl

theorem encodeAtCursor_endsWithin (T : Ty) (v : Val) (tail : Bool) (s : State) :
    EndsWithin .writer s (encodeAtCursor T v tail s) := by
  rcases encodeAtCursor_cases T v tail s with ⟨e, _, h⟩ | ⟨_, h⟩ <;> rw [h]
  · exact .faults e
  · exact appendBits_endsWithin _ _ s

theorem decodeAtCursor_endsWithin (T : Ty) (tail : Bool) (s : State) :
    EndsWithin .reader s (decodeAtCursor T tail s) := by
  rcases decodeAtCursor_cases T tail s with ⟨e, _, h⟩ | ⟨_, ⟨e, _, h⟩ | ⟨v, c, _, h⟩⟩ <;> rw [h]
  · exact .faults e
  · exact .writes rfl
  · exact .writes rfl

theorem rxStore_endsWithin (d : Desc) (asked : Option Desc) (a : RxAnswer) (s : State) :
    EndsWithin .table s (rxStore d asked a s) := .writes rfl

theorem rxNoEntry_endsWithin (st : Status) (out : Output) (asked : Option Desc) (s : State) :
    EndsWithin .table s (rxNoEntry st out asked s) := .writes rfl

/-! ### The commands whose meaning branches on data -/

theorem execEnc_endsWithin (s : State) : EndsWithin .writer s (execEnc s) := by
  unfold execEnc
  dsimp only
  split
  · exact .fault _
  · exact .ite (.fault _) (.ok _ rfl)

theorem execDec_endsWithin (s : State) : EndsWithin .reader s (execDec s) := by
  refine .ite (.fault _) ?_
  split
  · exact .fault _
  · split
    · exact .ret_same _ _
    · exact .ok _ rfl

theorem execTypeBitlen_endsWithin (s : State) : EndsWithin .nothing s (execTypeBitlen s) := by
  unfold execTypeBitlen
  split
  · exact .fault _
  · exact .ok_same _

theorem execTypeCheck_endsWithin (s : State) : EndsWithin .nothing s (execTypeCheck s) := by
  unfold execTypeCheck
  split
  · exact .ret_same _ _
  · exact .ok_same _

theorem rxStart_endsWithin (d : Desc) (f : Frame) (tb : Byte) (now : Time) (s : State) :
    EndsWithin .table s (rxStart d f tb now s) := by
  unfold rxStart
  split
  · exact rxNoEntry_endsWithin _ _ _ s
  · split
    · exact rxStore_endsWithin _ _ _ s
    · exact .ite (rxNoEntry_endsWithin _ _ _ s) (rxStore_endsWithin _ _ _ s)

theorem rxContinue_endsWithin (d : Desc) (f : Frame) (tb : Byte) (now : Time) (s : State) :
    EndsWithin .table s (rxContinue d f tb now s) := by
  unfold rxContinue
  split
  · exact rxStore_endsWithin _ _ _ s
  · exact rxNoEntry_endsWithin _ _ _ s

theorem execRxFrame_endsWithin (s : State) : EndsWithin .table s (execRxFrame s) :=
  .ite
    (.ite (.ite (rxStart_endsWithin _ _ _ _ s) (rxContinue_endsWithin _ _ _ _ s)) (.ret_same _ _))
    (.fault _)

theorem execRxLookup_endsWithin (s : State) : EndsWithin .nothing s (execRxLookup s) := by
  unfold execRxLookup
  split
  · exact .fault _
  · exact .ok_same _

/-! ### Every command -/

/-- The split over the commands, along the branches of each one's meaning (10_state.md R33 to R40,
20_memory.md R80, R87). -/
theorem exec_endsWithin (i : Instr) (s : State) : EndsWithin (partOf i) s (exec i s) := by
  cases i with
  | bswClr => exact .ok _ rfl
  | bswPut n | bswPutw n => exact .ite (putNumber_endsWithin _ _ s) (.fault _)
  | bsrLoad => exact .ite (.fault _) (.ok _ rfl)
  | bsrGet n | bsrGetw n => exact .ite (gotNumber_endsWithin _ s) (.fault _)
  | crc16Init | crc64Init => exact .ok _ rfl
  | crc16Byte | crc16Sig | crc16Xfer => exact .ite (.ok _ (.set_c16 s _)) (.fault _)
  | crc64Byte => exact .ite (.ok _ rfl) (.fault _)
  | encBool => exact encodeAtCursor_endsWithin _ _ _ s
  | encUint n cm | encInt n cm | encFloat n cm => exact .ite (encodeAtCursor_endsWithin _ _ _ s) (.fault _)
  | encVoid n => exact .ite (appendBits_endsWithin _ _ s) (.fault _)
  | encSarray | encUnion | encStruct tail => exact .ite (encodeAtCursor_endsWithin _ _ _ s) (.fault _)
  | encDarray tail => exact .ite (.ite (.fault _) (encodeAtCursor_endsWithin _ _ _ s)) (.fault _)
  | enc => exact execEnc_endsWithin s
  | typeBitlen => exact execTypeBitlen_endsWithin s
  | typeCheck => exact execTypeCheck_endsWithin s
  | decBool => exact decodeAtCursor_endsWithin .bool false s
  | decUint n | decInt n | decFloat n | decVoid n =>
    exact .ite (decodeAtCursor_endsWithin _ _ s) (.fault _)
  | decSarray | decUnion | decStruct tail => exact .ite (decodeAtCursor_endsWithin _ _ s) (.fault _)
  | decDarray tail => exact .ite (.ite (.fault _) (decodeAtCursor_endsWithin _ _ s)) (.fault _)
  | dec => exact execDec_endsWithin s
  | canidAnon => exact .ite (.ite (.fault _) (.ok_same _)) (.fault _)
  | canidMsg | canidSvc | canidDec | canidCmp | tailEnc | tailDec | tidDist =>
    exact .ite (.ok_same _) (.fault _)
  | genStart => exact .ite (.ite (.fault _) (.ite (.fault _) (.ok _ rfl))) (.fault _)
  | genNext => exact .ite (.ok _ rfl) (.ret_same _ _)
  | genAbort => exact .ok _ rfl
  | rxFrame => exact execRxFrame_endsWithin s
  | rxSweep => exact .ite (.ite (.ok_same _) (.ok _ rfl)) (.fault _)
  | rxClear => exact .ok _ rfl
  | rxLookup => exact execRxLookup_endsWithin s
  | sysReset => exact .ok _ rfl
  | bswBytes | bsrRem | crc16Rd | crc64Rd | anonDisc | genCount | sysStatus => exact .ok_same _

/-- Settles O9: a fault changes SYS and the result port alone, and any other end is within the command's
part. -/
theorem commandsWriteOnlyTheirPart : Obligations.CommandsWriteOnlyTheirPart := by
  intro i s t ht
  have h := exec_endsWithin i s
  rw [ht] at h
  cases h with
  | faults code => simp
  | writes h =>
    exact ⟨h.cfg_eq, h.cmds_eq, h.ports_eq, fun hall =>
      ⟨h.w_eq hall, fun hp => ⟨h.r_eq hall hp, h.nanDraws_eq hp⟩, h.c16_eq hall, h.c64_eq hall,
        h.g_eq hall, fun hp => ⟨h.rxTable_eq hall hp, h.rxLastSweep_eq hall hp⟩⟩⟩

end Sys2Proof.Machine
end

section
/-! The bits a command appends to the writer: the writer's invariant (10_state.md R33) is kept by every run
of bits that the capacity check admitted, and no encoding is longer than the check counted. -/

namespace Sys2Proof.Machine

/-! ### One bit of a buffer -/

theorem bitOfSlot_lt (o : BitOrder) (p : Nat) : bitOfSlot o p < 8 := by
  cases o with
  | lsbFirst => exact Nat.mod_lt p (by decide)
  | msbFirst =>
    rw [bitOfSlot]
    omega

/-- The eight bit positions of a byte name its eight bits. -/
theorem bitOfSlot_inj (o : BitOrder) (p q : Nat) : bitOfSlot o p = bitOfSlot o q ↔ p % 8 = q % 8 := by
  cases o with
  | lsbFirst => rfl
  | msbFirst =>
    simp only [bitOfSlot]
    omega

theorem readBit_of_length_le (o : BitOrder) (buf : List Byte) (p : Nat) (h : 8 * buf.length ≤ p) :
    readBit o buf p = false := by
  have hp : buf.length ≤ p / 8 := by omega
  simp [readBit, List.getElem?_eq_none hp]

theorem writeBit_length (o : BitOrder) (buf : List Byte) (p : Nat) (b : Bool) :
    (writeBit o buf p b).length = max buf.length (p / 8 + 1) := by
  simp only [writeBit, List.length_modify, List.length_append, List.length_replicate]
  omega

/-- The bytes after a bit write: the byte of the position takes the bit, the zero bytes of the extension
read as the missing ones did. -/
theorem writeBit_getD (o : BitOrder) (buf : List Byte) (p k : Nat) (b : Bool) :
    (writeBit o buf p b).getD k 0 =
      buf.getD k 0 ||| (if p / 8 = k ∧ b = true then 1#8 <<< bitOfSlot o p else 0#8) := by
  have hext : (buf ++ List.replicate (p / 8 + 1 - buf.length) 0).getD k 0 = buf.getD k 0 := by
    simp only [List.getD_eq_getElem?_getD, List.getElem?_append, List.getElem?_replicate]
    split
    · rfl
    · next hk => split <;> simp [List.getElem?_eq_none (Nat.le_of_not_lt hk)]
  have hlen : p / 8 < (buf ++ List.replicate (p / 8 + 1 - buf.length) (0 : Byte)).length := by
    simp only [List.length_append, List.length_replicate]
    omega
  rw [← hext, writeBit]
  simp only [List.getD_eq_getElem?_getD, List.getElem?_modify]
  by_cases hk : p / 8 = k
  · subst hk
    rw [List.getElem?_eq_getElem hlen]
    simp
  · simp [hk]

/-- A bit write sets one bit and reads no differently anywhere else (20_memory.md R82). -/
theorem readBit_writeBit (o : BitOrder) (buf : List Byte) (p q : Nat) (b : Bool) :
    readBit o (writeBit o buf p b) q = (readBit o buf q || (decide (q = p) && b)) := by
  have hslot : (1#8 <<< bitOfSlot o p).getLsbD (bitOfSlot o q) = decide (p % 8 = q % 8) := by
    have := bitOfSlot_lt o p
    have := bitOfSlot_lt o q
    rw [Bool.eq_iff_iff, decide_eq_true_iff, ← bitOfSlot_inj o p q]
    simp only [BitVec.getLsbD_shiftLeft, BitVec.getLsbD_one, Nat.ofNat_pos, decide_true, Bool.true_and,
      Bool.and_eq_true, decide_eq_true_eq, Bool.not_eq_true', decide_eq_false_iff_not]
    omega
  have hpos : q = p ↔ p / 8 = q / 8 ∧ p % 8 = q % 8 := by omega
  rw [readBit, writeBit_getD, BitVec.getLsbD_or, ← readBit]
  congr 1
  by_cases hb : p / 8 = q / 8 ∧ b = true
  · rw [if_pos hb, hslot]
    simp [hb, hpos]
  · rw [if_neg hb, BitVec.getLsbD_zero]
    have hne : ¬(q = p ∧ b = true) := fun h => hb ⟨(hpos.1 h.1).1, h.2⟩
    simpa using hne

/-! ### Runs of bits -/

/-- The writer's buffer ends with the byte its cursor stands in, and past the cursor it holds zeros: R33
without the capacity. -/
abbrev zeroFilled (o : BitOrder) (w : Writer) : Prop :=
  w.buf.length = (w.pos + 7) / 8 ∧ ∀ p, w.pos ≤ p → readBit o w.buf p = false

theorem writerInv_iff (cfg : Config) (w : Writer) :
    writerInv cfg w ↔ zeroFilled cfg.bitOrder w ∧ ∀ c ∈ cfg.wCapBits, w.pos ≤ c := by
  constructor
  · rintro ⟨hlen, hzero, hcap⟩
    refine ⟨⟨hlen, fun p hp => ?_⟩, hcap⟩
    by_cases h : p < 8 * w.buf.length
    · exact hzero p h hp
    · exact readBit_of_length_le _ _ _ (by omega)
  · rintro ⟨⟨hlen, hzero⟩, hcap⟩
    exact ⟨hlen, fun p _ hp => hzero p hp, hcap⟩

theorem zeroFilled_pushBit (o : BitOrder) (w : Writer) (b : Bool) (h : zeroFilled o w) :
    zeroFilled o (pushBit o w b) := by
  obtain ⟨hlen, hzero⟩ := h
  refine ⟨?_, fun p hp => ?_⟩
  · simp only [pushBit, writeBit_length]
    omega
  · have hp' : w.pos + 1 ≤ p := hp
    have hne : p ≠ w.pos := by omega
    simp [pushBit, readBit_writeBit, hzero p (by omega), hne]

theorem zeroFilled_pushBits (o : BitOrder) (w : Writer) (bits : List Bool) (h : zeroFilled o w) :
    zeroFilled o (pushBits o w bits) := by
  induction bits generalizing w with
  | nil => exact h
  | cons b bits ih => exact ih _ (zeroFilled_pushBit o w b h)

theorem zeroFilled_empty (o : BitOrder) : zeroFilled o Writer.empty :=
  ⟨rfl, fun p _ => readBit_of_length_le o [] p (Nat.zero_le p)⟩

theorem writerInv_empty (cfg : Config) : writerInv cfg Writer.empty :=
  (writerInv_iff _ _).2 ⟨zeroFilled_empty _, fun _ _ => Nat.zero_le _⟩

/-- Bits no more than the capacity check counted keep the writer's invariant (10_state.md R33). -/
theorem writerInv_pushBits {cfg : Config} {w : Writer} {bits : List Bool} {len : Nat}
    (h : zeroFilled cfg.bitOrder w) (hlen : bits.length ≤ len) (hcap : ∀ c ∈ cfg.wCapBits, w.pos + len ≤ c) :
    writerInv cfg (pushBits cfg.bitOrder w bits) := by
  refine (writerInv_iff _ _).2 ⟨zeroFilled_pushBits _ _ _ h, fun c hc => ?_⟩
  have := hcap c hc
  rw [pushBits_pos]
  omega

/-! ### The length of an encoding -/

theorem sum_chunkWidth (w n : Nat) : ((List.range n).map (chunkWidth w)).sum = min w (8 * n) := by
  induction n with
  | zero => simp
  | succ n ih =>
    rw [List.range_succ, List.map_append, List.sum_append, ih, List.map_singleton, List.sum_singleton,
      chunkWidth]
    omega

@[simp] theorem wideBits_length (o : BitOrder) (v w : Nat) : (wideBits o v w).length = w := by
  have hn : w ≤ 8 * chunkCount w := by simp only [chunkCount, ceilDiv]; omega
  simp only [wideBits, List.length_flatMap, chunkBits_length, sum_chunkWidth]
  omega

/-- Elements that each encode to no more bits than counted do so together. -/
theorem length_flatMap_le {α β : Type} (vs : List α) (f : α → List β) (len : α → Nat)
    (h : ∀ v, (f v).length ≤ len v) : (vs.flatMap f).length ≤ (vs.map len).sum := by
  rw [List.length_flatMap]
  exact List.sum_le_sum fun v _ => h v

mutual

/-- EncLen counts every bit that Emit writes (42_codec_encode.md R300, R301), also for a value that does
not conform, for which Emit leaves bits out. -/
theorem emit_length_le (cfg : Config) : ∀ (T : Ty) (v : Val) (t : Bool),
    (emit cfg T v t).length ≤ encLen T v t
  | .void n, _, _ => by simp only [emit, encLen, wideBits_length, le_refl]
  | .bool, v, _ => by cases v <;> simp [emit, encLen]
  | .uint n cm, v, _ | .int n cm, v, _ | .float n cm, v, _ => by cases v <;> simp [emit, encLen]
  | .array e .fixed m, v, _ => by
    cases v with
    | array vs =>
      simp only [emit, encLen]
      exact length_flatMap_le _ _ _ fun v => emit_length_le cfg e v false
    | _ => simp only [emit, List.length_nil, Nat.zero_le]
  | .array e .dynamic m, v, t => by
    cases v with
    | array vs =>
      have hvs := length_flatMap_le vs.toList _ _ fun v => emit_length_le cfg e v false
      simp only [emit, encLen, List.length_append]
      split
      · simpa using hvs
      · simpa using hvs
    | _ => simp only [emit, List.length_nil, Nat.zero_le]
  | .struct fs, v, t => by
    cases v with
    | record es =>
      simp only [emit, encLen]
      exact emitFields_length_le cfg fs es t
    | _ => simp only [emit, List.length_nil, Nat.zero_le]
  | .union fs, v, _ => by
    cases v with
    | union idx v =>
      simp only [emit, encLen, List.length_append, wideBits_length]
      exact Nat.add_le_add_left (emitMember_length_le cfg fs idx v) _
    | _ => simp only [emit, List.length_nil, Nat.zero_le]

theorem emitFields_length_le (cfg : Config) : ∀ (fs : Fields) (es : Entries) (t : Bool),
    (emitFields cfg fs es t).length ≤ encLenFields fs es t
  | .nil, _, _ => by simp only [emitFields, List.length_nil, Nat.zero_le]
  | .cons name T rest, es, t => by
    simp only [emitFields, encLenFields, List.length_append]
    refine Nat.add_le_add ?_ (emitFields_length_le cfg rest es t)
    split
    · simp
    · cases es.get? name with
      | none => simp
      | some v => exact emit_length_le cfg T v _

theorem emitMember_length_le (cfg : Config) : ∀ (fs : Fields) (idx : Nat) (v : Val),
    (emitMember cfg fs idx v).length ≤ encLenMember fs idx v
  | .nil, _, _ => by simp only [emitMember, List.length_nil, Nat.zero_le]
  | .cons _ T _, 0, v => by
    simp only [emitMember, encLenMember]
    exact emit_length_le cfg T v false
  | .cons _ _ rest, k + 1, v => by
    simp only [emitMember, encLenMember]
    exact emitMember_length_le cfg rest k v

end

end Sys2Proof.Machine
end

section
/-! A parse never moves the reader's cursor past the end of its buffer (10_state.md R34). Each parser is
first put as a sequence of parts, `parseThen`, in which the first error ends the parse
(43_codec_decode.md R400); the claim then follows part by part. -/

namespace Sys2Proof.Machine

variable {α β : Type}

/-- The parse `p`, then `k` on what it read; an error of `p` ends the parse. -/
def parseThen (p : Cursor → Parsed α) (k : α → Cursor → Parsed β) (c : Cursor) : Parsed β :=
  (p c).bind fun x => k x.1 x.2

/-! ### The parsers as sequences -/

section
variable (cfg : Config)

theorem parse_void (n : Nat) (t : Bool) :
    parse cfg (.void n) t = parseThen (parseWide cfg n) fun _ c => .ok (none, c) := by
  funext c
  unfold parse parseThen
  cases parseWide cfg n c <;> rfl

theorem parse_bool (t : Bool) :
    parse cfg .bool t = parseThen (parseBits cfg 1) fun u c => .ok (some (.bool (u == 1)), c) := by
  funext c
  unfold parse parseThen
  cases parseBits cfg 1 c <;> rfl

theorem parse_uint (n : Nat) (cm : CastMode) (t : Bool) :
    parse cfg (.uint n cm) t = parseThen (parseWide cfg n) fun u c => .ok (some (.int u), c) := by
  funext c
  unfold parse parseThen
  cases parseWide cfg n c <;> rfl

theorem parse_int (n : Nat) (cm : CastMode) (t : Bool) :
    parse cfg (.int n cm) t = parseThen (parseWide cfg n) fun u c => .ok (some (.int (sext n u)), c) := by
  funext c
  unfold parse parseThen
  cases parseWide cfg n c <;> rfl

theorem parse_float (n : Nat) (cm : CastMode) (t : Bool) :
    parse cfg (.float n cm) t = parseThen (parseFloat cfg n) fun x c => .ok (some x, c) := by
  funext c
  unfold parse parseThen
  cases parseFloat cfg n c <;> rfl

theorem parseFloat_eq (n : Nat) :
    parseFloat cfg n = parseThen (parseWide cfg n) fun u c =>
      .ok (.float (widen n u c.draws), if asksNanDraw n u then { c with draws := c.draws + 1 } else c) := by
  funext c
  unfold parseFloat parseThen
  cases parseWide cfg n c <;> rfl

theorem parseTimes_succ (p : Cursor → Parsed (Option Val)) (k : Nat) :
    parseTimes p (k + 1) = parseThen p fun v => parseThen (parseTimes p k) fun vs c => .ok (v.toList ++ vs, c) := by
  funext c
  unfold parseThen
  rw [parseTimes]
  cases p c with
  | error e => rfl
  | ok x => cases h : parseTimes p k x.2 <;> simp [h, Except.bind]

/-- While a whole element remains, a tail-optimised array parses like any other (43_codec_decode.md R410). -/
theorem parseTail_succ (p : Cursor → Parsed (Option Val)) (e k : Nat) (c : Cursor) :
    parseTail p e (k + 1) c =
      if e ≤ remaining c.r then
        parseThen p (fun v => parseThen (parseTail p e k) fun vs c => .ok (v.toList ++ vs, c)) c
      else .ok ([], c) := by
  unfold parseThen
  rw [parseTail]
  cases p c with
  | error e => rfl
  | ok x => cases h : parseTail p e k x.2 <;> simp [h, Except.bind]

theorem asArray_eq (p : Cursor → Parsed (List Val)) :
    (fun c => asArray (p c)) = parseThen p fun vs c => .ok (some (.array (Vals.ofList vs)), c) := by
  funext c
  unfold asArray parseThen
  cases p c <;> rfl

theorem parse_fixed (e : Ty) (m : Nat) (t : Bool) :
    parse cfg (.array e .fixed m) t = fun c => asArray (parseTimes (parse cfg e false) m c) := by
  funext c
  rw [parse]

theorem parse_dynamic (e : Ty) (m : Nat) (t : Bool) :
    parse cfg (.array e .dynamic m) t =
      if t && taoEligible (.array e .dynamic m) then
        fun c => asArray (parseTail (parse cfg e false) e.width m c)
      else parseThen (parseCount cfg m) fun k c => asArray (parseTimes (parse cfg e false) k c) := by
  funext c
  rw [parse]
  split
  · rfl
  · unfold parseThen
    cases parseCount cfg m c <;> rfl

theorem parse_union (fs : Fields) (t : Bool) :
    parse cfg (.union fs) t = parseThen (parseWide cfg (bitlen (fs.count - 1))) fun u =>
      if fs.count ≤ u then fun _ => .error .badUnionTag
      else parseThen (parseMember cfg fs u) fun v c => .ok (v.map fun x => .union u x, c) := by
  funext c
  unfold parseThen
  rw [parse]
  cases parseWide cfg (bitlen (fs.count - 1)) c with
  | error e => rfl
  | ok x =>
    by_cases hu : fs.count ≤ x.1
    · simp [hu, Except.bind]
    · cases h : parseMember cfg fs x.1 x.2 <;> simp [hu, h, Except.bind]

theorem parse_struct (fs : Fields) (t : Bool) :
    parse cfg (.struct fs) t =
      parseThen (parseFields cfg fs t) fun es c => .ok (some (.record (Entries.ofList es)), c) := by
  funext c
  unfold parseThen
  rw [parse]
  cases parseFields cfg fs t c <;> rfl

theorem parseFields_cons (name : String) (T : Ty) (rest : Fields) (t : Bool) :
    parseFields cfg (.cons name T rest) t =
      parseThen (parse cfg T (t && rest.toList.isEmpty)) fun v =>
        parseThen (parseFields cfg rest t) fun es c => .ok ((v.map fun x => (name, x)).toList ++ es, c) := by
  funext c
  unfold parseThen
  rw [parseFields]
  cases parse cfg T (t && rest.toList.isEmpty) c with
  | error e => rfl
  | ok x => cases h : parseFields cfg rest t x.2 <;> simp [h, Except.bind]

end

/-! ### The cursor stays inside -/

/-- The parse `p` leaves a cursor that lies in its buffer inside it. -/
def StaysInside (p : Cursor → Parsed α) : Prop :=
  ∀ c a c', readerInv c.r → p c = .ok (a, c') → readerInv c'.r

/-- A parse that reads nothing. -/
theorem StaysInside.pure (a : α) : StaysInside fun c => .ok (a, c) := by
  intro c a' c' hc h
  cases h
  exact hc

theorem StaysInside.parseThen {p : Cursor → Parsed α} {k : α → Cursor → Parsed β} (hp : StaysInside p)
    (hk : ∀ a, StaysInside (k a)) : StaysInside (parseThen p k) := by
  intro c b c' hc h
  unfold Machine.parseThen at h
  cases hr : p c with
  | error e =>
    rw [hr] at h
    cases h
  | ok x =>
    rw [hr] at h
    exact hk x.1 x.2 b c' (hp c x.1 x.2 hc hr) h

theorem readBits_readerInv {o : BitOrder} {n v : Nat} {r r' : Reader} (h : readBits o n r = some (v, r')) :
    readerInv r' := by
  rcases readBits_cases o n r with ⟨_, e⟩ | ⟨hn, e⟩ <;> rw [e] at h
  · cases h
  · cases h
    exact hn

theorem readWide_readerInv {o : BitOrder} {w v : Nat} {r r' : Reader} (h : readWide o w r = some (v, r')) :
    readerInv r' := by
  rcases readWide_cases o w r with ⟨_, e⟩ | ⟨hw, e⟩ <;> rw [e] at h
  · cases h
  · cases h
    exact hw

theorem parseWide_staysInside (cfg : Config) (w : Nat) : StaysInside (parseWide cfg w) := by
  intro c u c' _ h
  rw [parseWide] at h
  split at h
  · cases h
  next hr =>
    cases h
    exact readWide_readerInv hr

theorem parseBits_staysInside (cfg : Config) (n : Nat) : StaysInside (parseBits cfg n) := by
  intro c u c' _ h
  rw [parseBits] at h
  split at h
  · cases h
  next hr =>
    cases h
    exact readBits_readerInv hr

theorem parseFloat_staysInside (cfg : Config) (n : Nat) : StaysInside (parseFloat cfg n) := by
  rw [parseFloat_eq]
  refine (parseWide_staysInside cfg n).parseThen fun u c x c' hc h => ?_
  cases h
  split
  · exact hc
  · exact hc

theorem parseCount_staysInside (cfg : Config) (m : Nat) : StaysInside (parseCount cfg m) := by
  intro c k c' hc h
  rcases parseCount_cases cfg m c with ⟨_, e⟩ | ⟨_, ⟨_, e⟩ | ⟨hm, e⟩⟩ <;> rw [e] at h
  · cases h
    exact hc
  · cases h
  · split at h
    · cases h
    · cases h
      exact hm

theorem parseTimes_staysInside {p : Cursor → Parsed (Option Val)} (hp : StaysInside p) (k : Nat) :
    StaysInside (parseTimes p k) := by
  induction k with
  | zero => exact .pure []
  | succ k ih =>
    rw [parseTimes_succ]
    exact hp.parseThen fun v => ih.parseThen fun vs => .pure _

theorem parseTail_staysInside {p : Cursor → Parsed (Option Val)} (hp : StaysInside p) (e k : Nat) :
    StaysInside (parseTail p e k) := by
  induction k with
  | zero => exact .pure []
  | succ k ih =>
    intro c vs c' hc h
    rw [parseTail_succ] at h
    split at h
    · exact (hp.parseThen fun v => ih.parseThen fun vs => .pure _) c vs c' hc h
    · exact StaysInside.pure [] c vs c' hc h

theorem asArray_staysInside {p : Cursor → Parsed (List Val)} (hp : StaysInside p) :
    StaysInside fun c => asArray (p c) := by
  rw [asArray_eq]
  exact hp.parseThen fun vs => .pure _

mutual

theorem parse_staysInside (cfg : Config) : ∀ (T : Ty) (t : Bool), StaysInside (parse cfg T t)
  | .void n, t => by
    rw [parse_void]
    exact (parseWide_staysInside cfg n).parseThen fun _ => .pure _
  | .bool, t => by
    rw [parse_bool]
    exact (parseBits_staysInside cfg 1).parseThen fun _ => .pure _
  | .uint n cm, t => by
    rw [parse_uint]
    exact (parseWide_staysInside cfg n).parseThen fun _ => .pure _
  | .int n cm, t => by
    rw [parse_int]
    exact (parseWide_staysInside cfg n).parseThen fun _ => .pure _
  | .float n cm, t => by
    rw [parse_float]
    exact (parseFloat_staysInside cfg n).parseThen fun _ => .pure _
  | .array e .fixed m, t => by
    rw [parse_fixed]
    exact asArray_staysInside (parseTimes_staysInside (parse_staysInside cfg e false) m)
  | .array e .dynamic m, t => by
    have he := parse_staysInside cfg e false
    rw [parse_dynamic]
    split
    · exact asArray_staysInside (parseTail_staysInside he e.width m)
    · exact (parseCount_staysInside cfg m).parseThen fun k => asArray_staysInside (parseTimes_staysInside he k)
  | .union fs, t => by
    rw [parse_union]
    refine (parseWide_staysInside cfg _).parseThen fun u => ?_
    split
    · intro c a c' _ h
      cases h
    · exact (parseMember_staysInside cfg fs u).parseThen fun v => .pure _
  | .struct fs, t => by
    rw [parse_struct]
    exact (parseFields_staysInside cfg fs t).parseThen fun es => .pure _

theorem parseFields_staysInside (cfg : Config) : ∀ (fs : Fields) (t : Bool), StaysInside (parseFields cfg fs t)
  | .nil, t => by
    intro c es c' hc h
    rw [parseFields] at h
    cases h
    exact hc
  | .cons name T rest, t => by
    rw [parseFields_cons]
    exact (parse_staysInside cfg T _).parseThen fun v =>
      (parseFields_staysInside cfg rest t).parseThen fun es => .pure _

theorem parseMember_staysInside (cfg : Config) : ∀ (fs : Fields) (k : Nat), StaysInside (parseMember cfg fs k)
  | .nil, k => by
    intro c v c' _ h
    rw [parseMember] at h
    cases h
  | .cons _ T _, 0 => by
    intro c v c' hc h
    rw [parseMember] at h
    exact parse_staysInside cfg T false c v c' hc h
  | .cons _ _ rest, k + 1 => by
    intro c v c' hc h
    rw [parseMember] at h
    exact parseMember_staysInside cfg rest k c v c' hc h

end

end Sys2Proof.Machine
end

section
/-! The generator's cursor (45_generator.md R601, R602), an entry of the reassembler through the steps of a
frame (46_reassembler.md R704 to R714), and the codes of precondition faults. -/

namespace Sys2Proof.Machine

/-! ### The generator -/

theorem genInv_genLoad (id : CanId) (tid : TransferId) (sig : Signature) (payload : List Byte) :
    genInv (genLoad id tid sig payload) := by
  intro _
  simp only [genLoad, decide_eq_false_iff_not, decide_eq_true_iff]
  exact ⟨fun h => ⟨by omega, trivial⟩, fun h => ⟨h, rfl, by omega⟩⟩

theorem slice_length (xs : List Byte) (a b : Nat) : (slice xs a b).length = min b xs.length - a := by
  rw [slice_eq, List.length_drop, List.length_take]

/-- Giving a frame of an active sequence ends it or leaves its cursor where the next frame starts
(45_generator.md R602). -/
theorem genInv_genStep (g : Gen) (h : genInv g) (ha : g.active = true) : genInv (genStep g).2.2 := by
  obtain ⟨_, hmulti⟩ := h ha
  unfold genStep
  split
  · exact fun hact => absurd hact Bool.false_ne_true
  next hm =>
    have hm : g.multi = true := by simpa using hm
    obtain ⟨hlen, hoff, hlt⟩ := hmulti hm
    split
    next h0 =>
      simp only [genInv, hm, h0]
      exact fun _ => ⟨fun hf => by simp at hf, fun _ => ⟨hlen, by simp, by omega⟩⟩
    next h0 =>
      rw [if_neg h0] at hoff
      simp only [genInv, hm, Bool.not_eq_true', decide_eq_false_iff_not, slice_length]
      intro hmore
      refine ⟨fun hf => by simp at hf, fun _ => ⟨hlen, ?_, by omega⟩⟩
      rw [if_neg (by omega)]
      omega

/-! ### An entry of the reassembler -/

section
variable {cfg : Config} {st : RxState} (d : Desc) (f : Frame) (tid : TransferId)

/-- An entry that a frame left idle (46_reassembler.md R712). -/
theorem entryInv_resetAfter (h : st.initialized = true) : entryInv cfg (resetAfter cfg tid st) := by
  refine ⟨h, fun _ => ⟨rfl, rfl, rfl, rfl, rfl⟩, fun hc => absurd hc Bool.false_ne_true, fun m _ => ?_⟩
  exact Nat.zero_le m

/-- Steps 4 and 5: the entry that the checks of steps 6 and 7 find has been restarted once, and one that
still collects is as the last frame left it (46_reassembler.md R704 to R706). -/
theorem restarted_entry {st₁ : RxState} (now : Time) (sot : Bool) (h : st.initialized = true → entryInv cfg st)
    (hst₁ : (if rxRestarts st now sot tid then rxRestart tid { st with lastTs := now }
      else { st with lastTs := now }) = st₁) :
    st₁.initialized = true ∧ (st₁.collecting = true → entryInv cfg st₁) := by
  subst hst₁
  split
  · exact ⟨rfl, fun hc => absurd hc Bool.false_ne_true⟩
  next hr =>
    have hi : st.initialized = true := by
      by_contra hi
      exact hr ((rxRestarts_iff st now sot tid).2 (.inl (by simpa using hi)))
    exact ⟨hi, fun _ => h hi⟩

theorem le16_append (hi lo : Byte) : le16 (hi ++ lo) = [lo, hi] :=
  congrArg₂ (fun a b => [a, b]) BitVec.extractLsb'_append_eq_right BitVec.extractLsb'_append_eq_left

/-- The bytes before the tail byte of a start frame that is long enough: the transfer CRC, then the first
bytes of the payload (46_reassembler.md R711). -/
theorem dropLast_eq_crc_append (data : List Byte) (h : 3 < data.length) :
    data.dropLast = le16 (data.getD 1 0 ++ data.getD 0 0) ++ slice data 2 (data.length - 1) := by
  match data, h with
  | a :: b :: c :: rest, _ => simp [le16_append, slice_eq, List.dropLast_eq_take]

theorem entryInv_rxBegin (sig : Signature) (hi : st.initialized = true) (hcfg : cfg.wf)
    (hlong : 3 < f.data.length) (hshort : f.data.length ≤ 8) : entryInv cfg (rxBegin f sig st) := by
  refine ⟨hi, fun hc => absurd hc (by simp), fun _ => ?_, fun m hm => ?_⟩
  · simpa using dropLast_eq_crc_append f.data hlong
  · have := hcfg.2 m hm
    rw [rxBegin_buf, slice_length]
    omega

theorem entryInv_rxExtend (h : entryInv cfg st) (hc : st.collecting = true) (hne : f.data ≠ [])
    (hcap : ∀ m ∈ cfg.rxMaxPayload, st.buf.length + f.data.length - 1 ≤ m) : entryInv cfg (rxExtend f st) := by
  obtain ⟨hi, _, hdata, _⟩ := h
  refine ⟨hi, fun hc' => ?_, fun _ => ?_, fun m hm => ?_⟩
  · rw [rxExtend_collecting, hc] at hc'
    cases hc'
  · simp [hdata hc]
  · have := hcap m hm
    have := List.length_pos_iff.2 hne
    rw [rxExtend_buf, List.length_append, List.length_dropLast]
    omega

/-- Step 6 ends with the entry collecting on, or idle (46_reassembler.md R714). -/
theorem entryInv_rxFinish (eot : Bool) (h : entryInv cfg st) (hc : st.collecting = true) :
    entryInv cfg (rxFinish cfg d f eot tid st).entry := by
  obtain ⟨hi, _, hdata, hcap⟩ := h
  rcases rxFinish_cases cfg d f eot tid st with ⟨_, e⟩ | ⟨_, _, e⟩ | ⟨_, _, e⟩ <;> rw [e]
  · refine ⟨hi, fun hc' => ?_, hdata, hcap⟩
    rw [hc] at hc'
    cases hc'
  · exact entryInv_resetAfter tid hi
  · exact entryInv_resetAfter tid hi

/-- Steps 4 to 7 leave an entry with its invariant (46_reassembler.md R704 to R714); the entry they start
from may be new. -/
theorem entryInv_rxApply (tb : Byte) (now : Time) (sig : Signature) (hcfg : cfg.wf)
    (h : st.initialized = true → entryInv cfg st) (hne : f.data ≠ []) (hlen : f.data.length ≤ 8) :
    entryInv cfg (rxApply cfg d f tb now sig st).entry := by
  unfold rxApply
  dsimp only
  generalize hst₁ : (if rxRestarts st now (tailSot tb) (tailTid tb) then
    rxRestart (tailTid tb) { st with lastTs := now } else { st with lastTs := now }) = st₁
  obtain ⟨hi, hcoll⟩ := restarted_entry _ now _ h hst₁
  split
  · exact entryInv_resetAfter _ hi
  split
  · exact entryInv_resetAfter _ hi
  split
  · exact entryInv_resetAfter _ hi
  next hcont =>
  split
  · exact entryInv_resetAfter _ hi
  split
  · exact entryInv_resetAfter _ hi
  split
  · split
    · exact entryInv_resetAfter _ hi
    next hlong =>
      exact entryInv_rxFinish d f _ _ (entryInv_rxBegin f sig hi hcfg (by omega) hlen) rfl
  next hsot =>
  have hc : st₁.collecting = true := by simpa [hsot] using hcont
  split
  · exact entryInv_resetAfter _ hi
  next hcap =>
    exact entryInv_rxFinish d f _ _ (entryInv_rxExtend f (hcoll hc) hc hne
      ((exceeds_eq_false_iff _ _).1 (Bool.eq_false_iff.2 hcap))) hc

end

/-! ### The table -/

/-- An entry that stands in the table is one of its members. -/
theorem mem_of_tableGet {t : RxTable} {d : Desc} {st : RxState} (h : tableGet t d = some st) : (d, st) ∈ t := by
  induction t with
  | nil => cases h
  | cons e t ih =>
    rw [tableGet_cons] at h
    split at h
    next hd =>
      cases h
      exact hd ▸ List.mem_cons_self
    · exact List.mem_cons_of_mem _ (ih h)

/-- A write of a good entry where the descriptor has one or the table has room (46_reassembler.md R703). -/
theorem tableInv_tablePut {cfg : Config} {t : RxTable} {d : Desc} {st : RxState} (h : tableInv cfg t)
    (hst : entryInv cfg st) (hroom : tableGet t d ≠ none ∨ cfg.rxCap ≠ some t.length) :
    tableInv cfg (tablePut d st t) := by
  obtain ⟨hwf, hcap, hall⟩ := h
  refine ⟨tablePut_wf d st t hwf, fun c hc => ?_, fun e he => ?_⟩
  · obtain ⟨hle, hsame⟩ := tablePut_length_le d st t
    have := hcap c hc
    rcases hroom with hg | hfull
    · rw [hsame hg hwf]
      exact this
    · have : c ≠ t.length := fun heq => hfull (heq ▸ hc)
      omega
  · rcases mem_tablePut d st t e he with rfl | he
    · exact hst
    · exact hall e he

theorem tableInv_filter {cfg : Config} {t : RxTable} (p : Desc × RxState → Bool) (h : tableInv cfg t) :
    tableInv cfg (t.filter p) := by
  obtain ⟨hwf, hcap, hall⟩ := h
  exact ⟨filter_wf p t hwf, fun c hc => (List.length_filter_le p t).trans (hcap c hc),
    fun e he => hall e (List.mem_filter.1 he).1⟩

theorem tableInv_nil (cfg : Config) : tableInv cfg [] :=
  ⟨List.Pairwise.nil, fun c _ => Nat.zero_le c, fun _ he => absurd he List.not_mem_nil⟩

/-! ### The codes of faults -/

/-- The statuses that a precondition fault can have (60_exceptions.md R801, R810). -/
abbrev Status.isFaultCode (e : Status) : Prop := 0x30 ≤ statusCode e ∧ statusCode e ≤ 0x37

theorem sysInv_recordFault {e : Status} {y : Sys} (he : e.isFaultCode) (hy : sysInv y) :
    sysInv (recordFault (statusCode e) y) := by
  obtain ⟨_, hset⟩ := hy
  refine ⟨fun h => by simp at h, fun _ => ?_⟩
  rw [recordFault_faultCode]
  split
  next hf => exact hset hf
  · exact he

mutual

theorem checkTy_isFaultCode : ∀ (T : Ty) (e : Status), checkTy T = some e → e.isFaultCode
  | .void n, e, h | .uint n _, e, h | .int n _, e, h | .float n _, e, h => by
    rw [checkTy] at h
    split at h
    · cases h
    · cases h
      decide
  | .bool, e, h => by
    rw [checkTy] at h
    cases h
  | .array E _ m, e, h => by
    rw [checkTy] at h
    split at h
    · cases h
      decide
    split at h
    · cases h
      decide
    · exact checkTy_isFaultCode E e h
  | .struct fs, e, h => by
    rw [checkTy] at h
    split at h
    · exact checkFields_isFaultCode fs e h
    · cases h
      decide
  | .union fs, e, h => by
    rw [checkTy] at h
    split at h
    · cases h
      decide
    split at h
    · exact checkFields_isFaultCode fs e h
    · cases h
      decide

theorem checkFields_isFaultCode : ∀ (fs : Fields) (e : Status), checkFields fs = some e → e.isFaultCode
  | .nil, e, h => by
    rw [checkFields] at h
    cases h
  | .cons _ T rest, e, h => by
    rw [checkFields] at h
    split at h
    next hT =>
      cases h
      exact checkTy_isFaultCode T e hT
    · exact checkFields_isFaultCode rest e h

end

theorem recordShape_isFaultCode (fs : Fields) (es : Entries) (e : Status) (h : recordShape fs es = some e) :
    e.isFaultCode := by
  unfold recordShape at h
  dsimp only at h
  split at h
  · split at h
    · cases h
    · cases h
      decide
  · cases h
    decide

theorem findSome_isFaultCode (p : Val → Option Status) (vs : List Val) (e : Status)
    (hp : ∀ v e, p v = some e → e.isFaultCode) (h : vs.findSome? p = some e) : e.isFaultCode := by
  obtain ⟨v, _, hv⟩ := List.exists_of_findSome?_eq_some h
  exact hp v e hv

mutual

theorem conform_isFaultCode : ∀ (T : Ty) (v : Val) (e : Status), conform T v = some e → e.isFaultCode
  | .void _, v, e, h | .bool, v, e, h | .float _ _, v, e, h => by
    cases v <;> cases h <;> decide
  | .uint n _, v, e, h | .int n _, v, e, h => by
    cases v with
    | int i =>
      rw [conform] at h
      split at h <;> cases h
      decide
    | _ =>
      cases h
      decide
  | .array E .fixed m, v, e, h | .array E .dynamic m, v, e, h => by
    cases v with
    | array vs =>
      rw [conform] at h
      split at h
      · exact findSome_isFaultCode _ _ e (conform_isFaultCode E) h
      · cases h
        decide
    | _ =>
      cases h
      decide
  | .struct fs, v, e, h => by
    cases v with
    | record es =>
      rw [conform] at h
      split at h
      next c hshape =>
        cases h
        exact recordShape_isFaultCode fs es e hshape
      · exact conformFields_isFaultCode fs es e h
    | _ =>
      cases h
      decide
  | .union fs, v, e, h => by
    cases v with
    | union idx v =>
      rw [conform] at h
      exact conformMember_isFaultCode fs idx v e h
    | _ =>
      cases h
      decide

theorem conformFields_isFaultCode : ∀ (fs : Fields) (es : Entries) (e : Status),
    conformFields fs es = some e → e.isFaultCode
  | .nil, es, e, h => by
    rw [conformFields] at h
    cases h
  | .cons name T rest, es, e, h => by
    rw [conformFields] at h
    split at h
    next c hc =>
      cases h
      split at hc
      · cases hc
      · obtain ⟨v, _, hv⟩ := Option.bind_eq_some_iff.1 hc
        exact conform_isFaultCode T v e hv
    · exact conformFields_isFaultCode rest es e h

theorem conformMember_isFaultCode : ∀ (fs : Fields) (idx : Nat) (v : Val) (e : Status),
    conformMember fs idx v = some e → e.isFaultCode
  | .nil, idx, v, e, h => by
    rw [conformMember] at h
    cases h
    decide
  | .cons _ T _, 0, v, e, h => by
    rw [conformMember] at h
    exact conform_isFaultCode T v e h
  | .cons _ _ rest, k + 1, v, e, h => by
    rw [conformMember] at h
    exact conformMember_isFaultCode rest k v e h

end

theorem encodeCheck_isFaultCode (T : Ty) (v : Val) (e : Status) (h : encodeCheck T v = some e) :
    e.isFaultCode := by
  cases hT : checkTy T with
  | some e' =>
    rw [encodeCheck_of_checkTy T v e' hT] at h
    cases h
    exact checkTy_isFaultCode T e hT
  | none =>
    rw [encodeCheck_of_valid T v hT] at h
    exact conform_isFaultCode T v e h

end Sys2Proof.Machine
end

section
/-! The invariant of the block's state (10_state.md R33, R34, R38, R41): what an update of one part needs to
keep it, that every answer of every command keeps it, and the reset values. A command's answer keeps the
invariant where it ends in a fault with a fault's code, or writes a part that meets the part's own
invariant. -/

namespace Sys2Proof.Machine

/-! ### The parts of the invariant, and updates of one part -/

section
variable {s : State}

theorem Inv.cfg_wf (h : Inv s) : s.cfg.wf := h.1

theorem Inv.writer (h : Inv s) : writerInv s.cfg s.w := h.2.1

theorem Inv.reader (h : Inv s) : readerInv s.r := h.2.2.1

theorem Inv.gen (h : Inv s) : genInv s.g := h.2.2.2.1

theorem Inv.table (h : Inv s) : tableInv s.cfg s.rxTable := h.2.2.2.2.1

theorem Inv.sys (h : Inv s) : sysInv s.sys := h.2.2.2.2.2

theorem Inv.set_w {w : Writer} (h : Inv s) (hw : writerInv s.cfg w) : Inv { s with w := w } := by
  obtain ⟨hcfg, _, hr, hg, ht, hy⟩ := h
  exact ⟨hcfg, hw, hr, hg, ht, hy⟩

theorem Inv.set_r {r : Reader} {draws : Nat} (h : Inv s) (hr : readerInv r) :
    Inv { s with r := r, nanDraws := draws } := by
  obtain ⟨hcfg, hw, _, hg, ht, hy⟩ := h
  exact ⟨hcfg, hw, hr, hg, ht, hy⟩

theorem Inv.set_g {g : Gen} (h : Inv s) (hg : genInv g) : Inv { s with g := g } := by
  obtain ⟨hcfg, hw, hr, _, ht, hy⟩ := h
  exact ⟨hcfg, hw, hr, hg, ht, hy⟩

theorem Inv.set_table {t : RxTable} {last : Option Time} (h : Inv s) (ht : tableInv s.cfg t) :
    Inv { s with rxTable := t, rxLastSweep := last } := by
  obtain ⟨hcfg, hw, hr, hg, _, hy⟩ := h
  exact ⟨hcfg, hw, hr, hg, ht, hy⟩

theorem Inv.set_sys {y : Sys} (h : Inv s) (hy : sysInv y) : Inv { s with sys := y } := by
  obtain ⟨hcfg, hw, hr, hg, ht, _⟩ := h
  exact ⟨hcfg, hw, hr, hg, ht, hy⟩

/-- The CRC accumulators take every value. -/
theorem Inv.set_crc (h : Inv s) (c16 : BitVec 16) (c64 : BitVec 64) : Inv { s with c16 := c16, c64 := c64 } := h

theorem Inv.set_result (h : Inv s) (r : Option Result) : Inv { s with result := r } := h

theorem Inv.set_input (h : Inv s) (cmds : List Command) (ports : Ports) :
    Inv { s with cmds := cmds, ports := ports } := h

theorem inv_resetBlock (hcfg : s.cfg.wf) : Inv (resetBlock s) :=
  ⟨hcfg, writerInv_empty _, Nat.zero_le _, fun hact => absurd hact Bool.false_ne_true, tableInv_nil _,
    fun _ => rfl, fun hf => absurd hf Bool.false_ne_true⟩

end

/-! ### Answers -/

/-- The answer leads to no state without the invariant. -/
def AnswerKeepsInv (a : Answer) : Prop := ∀ t, a = .next t → Inv t

namespace AnswerKeepsInv

variable {s t : State}

theorem next (h : Inv t) : AnswerKeepsInv (.next t) := by
  intro t' ht
  cases ht
  exact h

theorem faulted {e : Status} (he : e.isFaultCode) (h : Inv s) :
    AnswerKeepsInv (.next (faulted (statusCode e) s)) :=
  next ((h.set_sys (sysInv_recordFault he h.sys)).set_result _)

theorem fault {e : Status} (he : e.isFaultCode) (h : Inv s) : AnswerKeepsInv (fault e s) :=
  faulted (s := s) he h

theorem ret (st : Status) (out : Output) (h : Inv t) : AnswerKeepsInv (ret st out t) := next (h.set_result _)

theorem ok (out : Output) (h : Inv t) : AnswerKeepsInv (ok out t) := ret .ok out h

/-- A check that admits the command by `c`, or else ends it with a fault. -/
theorem guarded {c : Prop} [Decidable c] {a : Answer} {e : Status} (h : Inv s) (ha : c → AnswerKeepsInv a)
    (he : e.isFaultCode := by decide) : AnswerKeepsInv (if c then a else Machine.fault e s) := by
  split
  next hc => exact ha hc
  · exact fault he h

/-- A check that ends the command with a fault by `c`, or else admits it. -/
theorem refused {c : Prop} [Decidable c] {a : Answer} {e : Status} (h : Inv s) (ha : ¬ c → AnswerKeepsInv a)
    (he : e.isFaultCode := by decide) : AnswerKeepsInv (if c then Machine.fault e s else a) := by
  split
  · exact fault he h
  next hc => exact ha hc

end AnswerKeepsInv

/-! ### The shared operations of the commands, and the commands that branch on data -/

section
variable {s : State} (h : Inv s)
include h

theorem putNumber_keepsInv (n : Nat) (bits : Nat → List Bool) (hbits : ∀ v, (bits v).length = n) :
    AnswerKeepsInv (putNumber n bits s) := by
  rcases putNumber_cases n bits s with ⟨_, e⟩ | ⟨_, _, _, e⟩ | ⟨_, _, hcap, e⟩ <;> rw [e]
  · exact .faulted (e := .invalidArgument) (by decide) h
  · exact .faulted (e := .writerOverflow) (by decide) h
  · exact .next (h.set_w (writerInv_pushBits ((writerInv_iff _ _).1 h.writer).1 (hbits _).le hcap))

theorem appendBits_keepsInv {len : Nat} {bits : List Bool} (hlen : bits.length ≤ len) :
    AnswerKeepsInv (appendBits len bits s) := by
  rcases appendBits_cases len bits s with ⟨_, e⟩ | ⟨hcap, e⟩ <;> rw [e]
  · exact .faulted (e := .writerOverflow) (by decide) h
  · exact .next (h.set_w (writerInv_pushBits ((writerInv_iff _ _).1 h.writer).1 hlen hcap))

theorem encodeAtCursor_keepsInv (T : Ty) (v : Val) (tail : Bool) :
    AnswerKeepsInv (encodeAtCursor T v tail s) := by
  rcases encodeAtCursor_cases T v tail s with ⟨e, he, heq⟩ | ⟨_, heq⟩ <;> rw [heq]
  · exact .faulted (encodeCheck_isFaultCode T v e he) h
  · exact appendBits_keepsInv h (emit_length_le _ T v tail)

theorem execEnc_keepsInv : AnswerKeepsInv (execEnc s) := by
  unfold execEnc
  dsimp only
  split
  next e he => exact .fault (encodeCheck_isFaultCode _ _ e he) h
  · refine .refused h fun hcap => .ok _ (h.set_w ?_)
    refine writerInv_pushBits (zeroFilled_empty _) (emit_length_le _ s.ports.ty s.ports.v _) fun c hc => ?_
    rw [show Writer.empty.pos = 0 from rfl, Nat.zero_add]
    exact (exceeds_eq_false_iff _ _).1 (Bool.eq_false_iff.2 hcap) c hc

theorem gotNumber_keepsInv {got : Option (Nat × Reader)} (hgot : ∀ v r, got = some (v, r) → readerInv r) :
    AnswerKeepsInv (gotNumber got s) := by
  cases hg : got with
  | none => exact .ret _ _ h
  | some vr => exact .ok _ (h.set_r (hgot _ _ hg))

theorem decodeAtCursor_keepsInv (T : Ty) (tail : Bool) : AnswerKeepsInv (decodeAtCursor T tail s) := by
  rcases decodeAtCursor_cases T tail s with ⟨e, he, heq⟩ | ⟨_, ⟨e, _, heq⟩ | ⟨v, c, hp, heq⟩⟩ <;> rw [heq]
  · exact .faulted (checkTy_isFaultCode T e he) h
  · exact .next (h.set_result _)
  · exact .next ((h.set_r (parse_staysInside s.cfg T tail _ v c h.reader hp)).set_result _)

theorem execDec_keepsInv : AnswerKeepsInv (execDec s) := by
  refine .refused h fun _ => ?_
  split
  next e he => exact .fault (checkTy_isFaultCode _ e he) h
  · split
    · exact .ret _ _ h
    next v c hp => exact .ok _ (h.set_r (parse_staysInside s.cfg _ _ _ v c (Nat.zero_le _) hp))

theorem execTypeBitlen_keepsInv : AnswerKeepsInv (execTypeBitlen s) := by
  unfold execTypeBitlen
  split
  next e he => exact .fault (checkTy_isFaultCode _ e he) h
  · exact .ok _ h

theorem execTypeCheck_keepsInv : AnswerKeepsInv (execTypeCheck s) := by
  unfold execTypeCheck
  split
  · exact .ret _ _ h
  · exact .ok _ h

theorem execGenNext_keepsInv : AnswerKeepsInv (execGenNext s) := by
  unfold execGenNext
  split
  next hact => exact .ok _ (h.set_g (genInv_genStep s.g h.gen hact))
  · exact .ret _ _ h

/-! ### RX.FRAME -/

/-- The entry of a descriptor that has one. -/
theorem entryInv_of_tableGet {d : Desc} {st : RxState} (hget : tableGet s.rxTable d = some st) :
    entryInv s.cfg st := by
  obtain ⟨_, _, hall⟩ := h.table
  exact hall _ (mem_of_tableGet hget)

theorem rxStore_keepsInv {d : Desc} {a : RxAnswer} (asked : Option Desc) (ha : entryInv s.cfg a.entry)
    (hroom : tableGet s.rxTable d ≠ none ∨ s.cfg.rxCap ≠ some s.rxTable.length) :
    AnswerKeepsInv (rxStore d asked a s) :=
  .next ((h.set_table (tableInv_tablePut h.table ha hroom)).set_result _)

variable {f : Frame} (hne : f.data ≠ []) (hlen : f.data.length ≤ 8)
include hne hlen

theorem rxStart_keepsInv (d : Desc) (tb : Byte) (now : Time) : AnswerKeepsInv (rxStart d f tb now s) := by
  unfold rxStart
  split
  · exact .next h
  · split
    next st hget =>
      refine rxStore_keepsInv h _ ?_ (.inl (by simp [hget]))
      exact entryInv_rxApply d f tb now _ h.cfg_wf (fun _ => entryInv_of_tableGet h hget) hne hlen
    · split
      · exact .next h
      next hroom =>
        refine rxStore_keepsInv h _ ?_ (.inr hroom)
        exact entryInv_rxApply d f tb now _ h.cfg_wf (fun hi => absurd hi Bool.false_ne_true) hne hlen

theorem rxContinue_keepsInv (d : Desc) (tb : Byte) (now : Time) :
    AnswerKeepsInv (rxContinue d f tb now s) := by
  unfold rxContinue
  split
  next st hget =>
    refine rxStore_keepsInv h _ ?_ (.inl (by simp [hget]))
    exact entryInv_rxApply d f tb now _ h.cfg_wf (fun _ => entryInv_of_tableGet h hget) hne hlen
  · exact .next h

end

theorem execRxFrame_keepsInv {s : State} (h : Inv s) : AnswerKeepsInv (execRxFrame s) := by
  refine .guarded h fun hwf => ?_
  obtain ⟨hlen, _⟩ := (frameWellFormed_iff _).1 hwf.1
  split
  next hcomp =>
    obtain ⟨_, _, _, hne⟩ := (rxCompatible_iff _).1 hcomp
    dsimp only
    split
    · exact rxStart_keepsInv h hne hlen _ _ _
    · exact rxContinue_keepsInv h hne hlen _ _ _
  · exact .ret _ _ h

theorem execRxSweep_keepsInv {s : State} (h : Inv s) : AnswerKeepsInv (execRxSweep s) := by
  refine .guarded h fun _ => ?_
  dsimp only
  split
  · exact .ok _ h
  · exact .ok _ (h.set_table (tableInv_filter _ h.table))

theorem execRxLookup_keepsInv {s : State} (h : Inv s) : AnswerKeepsInv (execRxLookup s) := by
  unfold execRxLookup
  split
  · exact .fault (by decide) h
  · exact .ok _ h

/-- A first command whose word decodes to none ends in the fault IllegalCommand (30_encoding.md R154). -/
theorem step_of_decode_error (s : State) (c : Command) (rest : List Command) (e : DecodeError)
    (h : s.cmds = c :: rest) (he : decode c.word = .error e) :
    step s = fault .illegalCommand { s with cmds := rest, ports := c.ports } := by
  simp only [step, nextCommand_cons s c rest h, he, illegalWord]

/-! ### Every command -/

/-- Every command keeps the invariant: its checks end in faults with fault codes, and behind them it writes
its part by one of the operations above, or nothing. -/
theorem exec_keepsInv (i : Instr) {s : State} (h : Inv s) : AnswerKeepsInv (exec i s) := by
  cases i with
  | bswClr => exact .ok _ (h.set_w (writerInv_empty _))
  | bswPut n => exact .guarded h fun _ => putNumber_keepsInv h _ _ fun v => chunkBits_length _ v _
  | bswPutw n => exact .guarded h fun _ => putNumber_keepsInv h _ _ fun v => wideBits_length _ v _
  | bsrLoad => exact .refused h fun _ => .ok _ (h.set_r (Nat.zero_le _))
  | bsrGet n => exact .guarded h fun _ => gotNumber_keepsInv h fun _ _ => readBits_readerInv
  | bsrGetw n => exact .guarded h fun _ => gotNumber_keepsInv h fun _ _ => readWide_readerInv
  | crc16Init | crc64Init => exact .ok _ (h.set_crc _ _)
  | crc16Byte | crc16Sig | crc16Xfer | crc64Byte => exact .guarded h fun _ => .ok _ (h.set_crc _ _)
  | encBool => exact encodeAtCursor_keepsInv h _ _ _
  | encUint n cm | encInt n cm | encFloat n cm => exact .guarded h fun _ => encodeAtCursor_keepsInv h _ _ _
  | encVoid n => exact .guarded h fun _ => appendBits_keepsInv h (wideBits_length _ 0 _).le
  | encSarray | encUnion | encStruct tail => exact .guarded h fun _ => encodeAtCursor_keepsInv h _ _ _
  | encDarray tail => exact .guarded h fun _ => .refused h fun _ => encodeAtCursor_keepsInv h _ _ _
  | enc => exact execEnc_keepsInv h
  | typeBitlen => exact execTypeBitlen_keepsInv h
  | typeCheck => exact execTypeCheck_keepsInv h
  | decBool => exact decodeAtCursor_keepsInv h .bool false
  | decUint n | decInt n | decFloat n | decVoid n => exact .guarded h fun _ => decodeAtCursor_keepsInv h _ _
  | decSarray | decUnion | decStruct tail => exact .guarded h fun _ => decodeAtCursor_keepsInv h _ _
  | decDarray tail => exact .guarded h fun _ => .refused h fun _ => decodeAtCursor_keepsInv h _ _
  | dec => exact execDec_keepsInv h
  | canidAnon => exact .guarded h fun _ => .refused h fun _ => .ok _ h
  | canidMsg | canidSvc | canidDec | canidCmp | tailEnc | tailDec | tidDist =>
    exact .guarded h fun _ => .ok _ h
  | genStart =>
    exact .guarded h fun _ => .refused h fun _ => .refused h fun _ => .ok _ (h.set_g (genInv_genLoad _ _ _ _))
  | genNext => exact execGenNext_keepsInv h
  | genAbort => exact .ok _ (h.set_g fun hact => absurd hact Bool.false_ne_true)
  | rxFrame => exact execRxFrame_keepsInv h
  | rxSweep => exact execRxSweep_keepsInv h
  | rxClear => exact .ok _ (h.set_table (tableInv_nil _))
  | rxLookup => exact execRxLookup_keepsInv h
  | sysReset => exact .ok _ (inv_resetBlock h.cfg_wf)
  | bswBytes | bsrRem | crc16Rd | crc64Rd | anonDisc | genCount | sysStatus => exact .ok _ h

/-- Settles O13: an illegal word is a fault, and a legal one performs its command. -/
theorem everyStepKeepsInv : Obligations.EveryStepKeepsInv := by
  intro s t h ht
  cases hc : s.cmds with
  | nil =>
    rw [step_of_cmds_nil s hc] at ht
    cases ht
    exact h
  | cons c rest =>
    have hin := h.set_input rest c.ports
    cases hd : decode c.word with
    | ok i =>
      rw [step_of_decode_ok s c rest i hc hd] at ht
      exact exec_keepsInv i hin t ht
    | error e =>
      rw [step_of_decode_error s c rest e hc hd] at ht
      exact AnswerKeepsInv.fault (by decide) hin t ht

/-! ### The reset values -/

/-- Settles O12: the reset state is a block at its reset values with the default parameters. -/
theorem resetSatisfiesInv : Obligations.ResetSatisfiesInv :=
  inv_resetBlock (s := State.reset) (by decide)

/-- Settles O14, each clause as the definitions of the reset state and of the two commands have it
(10_state.md R46, 70_reset_and_hazards.md R901, 60_exceptions.md R822). -/
theorem resetValuesAndSystemCommands : Obligations.ResetValuesAndSystemCommands :=
  ⟨⟨rfl, rfl, rfl, rfl, rfl, rfl, rfl, rfl⟩, by decide, by decide, fun s => ⟨ok_eq .none (resetBlock s), ok_eq _ s⟩⟩

end Sys2Proof.Machine
end

section
/-! The commands that read and write nothing (20_memory.md R87). A query has two ends, `QueryAnswer`: outputs
on the result port of an otherwise unchanged machine, or a fault, whose code is never that of OK. No command
looks at the result port, so a query that ended with OK finds what it read the first time. -/

namespace Sys2Proof.Machine

/-- How a query may end from `s`: with a status and outputs, or in a fault with a fault's code. -/
inductive QueryAnswer (s : State) : Answer → Prop where
  | returns (st : Status) (out : Output) : QueryAnswer s (.next (withResult st out s))
  | faults {e : Status} (he : e.isFaultCode) : QueryAnswer s (.next (faulted (statusCode e) s))

namespace QueryAnswer

variable {s t : State}

theorem ok (out : Output) : QueryAnswer s (Machine.ok out s) := .returns .ok out

theorem fault {e : Status} (he : e.isFaultCode) : QueryAnswer s (Machine.fault e s) := .faults he

/-- A check that admits the query by `c`, or else ends it with a fault. -/
theorem guarded {c : Prop} [Decidable c] {a : Answer} {e : Status} (ha : QueryAnswer s a)
    (he : e.isFaultCode := by decide) : QueryAnswer s (if c then a else Machine.fault e s) := by
  split
  · exact ha
  · exact fault he

/-- A check that ends the query with a fault by `c`, or else admits it. -/
theorem refused {c : Prop} [Decidable c] {a : Answer} {e : Status} (ha : QueryAnswer s a)
    (he : e.isFaultCode := by decide) : QueryAnswer s (if c then Machine.fault e s else a) := by
  split
  · exact fault he
  · exact ha

/-- With OK on the result port the query was no fault, so it wrote nothing but that port. -/
theorem eq_of_result_ok {out : Output} (h : QueryAnswer s (.next t)) (hok : t.result = endsWith 0x00 out) :
    t = { s with result := t.result } := by
  cases h with
  | returns st out => rfl
  | @faults e he =>
    have hcode : statusCode e = 0x00 := congrArg Result.status (Option.some.inj hok)
    have hlow : 0x30 ≤ statusCode e := he.1
    rw [hcode] at hlow
    exact absurd hlow (by decide)

end QueryAnswer

theorem execTypeBitlen_query (s : State) : QueryAnswer s (execTypeBitlen s) := by
  unfold execTypeBitlen
  split
  next e he => exact .fault (checkTy_isFaultCode _ e he)
  · exact .ok _

theorem execTypeCheck_query (s : State) : QueryAnswer s (execTypeCheck s) := by
  unfold execTypeCheck
  split
  · exact .returns _ _
  · exact .ok _

theorem execRxLookup_query (s : State) : QueryAnswer s (execRxLookup s) := by
  unfold execRxLookup
  split
  · exact .fault (by decide)
  · exact .ok _

/-- The split over the commands of 20_memory.md R87, along the checks each one makes of its operands. -/
theorem exec_query (i : Instr) (s : State) (hi : partOf i = .nothing) : QueryAnswer s (exec i s) := by
  cases i with
  | typeBitlen => exact execTypeBitlen_query s
  | typeCheck => exact execTypeCheck_query s
  | canidAnon => exact .guarded (.refused (.ok _))
  | canidMsg | canidSvc | canidDec | canidCmp | tailEnc | tailDec | tidDist => exact .guarded (.ok _)
  | rxLookup => exact execRxLookup_query s
  | bswBytes | bsrRem | crc16Rd | crc64Rd | anonDisc | genCount | sysStatus => exact .ok _
  | _ => cases hi

/-- No command reads the result port, and every end of a command overwrites it. -/
theorem exec_set_result (i : Instr) (s : State) (r : Option Result) :
    exec i { s with result := r } = exec i s := by
  cases i <;> rfl

/-- Settles O10: the query changed the result port alone, which it does not read when it is given again. -/
theorem queriesAreIdempotent : Obligations.QueriesAreIdempotent := by
  intro i s t out hi ht hok
  have hquery : QueryAnswer s (.next t) := ht ▸ exec_query i s hi
  have hs : t = { s with result := t.result } := hquery.eq_of_result_ok hok
  refine ⟨hs, ?_⟩
  calc
    exec i t = exec i { s with result := t.result } := congrArg (exec i) hs
    _ = exec i s := exec_set_result i s t.result
    _ = .next t := ht

end Sys2Proof.Machine
end

section
/-! The command word (30_encoding.md R150, R153, R154): the decoder inverts the encoder by its own branches,
the encoder inverts the decoder row by row of the opcode map, and the fault of a word is read off its bit
positions. A legal word is the word of its command, so its fault is that of the command's fields. -/

namespace Sys2Proof.Machine

open Laws (mkWord_toNat fieldC_mkWord fieldOp_mkWord fieldA_mkWord fieldB_mkWord)

/-! ### The fields of a word -/

theorem fieldOp_toNat (w : CmdWord) : (fieldOp w).toNat = w.toNat % 256 := by
  simp [fieldOp, BitVec.extractLsb'_toNat]

theorem fieldA_toNat (w : CmdWord) : (fieldA w).toNat = w.toNat / 256 % 256 := by
  simp [fieldA, BitVec.extractLsb'_toNat, Nat.shiftRight_eq_div_pow]

theorem fieldB_toNat (w : CmdWord) : (fieldB w).toNat = w.toNat / 65536 % 256 := by
  simp [fieldB, BitVec.extractLsb'_toNat, Nat.shiftRight_eq_div_pow]

theorem fieldC_toNat (w : CmdWord) : (fieldC w).toNat = w.toNat / 16777216 := by
  have hw := w.isLt
  simp only [fieldC, BitVec.extractLsb'_toNat, Nat.shiftRight_eq_div_pow]
  omega

/-- A word whose field C is 0 is made of its other fields. -/
theorem mkWord_fields {w : CmdWord} (hC : fieldC w = 0) : mkWord (fieldB w) (fieldA w) (fieldOp w) = w := by
  have hC' : w.toNat / 16777216 = 0 := by rw [← fieldC_toNat, hC]; rfl
  apply BitVec.eq_of_toNat_eq
  rw [mkWord_toNat, wordOf, fieldOp_toNat, fieldA_toNat, fieldB_toNat]
  omega

/-! ### The rows of the opcode map -/

/-- Field B of the command that a row makes. -/
def rowFieldB (row : OpRow) (cm : CastMode) (t : Bool) : Byte :=
  if row.usesCm then flagOfCast cm else if row.usesTail then flagOfTail t else 0

/-- Every row's commands encode to the fields that the row uses. -/
theorem encode_make : ∀ row ∈ opTable, ∀ (a : Byte) (cm : CastMode) (t : Bool),
    encode (row.make a cm t) = mkWord (rowFieldB row cm t) (if row.usesA then a else 0) row.op := by
  simp only [opTable, opRowsStream, opRowsCodec, opRowsTransport, List.forall_mem_append,
    List.forall_mem_cons, List.not_mem_nil, false_imp_iff, implies_true, and_true]
  and_intros <;> exact fun _ _ _ => rfl

theorem opcodes_eq : opcodes = opTable.map fun row => row.op.toNat := by decide

theorem castOpcodes_iff : ∀ row ∈ opTable, row.op.toNat ∈ castOpcodes ↔ row.usesCm = true := by decide

theorem tailOpcodes_iff : ∀ row ∈ opTable, row.op.toNat ∈ tailOpcodes ↔ row.usesTail = true := by decide

theorem uses_one_flag : ∀ row ∈ opTable, row.usesCm = false ∨ row.usesTail = false := by decide

theorem widthsOf_of_not_usesA : ∀ row ∈ opTable, row.usesA = false → widthsOf row.op.toNat = none := by decide

theorem mem_of_findRow {op : Byte} {row : OpRow} (h : findRow op = some row) : row ∈ opTable ∧ row.op = op :=
  ⟨List.mem_of_find?_eq_some h, by simpa using List.find?_some h⟩

theorem not_mem_opcodes_of_findRow {op : Byte} (h : findRow op = none) : op.toNat ∉ opcodes := by
  intro hmem
  rw [opcodes_eq] at hmem
  obtain ⟨row, hrow, hop⟩ := List.mem_map.1 hmem
  have hne := List.find?_eq_none.1 h row hrow
  exact hne (by simpa using BitVec.eq_of_toNat_eq hop)

/-! ### The flags of field B -/

/-- No bit of field B is set but those the row uses. -/
theorem unusedFlags_iff (row : OpRow) (b : Byte) :
    b &&& ~~~row.flagMask = 0 ↔
      b.toNat < 4 ∧ (b.toNat % 2 = 1 → row.usesCm = true) ∧ (b.toNat / 2 % 2 = 1 → row.usesTail = true) := by
  unfold OpRow.flagMask
  cases row.usesCm <;> cases row.usesTail <;> revert b <;> decide

/-- The word breaks 30_encoding.md R154 item 3, by the lists of opcodes that use a flag. -/
abbrev setsUnusedFlag (op b : Nat) : Prop :=
  b / 4 ≠ 0 ∨ (b % 2 = 1 ∧ op ∉ castOpcodes) ∨ (b / 2 % 2 = 1 ∧ op ∉ tailOpcodes)

theorem unusedFlags_eq_zero : ∀ row ∈ opTable, ∀ {b : Byte},
    ¬ setsUnusedFlag row.op.toNat b.toNat → b &&& ~~~row.flagMask = 0 := by
  intro row hrow b h
  rw [setsUnusedFlag, castOpcodes_iff row hrow, tailOpcodes_iff row hrow] at h
  push Not at h
  obtain ⟨hlt, hcm, htail⟩ := h
  exact (unusedFlags_iff row b).2 ⟨by omega, hcm, htail⟩

/-! ### Decoding -/

/-- A word keeps to the fields that its row uses (30_encoding.md R154 items 2 to 4). -/
structure RowAdmits (row : OpRow) (w : CmdWord) : Prop where
  fieldC_eq : fieldC w = 0
  flags_eq : fieldB w &&& ~~~row.flagMask = 0
  fieldA_eq : row.usesA = false → fieldA w = 0

/-- Everything `decode` can do (30_encoding.md R154 items 1 to 4). -/
theorem decode_cases (w : CmdWord) :
    (findRow (fieldOp w) = none ∧ ∃ e, decode w = .error e) ∨
    ∃ row, findRow (fieldOp w) = some row ∧
      ((¬ RowAdmits row w ∧ ∃ e, decode w = .error e) ∨
        (RowAdmits row w ∧
          decode w = .ok (row.make (fieldA w) (castOfB (fieldB w)) (tailOfB (fieldB w))))) := by
  unfold decode
  split
  next hrow => exact .inl ⟨hrow, _, rfl⟩
  next row hrow =>
    refine .inr ⟨row, hrow, ?_⟩
    split
    next hC => exact .inl ⟨fun h => hC h.fieldC_eq, _, rfl⟩
    next hC =>
      split
      next hB => exact .inl ⟨fun h => hB h.flags_eq, _, rfl⟩
      next hB =>
        split
        next hA => exact .inl ⟨fun h => hA.2 (h.fieldA_eq hA.1), _, rfl⟩
        next hA =>
          exact .inr ⟨⟨not_not.1 hC, not_not.1 hB, fun hu => not_not.1 fun hne => hA ⟨hu, hne⟩⟩, rfl⟩

/-- The word of a row's opcode with nothing but the row's fields set decodes to the row's command. -/
theorem decode_mkWord {b a op : Byte} {row : OpRow} {i : Instr} (hrow : findRow op = some row)
    (hB : b &&& ~~~row.flagMask = 0) (hA : row.usesA = true ∨ a = 0)
    (hi : row.make a (castOfB b) (tailOfB b) = i) : decode (mkWord b a op) = .ok i := by
  have hA' : ¬ (row.usesA = false ∧ a ≠ 0) := by
    rintro ⟨hu, hne⟩
    rcases hA with h | h
    · exact absurd (hu.symm.trans h) Bool.false_ne_true
    · exact hne h
  unfold decode
  rw [fieldOp_mkWord, hrow, fieldC_mkWord, fieldB_mkWord, fieldA_mkWord]
  dsimp only
  rw [if_neg (not_not.2 rfl), if_neg (not_not.2 hB), if_neg hA', hi]

/-- Settles O3: each command's row is found by its opcode, and the flags of field B are read back from every
cast mode and tail flag. -/
theorem decodeOfEncode : Obligations.DecodeOfEncode := by
  intro i
  cases i with
  | encUint n cm | encInt n cm | encFloat n cm =>
    cases cm <;> exact decode_mkWord rfl (by decide) (.inl rfl) rfl
  | encDarray t | encStruct t | decDarray t | decStruct t =>
    cases t <;> exact decode_mkWord rfl (by decide) (.inr rfl) rfl
  | bswPut n | bswPutw n | bsrGet n | bsrGetw n | encVoid n | decUint n | decInt n | decFloat n | decVoid n =>
    exact decode_mkWord rfl (by decide) (.inl rfl) rfl
  | _ => exact decode_mkWord rfl (by decide) (.inr rfl) rfl

/-- The flags read from a field B in which only the row's bits are set make the same field B again. -/
theorem rowFieldB_of_flags : ∀ row ∈ opTable, ∀ b : Byte, b &&& ~~~row.flagMask = 0 →
    rowFieldB row (castOfB b) (tailOfB b) = b := by
  intro row hrow b hb
  obtain ⟨hlt, hcm, htail⟩ := (unusedFlags_iff row b).1 hb
  have hb4 : b = 0 ∨ b = 1 ∨ b = 2 ∨ b = 3 := by bv_omega
  rcases hb4 with rfl | rfl | rfl | rfl
  · simp [rowFieldB, castOfB, tailOfB, flagOfCast, flagOfTail]
  · have hu : row.usesCm = true := hcm (by decide)
    simp [rowFieldB, hu, castOfB, flagOfCast]
  · have hu : row.usesTail = true := htail (by decide)
    have hn : row.usesCm = false := (uses_one_flag row hrow).resolve_right (by simp [hu])
    simp [rowFieldB, hu, hn, tailOfB, flagOfTail]
  · have hu : row.usesTail = true := htail (by decide)
    have hc : row.usesCm = true := hcm (by decide)
    simpa [hu, hc] using uses_one_flag row hrow

/-- Settles O4: a word that decodes keeps to the fields of its row, and the row's command encodes to them. -/
theorem encodeOfDecode : Obligations.EncodeOfDecode := by
  intro w i hi
  rcases decode_cases w with ⟨_, e, he⟩ | ⟨row, hrow, ⟨_, e, he⟩ | ⟨hadm, hok⟩⟩
  · simp [he] at hi
  · simp [he] at hi
  · obtain ⟨hmem, hop⟩ := mem_of_findRow hrow
    obtain rfl : row.make _ _ _ = i := Except.ok.inj (hok.symm.trans hi)
    have hA : (if row.usesA then fieldA w else 0) = fieldA w := by
      split
      · rfl
      next hu => exact (hadm.fieldA_eq (Bool.eq_false_iff.2 hu)).symm
    calc
      encode (row.make _ _ _) = mkWord (fieldB w) (fieldA w) (fieldOp w) := by
        rw [encode_make row hmem, rowFieldB_of_flags row hmem _ hadm.flags_eq, hA, hop]
      _ = w := mkWord_fields hadm.fieldC_eq

/-- Settles O5: each word is the word of its command. -/
theorem writtenWordsDecode : Obligations.WrittenWordsDecode := by
  have decodes : ∀ {w : CmdWord} (i : Instr), encode i = w → decode w = .ok i := by
    rintro _ i rfl
    exact decodeOfEncode i
  exact ⟨decodes _ rfl, decodes _ rfl, decodes _ rfl, decodes _ rfl, decodes _ rfl, decodes _ rfl,
    decodes _ rfl, decodes _ rfl, decodes _ rfl⟩

/-! ### The fault of a word -/

/-- A word with an opcode of no row, or that does not keep to the fields of its row, is IllegalCommand. -/
theorem wordFault_of_decode_error {w : CmdWord} {e : DecodeError} (he : decode w = .error e) :
    wordFault w.toNat = some 0x37 := by
  unfold wordFault
  dsimp only
  rw [← fieldOp_toNat, ← fieldA_toNat, ← fieldB_toNat, ← fieldC_toNat]
  rcases decode_cases w with ⟨hnone, -⟩ | ⟨row, hrow, ⟨hnot, -⟩ | ⟨-, hok⟩⟩
  · rw [if_pos (not_mem_opcodes_of_findRow hnone)]
  · obtain ⟨hmem, hop⟩ := mem_of_findRow hrow
    have hop' : row.op.toNat ∈ opcodes := opcodes_eq ▸ List.mem_map_of_mem hmem
    rw [← hop, if_neg (not_not.2 hop')]
    split
    · rfl
    next hC =>
      split
      · rfl
      next hflags =>
        have hC' : fieldC w = 0 := BitVec.eq_of_toNat_eq (not_not.1 hC)
        have hB : fieldB w &&& ~~~row.flagMask = 0 := unusedFlags_eq_zero row hmem hflags
        have hA : ¬ (row.usesA = false → fieldA w = 0) := fun h => hnot ⟨hC', hB, h⟩
        obtain ⟨hu, hne⟩ := Classical.not_imp.1 hA
        rw [widthsOf_of_not_usesA row hmem hu]
        exact if_pos fun h => hne (BitVec.eq_of_toNat_eq h)
  · simp [he] at hok

theorem widthIn_iff (lo hi : Nat) (n : Byte) :
    widthIn lo hi n = true ↔ n.toNat ∈ List.range' lo (hi + 1 - lo) := by
  simp only [widthIn, Bool.and_eq_true, decide_eq_true_iff, List.mem_range'_1]
  omega

theorem floatWidth_iff (n : Byte) : floatWidth n = true ↔ n.toNat ∈ [16, 32, 64] := by
  simp [floatWidth, or_assoc]

/-- The word of a command whose row uses field A (30_encoding.md R154 item 5). -/
theorem wordFault_of_width {b op n : Byte} {ws : List Nat} {i : Instr}
    (hi : i.wellFormed = true ↔ n.toNat ∈ ws) (hop : op.toNat ∈ opcodes)
    (hflags : ¬ setsUnusedFlag op.toNat b.toNat) (hw : widthsOf op.toNat = some ws) :
    wordFault (mkWord b n op).toNat = if i.wellFormed = true then none else some 0x30 := by
  unfold wordFault
  dsimp only
  rw [← fieldOp_toNat, ← fieldA_toNat, ← fieldB_toNat, ← fieldC_toNat, fieldOp_mkWord, fieldA_mkWord,
    fieldB_mkWord, fieldC_mkWord, if_neg (not_not.2 hop), if_neg (by decide), if_neg hflags, hw]
  simp only [ite_not, hi]

/-- The word of a command faults where a width in field A is out of the command's range. -/
theorem wordFault_encode (i : Instr) :
    wordFault (encode i).toNat = if i.wellFormed = true then none else some 0x30 := by
  cases i with
  | bswPut n | bswPutw n | bsrGet n | bsrGetw n | encVoid n | decUint n | decInt n | decVoid n =>
    exact wordFault_of_width (widthIn_iff _ _ n) (by decide) (by decide) rfl
  | decFloat n =>
    exact wordFault_of_width (floatWidth_iff n) (by decide) (by decide) rfl
  | encUint n cm | encInt n cm =>
    cases cm <;>
      exact wordFault_of_width (widthIn_iff _ _ n) (by decide) (by decide) rfl
  | encFloat n cm =>
    cases cm <;>
      exact wordFault_of_width (floatWidth_iff n) (by decide) (by decide) rfl
  | encDarray t | encStruct t | decDarray t | decStruct t => cases t <;> rfl
  | _ => rfl

/-- A command with a width out of its range is InvalidBitLength before it reads an operand. -/
theorem exec_of_not_wellFormed {i : Instr} (hi : i.wellFormed = false) (s : State) :
    exec i s = .next (faulted 0x30 s) := by
  cases i with
  | bswPut n | bswPutw n | bsrGet n | bsrGetw n | encUint n cm | encInt n cm | encFloat n cm | encVoid n
  | decUint n | decInt n | decFloat n | decVoid n => exact if_neg (Bool.eq_false_iff.1 hi)
  | _ => cases hi

/-- Settles O2: a word that decodes is the word of its command (O4), whose fault is that of its width; any
other word is IllegalCommand to the decoder and to the rule alike. -/
theorem illegalWordFaults : Obligations.IllegalWordFaults := by
  intro s c rest hc
  cases hd : decode c.word with
  | error e =>
    rw [wordFault_of_decode_error hd]
    exact step_of_decode_error s c rest e hc hd
  | ok i =>
    rw [← encodeOfDecode _ _ hd, wordFault_encode]
    cases hi : i.wellFormed with
    | true => exact ⟨i, rfl, hi⟩
    | false => exact (step_of_decode_ok s c rest i hc hd).trans (exec_of_not_wellFormed hi _)

end Sys2Proof.Machine
end

section
/-! The checksums as arithmetic (41_crc.md R250, R251, R260), and a run of a command that absorbs one byte
after another (30_encoding.md R156). -/

namespace Sys2Proof.Machine

/-! ### One byte, on natural numbers -/

/-- A shift with the polynomial `p` taken in where a bit falls out, as arithmetic. -/
theorem toNat_crcShift {w : Nat} (c p : BitVec w) :
    (if c.msb then c <<< 1 ^^^ p else c <<< 1).toNat =
      if 2 ^ (w - 1) ≤ c.toNat then (2 * c.toNat ^^^ p.toNat) % 2 ^ w else 2 * c.toNat % 2 ^ w := by
  have hshift : (c <<< 1).toNat = 2 * c.toNat % 2 ^ w := by
    rw [BitVec.toNat_shiftLeft, Nat.shiftLeft_eq, pow_one, Nat.mul_comm]
  simp only [BitVec.msb_eq_decide, decide_eq_true_iff]
  split
  · rw [BitVec.toNat_xor, hshift, Nat.xor_mod_two_pow, Nat.mod_eq_of_lt p.isLt]
  · exact hshift

/-- A byte placed above `w` zeros and taken into an accumulator. -/
theorem toNat_xor_byte {w : Nat} (c : BitVec (8 + w)) (b : Byte) :
    (c ^^^ (b ++ 0#w)).toNat = c.toNat ^^^ 2 ^ w * b.toNat := by
  simp [BitVec.toNat_append, Nat.shiftLeft_eq, Nat.mul_comm]

/-- A map that takes one repeated function to another takes the repetition to the repetition. -/
theorem map_repeat {α β : Type} {f : α → α} {g : β → β} (h : α → β) (hfg : ∀ a, h (f a) = g (h a)) (n : Nat)
    (a : α) : h (Nat.repeat f n a) = Nat.repeat g n (h a) := by
  induction n with
  | zero => rfl
  | succ n ih => rw [Nat.repeat, Nat.repeat, hfg, ih]

theorem crc16Bit_toNat (c : BitVec 16) :
    (crc16Bit c).toNat =
      if 2 ^ 15 ≤ c.toNat then (2 * c.toNat ^^^ 0x1021) % 2 ^ 16 else 2 * c.toNat % 2 ^ 16 :=
  toNat_crcShift c 0x1021

theorem crc64Bit_toNat (c : BitVec 64) :
    (crc64Bit c).toNat =
      if 2 ^ 63 ≤ c.toNat then (2 * c.toNat ^^^ 0x42F0E1EBA9EA3693) % 2 ^ 64 else 2 * c.toNat % 2 ^ 64 :=
  toNat_crcShift c 0x42F0E1EBA9EA3693

theorem crc16Step_toNat (c : BitVec 16) (b : Byte) :
    (crc16Step c b).toNat = crc16ByteNat c.toNat b.toNat := by
  have hin : (c ^^^ (b ++ 0#8)).toNat = c.toNat ^^^ 256 * b.toNat := toNat_xor_byte (w := 8) c b
  rw [crc16ByteNat, ← hin]
  exact map_repeat BitVec.toNat crc16Bit_toNat 8 _

theorem crc64Step_toNat (c : BitVec 64) (b : Byte) :
    (crc64Step c b).toNat = crc64ByteNat c.toNat b.toNat := by
  have hin : (c ^^^ (b ++ 0#56)).toNat = c.toNat ^^^ 2 ^ 56 * b.toNat := toNat_xor_byte (w := 56) c b
  rw [crc64ByteNat, ← hin]
  exact map_repeat BitVec.toNat crc64Bit_toNat 8 _

theorem foldl_crc16Step_toNat (c : BitVec 16) (xs : List Byte) :
    (xs.foldl crc16Step c).toNat = crc16Nat c.toNat (xs.map (·.toNat)) := by
  rw [crc16Nat, List.foldl_map]
  exact (List.foldl_hom BitVec.toNat (g₁ := crc16Step) (g₂ := fun c b => crc16ByteNat c b.toNat)
    fun c b => (crc16Step_toNat c b).symm).symm

theorem foldl_crc64Step_toNat (c : BitVec 64) (xs : List Byte) :
    (xs.foldl crc64Step c).toNat = (xs.map (·.toNat)).foldl crc64ByteNat c.toNat := by
  rw [List.foldl_map]
  exact (List.foldl_hom BitVec.toNat (g₁ := crc64Step) (g₂ := fun c b => crc64ByteNat c b.toNat)
    fun c b => (crc64Step_toNat c b).symm).symm

/-! ### Runs of commands -/

/-- A command that the host gives is performed with its operands, and the run goes on from there. -/
theorem serve_command_cons {i : Instr} {p : Ports} {s t : State} (cs : List Command)
    (h : exec i { s with cmds := [], ports := p } = .next t) :
    serve (command i p :: cs) s = (t.result :: (serve cs t).1, (serve cs t).2) := by
  have hstep : step { s with cmds := [command i p] } = .next t :=
    (step_of_decode_ok _ (command i p) [] i rfl (decodeOfEncode i)).trans h
  rw [serve, hstep]

/-- A block of a command that leads from `s` with the byte `b` to `next s b`: one OK for each byte, and the
machine that the bytes lead to, first byte first. -/
theorem serve_block {i : Instr} {p : Ports} {next : State → Byte → State}
    (hexec : ∀ s b, exec i { s with cmds := [], ports := { p with b := b.toNat } } = .next (next s b))
    (hok : ∀ s b, (next s b).result = endsWith 0x00 .none) (bs : List Byte) (s : State) :
    serve (bs.map fun b => command i { p with b := b.toNat }) s =
      (bs.map fun _ => endsWith 0x00 .none, bs.foldl next s) := by
  induction bs generalizing s with
  | nil => rfl
  | cons b bs ih => rw [List.map_cons, serve_command_cons _ (hexec s b), ih, hok]; rfl

/-- Where every byte leads to a machine that meets `P`, so does a block that is not empty. -/
theorem foldl_meets {P : State → Prop} {next : State → Byte → State} {s : State} {bs : List Byte}
    (hne : bs ≠ []) (hfirst : ∀ b, P (next s b)) (hnext : ∀ t b, P t → P (next t b)) : P (bs.foldl next s) := by
  cases bs with
  | nil => contradiction
  | cons b bs => exact List.foldlRecOn bs next (hfirst b) fun t ht b _ => hnext t b ht

/-! ### The blocks -/

/-- The machine after CRC16.BYTE with this byte. -/
def afterCrc16 (p : Ports) (s : State) (b : Byte) : State :=
  { s with
    c16 := crc16Step s.c16 b, cmds := [], ports := { p with b := b.toNat }, result := endsWith 0x00 .none }

/-- The machine after CRC64.BYTE with this byte. -/
def afterCrc64 (p : Ports) (s : State) (b : Byte) : State :=
  { s with
    c64 := crc64Step s.c64 b, cmds := [], ports := { p with b := b.toNat }, result := endsWith 0x00 .none }

/-- CRC16.BYTE has written its accumulator, and ended with OK. -/
def AbsorbedBy16 (s t : State) : Prop :=
  t = { s with c16 := t.c16, cmds := [], ports := t.ports, result := endsWith 0x00 .none }

theorem exec_crc16Byte (p : Ports) (s : State) (b : Byte) :
    exec .crc16Byte { s with cmds := [], ports := { p with b := b.toNat } } = .next (afterCrc16 p s b) := by
  have hb : fitsBits 8 b.toNat = true := (fitsBits_iff 8 _).2 b.isLt
  refine (if_pos hb).trans ?_
  rw [BitVec.ofNat_toNat, BitVec.setWidth_eq]
  rfl

/-- CRC64.BYTE has written its accumulator, and ended with OK. -/
def AbsorbedBy64 (s t : State) : Prop :=
  t = { s with c64 := t.c64, cmds := [], ports := t.ports, result := endsWith 0x00 .none }

theorem exec_crc64Byte (p : Ports) (s : State) (b : Byte) :
    exec .crc64Byte { s with cmds := [], ports := { p with b := b.toNat } } = .next (afterCrc64 p s b) := by
  have hb : fitsBits 8 b.toNat = true := (fitsBits_iff 8 _).2 b.isLt
  refine (if_pos hb).trans ?_
  rw [BitVec.ofNat_toNat, BitVec.setWidth_eq]
  rfl

/-- CRC16.BLOCK: the results, the accumulator, and that nothing else is written. -/
theorem serve_crc16Block {s t : State} {p : Ports} {rs : List (Option Result)} (hne : p.bytes ≠ [])
    (h : serve (pseudoCrc16Block p) s = (rs, t)) :
    rs = p.bytes.map (fun _ => endsWith 0x00 .none) ∧
    t.c16.toNat = crc16Nat s.c16.toNat (p.bytes.map (·.toNat)) ∧
    t = { s with c16 := t.c16, cmds := [], ports := t.ports, result := endsWith 0x00 .none } := by
  rw [pseudoCrc16Block, serve_block (exec_crc16Byte p) fun _ _ => rfl] at h
  obtain ⟨rfl, rfl⟩ := Prod.mk.inj h
  refine ⟨rfl, ?_, ?_⟩
  · rw [← List.foldl_hom State.c16 (g₂ := crc16Step) fun _ _ => rfl, foldl_crc16Step_toNat]
  · exact foldl_meets (P := AbsorbedBy16 s) hne (fun _ => rfl) fun u b hu => hu ▸ rfl

/-- CRC64.BLOCK: the results, the accumulator, and that nothing else is written. -/
theorem serve_crc64Block {s t : State} {p : Ports} {rs : List (Option Result)} (hne : p.bytes ≠ [])
    (h : serve (pseudoCrc64Block p) s = (rs, t)) :
    rs = p.bytes.map (fun _ => endsWith 0x00 .none) ∧
    t.c64.toNat = (p.bytes.map (·.toNat)).foldl crc64ByteNat s.c64.toNat ∧
    t = { s with c64 := t.c64, cmds := [], ports := t.ports, result := endsWith 0x00 .none } := by
  rw [pseudoCrc64Block, serve_block (exec_crc64Byte p) fun _ _ => rfl] at h
  obtain ⟨rfl, rfl⟩ := Prod.mk.inj h
  refine ⟨rfl, ?_, ?_⟩
  · rw [← List.foldl_hom State.c64 (g₂ := crc64Step) fun _ _ => rfl, foldl_crc64Step_toNat]
  · exact foldl_meets (P := AbsorbedBy64 s) hne (fun _ => rfl) fun u b hu => hu ▸ rfl

/-- Settles O21: both blocks by the run of their command over the bytes. -/
theorem crcBlocksAbsorbTheirBytes : Obligations.CrcBlocksAbsorbTheirBytes := by
  intro s t u p rs16 rs64 hne h16 h64
  obtain ⟨hres16, hcrc16, hframe16⟩ := serve_crc16Block hne h16
  obtain ⟨hres64, hcrc64, hframe64⟩ := serve_crc64Block hne h64
  exact ⟨hres16, hcrc16, hframe16, hres64, hcrc64, hframe64⟩

end Sys2Proof.Machine
end

section
/-! The fields of a CAN identifier (30_encoding.md R104 to R109): each layout as a sum of its fields at their
bit positions, and each field of an identifier read back by division. -/

namespace Sys2Proof.Machine

/-! ### The layouts as sums -/

/-- A field placed above another. -/
theorem toNat_append_eq {m n : Nat} (x : BitVec m) (y : BitVec n) :
    (x ++ y).toNat = x.toNat * 2 ^ n + y.toNat := by
  rw [BitVec.toNat_append, ← Nat.shiftLeft_add_eq_or_of_lt y.isLt, Nat.shiftLeft_eq]

theorem messageId_toNat (prio : BitVec 5) (dtid : BitVec 16) (src : NodeId) :
    (messageId prio dtid src).toNat = prio.toNat * 2 ^ 24 + dtid.toNat * 2 ^ 8 + src.toNat := by
  simp only [messageId, toNat_append_eq, BitVec.toNat_ofNat]
  omega

theorem anonymousId_toNat (prio : BitVec 5) (disc : BitVec 14) (dtid : BitVec 2) :
    (anonymousId prio disc dtid).toNat = prio.toNat * 2 ^ 24 + disc.toNat * 2 ^ 10 + dtid.toNat * 2 ^ 8 := by
  simp only [anonymousId, toNat_append_eq, BitVec.toNat_ofNat]
  omega

theorem serviceId_toNat (prio : BitVec 5) (dtid : BitVec 8) (request : Bool) (dst src : NodeId) :
    (serviceId prio dtid request dst src).toNat =
      prio.toNat * 2 ^ 24 + dtid.toNat * 2 ^ 16 + request.toNat * 2 ^ 15 + dst.toNat * 2 ^ 8 + 2 ^ 7 +
        src.toNat := by
  simp only [serviceId, toNat_append_eq, BitVec.toNat_ofNat, BitVec.toNat_ofBool]
  omega

/-! ### The fields read back -/

theorem idIsService_iff (id : CanId) : idIsService id = true ↔ id.toNat / 2 ^ 7 % 2 = 1 := by
  rw [idIsService, BitVec.getLsbD, Nat.testBit_eq_decide_div_mod_eq, decide_eq_true_iff]

/-- A field of an identifier is the number that stands at its bit position. -/
theorem extractField_eq {id : CanId} {k w : Nat} {x : BitVec w} (h : id.toNat / 2 ^ k % 2 ^ w = x.toNat) :
    id.extractLsb' k w = x := by
  apply BitVec.eq_of_toNat_eq
  rw [BitVec.extractLsb'_toNat, Nat.shiftRight_eq_div_pow, h]

/-- The transfer descriptor is part of the fields (30_encoding.md R109). -/
theorem descriptor_of_idFields {id : CanId} {f : IdFields} (h : idFields id = f) :
    descriptor id = { dtid := f.dtid, kind := f.kind, src := f.src, dst := f.dst } := by
  rw [← h]
  rfl

theorem idFields_messageId (prio : BitVec 5) (dtid : BitVec 16) {src : NodeId} (hsrc : src ≠ 0) :
    idFields (messageId prio dtid src) =
      { prio := prio, kind := .broadcast, anon := false, dtid := dtid, src := src, dst := 0, disc := 0 } := by
  have hid := messageId_toNat prio dtid src
  have hp := prio.isLt
  have hd := dtid.isLt
  have hs := src.isLt
  have hsvc : ¬ idIsService (messageId prio dtid src) = true := by rw [idIsService_iff]; omega
  have hsource : idSource (messageId prio dtid src) = src := extractField_eq (by omega)
  have hprio : (messageId prio dtid src).extractLsb' 24 5 = prio := extractField_eq (by omega)
  have hdtid : (messageId prio dtid src).extractLsb' 8 16 = dtid := extractField_eq (by omega)
  rw [idFields, if_neg hsvc, hsource, if_neg hsrc, hprio, hdtid]

theorem idFields_anonymousId (prio : BitVec 5) (disc : BitVec 14) (dtid : BitVec 2) :
    idFields (anonymousId prio disc dtid) =
      { prio := prio, kind := .broadcast, anon := true, dtid := dtid.setWidth 16, src := 0, dst := 0,
        disc := disc } := by
  have hid := anonymousId_toNat prio disc dtid
  have hp := prio.isLt
  have hc := disc.isLt
  have hd := dtid.isLt
  have hsvc : ¬ idIsService (anonymousId prio disc dtid) = true := by rw [idIsService_iff]; omega
  have hsource : idSource (anonymousId prio disc dtid) = 0 := extractField_eq (by simp; omega)
  have hprio : (anonymousId prio disc dtid).extractLsb' 24 5 = prio := extractField_eq (by omega)
  have hdtid : (anonymousId prio disc dtid).extractLsb' 8 2 = dtid := extractField_eq (by omega)
  have hdisc : (anonymousId prio disc dtid).extractLsb' 10 14 = disc := extractField_eq (by omega)
  rw [idFields, if_neg hsvc, hsource, if_pos rfl, hprio, hdtid, hdisc]

theorem idFields_serviceId (prio : BitVec 5) (dtid : BitVec 8) (request : Bool) (dst src : NodeId) :
    idFields (serviceId prio dtid request dst src) =
      { prio := prio, kind := if request then .request else .response, anon := false,
        dtid := dtid.setWidth 16, src := src, dst := dst, disc := 0 } := by
  have hid := serviceId_toNat prio dtid request dst src
  have hp := prio.isLt
  have hd := dtid.isLt
  have hr := request.toNat_lt
  have ht := dst.isLt
  have hs := src.isLt
  have hsvc : idIsService (serviceId prio dtid request dst src) = true := by rw [idIsService_iff]; omega
  have hsource : idSource (serviceId prio dtid request dst src) = src := extractField_eq (by omega)
  have hprio : (serviceId prio dtid request dst src).extractLsb' 24 5 = prio := extractField_eq (by omega)
  have hdtid : (serviceId prio dtid request dst src).extractLsb' 16 8 = dtid := extractField_eq (by omega)
  have hdst : (serviceId prio dtid request dst src).extractLsb' 8 7 = dst := extractField_eq (by omega)
  have hreq : (serviceId prio dtid request dst src).getLsbD 15 = request := by
    rw [BitVec.getLsbD, Nat.testBit_eq_decide_div_mod_eq, Bool.eq_iff_iff, decide_eq_true_iff]
    cases request <;> simp at hid ⊢ <;> omega
  rw [idFields, if_pos hsvc, hsource, hprio, hdtid, hdst, hreq]

/-- Settles O43: the descriptor is part of the fields, which each layout gives back. -/
theorem identifierRoundTrip : Obligations.IdentifierRoundTrip := by
  refine ⟨fun prio dtid src hsrc => ?_, fun prio disc dtid => ?_, fun prio dtid request dst src => ?_⟩
  · have h := idFields_messageId prio dtid hsrc
    exact ⟨h, descriptor_of_idFields h⟩
  · have h := idFields_anonymousId prio disc dtid
    exact ⟨h, descriptor_of_idFields h⟩
  · have h := idFields_serviceId prio dtid request dst src
    exact ⟨h, descriptor_of_idFields h⟩

end Sys2Proof.Machine
end

section
/-! Validity of a descriptor and conformance of a value (30_encoding.md R131, R141). The procedures of the
block walk a tree and stop at the first failing check; that is the check of the first failing node in
pre-order, and of the first failing place in encode order. The commands then differ only in what they do
with the code. -/

namespace Sys2Proof.Machine

/-! ### Descriptors -/

theorem valueNames_nodup_iff (fs : Fields) : fs.valueNames.Nodup ↔ namesDiffer fs := by
  rw [Fields.valueNames, List.Nodup, List.pairwise_map, List.pairwise_filter]
  exact List.Pairwise.iff fun {a b} => by cases a.2.isVoid <;> cases b.2.isVoid <;> simp

theorem unionMembers_iff (fs : Fields) :
    ¬ (fs.count < 2 ∨ fs.toList.any (·.2.isVoid) = true) ↔
      2 ≤ fs.toList.length ∧ ∀ f ∈ fs.toList, f.2.isVoid = false := by
  rw [Fields.count, not_or, Nat.not_lt, List.any_eq_true]
  simp

/-- A node's own check comes before those of the rest. -/
theorem findSome_cons {α : Type} (p : α → Option (BitVec 8)) (a : α) (rest : List α) :
    (a :: rest).findSome? p = (p a).or (rest.findSome? p) := by
  rw [List.findSome?_cons]
  cases p a <;> rfl

mutual

/-- A descriptor's first failing check is that of its first failing node (30_encoding.md R131). -/
theorem checkTy_eq_findSome : ∀ T : Ty, (checkTy T).map statusCode = (nodes T).findSome? nodeFault
  | .void n | .uint n _ | .int n _ => by
    simp only [checkTy, nodes, List.findSome?_singleton, nodeFault]
    split <;> rfl
  | .bool => rfl
  | .float n _ => by
    simp only [checkTy, nodes, List.findSome?_singleton, nodeFault, List.mem_cons, List.not_mem_nil, or_false]
    split <;> rfl
  | .array E _ m => by
    rw [checkTy, nodes, findSome_cons, nodeFault, ← checkTy_eq_findSome E]
    by_cases hA : E.isArray = true
    · rw [if_pos hA, if_pos (.inl hA)]
      rfl
    · rw [if_neg hA]
      by_cases hV : E.isVoid = true ∨ 2 ^ 64 ≤ m
      · rw [if_pos hV, if_pos (.inr hV)]
        rfl
      · rw [if_neg hV, if_neg (not_or.2 ⟨hA, hV⟩)]
        rfl
  | .struct fs => by
    rw [checkTy, nodes, findSome_cons, nodeFault, ← checkFields_eq_findSome fs]
    by_cases hN : namesDiffer fs <;> simp [hN, valueNames_nodup_iff, statusCode]
  | .union fs => by
    rw [checkTy, nodes, findSome_cons, nodeFault, ← checkFields_eq_findSome fs]
    by_cases hM : fs.count < 2 ∨ fs.toList.any (·.2.isVoid) = true
    · rw [if_pos hM, if_neg fun h => (unionMembers_iff fs).2 ⟨h.1, h.2.1⟩ hM]
      rfl
    · obtain ⟨hlen, hvoid⟩ := (unionMembers_iff fs).1 hM
      by_cases hN : namesDiffer fs
      · rw [if_neg hM, if_pos ((valueNames_nodup_iff fs).2 hN), if_pos ⟨hlen, hvoid, hN⟩]
        rfl
      · rw [if_neg hM, if_neg fun h => hN ((valueNames_nodup_iff fs).1 h), if_neg fun h => hN h.2.2]
        rfl

theorem checkFields_eq_findSome : ∀ fs : Fields,
    (checkFields fs).map statusCode = (nodesOfFields fs).findSome? nodeFault
  | .nil => rfl
  | .cons _ T rest => by
    rw [checkFields, nodesOfFields, List.findSome?_append, ← checkTy_eq_findSome T,
      ← checkFields_eq_findSome rest]
    cases checkTy T <;> rfl

end

/-! ### Values -/

theorem findSome_flatMap {α β : Type} (p : β → Option (BitVec 8)) (g : α → List β) (l : List α) :
    (l.flatMap g).findSome? p = l.findSome? fun a => (g a).findSome? p := by
  induction l with
  | nil => rfl
  | cons a l ih => rw [List.flatMap_cons, List.findSome?_append, ih, findSome_cons]

theorem noneMissing_iff (fs : Fields) (es : Entries) :
    (fs.valueNames.all ((es.toList.map (·.1)).contains ·)) = true ↔ noneMissing fs es := by
  simp [Fields.valueNames, or_iff_not_imp_left]

theorem noneExtra_iff (fs : Fields) (es : Entries) :
    ((es.toList.map (·.1)).all (fs.valueNames.contains ·)) = true ∧ (es.toList.map (·.1)).Nodup ↔
      noneExtra fs es := by
  simp [Fields.valueNames, List.Nodup, List.pairwise_map]

/-- The shape of a record is what its Struct's place checks (30_encoding.md R141). -/
theorem recordShape_code (fs : Fields) (es : Entries) :
    (recordShape fs es).map statusCode = placeFault (.struct fs, .record es) := by
  rw [recordShape, placeFault]
  by_cases hM : noneMissing fs es
  · rw [if_pos ((noneMissing_iff fs es).2 hM), if_neg (not_not.2 hM)]
    by_cases hE : noneExtra fs es
    · rw [if_pos ((noneExtra_iff fs es).2 hE), if_neg (not_not.2 hE)]
      rfl
    · rw [if_neg fun h => hE ((noneExtra_iff fs es).1 h), if_pos hE]
      rfl
  · rw [if_neg fun h => hM ((noneMissing_iff fs es).1 h), if_pos hM]
    rfl

mutual

/-- A value's first failing check is that of its first failing place (30_encoding.md R141). -/
theorem conform_eq_findSome : ∀ (T : Ty) (v : Val),
    (conform T v).map statusCode = (places T v).findSome? placeFault
  | .void _, v | .bool, v | .float _ _, v => by cases v <;> rfl
  | .uint n _, v | .int n _, v => by
    cases v with
    | int i =>
      simp only [conform, places, List.findSome?_singleton, placeFault, inValueDomain, Bool.and_eq_true,
        decide_eq_true_iff]
      split <;> rfl
    | _ => rfl
  | .array E .fixed m, v | .array E .dynamic m, v => by
    cases v with
    | array vs =>
      rw [conform, places, findSome_cons, findSome_flatMap, placeFault]
      split
      · rw [List.map_findSome?]
        exact congrArg (fun p => vs.toList.findSome? p) (funext (conform_eq_findSome E))
      · rfl
    | _ => rfl
  | .struct fs, v => by
    cases v with
    | record es =>
      rw [conform, places, findSome_cons, ← recordShape_code, ← conformFields_eq_findSome fs es]
      cases recordShape fs es <;> rfl
    | _ => rfl
  | .union fs, v => by
    cases v with
    | union idx v =>
      rw [conform, places, findSome_cons, placeFault]
      exact conformMember_eq_findSome fs idx v
    | _ => rfl

theorem conformFields_eq_findSome : ∀ (fs : Fields) (es : Entries),
    (conformFields fs es).map statusCode = (placesOfFields fs es).findSome? placeFault
  | .nil, es => rfl
  | .cons name T rest, es => by
    rw [conformFields, placesOfFields, List.findSome?_append, ← conformFields_eq_findSome rest es]
    have hfield : ((if T.isVoid then none else (es.get? name).bind fun v => conform T v).map statusCode) =
        (if T.isVoid then [] else ((es.get? name).map fun v => places T v).getD []).findSome? placeFault := by
      split
      · rfl
      · cases es.get? name with
        | none => rfl
        | some v => exact conform_eq_findSome T v
    rw [← hfield]
    cases (if T.isVoid then none else (es.get? name).bind fun v => conform T v) <;> rfl

/-- An index past the fields fails the union's own check, and so has no further place. -/
theorem conformMember_eq_findSome : ∀ (fs : Fields) (idx : Nat) (v : Val),
    (conformMember fs idx v).map statusCode =
      (if idx < fs.toList.length then none else some 0x32).or ((placesOfMember fs idx v).findSome? placeFault)
  | .nil, idx, v => rfl
  | .cons name T rest, 0, v => by
    have hpos : 0 < (Fields.cons name T rest).toList.length := Nat.succ_pos _
    rw [conformMember, placesOfMember, if_pos hpos]
    exact conform_eq_findSome T v
  | .cons name T rest, k + 1, v => by
    have hlt : k + 1 < (Fields.cons name T rest).toList.length ↔ k < rest.toList.length := Nat.succ_lt_succ_iff
    rw [conformMember, placesOfMember, if_congr hlt rfl rfl]
    exact conformMember_eq_findSome rest k v

end

/-! ### The codes of the checks -/

theorem nodeFault_mem {T : Ty} {c : BitVec 8} (h : nodeFault T = some c) :
    c ∈ ([0x30, 0x33] : List (BitVec 8)) := by
  cases T with
  | bool => cases h
  | _ =>
    rw [nodeFault] at h
    split at h <;> cases h
    decide

theorem checkTy_code_mem {T : Ty} {e : Status} (h : checkTy T = some e) :
    statusCode e ∈ ([0x30, 0x33] : List (BitVec 8)) := by
  have hcode : (nodes T).findSome? nodeFault = some (statusCode e) := by
    rw [← checkTy_eq_findSome, h]
    rfl
  obtain ⟨N, _, hN⟩ := List.exists_of_findSome?_eq_some hcode
  exact nodeFault_mem hN

theorem placeFault_mem {x : Ty × Val} {c : BitVec 8} (h : placeFault x = some c) :
    c ∈ ([0x31, 0x32, 0x34] : List (BitVec 8)) := by
  obtain ⟨T, v⟩ := x
  cases T with
  | void _ | bool | float _ _ => cases v <;> cases h <;> decide
  | uint _ _ | int _ _ =>
    cases v with
    | int i =>
      rw [placeFault] at h
      split at h <;> cases h
      decide
    | _ => cases h; decide
  | array E mode m =>
    cases mode with
    | fixed | dynamic =>
      cases v with
      | array vs =>
        rw [placeFault] at h
        split at h <;> cases h
        decide
      | _ => cases h; decide
  | struct fs =>
    cases v with
    | record es =>
      rw [placeFault] at h
      split at h
      · cases h
        decide
      · split at h <;> cases h
        decide
    | _ => cases h; decide
  | union fs =>
    cases v with
    | union idx v =>
      rw [placeFault] at h
      split at h <;> cases h
      decide
    | _ => cases h; decide

theorem conform_code_mem {T : Ty} {v : Val} {e : Status} (h : conform T v = some e) :
    statusCode e ∈ ([0x31, 0x32, 0x34] : List (BitVec 8)) := by
  have hcode : (places T v).findSome? placeFault = some (statusCode e) := by
    rw [← conform_eq_findSome, h]
    rfl
  obtain ⟨x, _, hx⟩ := List.exists_of_findSome?_eq_some hcode
  exact placeFault_mem hx

/-! ### The commands that check -/

section
variable {s : State} {e : Status} (t : Bool)

theorem encodeAtCursor_of_encodeCheck {T : Ty} {v : Val} (h : encodeCheck T v = some e) :
    encodeAtCursor T v t s = .next (faulted (statusCode e) s) := by
  rw [encodeAtCursor, h]
  exact fault_eq e s

theorem decodeAtCursor_of_checkTy {T : Ty} (h : checkTy T = some e) :
    decodeAtCursor T t s = .next (faulted (statusCode e) s) := by
  rw [decodeAtCursor, h]
  exact fault_eq e s

theorem exec_enc_of_encodeCheck (h : encodeCheck s.ports.ty s.ports.v = some e) :
    exec .enc s = .next (faulted (statusCode e) s) := by
  rw [exec, execEnc]
  dsimp only
  rw [h]
  exact fault_eq e s

theorem exec_encodeCommand_of_encodeCheck (hT : takesDescriptor s.ports.ty = true)
    (h : encodeCheck s.ports.ty s.ports.v = some e) :
    exec (encodeCommand s.ports.ty t) s = .next (faulted (statusCode e) s) := by
  rw [exec_encodeCommand t s hT rfl, encodeAtCursor_of_encodeCheck t h]

theorem exec_encodeCommand_of_overflow (hT : takesDescriptor s.ports.ty = true)
    (h : encodeCheck s.ports.ty s.ports.v = none)
    (hcap : ∃ c ∈ s.cfg.wCapBits, c < s.w.pos + encLen s.ports.ty s.ports.v t) :
    exec (encodeCommand s.ports.ty t) s = .next (faulted 0x36 s) := by
  rw [exec_encodeCommand t s hT rfl, encodeAtCursor, h]
  exact if_pos ((exceeds_eq_true_iff _ _).2 hcap)

/-- The decode command of an array, a Union or a Struct passes its kind check, and then the descriptor's
first failing check ends it, with either tail flag. -/
theorem exec_decodeCommand_of_checkTy (hT : takesDescriptor s.ports.ty = true)
    (h : checkTy s.ports.ty = some e) :
    exec (decodeCommand s.ports.ty t) s = .next (faulted (statusCode e) s) := by
  cases hs : s.ports.ty with
  | array E mode m =>
    cases mode with
    | fixed => exact (if_pos (by rw [hs]; rfl)).trans (decodeAtCursor_of_checkTy false h)
    | dynamic =>
      have hkind : s.ports.ty.isDynamicArray = true := by rw [hs]; rfl
      have hform : ¬ ((t && taoEligible (.array E .dynamic m)) && !taoEligible s.ports.ty) = true := by
        rw [hs]
        cases taoEligible (.array E .dynamic m) <;> simp
      exact (if_pos hkind).trans ((if_neg hform).trans (decodeAtCursor_of_checkTy _ h))
  | union fs => exact (if_pos (by rw [hs]; rfl)).trans (decodeAtCursor_of_checkTy false h)
  | struct fs => exact (if_pos (by rw [hs]; rfl)).trans (decodeAtCursor_of_checkTy t h)
  | _ =>
    rw [hs] at hT
    cases hT

theorem exec_dec_of_overlong (h : ∃ c ∈ s.cfg.rCapBytes, c < s.ports.bytes.length) :
    exec .dec s = .next (faulted 0x34 s) :=
  if_pos ((exceeds_eq_true_iff _ _).2 h)

theorem exec_dec_of_checkTy (hcap : ∀ c ∈ s.cfg.rCapBytes, s.ports.bytes.length ≤ c)
    (h : checkTy s.ports.ty = some e) : exec .dec s = .next (faulted (statusCode e) s) := by
  have hfits : ¬ exceeds s.cfg.rCapBytes s.ports.bytes.length = true :=
    Bool.eq_false_iff.1 ((exceeds_eq_false_iff _ _).2 hcap)
  rw [exec, execDec, if_neg hfits, h]
  exact fault_eq e s

theorem exec_typeBitlen_of_checkTy (h : checkTy s.ports.ty = some e) :
    exec .typeBitlen s = .next (faulted (statusCode e) s) := by
  rw [exec, execTypeBitlen, h]
  exact fault_eq e s

theorem exec_typeBitlen_of_valid (h : checkTy s.ports.ty = none) :
    exec .typeBitlen s =
      .next { s with result := endsWith 0x00 (.bitLengths (minBits s.ports.ty) (maxBits s.ports.ty)) } := by
  rw [exec, execTypeBitlen, h, ok_eq]

/-- What TYPE.CHECK checks: the descriptor, and the value where one is given (42_codec_encode.md R316). -/
def typeCheckOf (s : State) : Option Status :=
  if s.ports.vGiven then encodeCheck s.ports.ty s.ports.v else checkTy s.ports.ty

theorem exec_typeCheck_of_some (h : typeCheckOf s = some e) :
    exec .typeCheck s = .next { s with result := endsWith (statusCode e) .none } := by
  rw [typeCheckOf] at h
  rw [exec, execTypeCheck, h]
  rfl

theorem exec_typeCheck_of_none (h : typeCheckOf s = none) :
    exec .typeCheck s = .next { s with result := endsWith 0x00 .none } := by
  rw [typeCheckOf] at h
  rw [exec, execTypeCheck, h, ok_eq]

theorem typeCheckOf_invalid (h : checkTy s.ports.ty = some e) : typeCheckOf s = some e := by
  rw [typeCheckOf, encodeCheck_of_checkTy _ _ _ h, h, ite_self]

theorem typeCheckOf_given (hv : s.ports.vGiven = true) (h : checkTy s.ports.ty = none) :
    typeCheckOf s = conform s.ports.ty s.ports.v := by
  rw [typeCheckOf, if_pos hv, encodeCheck_of_valid _ _ h]

theorem typeCheckOf_not_given (hv : s.ports.vGiven = false) : typeCheckOf s = checkTy s.ports.ty := by
  rw [typeCheckOf, if_neg (Bool.eq_false_iff.1 hv)]

theorem typeCheckOf_code_mem (h : typeCheckOf s = some e) :
    statusCode e ∈ ([0x00, 0x30, 0x31, 0x32, 0x33, 0x34] : List (BitVec 8)) := by
  cases hT : checkTy s.ports.ty with
  | some e' =>
    have hsub : ([0x30, 0x33] : List (BitVec 8)) ⊆ [0x00, 0x30, 0x31, 0x32, 0x33, 0x34] := by decide
    obtain rfl : e' = e := Option.some.inj ((typeCheckOf_invalid hT).symm.trans h)
    exact hsub (checkTy_code_mem hT)
  | none =>
    have hsub : ([0x31, 0x32, 0x34] : List (BitVec 8)) ⊆ [0x00, 0x30, 0x31, 0x32, 0x33, 0x34] := by decide
    cases hg : s.ports.vGiven with
    | false =>
      rw [typeCheckOf_not_given hg, hT] at h
      cases h
    | true => exact hsub (conform_code_mem ((typeCheckOf_given hg hT).symm.trans h))

end

/-- Settles O30, clause by clause: the order of the checks is that of nodes and places, and each command ends
with the first code that it meets. -/
theorem descriptorAndValueChecks : Obligations.DescriptorAndValueChecks := by
  refine ⟨rfl, rfl, checkTy_eq_findSome, conform_eq_findSome, fun s e t => ?_⟩
  refine ⟨?_, exec_dec_of_overlong, ?_, ?_, ?_, ?_⟩
  · intro hT
    have hcheck := encodeCheck_of_checkTy s.ports.ty s.ports.v e hT
    exact ⟨exec_enc_of_encodeCheck hcheck,
      fun hd => ⟨exec_encodeCommand_of_encodeCheck t hd hcheck, exec_decodeCommand_of_checkTy t hd hT⟩,
      fun hcap => exec_dec_of_checkTy hcap hT, exec_typeBitlen_of_checkTy hT,
      exec_typeCheck_of_some (typeCheckOf_invalid hT)⟩
  · intro hT hv
    have hcheck := (encodeCheck_of_valid s.ports.ty s.ports.v hT).trans hv
    exact ⟨exec_enc_of_encodeCheck hcheck, fun hd => exec_encodeCommand_of_encodeCheck t hd hcheck,
      fun hg => exec_typeCheck_of_some ((typeCheckOf_given hg hT).trans hv)⟩
  · intro hT hv hd hcap
    exact exec_encodeCommand_of_overflow t hd ((encodeCheck_of_valid _ _ hT).trans hv) hcap
  · intro hT
    exact ⟨exec_typeBitlen_of_valid hT,
      fun hg hv => exec_typeCheck_of_none ((typeCheckOf_given hg hT).trans hv),
      fun hg => exec_typeCheck_of_none ((typeCheckOf_not_given hg).trans hT)⟩
  · cases h : typeCheckOf s with
    | none => exact ⟨_, _, exec_typeCheck_of_none h, rfl, by decide⟩
    | some e => exact ⟨_, _, exec_typeCheck_of_some h, rfl, typeCheckOf_code_mem h⟩

end Sys2Proof.Machine
end

section
/-! The BitStream unit (40_bitstream.md). A field's bits are first given position by position: `fieldIndex`
is its own inverse on 0..n-1, so what `WriteWide` puts at a position is what `ReadWide` takes from it. A put
then appends the bits of its operand, and a get reads the bits that the reader holds; BSW.PUT and BSR.GET are
BSW.PUTW and BSR.GETW at the widths up to 8. -/

namespace Sys2Proof.Machine

open Laws (mkWord_toNat)

/-! ### The place of a bit in its field -/

/-- The bits of chunk `c` stand in their field as they stand in the chunk (20_memory.md R83). -/
theorem fieldIndex_chunk (o : BitOrder) {w c j : Nat} (hj : j < chunkWidth w c) :
    fieldIndex o w (8 * c + j) = 8 * c + chunkIndex o (chunkWidth w c) j := by
  rw [chunkWidth] at hj
  have hdiv : (8 * c + j) / 8 = c := by omega
  have hmod : (8 * c + j) % 8 = j := by omega
  cases o with
  | lsbFirst => rfl
  | msbFirst => rw [fieldIndex, chunkIndex, hdiv, hmod, chunkWidth, Nat.sub_right_comm]

theorem chunkIndex_lt (o : BitOrder) {n j : Nat} (hj : j < n) : chunkIndex o n j < n := by
  cases o with
  | lsbFirst => exact hj
  | msbFirst => rw [chunkIndex]; omega

theorem chunkIndex_chunkIndex (o : BitOrder) {n j : Nat} (hj : j < n) :
    chunkIndex o n (chunkIndex o n j) = j := by
  cases o with
  | lsbFirst => rfl
  | msbFirst => rw [chunkIndex, chunkIndex]; omega

/-- Every bit of a value lies in the chunk of its position. -/
theorem mod_lt_chunkWidth {n i : Nat} (hi : i < n) : i % 8 < chunkWidth n (i / 8) := by
  rw [chunkWidth]
  omega

theorem fieldIndex_eq (o : BitOrder) {n i : Nat} (hi : i < n) :
    fieldIndex o n i = 8 * (i / 8) + chunkIndex o (chunkWidth n (i / 8)) (i % 8) := by
  rw [← fieldIndex_chunk o (mod_lt_chunkWidth hi), Nat.div_add_mod]

theorem fieldIndex_lt (o : BitOrder) {n i : Nat} (hi : i < n) : fieldIndex o n i < n := by
  have hj := chunkIndex_lt o (mod_lt_chunkWidth hi)
  rw [fieldIndex_eq o hi]
  rw [chunkWidth] at hj ⊢
  omega

theorem fieldIndex_fieldIndex (o : BitOrder) {n i : Nat} (hi : i < n) :
    fieldIndex o n (fieldIndex o n i) = i := by
  have hj := mod_lt_chunkWidth hi
  rw [fieldIndex_eq o hi, fieldIndex_chunk o (chunkIndex_lt o hj), chunkIndex_chunkIndex o hj, Nat.div_add_mod]

/-! ### The bits a write puts into the stream -/

@[simp] theorem fieldBits_length (o : BitOrder) (n v : Nat) : (fieldBits o n v).length = n := by
  simp [fieldBits]

theorem fieldBits_getD (o : BitOrder) {n i : Nat} (v : Nat) (hi : i < n) :
    (fieldBits o n v).getD i false = v.testBit (fieldIndex o n i) := by
  simp [fieldBits, hi]

/-- The chunks before chunk `m` are the bits before position 8m. -/
theorem flatMap_chunkBits (o : BitOrder) (v w m : Nat) :
    (List.range m).flatMap (fun c => chunkBits o (v >>> (8 * c)) (chunkWidth w c)) =
      (List.range (min w (8 * m))).map fun i => v.testBit (fieldIndex o w i) := by
  induction m with
  | zero => simp
  | succ m ih =>
    have hsplit : min w (8 * (m + 1)) = min w (8 * m) + chunkWidth w m := by rw [chunkWidth]; omega
    rw [List.range_succ, List.flatMap_append, ih, List.flatMap_singleton, hsplit, List.range_add,
      List.map_append, List.map_map, chunkBits]
    congr 1
    refine List.map_congr_left fun j hj => ?_
    have hj := List.mem_range.1 hj
    have hfull : min w (8 * m) = 8 * m := by
      rw [chunkWidth] at hj
      omega
    rw [Function.comp, hfull, fieldIndex_chunk o hj, Nat.testBit_shiftRight]

theorem le_chunkCount (w : Nat) : w ≤ 8 * chunkCount w := by
  rw [chunkCount, ceilDiv]
  omega

/-- `WriteWide` writes the bits of the field in stream order (40_bitstream.md R200). -/
theorem wideBits_eq_fieldBits (o : BitOrder) (v w : Nat) : wideBits o v w = fieldBits o w v := by
  rw [wideBits, flatMap_chunkBits, Nat.min_eq_left (le_chunkCount w), fieldBits]

/-- A field of at most 8 bits is one chunk. -/
theorem fieldIndex_of_le_eight (o : BitOrder) {n i : Nat} (hn : n ≤ 8) (hi : i < n) :
    fieldIndex o n i = chunkIndex o n i := by
  have hw : chunkWidth n 0 = n := by rw [chunkWidth]; omega
  have h := fieldIndex_chunk (w := n) (c := 0) (j := i) o (by rwa [hw])
  rwa [hw, Nat.mul_zero, Nat.zero_add, Nat.zero_add] at h

theorem chunkBits_eq_fieldBits (o : BitOrder) (v : Nat) {n : Nat} (hn : n ≤ 8) :
    chunkBits o v n = fieldBits o n v :=
  List.map_congr_left fun i hi => by rw [fieldIndex_of_le_eight o hn (List.mem_range.1 hi)]

/-! ### The value a read takes from the stream -/

theorem testBit_foldl_or (l : List Nat) (f : Nat → Nat) (k : Nat) :
    (l.foldl (fun v j => v ||| f j) 0).testBit k = l.any fun j => (f j).testBit k := by
  rw [← Bool.false_or (l.any _), ← Nat.zero_testBit k]
  generalize 0 = acc
  induction l generalizing acc with
  | nil => simp
  | cons j l ih => rw [List.foldl_cons, ih, Nat.testBit_or, List.any_cons, Bool.or_assoc]

/-- Bit `k` of a chunk is the one that stands at its place in the stream (40_bitstream.md R201). -/
theorem testBit_chunkAt (o : BitOrder) (buf : List Byte) (p n k : Nat) :
    (chunkAt o buf p n).testBit k = (decide (k < n) && readBit o buf (p + chunkIndex o n k)) := by
  have hbit (j : Nat) : ((readBit o buf (p + j)).toNat <<< chunkIndex o n j).testBit k = true ↔
      k = chunkIndex o n j ∧ readBit o buf (p + j) = true := by
    simp only [Nat.testBit_shiftLeft, Nat.testBit_bool_toNat, Bool.and_eq_true, decide_eq_true_iff,
      ← and_assoc]
    refine and_congr_left fun _ => ?_
    omega
  rw [chunkAt, testBit_foldl_or, Bool.eq_iff_iff, List.any_eq_true, Bool.and_eq_true, decide_eq_true_iff]
  simp only [List.mem_range, hbit]
  constructor
  · rintro ⟨j, hj, rfl, hread⟩
    exact ⟨chunkIndex_lt o hj, by rwa [chunkIndex_chunkIndex o hj]⟩
  · rintro ⟨hk, hread⟩
    exact ⟨chunkIndex o n k, chunkIndex_lt o hk, (chunkIndex_chunkIndex o hk).symm, hread⟩

/-- Bit `k` of a value is the one that stands at its place in the stream (40_bitstream.md R201). -/
theorem testBit_wideAt (o : BitOrder) (buf : List Byte) (p w k : Nat) :
    (wideAt o buf p w).testBit k = (decide (k < w) && readBit o buf (p + fieldIndex o w k)) := by
  have hcount := le_chunkCount w
  rw [wideAt, testBit_foldl_or, Bool.eq_iff_iff, List.any_eq_true, Bool.and_eq_true, decide_eq_true_iff]
  simp only [List.mem_range, Nat.testBit_shiftLeft, testBit_chunkAt, Bool.and_eq_true, decide_eq_true_iff]
  constructor
  · rintro ⟨c, hc, hck, hkc, hread⟩
    have hk : k = 8 * c + (k - 8 * c) := by omega
    refine ⟨?_, ?_⟩
    · rw [chunkWidth] at hkc
      omega
    · rwa [hk, fieldIndex_chunk o hkc, ← Nat.add_assoc]
  · rintro ⟨hk, hread⟩
    have hmod : k - 8 * (k / 8) = k % 8 := by omega
    refine ⟨k / 8, by omega, Nat.mul_div_le k 8, ?_, ?_⟩
    · rw [hmod]
      exact mod_lt_chunkWidth hk
    · rwa [fieldIndex_eq o hk, ← Nat.add_assoc, ← hmod] at hread

/-- `ReadWide` gives the value whose bits the reader holds. -/
theorem wideAt_of_holds {o : BitOrder} {r : Reader} {n v : Nat} (hv : v < 2 ^ n)
    (h : Holds o r (fieldBits o n v)) : wideAt o r.buf r.pos n = v := by
  refine Nat.eq_of_testBit_eq fun k => ?_
  rw [testBit_wideAt]
  by_cases hk : k < n
  · have hi := fieldIndex_lt o hk
    rw [decide_eq_true hk, Bool.true_and, h.2 _ (by rwa [fieldBits_length]), fieldBits_getD o v hi,
      fieldIndex_fieldIndex o hk]
  · have hzero := Nat.testBit_lt_two_pow (hv.trans_le (Nat.pow_le_pow_right two_pos (Nat.le_of_not_lt hk)))
    rw [hzero, decide_eq_false hk, Bool.false_and]

theorem chunkAt_eq_wideAt (o : BitOrder) (buf : List Byte) (p : Nat) {n : Nat} (hn : n ≤ 8) :
    chunkAt o buf p n = wideAt o buf p n := by
  refine Nat.eq_of_testBit_eq fun k => ?_
  rw [testBit_chunkAt, testBit_wideAt]
  by_cases hk : k < n
  · rw [fieldIndex_of_le_eight o hn hk]
  · rw [decide_eq_false hk, Bool.false_and, Bool.false_and]

theorem readBits_eq_readWide (o : BitOrder) {n : Nat} (r : Reader) (hn : n ≤ 8) :
    readBits o n r = readWide o n r := by
  rw [readBits, readWide, chunkAt_eq_wideAt o r.buf r.pos hn]

/-! ### Runs of bits in the writer and in the reader -/

/-- What a run of bits leaves in a writer that is zero past its cursor (40_bitstream.md R200). -/
theorem readBit_pushBits {o : BitOrder} {w : Writer} (bits : List Bool) (h : zeroFilled o w) (p : Nat) :
    readBit o (pushBits o w bits).buf p =
      if p < w.pos then readBit o w.buf p else bits.getD (p - w.pos) false := by
  induction bits generalizing w with
  | nil =>
    split
    · rfl
    · next hp => exact h.2 p (Nat.le_of_not_lt hp)
  | cons b bits ih =>
    rw [pushBits_cons, ih (zeroFilled_pushBit o w b h)]
    simp only [pushBit, readBit_writeBit]
    rcases Nat.lt_trichotomy p w.pos with hp | rfl | hp
    · simp [hp, Nat.lt_succ_of_lt hp, hp.ne]
    · simp [h.2 w.pos le_rfl]
    · obtain ⟨d, rfl⟩ := Nat.exists_eq_add_of_lt hp
      have hd : w.pos + d + 1 - w.pos = d + 1 := by omega
      have hd' : w.pos + d + 1 - (w.pos + 1) = d := by omega
      rw [if_neg (by omega), if_neg (by omega), hd, hd', List.getD_cons_succ]

theorem appended_pushBits {o : BitOrder} {w : Writer} (bits : List Bool) (h : zeroFilled o w) :
    Appended o w (pushBits o w bits) bits :=
  ⟨pushBits_pos o w bits, (zeroFilled_pushBits o w bits h).1, readBit_pushBits bits h⟩

/-- A reader of the writer's bytes holds what was appended, at the position where the writer's cursor was. -/
theorem Appended.holds {o : BitOrder} {w w' : Writer} {bits : List Bool} (h : Appended o w w' bits) :
    Holds o { buf := w'.buf, pos := w.pos } bits := by
  obtain ⟨hpos, hlen, hread⟩ := h
  refine ⟨?_, fun i _ => ?_⟩
  · simp only
    omega
  · simp [hread]

theorem holds_append (o : BitOrder) (r : Reader) (xs ys : List Bool) :
    Holds o r (xs ++ ys) ↔ Holds o r xs ∧ Holds o { r with pos := r.pos + xs.length } ys := by
  simp only [Holds, List.length_append]
  constructor
  · rintro ⟨hlen, hread⟩
    refine ⟨⟨by omega, fun i hi => ?_⟩, by omega, fun i hi => ?_⟩
    · rw [hread i (by omega), List.getD_append _ _ _ _ hi]
    · rw [Nat.add_assoc, hread (xs.length + i) (by omega), List.getD_append_right _ _ _ _ (by omega),
        Nat.add_sub_cancel_left]
  · rintro ⟨⟨_, hxs⟩, hlen, hys⟩
    refine ⟨by omega, fun i hi => ?_⟩
    by_cases hi' : i < xs.length
    · rw [hxs i hi', List.getD_append _ _ _ _ hi']
    · have hle := Nat.le_of_not_lt hi'
      have h := hys (i - xs.length) (by omega)
      rwa [Nat.add_assoc, Nat.add_sub_cancel' hle, ← List.getD_append_right xs ys false i hle] at h

/-! ### BSW.PUT and BSW.PUTW -/

theorem widthIn_one_eq_false {hi : Nat} {n : Byte} (h : n.toNat = 0 ∨ hi < n.toNat) :
    widthIn 1 hi n = false := by
  rw [Bool.eq_false_iff, Ne, widthIn_iff, List.mem_range'_1]
  omega

/-- The narrow commands' range of widths is the beginning of the wide ones'. -/
theorem aInRange_narrow {n : Byte} (hn : n.toNat ≤ 8) : aInRange 1 8 n = aInRange 1 64 n := by
  rw [Bool.eq_iff_iff, aInRange_iff, aInRange_iff]
  omega

section
variable {s : State} {n : Byte}

/-- At the widths that BSW.PUT takes, and at 0, the two puts are one command. -/
theorem exec_bswPut_eq_bswPutw (hn : n.toNat ≤ 8) : exec (.bswPut n) s = exec (.bswPutw n) s := by
  have hbits : (fun v => chunkBits s.cfg.bitOrder v n.toNat) = fun v => wideBits s.cfg.bitOrder v n.toNat :=
    funext fun v => by rw [chunkBits_eq_fieldBits _ v hn, wideBits_eq_fieldBits]
  rw [exec, exec, execBswPut, execBswPutw, hbits, aInRange_narrow hn]

/-- At its widths BSW.PUTW does what `putNumber` does with the bits of the field. -/
theorem exec_bswPutw_of_widthIn (h1 : 1 ≤ n.toNat) (h64 : n.toNat ≤ 64) :
    exec (.bswPutw n) s = putNumber n.toNat (fieldBits s.cfg.bitOrder n.toNat) s := by
  refine (if_pos ((aInRange_iff 1 64 n).2 ⟨h1, h64⟩)).trans ?_
  rw [funext fun v => wideBits_eq_fieldBits s.cfg.bitOrder v n.toNat]

theorem putNumber_of_large {w : Nat} {bits : Nat → List Bool} (h : 2 ^ w ≤ s.ports.vNum) :
    putNumber w bits s = .next (faulted 0x34 s) :=
  if_pos (.inr h)

theorem putNumber_of_overflow {w : Nat} {bits : Nat → List Bool} (h0 : 0 ≤ s.ports.vNum)
    (hlt : s.ports.vNum < 2 ^ w) (hcap : ∃ c ∈ s.cfg.wCapBits, c < s.w.pos + w) :
    putNumber w bits s = .next (faulted 0x36 s) := by
  rw [putNumber, if_neg (by omega), if_pos ((exceeds_eq_true_iff _ _).2 hcap)]
  rfl

theorem putNumber_of_fits {w v : Nat} {bits : Nat → List Bool} (hnum : s.ports.vNum = v) (hv : v < 2 ^ w)
    (hcap : ∀ c ∈ s.cfg.wCapBits, s.w.pos + w ≤ c) :
    putNumber w bits s =
      .next { s with w := pushBits s.cfg.bitOrder s.w (bits v), result := endsWith 0x00 .none } := by
  have hlt : (v : Int) < 2 ^ w := by exact_mod_cast hv
  have hfits : ¬ exceeds s.cfg.wCapBits (s.w.pos + w) = true :=
    Bool.eq_false_iff.1 ((exceeds_eq_false_iff _ _).2 hcap)
  rw [putNumber, hnum, if_neg (by omega), if_neg hfits, Int.toNat_natCast]
  rfl

end

/-- Settles O16: both puts by `putNumber`, and the appended bits by `appended_pushBits`. -/
theorem putCommands : Obligations.PutCommands := by
  refine fun s n => ⟨mkWord_toNat 0 n 0x02, mkWord_toNat 0 n 0x03,
    fun h => exec_of_not_wellFormed (i := .bswPut n) (widthIn_one_eq_false h) s,
    fun h => exec_of_not_wellFormed (i := .bswPutw n) (widthIn_one_eq_false h) s,
    fun h1 hlarge => ?_, fun h1 h0 hlt hcap => ?_, fun hinv v h1 hnum hv hcap => ?_⟩
  · have hwide (h64 : n.toNat ≤ 64) : exec (.bswPutw n) s = .next (faulted 0x34 s) :=
      (exec_bswPutw_of_widthIn h1 h64).trans (putNumber_of_large hlarge)
    exact ⟨fun h8 => (exec_bswPut_eq_bswPutw h8).trans (hwide (by omega)), hwide⟩
  · have hwide (h64 : n.toNat ≤ 64) : exec (.bswPutw n) s = .next (faulted 0x36 s) :=
      (exec_bswPutw_of_widthIn h1 h64).trans (putNumber_of_overflow h0 hlt hcap)
    exact ⟨fun h8 => (exec_bswPut_eq_bswPutw h8).trans (hwide (by omega)), hwide⟩
  · have hwide (h64 : n.toNat ≤ 64) := (exec_bswPutw_of_widthIn h1 h64).trans (putNumber_of_fits hnum hv hcap)
    exact ⟨_, appended_pushBits _ ((writerInv_iff _ _).1 hinv).1,
      fun h8 => (exec_bswPut_eq_bswPutw h8).trans (hwide (by omega)), hwide⟩

/-! ### BSR.GET and BSR.GETW -/

section
variable {s : State} {n : Byte}

/-- At the widths that BSR.GET takes, and at 0, the two gets are one command. -/
theorem exec_bsrGet_eq_bsrGetw (hn : n.toNat ≤ 8) : exec (.bsrGet n) s = exec (.bsrGetw n) s := by
  rw [exec, exec, execBsrGet, execBsrGetw, readBits_eq_readWide _ _ hn, aInRange_narrow hn]

theorem readWide_of_holds {o : BitOrder} {r : Reader} {w v : Nat} (hv : v < 2 ^ w)
    (h : Holds o r (fieldBits o w v)) : readWide o w r = some (v, { r with pos := r.pos + w }) := by
  have hlen := h.1
  rw [fieldBits_length] at hlen
  rw [readWide, if_neg (by omega), wideAt_of_holds hv h]

theorem exec_bsrGetw_of_holds {v : Nat} (h1 : 1 ≤ n.toNat) (h64 : n.toNat ≤ 64) (hv : v < 2 ^ n.toNat)
    (h : Holds s.cfg.bitOrder s.r (fieldBits s.cfg.bitOrder n.toNat v)) :
    exec (.bsrGetw n) s = .next
      { s with r := { s.r with pos := s.r.pos + n.toNat }, result := endsWith 0x00 (.number v) } := by
  refine (if_pos ((aInRange_iff 1 64 n).2 ⟨h1, h64⟩)).trans ?_
  rw [readWide_of_holds hv h, gotNumber_some]

theorem exec_bsrGetw_of_underrun (h1 : 1 ≤ n.toNat) (h64 : n.toNat ≤ 64)
    (h : 8 * s.r.buf.length < s.r.pos + n.toNat) :
    exec (.bsrGetw n) s = .next { s with result := endsWith 0x20 .none } := by
  refine (if_pos ((aInRange_iff 1 64 n).2 ⟨h1, h64⟩)).trans ?_
  rw [readWide, if_pos h, gotNumber_none]

end

/-- Settles O17: both gets by `ReadWide`, which checks the whole width before it reads. -/
theorem getReadsBits : Obligations.GetReadsBits := by
  refine fun s n => ⟨mkWord_toNat 0 n 0x06, mkWord_toNat 0 n 0x07,
    fun h => exec_of_not_wellFormed (i := .bsrGet n) (widthIn_one_eq_false h) s,
    fun h => exec_of_not_wellFormed (i := .bsrGetw n) (widthIn_one_eq_false h) s,
    fun h1 v hv hheld => ?_, fun h1 hunder => ?_⟩
  · have hwide (h64 : n.toNat ≤ 64) := exec_bsrGetw_of_holds h1 h64 hv hheld
    exact ⟨fun h8 => (exec_bsrGet_eq_bsrGetw h8).trans (hwide (by omega)), hwide⟩
  · have hwide (h64 : n.toNat ≤ 64) := exec_bsrGetw_of_underrun h1 h64 hunder
    exact ⟨fun h8 => (exec_bsrGet_eq_bsrGetw h8).trans (hwide (by omega)), hwide⟩

/-! ### The other commands of the buffers -/

theorem exec_bsrLoad_of_fits {s : State} (h : ∀ c ∈ s.cfg.rCapBytes, s.ports.bytes.length ≤ c) :
    exec .bsrLoad s =
      .next { s with r := { buf := s.ports.bytes, pos := 0 }, result := endsWith 0x00 .none } :=
  if_neg (Bool.eq_false_iff.1 ((exceeds_eq_false_iff _ _).2 h))

theorem exec_bsrLoad_of_overlong {s : State} (h : ∃ c ∈ s.cfg.rCapBytes, c < s.ports.bytes.length) :
    exec .bsrLoad s = .next (faulted 0x34 s) :=
  if_pos ((exceeds_eq_true_iff _ _).2 h)

/-- Settles O15: three of the commands end in OK from every state, and BSR.LOAD by its capacity check. -/
theorem bufferCommands : Obligations.BufferCommands :=
  ⟨rfl, rfl, rfl, rfl, fun s => ⟨ok_eq .none { s with w := .empty }, ok_eq (.written s.w.buf s.w.pos) s,
    ok_eq (.remaining (remaining s.r)) s, exec_bsrLoad_of_fits, exec_bsrLoad_of_overlong⟩⟩

/-! ### Runs of puts and of gets -/

/-- The bits of a list of fields, each a width and a value, one field after another. -/
def streamBits (o : BitOrder) (xs : List (Byte × Nat)) : List Bool :=
  xs.flatMap fun x => fieldBits o x.1.toNat x.2

theorem streamBits_cons (o : BitOrder) (x : Byte × Nat) (xs : List (Byte × Nat)) :
    streamBits o (x :: xs) = fieldBits o x.1.toNat x.2 ++ streamBits o xs := rfl

theorem streamBits_length (o : BitOrder) (xs : List (Byte × Nat)) :
    (streamBits o xs).length = (xs.map (·.1.toNat)).sum := by
  simp [streamBits, List.length_flatMap]

/-- A width that BSW.PUTW and BSR.GETW take, and a value of that width. -/
abbrev isField (x : Byte × Nat) : Prop :=
  1 ≤ x.1.toNat ∧ x.1.toNat ≤ 64 ∧ x.2 < 2 ^ x.1.toNat

/-- The machine after BSW.PUTW with this field. -/
def afterPutw (p : Ports) (s : State) (x : Byte × Nat) : State :=
  { s with
    w := pushBits s.cfg.bitOrder s.w (fieldBits s.cfg.bitOrder x.1.toNat x.2), cmds := [],
    ports := { p with vNum := x.2 }, result := endsWith 0x00 .none }

theorem exec_bswPutw_field (p : Ports) {s : State} {x : Byte × Nat} (hx : isField x)
    (hcap : ∀ c ∈ s.cfg.wCapBits, s.w.pos + x.1.toNat ≤ c) :
    exec (.bswPutw x.1) { s with cmds := [], ports := { p with vNum := x.2 } } = .next (afterPutw p s x) := by
  obtain ⟨h1, h64, hv⟩ := hx
  exact (exec_bswPutw_of_widthIn h1 h64).trans (putNumber_of_fits rfl hv hcap)

/-- BSW.PUTW commands that fit end with OK each, and leave the stream of their bits at the writer's cursor. -/
theorem serve_bswPutw (p : Ports) (xs : List (Byte × Nat)) (s : State) (hxs : ∀ x ∈ xs, isField x)
    (hcap : ∀ c ∈ s.cfg.wCapBits, s.w.pos + (xs.map (·.1.toNat)).sum ≤ c) :
    ∃ t, serve (xs.map fun x => command (.bswPutw x.1) { p with vNum := x.2 }) s =
        (xs.map (fun _ => endsWith 0x00 .none), t) ∧
      t.w = pushBits s.cfg.bitOrder s.w (streamBits s.cfg.bitOrder xs) := by
  induction xs generalizing s with
  | nil => exact ⟨s, rfl, rfl⟩
  | cons x xs ih =>
    obtain ⟨hx, hrest⟩ := List.forall_mem_cons.1 hxs
    rw [List.map_cons, List.sum_cons] at hcap
    have hput := exec_bswPutw_field p hx fun c hc => by have := hcap c hc; omega
    obtain ⟨t, hrun, ht⟩ := ih (afterPutw p s x) hrest fun c hc => by
      have := hcap c hc
      simp only [afterPutw, pushBits_pos, fieldBits_length]
      omega
    refine ⟨t, ?_, ?_⟩
    · rw [List.map_cons, serve_command_cons _ hput, hrun]
      rfl
    · rw [streamBits_cons, pushBits_append, ht]
      rfl

/-- BSR.GETW commands read the fields back whose bits the reader holds. -/
theorem serve_bsrGetw (p : Ports) (xs : List (Byte × Nat)) (s : State) (hxs : ∀ x ∈ xs, isField x)
    (hheld : Holds s.cfg.bitOrder s.r (streamBits s.cfg.bitOrder xs)) :
    (serve (xs.map fun x => command (.bsrGetw x.1) p) s).1 = xs.map fun x => endsWith 0x00 (.number x.2) := by
  induction xs generalizing s with
  | nil => rfl
  | cons x xs ih =>
    obtain ⟨⟨h1, h64, hv⟩, hrest⟩ := List.forall_mem_cons.1 hxs
    rw [streamBits_cons, holds_append, fieldBits_length] at hheld
    obtain ⟨hfirst, hthen⟩ := hheld
    have hget := exec_bsrGetw_of_holds (s := { s with cmds := [], ports := p }) h1 h64 hv hfirst
    rw [List.map_cons, serve_command_cons _ hget, ih _ hrest hthen]
    rfl

/-- Settles O18: the puts append the stream of their bits to the empty writer, so a reader of its bytes holds
that stream at 0, and the gets read it back; past it the last byte is filled with zeros. -/
theorem bitStreamRoundTrip : Obligations.BitStreamRoundTrip := by
  intro s t u xs results p hw hxs hcap hputs hcfg hr
  obtain ⟨t', hrun, hbits⟩ := serve_bswPutw p xs s hxs (by simpa [hw] using hcap)
  obtain ⟨rfl, rfl⟩ := Prod.mk.inj (hputs.symm.trans hrun)
  have happ : Appended u.cfg.bitOrder Writer.empty t.w (streamBits u.cfg.bitOrder xs) := by
    rw [hcfg, hbits, hw]
    exact appended_pushBits _ (zeroFilled_empty _)
  refine ⟨rfl, serve_bsrGetw p xs u hxs (hr ▸ happ.holds), fun q hq => ?_⟩
  obtain ⟨_, _, hread⟩ := happ
  rw [hr, hread q]
  refine (if_neg (Nat.not_lt_zero q)).trans (List.getD_eq_default _ _ ?_)
  rwa [streamBits_length]

end Sys2Proof.Machine
end

section
/-! The commands of the checksums (41_crc.md R253 to R261), and why one changed byte changes the transfer CRC:
a step of CRC-16 loses nothing, neither of the accumulator nor of the byte it absorbs. -/

namespace Sys2Proof.Machine

/-! ### Seeds and reads -/

/-- Settles O19: the four commands end in OK from every state; the mask of CRC64.RD is the complement. -/
theorem crcSeedsAndReads : Obligations.CrcSeedsAndReads := by
  refine ⟨rfl, rfl, rfl, rfl, fun s => ⟨ok_eq .none { s with c16 := crc16Seed }, ok_eq (.crc16 s.c16) s,
    ok_eq .none { s with c64 := crc64Seed }, ?_⟩⟩
  have hmask : s.c64 ^^^ 0xFFFFFFFFFFFFFFFF = ~~~s.c64 := BitVec.xor_allOnes
  rw [← hmask]
  exact ok_eq (.crc64 (s.c64 ^^^ 0xFFFFFFFFFFFFFFFF)) s

/-! ### The operands on natural numbers -/

theorem map_toNat_le64 (v : BitVec 64) : (le64 v).map (·.toNat) = le64Nat v.toNat := by
  rw [le64, List.map_map, le64Nat]
  refine List.map_congr_left fun i _ => ?_
  rw [Function.comp_apply, BitVec.extractLsb'_toNat, Nat.shiftRight_eq_div_pow, Nat.pow_mul]

theorem crc16_toNat (seed : BitVec 16) (xs : List Byte) :
    (crc16 seed xs).toNat = crc16Nat seed.toNat (xs.map (·.toNat)) :=
  foldl_crc16Step_toNat seed xs

theorem xferCrc_toNat (sig : Signature) (p : List Byte) :
    (xferCrc sig p).toNat = crc16Nat 0xFFFF (le64Nat sig.toNat ++ p.map (·.toNat)) := by
  rw [xferCrc, crc16_toNat, List.map_append, map_toNat_le64]
  rfl

/-! ### Absorbing an operand -/

section
variable {s : State}

theorem exec_crc16Byte_of_fits (h : s.ports.b < 256) :
    exec .crc16Byte s = .next
      { s with c16 := crc16Step s.c16 (BitVec.ofNat 8 s.ports.b), result := endsWith 0x00 .none } :=
  if_pos ((fitsBits_iff 8 _).2 h)

theorem exec_crc64Byte_of_fits (h : s.ports.b < 256) :
    exec .crc64Byte s = .next
      { s with c64 := crc64Step s.c64 (BitVec.ofNat 8 s.ports.b), result := endsWith 0x00 .none } :=
  if_pos ((fitsBits_iff 8 _).2 h)

theorem exec_crc16Sig_of_fits (h : s.ports.sig < 2 ^ 64) :
    exec .crc16Sig s = .next
      { s with c16 := crc16 s.c16 (le64 (BitVec.ofNat 64 s.ports.sig)), result := endsWith 0x00 .none } :=
  if_pos ((fitsBits_iff 64 _).2 h)

theorem exec_crc16Xfer_of_fits (h : s.ports.sig < 2 ^ 64) :
    exec .crc16Xfer s = .next
      { s with
        c16 := xferCrc (BitVec.ofNat 64 s.ports.sig) s.ports.payload
        result := endsWith 0x00 (.crc16 (xferCrc (BitVec.ofNat 64 s.ports.sig) s.ports.payload)) } := by
  rw [exec, execCrc16Xfer, if_pos ((fitsBits_iff 64 _).2 h), ok_eq]

/-- A command guarded by the width of an operand, given one that is too wide. -/
theorem guard_of_large {w n : Nat} {a : Answer} (h : 2 ^ w ≤ n) :
    (if fitsBits w n then a else fault .invalidArgument s) = .next (faulted 0x34 s) :=
  if_neg fun hfits => Nat.not_lt.2 h ((fitsBits_iff w n).1 hfits)

end

/-- Settles O20: each command by its guard, and what it absorbs by the step of the CRC on natural numbers. -/
theorem crcAbsorbs : Obligations.CrcAbsorbs := by
  refine ⟨rfl, rfl, rfl, rfl, fun s => ⟨fun hb => ?_, fun hb => ⟨guard_of_large hb, guard_of_large hb⟩,
    fun hsig => ?_, fun hsig => ⟨guard_of_large hsig, guard_of_large hsig⟩⟩⟩
  · have hbyte : (BitVec.ofNat 8 s.ports.b).toNat = s.ports.b := Nat.mod_eq_of_lt hb
    refine ⟨⟨_, exec_crc16Byte_of_fits hb, ?_⟩, ⟨_, exec_crc64Byte_of_fits hb, ?_⟩⟩
    · rw [crc16Step_toNat, hbyte]
    · rw [crc64Step_toNat, hbyte]
  · have hword : (BitVec.ofNat 64 s.ports.sig).toNat = s.ports.sig := Nat.mod_eq_of_lt hsig
    refine ⟨⟨_, exec_crc16Sig_of_fits hsig, ?_⟩, ⟨_, exec_crc16Xfer_of_fits hsig, ?_⟩⟩
    · rw [crc16_toNat, map_toNat_le64, hword]
    · rw [xferCrc_toNat, hword]

/-! ### A step of CRC-16 loses nothing -/

/-- The polynomial is odd, so the bit that falls out is taken in again at the bottom. -/
theorem crc16Bit_odd_iff (c : BitVec 16) : (crc16Bit c).toNat % 2 = 1 ↔ 2 ^ 15 ≤ c.toNat := by
  rw [crc16Bit_toNat]
  split
  · rw [Nat.mod_mod_of_dvd _ (by decide), Nat.xor_mod_two_eq]
    omega
  · omega

theorem crc16Bit_injective : Function.Injective crc16Bit := by
  intro c d h
  have htop : 2 ^ 15 ≤ c.toNat ↔ 2 ^ 15 ≤ d.toNat := by rw [← crc16Bit_odd_iff, h, crc16Bit_odd_iff]
  have hmsb : c.msb = d.msb := by
    rw [BitVec.msb_eq_decide, BitVec.msb_eq_decide]
    exact decide_eq_decide.2 htop
  have hshift : c <<< 1 = d <<< 1 := by
    rw [crc16Bit, crc16Bit, hmsb] at h
    split at h
    · exact (BitVec.xor_left_inj _).1 h
    · exact h
  bv_omega

theorem repeat_injective {α : Type} {f : α → α} (hf : Function.Injective f) (n : Nat) :
    Function.Injective (Nat.repeat f n) := by
  induction n with
  | zero => exact Function.injective_id
  | succ n ih => exact hf.comp ih

/-- The accumulator before a byte is determined by the one after it. -/
theorem crc16Step_injective_left (b : Byte) : Function.Injective (crc16Step · b) := fun _ _ h =>
  (BitVec.xor_left_inj _).1 (repeat_injective crc16Bit_injective 8 h)

/-- The absorbed byte is determined by the accumulators before and after it. -/
theorem crc16Step_injective_right (c : BitVec 16) : Function.Injective (crc16Step c) := by
  intro a b h
  have hplaced : a ++ 0#8 = b ++ 0#8 :=
    (BitVec.xor_right_inj c).1 (repeat_injective crc16Bit_injective 8 h)
  have hnat := congrArg BitVec.toNat hplaced
  rw [toNat_append_eq, toNat_append_eq] at hnat
  bv_omega

theorem crc16_injective_seed (xs : List Byte) : Function.Injective (crc16 · xs) := by
  induction xs with
  | nil => exact Function.injective_id
  | cons b xs ih => exact ih.comp (crc16Step_injective_left b)

theorem crc16_append_cons (seed : BitVec 16) (p q : List Byte) (b : Byte) :
    crc16 seed (p ++ b :: q) = crc16 (crc16Step (crc16 seed p) b) q :=
  List.foldl_append

/-- Settles O22: the accumulators are equal before the changed byte, differ after it, and stay different over
the bytes that follow. -/
theorem crcFindsOneChangedByte : Obligations.CrcFindsOneChangedByte := by
  intro sig p q a b hne heq
  rw [xferCrc, xferCrc, ← List.append_assoc, ← List.append_assoc, crc16_append_cons, crc16_append_cons] at heq
  exact hne (crc16Step_injective_right _ (crc16_injective_seed q heq))

end Sys2Proof.Machine
end

section
/-! How an encode command ends (42_codec_encode.md R300, R305 to R314): the checks of its phases 1 to 3 end it
in a fault, and behind them it appends the bits of Emit. The clauses about one command are its guard on the
width or the kind of descriptor, followed by these. -/

namespace Sys2Proof.Machine

open Laws (mkWord_toNat)

/-! ### The kinds of descriptors -/

/-- Settles O31: the check of the kind, and then of the TAO form, is the first branch of each command. -/
theorem compositeKindFaults : Obligations.CompositeKindFaults := by
  intro s t
  refine ⟨fun h => ?_, fun h => ?_, fun h => ?_, fun h => ?_, fun h hform => ?_⟩
  · exact ⟨if_neg (Bool.eq_false_iff.1 h), if_neg (Bool.eq_false_iff.1 h)⟩
  · exact ⟨if_neg (Bool.eq_false_iff.1 h), if_neg (Bool.eq_false_iff.1 h)⟩
  · exact ⟨if_neg (Bool.eq_false_iff.1 h), if_neg (Bool.eq_false_iff.1 h)⟩
  · exact ⟨if_neg (Bool.eq_false_iff.1 h), if_neg (Bool.eq_false_iff.1 h)⟩
  · have htail : (true && !taoEligible s.ports.ty) = true := by rw [hform]; rfl
    exact ⟨(if_pos h).trans (if_pos htail), (if_pos h).trans (if_pos htail)⟩

/-! ### The phases of an encode command -/

section
variable {s : State}

theorem appendBits_of_fits {len : Nat} (bits : List Bool) (hcap : ∀ c ∈ s.cfg.wCapBits, s.w.pos + len ≤ c) :
    appendBits len bits s =
      .next { s with w := pushBits s.cfg.bitOrder s.w bits, result := endsWith 0x00 .none } :=
  if_neg (Bool.eq_false_iff.1 ((exceeds_eq_false_iff _ _).2 hcap))

theorem appendBits_of_overflow {len : Nat} (bits : List Bool) (hcap : ∃ c ∈ s.cfg.wCapBits, c < s.w.pos + len) :
    appendBits len bits s = .next (faulted 0x36 s) :=
  if_pos ((exceeds_eq_true_iff _ _).2 hcap)

variable {T : Ty} {v : Val} {t : Bool}

theorem encodeAtCursor_of_fits (h : encodeCheck T v = none)
    (hcap : ∀ c ∈ s.cfg.wCapBits, s.w.pos + encLen T v t ≤ c) :
    encodeAtCursor T v t s =
      .next { s with w := pushBits s.cfg.bitOrder s.w (emit s.cfg T v t), result := endsWith 0x00 .none } := by
  rw [encodeAtCursor, h]
  exact appendBits_of_fits _ hcap

theorem encodeAtCursor_of_overflow (h : encodeCheck T v = none)
    (hcap : ∃ c ∈ s.cfg.wCapBits, c < s.w.pos + encLen T v t) :
    encodeAtCursor T v t s = .next (faulted 0x36 s) := by
  rw [encodeAtCursor, h]
  exact appendBits_of_overflow _ hcap

/-- Bits written at the cursor of a writer that meets its invariant are appended to it. -/
theorem appended_of_writerInv (h : writerInv s.cfg s.w) (bits : List Bool) :
    Appended s.cfg.bitOrder s.w (pushBits s.cfg.bitOrder s.w bits) bits :=
  appended_pushBits bits ((writerInv_iff _ _).1 h).1

end

/-! ### The checks of primitive descriptors -/

theorem checkTy_uint {w : Nat} (cm : CastMode) (h2 : 2 ≤ w) (h64 : w ≤ 64) : checkTy (.uint w cm) = none :=
  if_pos ⟨h2, h64⟩

theorem checkTy_float {w : Nat} (cm : CastMode) (h : w = 16 ∨ w = 32 ∨ w = 64) : checkTy (.float w cm) = none :=
  if_pos h

theorem encodeCheck_bool_of_other {v : Val} (h : ∀ b, v ≠ .bool b) : encodeCheck .bool v = some .schemaMismatch := by
  cases v with
  | bool b => exact absurd rfl (h b)
  | _ => rfl

/-- ENC.UINT and ENC.INT check the same (42_codec_encode.md R306, R307). -/
theorem encodeCheck_int_eq_uint (w : Nat) (cm : CastMode) (v : Val) :
    encodeCheck (.int w cm) v = encodeCheck (.uint w cm) v := by
  cases v <;> rfl

section
variable {w : Nat} {cm : CastMode} (h2 : 2 ≤ w) (h64 : w ≤ 64)
include h2 h64

theorem encodeCheck_uint_of_other {v : Val} (h : ∀ i, v ≠ .int i) :
    encodeCheck (.uint w cm) v = some .schemaMismatch := by
  rw [encodeCheck_of_valid _ _ (checkTy_uint cm h2 h64)]
  cases v with
  | int i => exact absurd rfl (h i)
  | _ => rfl

theorem encodeCheck_uint_of_outside {i : Int} (h : i < -(2 ^ 63) ∨ 2 ^ 64 ≤ i) :
    encodeCheck (.uint w cm) (.int i) = some .invalidArgument := by
  rw [encodeCheck_of_valid _ _ (checkTy_uint cm h2 h64), conform]
  refine if_neg ?_
  simp only [inValueDomain, Bool.and_eq_true, decide_eq_true_iff]
  omega

theorem encodeCheck_uint_of_inside {i : Int} (hlo : -(2 ^ 63) ≤ i) (hhi : i < 2 ^ 64) :
    encodeCheck (.uint w cm) (.int i) = none := by
  rw [encodeCheck_of_valid _ _ (checkTy_uint cm h2 h64), conform]
  refine if_pos ?_
  simp only [inValueDomain, Bool.and_eq_true, decide_eq_true_iff]
  omega

end

section
variable {w : Nat} {cm : CastMode} (hw : w = 16 ∨ w = 32 ∨ w = 64)
include hw

theorem encodeCheck_float_of_other {v : Val} (h : ∀ x, v ≠ .float x) :
    encodeCheck (.float w cm) v = some .schemaMismatch := by
  rw [encodeCheck_of_valid _ _ (checkTy_float cm hw)]
  cases v with
  | float x => exact absurd rfl (h x)
  | _ => rfl

theorem encodeCheck_float (x : BitVec 64) : encodeCheck (.float w cm) (.float x) = none :=
  encodeCheck_of_valid _ _ (checkTy_float cm hw)

end

/-! ### ENC.BOOL and ENC.VOID -/

theorem emit_bool (cfg : Config) (b t : Bool) : emit cfg .bool (.bool b) t = [b] := by
  rw [emit, chunkBits_eq_fieldBits _ _ (by decide)]
  cases cfg.bitOrder <;> cases b <;> rfl

/-- Void bits are zeros (42_codec_encode.md R309). -/
theorem wideBits_zero (o : BitOrder) (n : Nat) : wideBits o 0 n = List.replicate n false := by
  rw [wideBits_eq_fieldBits]
  simp [fieldBits, List.map_const']

theorem exec_encVoid_of_widthIn {s : State} {n : Byte} (h1 : 1 ≤ n.toNat) (h64 : n.toNat ≤ 64) :
    exec (.encVoid n) s = appendBits n.toNat (List.replicate n.toNat false) s := by
  rw [← wideBits_zero s.cfg.bitOrder]
  exact if_pos ((aInRange_iff 1 64 n).2 ⟨h1, h64⟩)

/-- Settles O23: ENC.BOOL by the phases of an encode command, ENC.VOID by those that it has, 3 and 4. -/
theorem encodeBoolAndVoid : Obligations.EncodeBoolAndVoid := by
  intro s n
  refine ⟨rfl, mkWord_toNat 0 n 0x24, fun hinv b hv hcap => ?_, fun hv => ?_, fun b hv hcap => ?_,
    fun hinv h1 h64 hcap => ?_, fun h => exec_of_not_wellFormed (i := .encVoid n) (widthIn_one_eq_false h) s,
    fun h1 h64 hcap => (exec_encVoid_of_widthIn h1 h64).trans (appendBits_of_overflow _ hcap)⟩
  · have hend : exec .encBool s = encodeAtCursor .bool (.bool b) false s := by rw [exec, execEncBool, hv]
    refine ⟨_, appended_of_writerInv hinv [b], hend.trans ?_⟩
    rw [encodeAtCursor_of_fits rfl hcap, emit_bool]
  · exact encodeAtCursor_of_encodeCheck false (encodeCheck_bool_of_other hv)
  · rw [exec, execEncBool, hv]
    exact encodeAtCursor_of_overflow rfl hcap
  · exact ⟨_, appended_of_writerInv hinv _, (exec_encVoid_of_widthIn h1 h64).trans (appendBits_of_fits _ hcap)⟩

/-! ### ENC.UINT, ENC.INT and ENC.FLOAT -/

section
variable {s : State} {n : Byte} (cm : CastMode)

theorem exec_encUint_of_widthIn (h2 : 2 ≤ n.toNat) (h64 : n.toNat ≤ 64) :
    exec (.encUint n cm) s = encodeAtCursor (.uint n.toNat cm) s.ports.v false s :=
  if_pos ((aInRange_iff 2 64 n).2 ⟨h2, h64⟩)

theorem exec_encInt_of_widthIn (h2 : 2 ≤ n.toNat) (h64 : n.toNat ≤ 64) :
    exec (.encInt n cm) s = encodeAtCursor (.int n.toNat cm) s.ports.v false s :=
  if_pos ((aInRange_iff 2 64 n).2 ⟨h2, h64⟩)

theorem exec_encFloat_of_floatWidth (h : n.toNat = 16 ∨ n.toNat = 32 ∨ n.toNat = 64) :
    exec (.encFloat n cm) s = encodeAtCursor (.float n.toNat cm) s.ports.v false s :=
  if_pos ((aFloatWidth_iff n).2 h)

/-- A value that fails the check of ENC.UINT fails that of ENC.INT. -/
theorem exec_encInteger_of_encodeCheck {e : Status} (h2 : 2 ≤ n.toNat) (h64 : n.toNat ≤ 64)
    (h : encodeCheck (.uint n.toNat cm) s.ports.v = some e) :
    exec (.encUint n cm) s = .next (faulted (statusCode e) s) ∧
      exec (.encInt n cm) s = .next (faulted (statusCode e) s) := by
  rw [exec_encUint_of_widthIn cm h2 h64, exec_encInt_of_widthIn cm h2 h64]
  exact ⟨encodeAtCursor_of_encodeCheck _ h,
    encodeAtCursor_of_encodeCheck _ ((encodeCheck_int_eq_uint _ _ _).trans h)⟩

theorem exec_encInteger_of_overflow (h2 : 2 ≤ n.toNat) (h64 : n.toNat ≤ 64)
    (h : encodeCheck (.uint n.toNat cm) s.ports.v = none) (hcap : ∃ c ∈ s.cfg.wCapBits, c < s.w.pos + n.toNat) :
    exec (.encUint n cm) s = .next (faulted 0x36 s) ∧ exec (.encInt n cm) s = .next (faulted 0x36 s) := by
  rw [exec_encUint_of_widthIn cm h2 h64, exec_encInt_of_widthIn cm h2 h64]
  exact ⟨encodeAtCursor_of_overflow h (by simpa only [encLen] using hcap),
    encodeAtCursor_of_overflow ((encodeCheck_int_eq_uint _ _ _).trans h) (by simpa only [encLen] using hcap)⟩

end

theorem flagOfCast_toNat (cm : CastMode) : (flagOfCast cm).toNat = if cm = .truncated then 1 else 0 := by
  cases cm <;> rfl

theorem widthIn_two_eq_false {n : Byte} (h : n.toNat < 2 ∨ 64 < n.toNat) : widthIn 2 64 n = false := by
  rw [Bool.eq_false_iff, Ne, widthIn_iff, List.mem_range'_1]
  omega

/-- Settles O25: the width ends the command before the value is looked at, and the value's check before the
writer's capacity. -/
theorem encodeNumberFaults : Obligations.EncodeNumberFaults := by
  intro s n cm
  have hword (op : Byte) : (mkWord (flagOfCast cm) n op).toNat =
      wordOf op.toNat n.toNat (if cm = .truncated then 1 else 0) := by rw [mkWord_toNat, flagOfCast_toNat]
  refine ⟨hword 0x21, hword 0x22, hword 0x23, fun h => ?_, fun h => ?_, fun h2 h64 => ⟨fun hv => ?_, ?_⟩,
    fun hmem => ?_⟩
  · exact ⟨exec_of_not_wellFormed (i := .encUint n cm) (widthIn_two_eq_false h) s,
      exec_of_not_wellFormed (i := .encInt n cm) (widthIn_two_eq_false h) s⟩
  · exact exec_of_not_wellFormed (i := .encFloat n cm)
      (Bool.eq_false_iff.2 fun hw => h ((floatWidth_iff n).1 hw)) s
  · exact exec_encInteger_of_encodeCheck cm h2 h64 (encodeCheck_uint_of_other h2 h64 hv)
  · intro i hv
    refine ⟨fun hout => ?_, fun hlo hhi hcap => ?_⟩
    · exact exec_encInteger_of_encodeCheck cm h2 h64 (hv ▸ encodeCheck_uint_of_outside h2 h64 hout)
    · exact exec_encInteger_of_overflow cm h2 h64 (hv ▸ encodeCheck_uint_of_inside h2 h64 hlo hhi) hcap
  · have hw : n.toNat = 16 ∨ n.toNat = 32 ∨ n.toNat = 64 := by simpa using hmem
    rw [exec_encFloat_of_floatWidth cm hw]
    refine ⟨fun hv => encodeAtCursor_of_encodeCheck _ (encodeCheck_float_of_other hw hv), fun x hv hcap => ?_⟩
    rw [hv]
    exact encodeAtCursor_of_overflow (encodeCheck_float hw x) hcap

/-! ### The cast-mode multiplexer -/

/-- Wrapping modulo 2^n is determined by the congruence (42_codec_encode.md R302, R303). -/
theorem emod_eq_of_congr {i q : Int} {w u : Nat} (hu : u < 2 ^ w) (h : i = q * 2 ^ w + u) :
    (i % 2 ^ w).toNat = u := by
  have hlt : (u : Int) < 2 ^ w := by exact_mod_cast hu
  rw [h, add_comm, Int.add_mul_emod_self_right, Int.emod_eq_of_lt (Int.natCast_nonneg u) hlt, Int.toNat_natCast]

/-- A pattern is its signed value modulo 2^n (00_scope.md R10). -/
theorem sext_emod {w u : Nat} (hu : u < 2 ^ w) : (sext w u % 2 ^ w).toNat = u := by
  rw [sext]
  split
  · exact emod_eq_of_congr (q := -1) hu (by ring)
  · exact emod_eq_of_congr (q := 0) hu (by ring)

theorem castU_saturated {i : Int} {w u : Nat}
    (h : (u : Int) = if i < 0 then 0 else if 2 ^ w ≤ i then 2 ^ w - 1 else i) : castU i w .saturated = u := by
  have hpow : (0 : Int) < 2 ^ w := by positivity
  rw [castU]
  split_ifs at h <;> omega

theorem castS_saturated {i : Int} {w u : Nat} (hu : u < 2 ^ w)
    (h : sext w u = if i < -(2 ^ (w - 1)) then -(2 ^ (w - 1))
      else if 2 ^ (w - 1) ≤ i then 2 ^ (w - 1) - 1 else i) : castS i w .saturated = u := by
  have hpow : (0 : Int) < 2 ^ (w - 1) := by positivity
  have hclamp : min (max i (-(2 ^ (w - 1)))) (2 ^ (w - 1) - 1) = sext w u := by
    split_ifs at h <;> omega
  rw [castS, hclamp, sext_emod hu]

/-- Settles O24: the bits appended are those of the cast operand, which its clamped or wrapped value
determines. -/
theorem encodeIntegersCast : Obligations.EncodeIntegersCast := by
  intro s n i hinv hv h2 h64 hlo hhi hcap cm u k hu hk htrunc hsat
  have hcheck : encodeCheck (.uint n.toNat cm) (.int i) = none :=
    encodeCheck_uint_of_inside h2 h64 hlo (by omega)
  have hcastU : castU i n.toNat cm = u := by
    cases cm with
    | truncated =>
      obtain ⟨q, hq, -⟩ := htrunc rfl
      exact emod_eq_of_congr hu hq
    | saturated => exact castU_saturated (hsat rfl).1
  have hcastS : castS i n.toNat cm = k := by
    cases cm with
    | truncated =>
      obtain ⟨q, hq, rfl⟩ := htrunc rfl
      exact emod_eq_of_congr hu hq
    | saturated => exact castS_saturated hk (hsat rfl).2
  refine ⟨⟨_, appended_of_writerInv hinv _, ?_⟩, ⟨_, appended_of_writerInv hinv _, ?_⟩⟩
  · rw [exec_encUint_of_widthIn cm h2 h64, hv, encodeAtCursor_of_fits hcheck hcap, emit,
      wideBits_eq_fieldBits, hcastU]
  · rw [exec_encInt_of_widthIn cm h2 h64, hv,
      encodeAtCursor_of_fits ((encodeCheck_int_eq_uint _ _ _).trans hcheck) hcap, emit, wideBits_eq_fieldBits,
      hcastS]

end Sys2Proof.Machine
end

section
/-! A command that ends with a status other than OK (42_codec_encode.md R321, 43_codec_decode.md R414). It has
raised a fault, or returned a status and no output with nothing else changed, or it was RX.FRAME, which
reports its errors after it wrote the table and has none of the statuses of decoding. -/

namespace Sys2Proof.Machine

/-- The statuses of decoding (60_exceptions.md R801). -/
abbrev Status.isDecodeError (e : Status) : Prop := statusCode e ∈ ([0x20, 0x21, 0x22] : List (BitVec 8))

/-- How a command may end from `s`, told apart by what its status other than OK says of the state. -/
inductive FailsCleanly (s : State) : Answer → Prop where
  | succeeds (out : Output) (t : State) : FailsCleanly s (.next (withResult .ok out t))
  | faults {e : Status} (he : e.isFaultCode) : FailsCleanly s (.next (faulted (statusCode e) s))
  | returns (e : Status) : FailsCleanly s (.next (withResult e .none s))
  | receives {t : State} (e : Status) (out : Output) (asked : Option Desc) (h : WritesOnly .table s t)
      (he : ¬ e.isDecodeError) :
      FailsCleanly s (.next { t with result := some { status := statusCode e, out := out, asked := asked } })

namespace FailsCleanly

variable {s : State}

theorem ok (out : Output) (t : State) : FailsCleanly s (Machine.ok out t) := .succeeds out t

theorem fault {e : Status} (he : e.isFaultCode) : FailsCleanly s (Machine.fault e s) := .faults he

theorem ret (e : Status) : FailsCleanly s (Machine.ret e .none s) := .returns e

/-- A check that admits the command by `c`, or else ends it with a fault. -/
theorem guarded {c : Prop} [Decidable c] {a : Answer} {e : Status} (ha : FailsCleanly s a)
    (he : e.isFaultCode := by decide) : FailsCleanly s (if c then a else Machine.fault e s) := by
  split
  · exact ha
  · exact fault he

/-- A check that ends the command with a fault by `c`, or else admits it. -/
theorem refused {c : Prop} [Decidable c] {a : Answer} {e : Status} (ha : FailsCleanly s a)
    (he : e.isFaultCode := by decide) : FailsCleanly s (if c then Machine.fault e s else a) := by
  split
  · exact fault he
  · exact ha

/-- What a status other than OK says of the state after the command. -/
theorem unchanged {t : State} {r : Result} (h : FailsCleanly s (.next t)) (hr : t.result = some r)
    (hne : r.status ≠ 0x00) :
    t.w = s.w ∧ t.r = s.r ∧ (r.status < 0x30 → t.sys = s.sys) ∧
      (r.status ∈ ([0x20, 0x21, 0x22] : List (BitVec 8)) →
        t = { s with result := endsWith r.status .none }) := by
  cases h with
  | succeeds out t =>
    obtain rfl := Option.some.inj hr
    exact absurd rfl hne
  | @faults e he =>
    obtain rfl := Option.some.inj hr
    have hlow : ∀ c ∈ ([0x20, 0x21, 0x22] : List (BitVec 8)), c < 0x30 := by decide
    have hhigh : ¬ statusCode e < 0x30 := BitVec.not_lt.2 he.1
    exact ⟨rfl, rfl, fun hlt => absurd hlt hhigh, fun hmem => absurd (hlow _ hmem) hhigh⟩
  | returns e =>
    obtain rfl := Option.some.inj hr
    exact ⟨rfl, rfl, fun _ => rfl, fun _ => rfl⟩
  | receives e out asked h he =>
    obtain rfl := Option.some.inj hr
    rw [h]
    exact ⟨rfl, rfl, fun _ => rfl, fun hmem => absurd hmem he⟩

end FailsCleanly

/-! ### The shared operations of the commands -/

section
variable (s : State)

theorem putNumber_failsCleanly (n : Nat) (bits : Nat → List Bool) : FailsCleanly s (putNumber n bits s) :=
  .refused (.refused (.ok _ _))

theorem gotNumber_failsCleanly (got : Option (Nat × Reader)) : FailsCleanly s (gotNumber got s) := by
  cases got with
  | none => exact .ret _
  | some vr => exact .ok _ _

theorem appendBits_failsCleanly (len : Nat) (bits : List Bool) : FailsCleanly s (appendBits len bits s) :=
  .refused (.ok _ _)

theorem encodeAtCursor_failsCleanly (T : Ty) (v : Val) (tail : Bool) :
    FailsCleanly s (encodeAtCursor T v tail s) := by
  unfold encodeAtCursor
  split
  next e he => exact .fault (encodeCheck_isFaultCode T v e he)
  · exact appendBits_failsCleanly s _ _

theorem decodeAtCursor_failsCleanly (T : Ty) (tail : Bool) : FailsCleanly s (decodeAtCursor T tail s) := by
  unfold decodeAtCursor
  split
  next e he => exact .fault (checkTy_isFaultCode T e he)
  · split
    · exact .ret _
    · exact .ok _ _

/-! ### The commands whose meaning branches on data -/

theorem execEnc_failsCleanly : FailsCleanly s (execEnc s) := by
  unfold execEnc
  dsimp only
  split
  next e he => exact .fault (encodeCheck_isFaultCode _ _ e he)
  · exact .refused (.ok _ _)

theorem execDec_failsCleanly : FailsCleanly s (execDec s) := by
  refine .refused ?_
  split
  next e he => exact .fault (checkTy_isFaultCode _ e he)
  · split
    · exact .ret _
    · exact .ok _ _

theorem execTypeBitlen_failsCleanly : FailsCleanly s (execTypeBitlen s) := by
  unfold execTypeBitlen
  split
  next e he => exact .fault (checkTy_isFaultCode _ e he)
  · exact .ok _ _

theorem execTypeCheck_failsCleanly : FailsCleanly s (execTypeCheck s) := by
  unfold execTypeCheck
  split
  · exact .ret _
  · exact .ok _ _

theorem execGenNext_failsCleanly : FailsCleanly s (execGenNext s) := by
  unfold execGenNext
  split
  · exact .ok _ _
  · exact .ret _

theorem execRxSweep_failsCleanly : FailsCleanly s (execRxSweep s) := by
  refine .guarded ?_
  dsimp only
  split
  · exact .ok _ _
  · exact .ok _ _

theorem execRxLookup_failsCleanly : FailsCleanly s (execRxLookup s) := by
  unfold execRxLookup
  split
  · exact .fault (by decide)
  · exact .ok _ _

/-! ### RX.FRAME -/

theorem rxFinish_not_decodeError (cfg : Config) (d : Desc) (f : Frame) (eot : Bool) (tid : TransferId)
    (st : RxState) : ¬ (rxFinish cfg d f eot tid st).status.isDecodeError := by
  rcases rxFinish_cases cfg d f eot tid st with ⟨_, e⟩ | ⟨_, _, e⟩ | ⟨_, _, e⟩ <;> rw [e]
  · exact (by decide : ¬ Status.rxNone.isDecodeError)
  · exact (by decide : ¬ Status.badCrc.isDecodeError)
  · exact (by decide : ¬ Status.rxTransfer.isDecodeError)

/-- The ends of steps 4 to 7 (46_reassembler.md R704 to R714), none of them a status of decoding. -/
theorem rxApply_not_decodeError (cfg : Config) (d : Desc) (f : Frame) (tb : Byte) (now : Time)
    (sig : Signature) (st : RxState) : ¬ (rxApply cfg d f tb now sig st).status.isDecodeError := by
  unfold rxApply
  dsimp only
  generalize (if rxRestarts st now (tailSot tb) (tailTid tb) then
    rxRestart (tailTid tb) { st with lastTs := now } else { st with lastTs := now }) = st₁
  split
  · exact (by decide : ¬ Status.missedTransferStart.isDecodeError)
  split
  · exact (by decide : ¬ Status.rxTransfer.isDecodeError)
  split
  · exact (by decide : ¬ Status.missedTransferStart.isDecodeError)
  split
  · exact (by decide : ¬ Status.wrongToggle.isDecodeError)
  split
  · exact (by decide : ¬ Status.unexpectedTransferId.isDecodeError)
  split
  · split
    · exact (by decide : ¬ Status.shortFrame.isDecodeError)
    · exact rxFinish_not_decodeError _ _ _ _ _ _
  split
  · exact (by decide : ¬ Status.payloadOverflow.isDecodeError)
  · exact rxFinish_not_decodeError _ _ _ _ _ _

theorem rxStore_failsCleanly (d : Desc) (asked : Option Desc) {a : RxAnswer} (ha : ¬ a.status.isDecodeError) :
    FailsCleanly s (rxStore d asked a s) :=
  .receives (t := { s with rxTable := tablePut d a.entry s.rxTable }) a.status a.out asked rfl ha

theorem rxNoEntry_failsCleanly (e : Status) (out : Output) (asked : Option Desc) (he : ¬ e.isDecodeError) :
    FailsCleanly s (rxNoEntry e out asked s) :=
  .receives (t := s) e out asked (.refl _ s) he

theorem rxStart_failsCleanly (d : Desc) (f : Frame) (tb : Byte) (now : Time) :
    FailsCleanly s (rxStart d f tb now s) := by
  unfold rxStart
  split
  · exact rxNoEntry_failsCleanly s _ _ _ (by decide)
  · split
    · exact rxStore_failsCleanly s _ _ (rxApply_not_decodeError _ _ _ _ _ _ _)
    · split
      · exact rxNoEntry_failsCleanly s _ _ _ (by decide)
      · exact rxStore_failsCleanly s _ _ (rxApply_not_decodeError _ _ _ _ _ _ _)

theorem rxContinue_failsCleanly (d : Desc) (f : Frame) (tb : Byte) (now : Time) :
    FailsCleanly s (rxContinue d f tb now s) := by
  unfold rxContinue
  split
  · exact rxStore_failsCleanly s _ _ (rxApply_not_decodeError _ _ _ _ _ _ _)
  · exact rxNoEntry_failsCleanly s _ _ _ (by decide)

theorem execRxFrame_failsCleanly : FailsCleanly s (execRxFrame s) := by
  refine .guarded ?_
  split
  · dsimp only
    split
    · exact rxStart_failsCleanly s _ _ _ _
    · exact rxContinue_failsCleanly s _ _ _ _
  · exact rxNoEntry_failsCleanly s _ _ _ (by decide)

end

/-! ### Every command -/

/-- The split over the commands, along the checks of each one's meaning. -/
theorem exec_failsCleanly (i : Instr) (s : State) : FailsCleanly s (exec i s) := by
  cases i with
  | bswPut n | bswPutw n => exact .guarded (putNumber_failsCleanly s _ _)
  | bsrLoad => exact .refused (.ok _ _)
  | bsrGet n | bsrGetw n => exact .guarded (gotNumber_failsCleanly s _)
  | crc16Byte | crc16Sig | crc16Xfer | crc64Byte => exact .guarded (.ok _ _)
  | encBool => exact encodeAtCursor_failsCleanly s _ _ _
  | encUint n cm | encInt n cm | encFloat n cm => exact .guarded (encodeAtCursor_failsCleanly s _ _ _)
  | encVoid n => exact .guarded (appendBits_failsCleanly s _ _)
  | encSarray | encUnion | encStruct tail => exact .guarded (encodeAtCursor_failsCleanly s _ _ _)
  | encDarray tail => exact .guarded (.refused (encodeAtCursor_failsCleanly s _ _ _))
  | enc => exact execEnc_failsCleanly s
  | typeBitlen => exact execTypeBitlen_failsCleanly s
  | typeCheck => exact execTypeCheck_failsCleanly s
  | decBool => exact decodeAtCursor_failsCleanly s .bool false
  | decUint n | decInt n | decFloat n | decVoid n => exact .guarded (decodeAtCursor_failsCleanly s _ _)
  | decSarray | decUnion | decStruct tail => exact .guarded (decodeAtCursor_failsCleanly s _ _)
  | decDarray tail => exact .guarded (.refused (decodeAtCursor_failsCleanly s _ _))
  | dec => exact execDec_failsCleanly s
  | canidAnon => exact .guarded (.refused (.ok _ _))
  | canidMsg | canidSvc | canidDec | canidCmp | tailEnc | tailDec | tidDist => exact .guarded (.ok _ _)
  | genStart => exact .guarded (.refused (.refused (.ok _ _)))
  | genNext => exact execGenNext_failsCleanly s
  | rxFrame => exact execRxFrame_failsCleanly s
  | rxSweep => exact execRxSweep_failsCleanly s
  | rxLookup => exact execRxLookup_failsCleanly s
  | bswClr | bswBytes | bsrRem | crc16Init | crc16Rd | crc64Init | crc64Rd | anonDisc | genAbort | genCount
  | rxClear | sysReset | sysStatus => exact .ok _ _

/-- Settles O11: every command fails cleanly. -/
theorem failedCommandLeavesWriterAndReader : Obligations.FailedCommandLeavesWriterAndReader := by
  intro i s t r ht hr hne
  exact (ht ▸ exec_failsCleanly i s : FailsCleanly s (.next t)).unchanged hr hne

end Sys2Proof.Machine
end

section
/-! Composite values (42_codec_encode.md R300, R310 to R314, R320): the bits of Emit kind by kind, and the
commands that append them. A record that conforms has a conforming value for each field, which is what its
layout is told from. -/

namespace Sys2Proof.Machine

/-! ### Records that conform -/

/-- Every field that is not Void has a value, and it conforms (30_encoding.md R141). -/
def fieldsFilled (fs : Fields) (es : Entries) : Prop :=
  ∀ f ∈ fs.toList, f.2.isVoid = false → ∃ v, es.get? f.1 = some v ∧ conform f.2 v = none

theorem exists_get_of_mem {name : String} : ∀ {es : Entries}, (∃ e ∈ es.toList, e.1 = name) →
    ∃ v, es.get? name = some v
  | .nil, ⟨e, he, _⟩ => by cases he
  | .cons k v rest, ⟨e, he, hname⟩ => by
    rw [Entries.get?]
    split
    · exact ⟨v, rfl⟩
    next hk =>
      rcases List.mem_cons.1 he with rfl | he
      · exact absurd hname hk
      · exact exists_get_of_mem ⟨e, he, hname⟩

/-- Where no name has two entries, an entry is the one that its name finds. -/
theorem get_of_mem {name : String} {v : Val} : ∀ {es : Entries}, (es.toList.Pairwise fun a b => a.1 ≠ b.1) →
    (name, v) ∈ es.toList → es.get? name = some v
  | .nil, _, h => by cases h
  | .cons k w rest, hnd, h => by
    obtain ⟨hk, hrest⟩ := List.pairwise_cons.1 hnd
    rw [Entries.get?]
    rcases List.mem_cons.1 h with heq | hmem
    · cases heq
      exact if_pos rfl
    · rw [if_neg (hk _ hmem)]
      exact get_of_mem hrest hmem

theorem recordShape_eq_none {fs : Fields} {es : Entries} (h : recordShape fs es = none) :
    noneMissing fs es ∧ noneExtra fs es := by
  have hcode : placeFault (.struct fs, .record es) = none := by rw [← recordShape_code, h]; rfl
  rw [placeFault] at hcode
  split_ifs at hcode with hM hE
  exact ⟨hM, hE⟩

theorem conform_of_conformFields {es : Entries} : ∀ {fs : Fields}, conformFields fs es = none →
    ∀ f ∈ fs.toList, f.2.isVoid = false → ∀ v, es.get? f.1 = some v → conform f.2 v = none
  | .nil, _, f, hf => by cases hf
  | .cons name T rest, h, f, hf => by
    rw [conformFields] at h
    split at h
    · cases h
    next hT =>
      intro hvoid v hv
      rcases List.mem_cons.1 hf with rfl | hf
      · rwa [if_neg (Bool.eq_false_iff.1 hvoid), hv, Option.bind_some] at hT
      · exact conform_of_conformFields h f hf hvoid v hv

theorem conform_struct_cases {fs : Fields} {es : Entries} (h : conform (.struct fs) (.record es) = none) :
    recordShape fs es = none ∧ conformFields fs es = none := by
  rw [conform] at h
  split at h
  · cases h
  next hshape => exact ⟨hshape, h⟩

theorem fieldsFilled_of_conform {fs : Fields} {es : Entries} (h : conform (.struct fs) (.record es) = none) :
    fieldsFilled fs es := by
  obtain ⟨hshape, hfields⟩ := conform_struct_cases h
  obtain ⟨hmissing, -⟩ := recordShape_eq_none hshape
  intro f hf hvoid
  obtain ⟨v, hv⟩ := exists_get_of_mem (hmissing f hf hvoid)
  exact ⟨v, hv, conform_of_conformFields hfields f hf hvoid v hv⟩

/-! ### The layout of each kind -/

theorem taoEligible_iff (T : Ty) : taoEligible T = true ↔ ∃ E m n cm, T = .array E .dynamic m ∧ 8 ≤ n ∧
    (E = .uint n cm ∨ E = .int n cm ∨ E = .float n cm) := by
  constructor
  · intro h
    unfold taoEligible at h
    split at h
    · exact ⟨_, _, _, _, rfl, of_decide_eq_true h, .inl rfl⟩
    · exact ⟨_, _, _, _, rfl, of_decide_eq_true h, .inr (.inl rfl)⟩
    · exact ⟨_, _, _, _, rfl, of_decide_eq_true h, .inr (.inr rfl)⟩
    · cases h
  · rintro ⟨E, m, n, cm, rfl, hn, rfl | rfl | rfl⟩ <;> exact decide_eq_true hn

section
variable (cfg : Config)

/-- The number of elements of a dynamic array stands before its elements, but for the TAO form (42_codec_encode.md
R320). -/
theorem emit_dynamic_tao {E : Ty} {m : Nat} (vs : Vals) {t : Bool} (ht : t = true)
    (hE : taoEligible (.array E .dynamic m) = true) :
    emit cfg (.array E .dynamic m) (.array vs) t = vs.toList.flatMap fun v => emit cfg E v false := by
  rw [emit, ht, hE]
  rfl

theorem emit_dynamic_prefixed {E : Ty} {m : Nat} (vs : Vals) {t : Bool}
    (h : t = false ∨ taoEligible (.array E .dynamic m) = false) :
    emit cfg (.array E .dynamic m) (.array vs) t =
      fieldBits cfg.bitOrder (bitlen m) vs.toList.length ++ vs.toList.flatMap fun v => emit cfg E v false := by
  have hflag : ¬ (t && taoEligible (.array E .dynamic m)) = true := by
    rcases h with h | h <;> simp [h]
  rw [emit, if_neg hflag, wideBits_eq_fieldBits]

theorem emitMember_eq {fs : Fields} {idx : Nat} {name : String} {T : Ty} (v : Val)
    (h : fs.toList[idx]? = some (name, T)) : emitMember cfg fs idx v = emit cfg T v false := by
  induction idx generalizing fs with
  | zero =>
    cases fs with
    | nil => cases h
    | cons k T' rest =>
      cases h
      rw [emitMember]
  | succ idx ih =>
    cases fs with
    | nil => cases h
    | cons k T' rest =>
      rw [emitMember]
      exact ih h

/-- The bits of one field of a Struct: a Void field's zeros, or what Emit gives for the entry's value. -/
theorem emitFields_cons_of_layout {name : String} {T : Ty} {es : Entries} {last : Bool} {bits : List Bool}
    (hnd : es.toList.Pairwise fun a b => a.1 ≠ b.1)
    (hvoid : ∀ n, T = .void n → bits = List.replicate n false)
    (hval : T.isVoid = false → ∃ v, (name, v) ∈ es.toList ∧ bits = emit cfg T v last) :
    (if T.isVoid then wideBits cfg.bitOrder 0 T.width
      else ((es.get? name).map fun v => emit cfg T v last).getD []) = bits := by
  by_cases hT : T.isVoid = true
  · obtain ⟨n, rfl⟩ : ∃ n, T = .void n := by
      cases T with
      | void n => exact ⟨n, rfl⟩
      | _ => cases hT
    rw [if_pos hT, wideBits_zero, hvoid n rfl, Ty.width]
  · obtain ⟨v, hmem, rfl⟩ := hval (Bool.eq_false_iff.2 hT)
    rw [if_neg hT, get_of_mem hnd hmem]
    rfl

/-- The fields stand in declaration order, and the tail flag goes to the last (42_codec_encode.md R300, R320). -/
theorem emitFields_of_layout {fs : Fields} {es : Entries} {bits : List (List Bool)} {t : Bool}
    (hnd : es.toList.Pairwise fun a b => a.1 ≠ b.1) (hlen : bits.length = fs.toList.length)
    (h : ∀ k name T, fs.toList[k]? = some (name, T) →
      (∀ n, T = .void n → bits[k]? = some (List.replicate n false)) ∧
      (T.isVoid = false → ∃ v, (name, v) ∈ es.toList ∧
        bits[k]? = some (emit cfg T v (t && k + 1 == fs.toList.length)))) :
    emitFields cfg fs es t = bits.flatten := by
  induction bits generalizing fs with
  | nil =>
    cases fs with
    | nil => rw [emitFields, List.flatten_nil]
    | cons name T rest => cases hlen
  | cons b bits ih =>
    cases fs with
    | nil => cases hlen
    | cons name T rest =>
      have hlen' : bits.length = rest.toList.length := Nat.succ.inj hlen
      have hlast : (0 + 1 == (Fields.cons name T rest).toList.length) = rest.toList.isEmpty := by
        rw [Fields.toList]
        cases rest.toList <;> rfl
      obtain ⟨hvoid, hval⟩ := h 0 name T rfl
      rw [hlast] at hval
      rw [emitFields, List.flatten_cons]
      congr 1
      · exact emitFields_cons_of_layout cfg hnd (fun n hn => Option.some.inj (hvoid n hn)) fun hT =>
          (hval hT).imp fun v hv => ⟨hv.1, Option.some.inj hv.2⟩
      · refine ih hlen' fun k name' T' hk => ?_
        have hstep := h (k + 1) name' T' hk
        have hidx : (k + 1 + 1 == (Fields.cons name T rest).toList.length) = (k + 1 == rest.toList.length) := by
          rw [Bool.eq_iff_iff, beq_iff_eq, beq_iff_eq]
          exact Nat.succ_inj
        rwa [hidx] at hstep

end

/-! ### The commands -/

/-- Settles O28: the commands by the phases of an encode command, and the layout kind by kind. -/
theorem encodeComposites : Obligations.EncodeComposites := by
  refine ⟨fun s t hinv hT hv hcap => ?_, taoEligible_iff, fun cfg t => ?_⟩
  · have hend : encodeAtCursor s.ports.ty s.ports.v t s = _ :=
      encodeAtCursor_of_fits ((encodeCheck_of_valid _ _ hT).trans hv) hcap
    refine ⟨_, appended_of_writerInv hinv _, fun hk ht => ?_, fun hk ht => ?_, fun hk ht => ?_, fun hk => ?_⟩
    · subst ht
      exact (if_pos hk).trans hend
    · have hform : ¬ (t && !taoEligible s.ports.ty) = true := by
        cases t with
        | false => exact Bool.false_ne_true
        | true => simp [ht rfl]
      exact (if_pos hk).trans ((if_neg hform).trans hend)
    · subst ht
      exact (if_pos hk).trans hend
    · exact (if_pos hk).trans hend
  · refine ⟨fun b => emit_bool cfg b t, fun n cm i => ⟨?_, ?_⟩, fun n cm x => ?_, fun E m vs => ⟨?_, ?_, ?_⟩,
      fun fs idx name T v h => ?_, fun fs es bits hconf hlen h => ?_⟩
    · rw [emit, wideBits_eq_fieldBits]
    · rw [emit, wideBits_eq_fieldBits]
    · rw [emit, wideBits_eq_fieldBits]
    · rw [emit]
    · exact emit_dynamic_tao cfg vs
    · exact emit_dynamic_prefixed cfg vs
    · rw [emit, wideBits_eq_fieldBits, emitMember_eq cfg v h, Fields.count]
    · rw [emit]
      obtain ⟨-, -, hnd⟩ := recordShape_eq_none (conform_struct_cases hconf).1
      exact emitFields_of_layout cfg hnd hlen h

/-- Settles O29: ENC by its own branches; it starts from the empty writer, which meets the invariant. -/
theorem encodeWholePayload : Obligations.EncodeWholePayload := by
  intro s hT hv
  have hcheck : encodeCheck s.ports.ty s.ports.v = none := (encodeCheck_of_valid _ _ hT).trans hv
  refine ⟨fun hcap => ⟨_, appended_pushBits _ (zeroFilled_empty _), ?_⟩, fun hcap => ?_⟩
  · rw [exec, execEnc]
    dsimp only
    rw [hcheck]
    exact if_neg (Bool.eq_false_iff.1 ((exceeds_eq_false_iff _ _).2 hcap))
  · rw [exec, execEnc]
    dsimp only
    rw [hcheck]
    exact if_pos ((exceeds_eq_true_iff _ _).2 hcap)

end Sys2Proof.Machine
end

section
/-! The length of an encoding (42_codec_encode.md R301, 30_encoding.md R134). The four facts about the bits of a
value are carried together: they hold of a field of fixed width, and pass to parts put one after another and
to repeated elements. That both bounds are attained is shown by a value built along the descriptor. -/

namespace Sys2Proof.Machine

/-! ### What a valid descriptor has -/

theorem checkTy_array_eq_none {E : Ty} {mode : ArrayMode} {m : Nat} (h : checkTy (.array E mode m) = none) :
    E.isVoid = false ∧ checkTy E = none := by
  rw [checkTy] at h
  split_ifs at h with hA hV
  exact ⟨Bool.eq_false_iff.2 fun hv => hV (.inl hv), h⟩

theorem checkTy_struct_eq_none {fs : Fields} (h : checkTy (.struct fs) = none) :
    fs.valueNames.Nodup ∧ checkFields fs = none := by
  rw [checkTy] at h
  split_ifs at h with hN
  exact ⟨hN, h⟩

theorem checkTy_union_eq_none {fs : Fields} (h : checkTy (.union fs) = none) :
    2 ≤ fs.toList.length ∧ (∀ f ∈ fs.toList, f.2.isVoid = false) ∧ checkFields fs = none := by
  rw [checkTy] at h
  split_ifs at h with hM hN
  obtain ⟨hlen, hvoid⟩ := (unionMembers_iff fs).1 hM
  exact ⟨hlen, hvoid, h⟩

theorem checkFields_cons_eq_none {name : String} {T : Ty} {rest : Fields}
    (h : checkFields (.cons name T rest) = none) : checkTy T = none ∧ checkFields rest = none := by
  rw [checkFields] at h
  split at h
  · cases h
  next hT => exact ⟨hT, h⟩

theorem fieldsFilled_cons {name : String} {T : Ty} {rest : Fields} {es : Entries}
    (h : fieldsFilled (.cons name T rest) es) :
    (T.isVoid = false → ∃ v, es.get? name = some v ∧ conform T v = none) ∧ fieldsFilled rest es :=
  ⟨h (name, T) (List.mem_cons_self ..), fun f hf => h f (List.mem_cons_of_mem _ hf)⟩

theorem isVoid_iff (T : Ty) : T.isVoid = true ↔ ∃ n, T = .void n := by
  cases T <;> simp [Ty.isVoid]

/-- A Union's member is the field of its index. -/
theorem conformMember_eq (v : Val) : ∀ {fs : Fields} {idx : Nat} {f : String × Ty}, fs.toList[idx]? = some f →
    conformMember fs idx v = conform f.2 v
  | .nil, _, _, h => by cases h
  | .cons _ _ _, 0, _, h => by
    cases h
    rw [conformMember]
  | .cons _ _ rest, k + 1, _, h => by
    rw [conformMember]
    exact conformMember_eq v (fs := rest) h

theorem encLenMember_eq (v : Val) : ∀ {fs : Fields} {idx : Nat} {f : String × Ty}, fs.toList[idx]? = some f →
    encLenMember fs idx v = encLen f.2 v false
  | .nil, _, _, h => by cases h
  | .cons _ _ _, 0, _, h => by
    cases h
    rw [encLenMember]
  | .cons _ _ rest, k + 1, _, h => by
    rw [encLenMember]
    exact encLenMember_eq v (fs := rest) h

/-! ### MinBits and MaxBits -/

theorem minSum_eq : ∀ fs : Fields, minSum fs = (fs.toList.map fun f => minBits f.2).sum
  | .nil => rfl
  | .cons _ T rest => by rw [minSum, Fields.toList, List.map_cons, List.sum_cons, minSum_eq rest]

theorem maxSum_eq : ∀ fs : Fields, maxSum fs = (fs.toList.map fun f => maxBits f.2).sum
  | .nil => rfl
  | .cons _ T rest => by rw [maxSum, Fields.toList, List.map_cons, List.sum_cons, maxSum_eq rest]

theorem minLeast_le : ∀ {fs : Fields}, ∀ f ∈ fs.toList, minLeast fs ≤ minBits f.2
  | .nil, f, hf => by cases hf
  | .cons _ T .nil, f, hf => by
    obtain rfl := List.mem_singleton.1 hf
    rw [minLeast]
  | .cons _ T (.cons name T' rest), f, hf => by
    rw [minLeast]
    · rcases List.mem_cons.1 hf with rfl | hf
      · exact Nat.min_le_left _ _
      · exact (Nat.min_le_right _ _).trans (minLeast_le f hf)
    · exact fun h => by cases h

theorem exists_minLeast : ∀ {fs : Fields}, fs.toList ≠ [] → ∃ f ∈ fs.toList, minLeast fs = minBits f.2
  | .nil, h => absurd rfl h
  | .cons name T .nil, _ => ⟨(name, T), List.mem_cons_self .., by rw [minLeast]⟩
  | .cons name T (.cons name' T' rest), _ => by
    obtain ⟨f, hf, heq⟩ := exists_minLeast (fs := .cons name' T' rest) (List.cons_ne_nil _ _)
    rw [minLeast, heq]
    · rcases Nat.le_total (minBits T) (minBits f.2) with hle | hle
      · exact ⟨(name, T), List.mem_cons_self .., Nat.min_eq_left hle⟩
      · exact ⟨f, List.mem_cons_of_mem _ hf, Nat.min_eq_right hle⟩
    · exact fun h => by cases h

theorem le_maxGreatest : ∀ {fs : Fields}, ∀ f ∈ fs.toList, maxBits f.2 ≤ maxGreatest fs
  | .nil, f, hf => by cases hf
  | .cons _ T rest, f, hf => by
    rw [maxGreatest]
    rcases List.mem_cons.1 hf with rfl | hf
    · exact Nat.le_max_left _ _
    · exact (le_maxGreatest f hf).trans (Nat.le_max_right _ _)

theorem exists_maxGreatest : ∀ {fs : Fields}, fs.toList ≠ [] → ∃ f ∈ fs.toList, maxGreatest fs = maxBits f.2
  | .nil, h => absurd rfl h
  | .cons name T .nil, _ => ⟨(name, T), List.mem_cons_self .., by rw [maxGreatest, maxGreatest, Nat.max_zero]⟩
  | .cons name T (.cons name' T' rest), _ => by
    obtain ⟨f, hf, heq⟩ := exists_maxGreatest (fs := .cons name' T' rest) (List.cons_ne_nil _ _)
    rw [maxGreatest, heq]
    rcases Nat.le_total (maxBits f.2) (maxBits T) with hle | hle
    · exact ⟨(name, T), List.mem_cons_self .., Nat.max_eq_left hle⟩
    · exact ⟨f, List.mem_cons_of_mem _ hf, Nat.max_eq_right hle⟩

theorem bitlen_le_iff (x k : Nat) : bitlen x ≤ k ↔ x < 2 ^ k := by
  rw [bitlen]
  split
  next hx => simp [hx]
  next hx => exact Nat.log2_lt hx

/-! ### The bits that the TAO form saves -/

mutual

/-- Outside tail position nothing is saved. -/
theorem taoSaved_false : ∀ T : Ty, taoSaved T false = 0
  | .array e mode m => by rw [taoSaved, Bool.false_and, if_neg Bool.false_ne_true]
  | .struct fs => by rw [taoSaved, taoSavedFields_false fs]
  | .void _ | .bool | .uint _ _ | .int _ _ | .float _ _ | .union _ => by rw [taoSaved]

theorem taoSavedFields_false : ∀ fs : Fields, taoSavedFields fs false = 0
  | .nil => rfl
  | .cons _ T .nil => by rw [taoSavedFields, taoSaved_false T]
  | .cons _ _ (.cons name T rest) => by
    rw [taoSavedFields, taoSavedFields_false (.cons name T rest)]
    exact fun h => by cases h

end

/-- The tail flag goes to the last field. -/
theorem taoSavedFields_cons (name : String) (T : Ty) (rest : Fields) (t : Bool) :
    taoSavedFields (.cons name T rest) t = taoSaved T (t && rest.toList.isEmpty) + taoSavedFields rest t := by
  cases rest with
  | nil =>
    rw [taoSavedFields, taoSavedFields, Fields.toList, List.isEmpty_nil, Bool.and_true, Nat.add_zero]
  | cons name' T' rest =>
    rw [taoSavedFields, Fields.toList, List.isEmpty_cons, Bool.and_false, taoSaved_false, Nat.zero_add]
    exact fun h => by cases h

theorem taoEligible_fixed (E : Ty) (m : Nat) : taoEligible (.array E .fixed m) = false := by
  cases E <;> rfl

/-! ### The length of the bits of a value -/

/-- What R301 says of the bits of one value, or of one part of it: `len` is their number, `lo` and `hi` are
MinBits and MaxBits, `saved` the bits that the TAO form leaves out, and `fixed` that the length is. -/
structure LengthFacts (bits : List Bool) (len saved lo hi : Nat) (fixed : Bool) : Prop where
  length_eq : bits.length = len
  lo_le : lo ≤ len + saved
  le_hi : len ≤ hi
  eq_hi : fixed = true → len = hi

namespace LengthFacts

theorem ofWidth {bits : List Bool} {n : Nat} (h : bits.length = n) (fixed : Bool) :
    LengthFacts bits n 0 n n fixed :=
  ⟨h, le_rfl, le_rfl, fun _ => rfl⟩

/-- Parts one after another. -/
theorem append {xs ys : List Bool} {a sa la ha b sb lb hb : Nat} {fa fb : Bool}
    (hx : LengthFacts xs a sa la ha fa) (hy : LengthFacts ys b sb lb hb fb) :
    LengthFacts (xs ++ ys) (a + b) (sa + sb) (la + lb) (ha + hb) (fa && fb) := by
  obtain ⟨hxlen, hxlo, hxhi, hxeq⟩ := hx
  obtain ⟨hylen, hylo, hyhi, hyeq⟩ := hy
  refine ⟨by rw [List.length_append, hxlen, hylen], by omega, by omega, fun h => ?_⟩
  rw [Bool.and_eq_true] at h
  rw [hxeq h.1, hyeq h.2]

/-- Elements of one type, none of which saves any bits. -/
theorem flatMap {vs : List Val} {f : Val → List Bool} {g : Val → Nat} {lo hi : Nat} {fixed : Bool}
    (h : ∀ v ∈ vs, LengthFacts (f v) (g v) 0 lo hi fixed) :
    LengthFacts (vs.flatMap f) (vs.map g).sum 0 (vs.length * lo) (vs.length * hi) fixed := by
  induction vs with
  | nil => simpa using ofWidth (bits := []) rfl fixed
  | cons v vs ih =>
    have hcons := (h v (List.mem_cons_self ..)).append (ih fun w hw => h w (List.mem_cons_of_mem _ hw))
    rw [Bool.and_self] at hcons
    rw [List.flatMap_cons, List.map_cons, List.sum_cons, List.length_cons, Nat.succ_mul, Nat.succ_mul,
      Nat.add_comm _ lo, Nat.add_comm _ hi]
    exact hcons

/-- Wider bounds hold too, where nothing is said of a fixed length. -/
theorem widen {bits : List Bool} {len saved lo hi lo' hi' : Nat} {fixed : Bool}
    (h : LengthFacts bits len saved lo hi fixed) (hlo : lo' ≤ lo) (hhi : hi ≤ hi') :
    LengthFacts bits len saved lo' hi' false :=
  ⟨h.length_eq, hlo.trans h.lo_le, h.le_hi.trans hhi, fun hf => absurd hf Bool.false_ne_true⟩

end LengthFacts

/-- The facts of R301 about the encoding of `v` for `T`. -/
abbrev encodingFacts (cfg : Config) (T : Ty) (v : Val) (t : Bool) : Prop :=
  LengthFacts (emit cfg T v t) (encLen T v t) (taoSaved T t) (minBits T) (maxBits T) (fixedLength T)

/-- Outside tail position nothing is saved. -/
theorem encodingFacts.outsideTail {cfg : Config} {T : Ty} {v : Val} (h : encodingFacts cfg T v false) :
    LengthFacts (emit cfg T v false) (encLen T v false) 0 (minBits T) (maxBits T) (fixedLength T) := by
  rwa [encodingFacts, taoSaved_false] at h

theorem encodingFacts_fixed {cfg : Config} {E : Ty} {m : Nat} {vs : Vals} (t : Bool) (hlen : vs.toList.length = m)
    (h : ∀ v ∈ vs.toList, encodingFacts cfg E v false) : encodingFacts cfg (.array E .fixed m) (.array vs) t := by
  have hvs := LengthFacts.flatMap fun v hv => (h v hv).outsideTail
  rw [hlen] at hvs
  rw [encodingFacts, emit, encLen, taoSaved, taoEligible_fixed, Bool.and_false, if_neg Bool.false_ne_true,
    minBits, maxBits, fixedLength]
  exact hvs

/-- The number of elements is in the bits, or it is what the TAO form saves. -/
theorem encodingFacts_dynamic {cfg : Config} {E : Ty} {m : Nat} {vs : Vals} (t : Bool)
    (hlen : vs.toList.length ≤ m) (h : ∀ v ∈ vs.toList, encodingFacts cfg E v false) :
    encodingFacts cfg (.array E .dynamic m) (.array vs) t := by
  have hvs := LengthFacts.flatMap fun v hv => (h v hv).outsideTail
  have hhi : (vs.toList.map fun v => encLen E v false).sum ≤ m * maxBits E :=
    hvs.le_hi.trans (Nat.mul_le_mul_right _ hlen)
  rw [encodingFacts, emit, encLen, taoSaved, minBits, maxBits, fixedLength]
  cases t && taoEligible (.array E .dynamic m) with
  | true =>
    rw [if_pos rfl, if_pos rfl, if_pos rfl, List.nil_append, Nat.zero_add]
    exact ⟨hvs.length_eq, Nat.le_add_left _ _, hhi.trans (Nat.le_add_left _ _), fun hf => by cases hf⟩
  | false =>
    rw [if_neg Bool.false_ne_true, if_neg Bool.false_ne_true, if_neg Bool.false_ne_true]
    refine ⟨?_, Nat.le_add_right _ _, Nat.add_le_add_left hhi _, fun hf => by cases hf⟩
    rw [List.length_append, wideBits_length, hvs.length_eq]

theorem conform_fixed_cases {E : Ty} {m : Nat} {v : Val} (h : conform (.array E .fixed m) v = none) :
    ∃ vs, v = .array vs ∧ vs.toList.length = m ∧ ∀ w ∈ vs.toList, conform E w = none := by
  cases v with
  | array vs =>
    rw [conform] at h
    split_ifs at h with hlen
    exact ⟨vs, rfl, hlen, List.findSome?_eq_none_iff.1 h⟩
  | _ => cases h

theorem conform_dynamic_cases {E : Ty} {m : Nat} {v : Val} (h : conform (.array E .dynamic m) v = none) :
    ∃ vs, v = .array vs ∧ vs.toList.length ≤ m ∧ ∀ w ∈ vs.toList, conform E w = none := by
  cases v with
  | array vs =>
    rw [conform] at h
    split_ifs at h with hlen
    exact ⟨vs, rfl, hlen, List.findSome?_eq_none_iff.1 h⟩
  | _ => cases h

mutual

/-- The facts of R301 hold of every value that conforms. -/
theorem encodingFacts_of_conform (cfg : Config) : ∀ (T : Ty) (v : Val) (t : Bool), checkTy T = none →
    conform T v = none → encodingFacts cfg T v t
  | .void n, v, _, _, hv => by cases v <;> cases hv
  | .bool, v, _, _, hv => by
    cases v with
    | bool b => exact .ofWidth (by rw [emit, chunkBits_length, encLen]) true
    | _ => cases hv
  | .uint n cm, v, _, _, hv | .int n cm, v, _, _, hv => by
    cases v with
    | int i => exact .ofWidth (by rw [emit, wideBits_length, encLen]) true
    | _ => cases hv
  | .float n cm, v, _, _, hv => by
    cases v with
    | float x => exact .ofWidth (by rw [emit, wideBits_length, encLen]) true
    | _ => cases hv
  | .array E .fixed m, v, t, hT, hv => by
    obtain ⟨vs, rfl, hlen, hvs⟩ := conform_fixed_cases hv
    have hE := (checkTy_array_eq_none hT).2
    exact encodingFacts_fixed t hlen fun w hw => encodingFacts_of_conform cfg E w false hE (hvs w hw)
  | .array E .dynamic m, v, t, hT, hv => by
    obtain ⟨vs, rfl, hlen, hvs⟩ := conform_dynamic_cases hv
    have hE := (checkTy_array_eq_none hT).2
    exact encodingFacts_dynamic t hlen fun w hw => encodingFacts_of_conform cfg E w false hE (hvs w hw)
  | .struct fs, v, t, hT, hv => by
    cases v with
    | record es =>
      rw [encodingFacts, emit, encLen, taoSaved, minBits, maxBits, fixedLength]
      exact fieldsFacts cfg fs es t (checkTy_struct_eq_none hT).2 (fieldsFilled_of_conform hv)
    | _ => cases hv
  | .union fs, v, t, hT, hv => by
    cases v with
    | union idx v =>
      obtain ⟨-, -, hfs⟩ := checkTy_union_eq_none hT
      have htag := LengthFacts.ofWidth (wideBits_length cfg.bitOrder idx (bitlen (fs.count - 1))) false
      rw [conform] at hv
      rw [encodingFacts, emit, encLen, taoSaved, minBits, maxBits, fixedLength]
      exact htag.append (memberFacts cfg fs idx v hfs hv)
    | _ => cases hv

theorem fieldsFacts (cfg : Config) : ∀ (fs : Fields) (es : Entries) (t : Bool), checkFields fs = none →
    fieldsFilled fs es →
    LengthFacts (emitFields cfg fs es t) (encLenFields fs es t) (taoSavedFields fs t) (minSum fs) (maxSum fs)
      (fixedLengthFields fs)
  | .nil, _, _, _, _ => .ofWidth rfl true
  | .cons name T rest, es, t, hfs, hes => by
    obtain ⟨hT, hrest⟩ := checkFields_cons_eq_none hfs
    obtain ⟨hval, hes'⟩ := fieldsFilled_cons hes
    rw [emitFields, encLenFields, taoSavedFields_cons, minSum, maxSum, fixedLengthFields]
    refine LengthFacts.append ?_ (fieldsFacts cfg rest es t hrest hes')
    by_cases hvoid : T.isVoid = true
    · obtain ⟨n, rfl⟩ := (isVoid_iff T).1 hvoid
      exact .ofWidth (wideBits_length _ _ _) true
    · obtain ⟨v, hget, hv⟩ := hval (Bool.eq_false_iff.2 hvoid)
      rw [if_neg hvoid, if_neg hvoid, hget]
      exact encodingFacts_of_conform cfg T v _ hT hv

theorem memberFacts (cfg : Config) : ∀ (fs : Fields) (idx : Nat) (v : Val), checkFields fs = none →
    conformMember fs idx v = none →
    LengthFacts (emitMember cfg fs idx v) (encLenMember fs idx v) 0 (minLeast fs) (maxGreatest fs) false
  | .nil, _, _, _, hv => by
    rw [conformMember] at hv
    cases hv
  | .cons name T rest, 0, v, hfs, hv => by
    obtain ⟨hT, -⟩ := checkFields_cons_eq_none hfs
    rw [conformMember] at hv
    rw [emitMember, encLenMember]
    exact (encodingFacts_of_conform cfg T v false hT hv).outsideTail.widen
      (minLeast_le (name, T) (List.mem_cons_self ..)) (le_maxGreatest (name, T) (List.mem_cons_self ..))
  | .cons name T rest, k + 1, v, hfs, hv => by
    obtain ⟨-, hrest⟩ := checkFields_cons_eq_none hfs
    rw [conformMember] at hv
    rw [emitMember, encLenMember]
    refine (memberFacts cfg rest k v hrest hv).widen ?_ ?_
    · have hne : rest.toList ≠ [] := by
        cases rest with
        | nil => cases hv
        | cons _ _ _ => exact List.cons_ne_nil _ _
      obtain ⟨f, hf, heq⟩ := exists_minLeast hne
      exact heq ▸ minLeast_le f (List.mem_cons_of_mem _ hf)
    · rw [maxGreatest]
      exact Nat.le_max_right _ _

end

/-! ### Values that attain the bounds -/

/-- Some value that conforms to `T` encodes to `len T` bits. -/
def Attains (len : Ty → Nat) (T : Ty) : Prop := ∃ v, conform T v = none ∧ encLen T v false = len T

@[simp] theorem toList_ofList : ∀ vs : List Val, (Vals.ofList vs).toList = vs
  | [] => rfl
  | v :: vs => by rw [Vals.ofList, Vals.toList, toList_ofList vs]

theorem findSome_replicate_conform {E : Ty} {v : Val} (hv : conform E v = none) (m : Nat) :
    (List.replicate m v).findSome? (fun v => conform E v) = none :=
  List.findSome?_eq_none_iff.2 fun _ hw => List.eq_of_mem_replicate hw ▸ hv

theorem attains_fixed {len : Ty → Nat} {E : Ty} {m : Nat} (hE : Attains len E)
    (hlen : len (.array E .fixed m) = m * len E) : Attains len (.array E .fixed m) := by
  obtain ⟨v, hv, hbits⟩ := hE
  refine ⟨.array (Vals.ofList (List.replicate m v)), ?_, ?_⟩
  · rw [conform, toList_ofList, if_pos List.length_replicate, findSome_replicate_conform hv]
  · rw [encLen, toList_ofList, List.map_replicate, List.sum_replicate, hbits, hlen, smul_eq_mul]

theorem attains_dynamic_min (E : Ty) (m : Nat) : Attains minBits (.array E .dynamic m) :=
  ⟨.array .nil, rfl, rfl⟩

theorem attains_dynamic_max {E : Ty} {m : Nat} (hE : Attains maxBits E) :
    Attains maxBits (.array E .dynamic m) := by
  obtain ⟨v, hv, hbits⟩ := hE
  refine ⟨.array (Vals.ofList (List.replicate m v)), ?_, ?_⟩
  · rw [conform, toList_ofList, if_pos List.length_replicate.le, findSome_replicate_conform hv]
  · rw [encLen, toList_ofList, List.map_replicate, List.sum_replicate, hbits, maxBits, smul_eq_mul,
      Bool.false_and, if_neg Bool.false_ne_true]

/-- A record with a chosen value for every field that is not Void. -/
theorem exists_entries {P : Ty → Val → Prop} : ∀ {fs : Fields},
    (∀ f ∈ fs.toList, f.2.isVoid = false → ∃ v, P f.2 v) →
    ∃ es : Entries, es.toList.map (·.1) = fs.valueNames ∧
      ∀ f ∈ fs.toList, f.2.isVoid = false → ∃ v, (f.1, v) ∈ es.toList ∧ P f.2 v
  | .nil, _ => ⟨.nil, rfl, fun f hf => by cases hf⟩
  | .cons name T rest, h => by
    obtain ⟨es, hnames, hes⟩ := exists_entries fun f hf => h f (List.mem_cons_of_mem _ hf)
    by_cases hvoid : T.isVoid = true
    · refine ⟨es, ?_, fun f hf hnv => ?_⟩
      · rw [hnames, Fields.valueNames, Fields.valueNames, Fields.toList]
        simp [hvoid]
      · rcases List.mem_cons.1 hf with rfl | hf
        · exact absurd hvoid (Bool.eq_false_iff.1 hnv)
        · exact hes f hf hnv
    · obtain ⟨v, hv⟩ := h (name, T) (List.mem_cons_self ..) (Bool.eq_false_iff.2 hvoid)
      refine ⟨.cons name v es, ?_, fun f hf hnv => ?_⟩
      · rw [Entries.toList, List.map_cons, hnames, Fields.valueNames, Fields.valueNames, Fields.toList]
        simp [hvoid]
      · rcases List.mem_cons.1 hf with rfl | hf
        · exact ⟨v, List.mem_cons_self .., hv⟩
        · exact (hes f hf hnv).imp fun w hw => ⟨List.mem_cons_of_mem _ hw.1, hw.2⟩

theorem recordShape_of_names {fs : Fields} {es : Entries} (hnd : fs.valueNames.Nodup)
    (h : es.toList.map (·.1) = fs.valueNames) : recordShape fs es = none := by
  rw [recordShape, h]
  simp [hnd]

theorem conformFields_of_filled {es : Entries} : ∀ {fs : Fields}, fieldsFilled fs es → conformFields fs es = none
  | .nil, _ => by rw [conformFields]
  | .cons name T rest, h => by
    obtain ⟨hT, hrest⟩ := fieldsFilled_cons h
    have hfield : (if T.isVoid then none else (es.get? name).bind fun v => conform T v) = none := by
      split
      · rfl
      next hvoid =>
        obtain ⟨v, hget, hv⟩ := hT (Bool.eq_false_iff.2 hvoid)
        rw [hget, Option.bind_some, hv]
    rw [conformFields, hfield]
    exact conformFields_of_filled hrest

theorem encLenFields_of_values {len : Ty → Nat} (hvoid : ∀ n, len (.void n) = n) {es : Entries} :
    ∀ {fs : Fields}, (∀ f ∈ fs.toList, f.2.isVoid = false → ∃ v, es.get? f.1 = some v ∧ encLen f.2 v false = len f.2) →
      encLenFields fs es false = (fs.toList.map fun f => len f.2).sum
  | .nil, _ => by rw [encLenFields]; rfl
  | .cons name T rest, h => by
    have hrest := encLenFields_of_values hvoid fun f hf => h f (List.mem_cons_of_mem _ hf)
    rw [encLenFields, hrest, Fields.toList, List.map_cons, List.sum_cons, Bool.false_and]
    congr 1
    split
    next hv =>
      obtain ⟨n, rfl⟩ := (isVoid_iff T).1 hv
      exact (hvoid n).symm
    next hv =>
      obtain ⟨v, hget, hbits⟩ := h (name, T) (List.mem_cons_self ..) (Bool.eq_false_iff.2 hv)
      rw [hget, Option.map_some, Option.getD_some, hbits]

theorem attains_struct {len : Ty → Nat} {fs : Fields} (hnd : fs.valueNames.Nodup)
    (hfs : ∀ f ∈ fs.toList, f.2.isVoid = false → Attains len f.2) (hvoid : ∀ n, len (.void n) = n)
    (hlen : len (.struct fs) = (fs.toList.map fun f => len f.2).sum) : Attains len (.struct fs) := by
  obtain ⟨es, hnames, hes⟩ :=
    exists_entries (P := fun T v => conform T v = none ∧ encLen T v false = len T) hfs
  have hdistinct : es.toList.Pairwise fun a b => a.1 ≠ b.1 := by
    rw [← hnames] at hnd
    exact List.pairwise_map.1 hnd
  have hvalues (f : String × Ty) (hf : f ∈ fs.toList) (hnv : f.2.isVoid = false) :
      ∃ v, es.get? f.1 = some v ∧ conform f.2 v = none ∧ encLen f.2 v false = len f.2 :=
    (hes f hf hnv).imp fun v hv => ⟨get_of_mem hdistinct hv.1, hv.2⟩
  refine ⟨.record es, ?_, ?_⟩
  · rw [conform, recordShape_of_names hnd hnames]
    exact conformFields_of_filled fun f hf hnv => (hvalues f hf hnv).imp fun v hv => ⟨hv.1, hv.2.1⟩
  · rw [encLen, hlen]
    exact encLenFields_of_values hvoid fun f hf hnv => (hvalues f hf hnv).imp fun v hv => ⟨hv.1, hv.2.2⟩

theorem attains_union {len : Ty → Nat} {fs : Fields} {f : String × Ty} (hf : f ∈ fs.toList)
    (hT : Attains len f.2) (hlen : len (.union fs) = bitlen (fs.count - 1) + len f.2) :
    Attains len (.union fs) := by
  obtain ⟨v, hv, hbits⟩ := hT
  obtain ⟨idx, hidx⟩ := List.mem_iff_getElem?.1 hf
  refine ⟨.union idx v, ?_, ?_⟩
  · rw [conform, conformMember_eq v hidx, hv]
  · rw [encLen, encLenMember_eq v hidx, hbits, hlen]

theorem ne_nil_of_two_le {fs : Fields} (h : 2 ≤ fs.toList.length) : fs.toList ≠ [] :=
  List.ne_nil_of_length_pos (by omega)

mutual

/-- Both bounds of a valid descriptor that is no Void are attained (42_codec_encode.md R301). -/
theorem attains_bounds : ∀ T : Ty, checkTy T = none → T.isVoid = false → Attains minBits T ∧ Attains maxBits T
  | .void _, _, h => by cases h
  | .bool, _, _ => ⟨⟨.bool false, rfl, rfl⟩, ⟨.bool false, rfl, rfl⟩⟩
  | .uint _ _, _, _ | .int _ _, _, _ => ⟨⟨.int 0, rfl, rfl⟩, ⟨.int 0, rfl, rfl⟩⟩
  | .float _ _, _, _ => ⟨⟨.float 0, rfl, rfl⟩, ⟨.float 0, rfl, rfl⟩⟩
  | .array E .fixed m, hT, _ => by
    obtain ⟨hvoid, hE⟩ := checkTy_array_eq_none hT
    obtain ⟨hmin, hmax⟩ := attains_bounds E hE hvoid
    exact ⟨attains_fixed hmin rfl, attains_fixed hmax rfl⟩
  | .array E .dynamic m, hT, _ => by
    obtain ⟨hvoid, hE⟩ := checkTy_array_eq_none hT
    exact ⟨attains_dynamic_min E m, attains_dynamic_max (attains_bounds E hE hvoid).2⟩
  | .struct fs, hT, _ => by
    obtain ⟨hnd, hfs⟩ := checkTy_struct_eq_none hT
    have hfields := fields_attain_bounds fs hfs
    exact ⟨attains_struct hnd (fun f hf hnv => (hfields f hf hnv).1) (fun _ => rfl) (minSum_eq fs),
      attains_struct hnd (fun f hf hnv => (hfields f hf hnv).2) (fun _ => rfl) (maxSum_eq fs)⟩
  | .union fs, hT, _ => by
    obtain ⟨hlen, hvoid, hfs⟩ := checkTy_union_eq_none hT
    have hfields := fields_attain_bounds fs hfs
    obtain ⟨f, hf, hmin⟩ := exists_minLeast (ne_nil_of_two_le hlen)
    obtain ⟨g, hg, hmax⟩ := exists_maxGreatest (ne_nil_of_two_le hlen)
    exact ⟨attains_union hf (hfields f hf (hvoid f hf)).1 (by rw [minBits, hmin]),
      attains_union hg (hfields g hg (hvoid g hg)).2 (by rw [maxBits, hmax])⟩

theorem fields_attain_bounds : ∀ fs : Fields, checkFields fs = none → ∀ f ∈ fs.toList, f.2.isVoid = false →
    Attains minBits f.2 ∧ Attains maxBits f.2
  | .nil, _, f, hf, _ => by cases hf
  | .cons name T rest, h, f, hf, hvoid => by
    obtain ⟨hT, hrest⟩ := checkFields_cons_eq_none h
    rcases List.mem_cons.1 hf with rfl | hf
    · exact attains_bounds T hT hvoid
    · exact fields_attain_bounds rest hrest f hf hvoid

end

/-- Settles O32: the bounds by `LengthFacts`, the values that meet them by recursion on the descriptor, and the
equations of R134 by those of MinBits and MaxBits. -/
theorem encodedLengthBounds : Obligations.EncodedLengthBounds := by
  refine ⟨fun cfg T v t hT hv => ?_, attains_bounds, bitlen_le_iff, fun T n cm h => ?_,
    fun E m => ⟨rfl, rfl, rfl, rfl⟩, fun fs => ⟨minSum_eq fs, maxSum_eq fs, ?_⟩⟩
  · obtain ⟨hlen, hlo, hhi, heq⟩ := encodingFacts_of_conform cfg T v t hT hv
    exact ⟨hlen, hlo, hhi, heq⟩
  · rcases h with rfl | rfl | rfl | rfl | ⟨rfl, rfl⟩ <;> exact ⟨rfl, rfl⟩
  · rintro k rfl hne
    obtain ⟨f, hf, hmin⟩ := exists_minLeast hne
    obtain ⟨g, hg, hmax⟩ := exists_maxGreatest hne
    rw [minBits, maxBits, Fields.count]
    exact ⟨⟨f, hf, congrArg _ hmin⟩, ⟨g, hg, congrArg _ hmax⟩, fun f hf =>
      ⟨Nat.add_le_add_left (minLeast_le f hf) _, Nat.add_le_add_left (le_maxGreatest f hf) _⟩⟩

end Sys2Proof.Machine
end

section
/-! Narrowing a float (42_codec_encode.md R304, 30_encoding.md R128). The magnitudes of a format are natural
numbers of its least subnormal, `units`, and grow strictly with the magnitude bits. A binary64 operand is
`significand / 2^drop` steps of `2^scale` of these units, so rounding to nearest even is that of one quotient, and
no value of the format lies closer than a multiple of the step. -/

namespace Sys2Proof.Machine

/-! ### The parts of a pattern -/

/-- The magnitude bits of a pattern: exponent and fraction. -/
def FloatFormat.magBits (f : FloatFormat) (u : Nat) : Nat := u % 2 ^ (f.expBits + f.fracBits)

section
variable (f : FloatFormat) (u : Nat)

theorem expOf_eq_magBits : f.expOf u = f.magBits u / 2 ^ f.fracBits := by
  rw [FloatFormat.expOf, FloatFormat.magBits, Nat.add_comm, Nat.pow_add, Nat.mod_mul_right_div_self]

theorem fracOf_eq_magBits : f.fracOf u = f.magBits u % 2 ^ f.fracBits := by
  rw [FloatFormat.fracOf, FloatFormat.magBits, Nat.mod_mod_of_dvd]
  exact Nat.pow_dvd_pow 2 (Nat.le_add_left _ _)

theorem magBits_lt : f.magBits u < 2 ^ (f.expBits + f.fracBits) := Nat.mod_lt _ (by positivity)

theorem signOf_lt : f.signOf u < 2 := Nat.mod_lt _ two_pos

theorem expMax_lt : f.expMax < 2 ^ f.expBits := Nat.sub_lt (by positivity) one_pos

/-- The pattern of infinity, by its magnitude bits. -/
theorem expMax_mul_lt : f.expMax * 2 ^ f.fracBits < 2 ^ (f.expBits + f.fracBits) := by
  rw [Nat.pow_add]
  exact Nat.mul_lt_mul_of_pos_right (expMax_lt f) (by positivity)

variable {f}

theorem pack_eq_pack_zero (sign exp frac : Nat) :
    f.pack sign exp frac = f.pack sign 0 (exp * 2 ^ f.fracBits + frac) := by
  rw [FloatFormat.pack, FloatFormat.pack]
  ring

variable {sign p : Nat} (hs : sign < 2) (hp : p < 2 ^ (f.expBits + f.fracBits))

theorem pack_zero_eq : f.pack sign 0 p = 2 ^ (f.expBits + f.fracBits) * sign + p := by
  rw [FloatFormat.pack, Nat.pow_add]
  ring

include hp

theorem magBits_pack : f.magBits (f.pack sign 0 p) = p := by
  rw [FloatFormat.magBits, pack_zero_eq, Nat.mul_add_mod, Nat.mod_eq_of_lt hp]

include hs

theorem signOf_pack : f.signOf (f.pack sign 0 p) = sign := by
  rw [FloatFormat.signOf, pack_zero_eq, Nat.mul_add_div (by positivity), Nat.div_eq_of_lt hp, Nat.add_zero,
    Nat.mod_eq_of_lt hs]

theorem pack_lt : f.pack sign 0 p < 2 ^ (f.expBits + f.fracBits + 1) := by
  rw [pack_zero_eq, Nat.pow_succ]
  nlinarith

end

/-- A pattern of the format's width is its sign and its magnitude bits. -/
theorem pack_parts {f : FloatFormat} {u : Nat} (hu : u < 2 ^ (f.expBits + f.fracBits + 1)) :
    f.pack (f.signOf u) 0 (f.magBits u) = u := by
  have hsign : u / 2 ^ (f.expBits + f.fracBits) < 2 := by
    rw [Nat.div_lt_iff_lt_mul (by positivity), Nat.mul_comm, ← Nat.pow_succ]
    exact hu
  rw [pack_zero_eq, FloatFormat.signOf, FloatFormat.magBits, Nat.mod_eq_of_lt hsign, Nat.div_add_mod]

theorem isFinite_iff (f : FloatFormat) (u : Nat) :
    f.isFinite u = true ↔ f.magBits u < f.expMax * 2 ^ f.fracBits := by
  have hle : f.magBits u / 2 ^ f.fracBits < f.expMax + 1 := by
    rw [Nat.div_lt_iff_lt_mul (by positivity), FloatFormat.expMax,
      Nat.sub_add_cancel (Nat.one_le_two_pow), ← Nat.pow_add]
    exact magBits_lt f u
  rw [FloatFormat.isFinite, bne_iff_ne, expOf_eq_magBits, ← Nat.div_lt_iff_lt_mul (by positivity)]
  omega

theorem isNan_iff (f : FloatFormat) (u : Nat) :
    f.isNan u = true ↔ f.magBits u / 2 ^ f.fracBits = f.expMax ∧ f.magBits u % 2 ^ f.fracBits ≠ 0 := by
  rw [FloatFormat.isNan, Bool.and_eq_true, beq_iff_eq, bne_iff_ne, expOf_eq_magBits, fracOf_eq_magBits]

/-! ### Magnitudes in units of the least subnormal -/

/-- The magnitude with the magnitude bits `p`, in units of the format's least subnormal (30_encoding.md R128). -/
def FloatFormat.units (f : FloatFormat) (p : Nat) : Nat :=
  if p / 2 ^ f.fracBits = 0 then p else (2 ^ f.fracBits + p % 2 ^ f.fracBits) * 2 ^ (p / 2 ^ f.fracBits - 1)

theorem magnitudeOf_eq_units (f : FloatFormat) (u : Nat) :
    magnitudeOf f u = f.units (f.magBits u) * (2 : ℚ) ^ (1 - (f.bias : Int) - f.fracBits) := by
  rw [magnitudeOf, FloatFormat.units, ← expOf_eq_magBits, fracOf_eq_magBits]
  split
  next h =>
    have hlt : f.magBits u < 2 ^ f.fracBits := by
      rw [expOf_eq_magBits] at h
      exact Nat.lt_of_div_eq_zero (by positivity) h
    rw [Nat.mod_eq_of_lt hlt]
  next h =>
    have hexp : (f.expOf u : Int) - f.bias - f.fracBits =
        ((f.expOf u - 1 : Nat) : Int) + (1 - (f.bias : Int) - f.fracBits) := by omega
    rw [hexp, zpow_add₀ two_ne_zero, zpow_natCast]
    push_cast
    ring

variable {f : FloatFormat}

/-- `q` steps of `2^g`: the magnitude bits `g * 2^fracBits + q` carry into the exponent by themselves. -/
theorem units_eq {g q : Nat} (hq : q ≤ 2 ^ (f.fracBits + 1)) (hg : g = 0 ∨ 2 ^ f.fracBits ≤ q) :
    f.units (g * 2 ^ f.fracBits + q) = q * 2 ^ g := by
  have hpos : 0 < 2 ^ f.fracBits := by positivity
  rw [Nat.pow_succ] at hq
  rw [FloatFormat.units, Nat.mul_comm g, Nat.mul_add_div hpos, Nat.mul_add_mod]
  rcases Nat.lt_or_ge q (2 ^ f.fracBits) with hlt | hge
  · obtain rfl : g = 0 := by omega
    rw [Nat.div_eq_of_lt hlt, if_pos rfl, Nat.mul_zero, Nat.zero_add, Nat.pow_zero, Nat.mul_one]
  · obtain ⟨b, rfl⟩ := Nat.exists_eq_add_of_le hge
    rw [Nat.add_div_left _ hpos, Nat.add_mod_left]
    rcases Nat.lt_or_ge b (2 ^ f.fracBits) with hb | hb
    · rw [Nat.div_eq_of_lt hb, Nat.mod_eq_of_lt hb, if_neg (by omega)]
      rfl
    · obtain rfl : b = 2 ^ f.fracBits := by omega
      rw [Nat.div_self hpos, Nat.mod_self, if_neg (by omega), Nat.add_zero,
        show g + (1 + 1) - 1 = g + 1 by omega, Nat.pow_succ]
      ring

/-- All magnitude bits are a step and a number of steps. -/
theorem exists_steps (f : FloatFormat) (p : Nat) :
    ∃ g q, p = g * 2 ^ f.fracBits + q ∧ q < 2 ^ (f.fracBits + 1) ∧ (g = 0 ∨ 2 ^ f.fracBits ≤ q) := by
  have hmod := Nat.mod_lt p (Nat.two_pow_pos f.fracBits)
  have hdiv := Nat.div_add_mod' p (2 ^ f.fracBits)
  rw [Nat.pow_succ]
  cases hexp : p / 2 ^ f.fracBits with
  | zero =>
    refine ⟨0, p, by omega, ?_, .inl rfl⟩
    rw [hexp] at hdiv
    omega
  | succ g =>
    refine ⟨g, 2 ^ f.fracBits + p % 2 ^ f.fracBits, ?_, by omega, .inr (Nat.le_add_right _ _)⟩
    rw [hexp, Nat.succ_mul] at hdiv
    omega

theorem units_strictMono (f : FloatFormat) : StrictMono f.units := by
  refine strictMono_nat_of_lt_succ fun p => ?_
  obtain ⟨g, q, rfl, hq, hg⟩ := exists_steps f p
  rw [Nat.add_assoc, units_eq hq.le hg, units_eq hq (hg.imp_right Nat.le_succ_of_le)]
  exact Nat.mul_lt_mul_of_pos_right (Nat.lt_succ_self q) (by positivity)

/-- The units of a format are positive rationals. -/
theorem unit_pos (f : FloatFormat) : 0 < (2 : ℚ) ^ (1 - (f.bias : Int) - f.fracBits) := by positivity

theorem magnitudeOf_le_iff (f : FloatFormat) (u v : Nat) :
    magnitudeOf f u ≤ magnitudeOf f v ↔ f.magBits u ≤ f.magBits v := by
  rw [magnitudeOf_eq_units, magnitudeOf_eq_units, mul_le_mul_iff_left₀ (unit_pos f), Nat.cast_le,
    (units_strictMono f).le_iff_le]

theorem magnitudeOf_inj (f : FloatFormat) {u v : Nat} (h : magnitudeOf f u = magnitudeOf f v) :
    f.magBits u = f.magBits v :=
  le_antisymm ((magnitudeOf_le_iff f u v).1 h.le) ((magnitudeOf_le_iff f v u).1 h.ge)

/-! ### Rounding a quotient -/

/-- Everything `roundEven` can do (42_codec_encode.md R304): down where the rest is at most half and the
quotient even or the rest less than half, else up. -/
theorem roundEven_cases (m d : Nat) :
    (roundEven m d = m / 2 ^ d ∧ (2 * (m % 2 ^ d) < 2 ^ d ∨ 2 * (m % 2 ^ d) = 2 ^ d ∧ m / 2 ^ d % 2 = 0)) ∨
    (roundEven m d = m / 2 ^ d + 1 ∧
      (2 ^ d < 2 * (m % 2 ^ d) ∨ 2 * (m % 2 ^ d) = 2 ^ d ∧ m / 2 ^ d % 2 = 1)) := by
  rw [roundEven]
  split
  next h => exact .inr ⟨rfl, by omega⟩
  next h => exact .inl ⟨rfl, by omega⟩

/-- Where a multiple of `D` stands against two neighbouring ones. -/
theorem multiple_cases (q j D : Nat) :
    (j < q ∧ j * D + D ≤ q * D) ∨ (j = q ∧ j * D = q * D) ∨ (j = q + 1 ∧ j * D = q * D + D) ∨
      (q + 1 < j ∧ q * D + D + D ≤ j * D) := by
  rcases Nat.lt_trichotomy j q with h | rfl | h
  · exact .inl ⟨h, Nat.succ_mul j D ▸ Nat.mul_le_mul_right D h⟩
  · exact .inr (.inl ⟨rfl, rfl⟩)
  · rcases Nat.eq_or_lt_of_le (Nat.add_one_le_iff.2 h) with rfl | h
    · exact .inr (.inr (.inl ⟨rfl, Nat.succ_mul q D⟩))
    · refine .inr (.inr (.inr ⟨h, ?_⟩))
      rw [← Nat.succ_mul, ← Nat.succ_mul]
      exact Nat.mul_le_mul_right D h

/-- No multiple of `2^d` is nearer to `m` than the rounded one; where another is as near, that one is even. -/
theorem roundEven_nearest (m d j : Nat) :
    Nat.dist m (roundEven m d * 2 ^ d) ≤ Nat.dist m (j * 2 ^ d) ∧
      (Nat.dist m (roundEven m d * 2 ^ d) = Nat.dist m (j * 2 ^ d) → j ≠ roundEven m d → roundEven m d % 2 = 0) := by
  have hm := Nat.div_add_mod' m (2 ^ d)
  have hr := Nat.mod_lt m (Nat.two_pow_pos d)
  have hup : (m / 2 ^ d + 1) * 2 ^ d = m / 2 ^ d * 2 ^ d + 2 ^ d := Nat.succ_mul _ _
  have hj := multiple_cases (m / 2 ^ d) j (2 ^ d)
  rcases roundEven_cases m d with ⟨hq, _⟩ | ⟨hq, _⟩
  · simp only [hq, Nat.dist]
    omega
  · simp only [hq, Nat.dist]
    omega

/-- From half a unit below an even number on, rounding gives that number or more. -/
theorem le_roundEven_iff {m d c : Nat} (hc : 0 < c) (heven : c % 2 = 0) :
    c ≤ roundEven m d ↔ (2 * c - 1) * 2 ^ d ≤ 2 * m := by
  have hm := Nat.div_add_mod' m (2 ^ d)
  have hr := Nat.mod_lt m (Nat.two_pow_pos d)
  have hcases := roundEven_cases m d
  have hhalf : (2 * c - 1) * 2 ^ d = 2 * ((c - 1) * 2 ^ d) + 2 ^ d := by
    obtain ⟨b, rfl⟩ := Nat.exists_eq_succ_of_ne_zero hc.ne'
    rw [Nat.succ_sub_one, show 2 * (b.succ) - 1 = 2 * b + 1 by omega]
    ring
  rw [hhalf]
  rcases Nat.lt_trichotomy (m / 2 ^ d) (c - 1) with hlt | heq | hgt
  · have : (m / 2 ^ d).succ * 2 ^ d ≤ (c - 1) * 2 ^ d := Nat.mul_le_mul_right _ hlt
    rw [Nat.succ_mul] at this
    omega
  · rw [← heq]
    omega
  · have : c * 2 ^ d ≤ m / 2 ^ d * 2 ^ d := Nat.mul_le_mul_right _ (by omega)
    have hpred : c * 2 ^ d = (c - 1) * 2 ^ d + 2 ^ d := by
      rw [← Nat.succ_mul, Nat.succ_eq_add_one, Nat.sub_add_cancel hc]
    omega

theorem roundEven_le {m d c : Nat} (h : m < c * 2 ^ d) : roundEven m d ≤ c := by
  have hdiv : m / 2 ^ d < c := (Nat.div_lt_iff_lt_mul (by positivity)).2 h
  rcases roundEven_cases m d with ⟨hq, -⟩ | ⟨hq, -⟩ <;> omega

theorem le_roundEven {m d c : Nat} (h : c * 2 ^ d ≤ m) : c ≤ roundEven m d := by
  have hdiv : c ≤ m / 2 ^ d := (Nat.le_div_iff_mul_le (by positivity)).2 h
  rcases roundEven_cases m d with ⟨hq, -⟩ | ⟨hq, -⟩ <;> omega

/-! ### The rounded operand -/

/-- What narrowing uses of binary16 and binary32. -/
structure FloatFormat.Narrow (f : FloatFormat) : Prop where
  fracBits_pos : 1 ≤ f.fracBits
  fracBits_le : f.fracBits ≤ 52
  bias_pos : 1 ≤ f.bias
  bias_le : f.bias ≤ 1023
  expMax_eq : f.expMax = 2 * f.bias + 1

theorem narrow_of_eq {f : FloatFormat} (h : f = binary16 ∨ f = binary32) : f.Narrow := by
  rcases h with rfl | rfl <;> exact ⟨by decide, by decide, by decide, by decide, by decide⟩

/-- The significand of a finite binary64 magnitude, an integer. -/
def significand (exp frac : Nat) : Nat := if exp = 0 then frac else 2 ^ 52 + frac

/-- The step of the target's magnitudes about a binary64 operand is `2 ^ stepOf` units. -/
def FloatFormat.stepOf (f : FloatFormat) (exp : Nat) : Nat := max exp 1 + f.bias - 1024

/-- The bits of the significand that rounding drops. -/
def FloatFormat.dropOf (f : FloatFormat) (exp : Nat) : Nat :=
  max (52 - f.fracBits) (1075 - f.fracBits + 1 - f.bias - max exp 1)

theorem narrowMagnitude_eq (f : FloatFormat) (exp frac : Nat) :
    narrowMagnitude f exp frac =
      f.stepOf exp * 2 ^ f.fracBits + roundEven (significand exp frac) (f.dropOf exp) := rfl

section
variable {f : FloatFormat} (hf : f.Narrow) {exp frac : Nat}
include hf

theorem significand_lt (hfrac : frac < 2 ^ 52) :
    significand exp frac < 2 ^ (f.fracBits + 1) * 2 ^ f.dropOf exp := by
  have hle := hf.fracBits_le
  have hexp : 53 ≤ f.fracBits + 1 + f.dropOf exp := by
    rw [FloatFormat.dropOf]
    omega
  have hlt : significand exp frac < 2 ^ 53 := by
    rw [significand]
    split <;> omega
  rw [← pow_add]
  exact hlt.trans_le (Nat.pow_le_pow_right two_pos hexp)

/-- A step greater than one unit is only taken for a significand with its leading bit. -/
theorem le_significand (exp frac : Nat) :
    f.stepOf exp = 0 ∨ 2 ^ f.fracBits * 2 ^ f.dropOf exp ≤ significand exp frac := by
  obtain ⟨-, hfb, -, hb, -⟩ := hf
  rcases Nat.eq_zero_or_pos (f.stepOf exp) with h | h
  · exact .inl h
  · right
    unfold FloatFormat.stepOf at h
    have hdrop : f.fracBits + f.dropOf exp = 52 := by
      unfold FloatFormat.dropOf
      omega
    have hpow : 2 ^ f.fracBits * 2 ^ f.dropOf exp = 2 ^ 52 := by rw [← pow_add, hdrop]
    have hsig : significand exp frac = 2 ^ 52 + frac := if_neg (by omega)
    omega

theorem units_narrowMagnitude (hfrac : frac < 2 ^ 52) : f.units (narrowMagnitude f exp frac) =
    roundEven (significand exp frac) (f.dropOf exp) * 2 ^ f.stepOf exp := by
  rw [narrowMagnitude_eq]
  exact units_eq (roundEven_le (significand_lt hf hfrac)) ((le_significand hf exp frac).imp_right le_roundEven)

/-- The operand's magnitude, in parts `1 / 2^drop` of the target's units. -/
theorem magnitudeOf_binary64_eq (x : Nat) :
    magnitudeOf binary64 x =
      (significand (binary64.expOf x) (binary64.fracOf x) * 2 ^ f.stepOf (binary64.expOf x) : Nat) *
        (2 : ℚ) ^ (1 - (f.bias : Int) - f.fracBits - f.dropOf (binary64.expOf x)) := by
  obtain ⟨-, hfb, -, hb, -⟩ := hf
  have hexp : ∀ e : Nat, e = max (binary64.expOf x) 1 →
      (f.stepOf (binary64.expOf x) : Int) + (1 - (f.bias : Int) - f.fracBits - f.dropOf (binary64.expOf x)) =
        e - 1075 := by
    intro e he
    unfold FloatFormat.stepOf FloatFormat.dropOf
    omega
  rw [Nat.cast_mul, Nat.cast_pow, Nat.cast_ofNat, mul_assoc, ← zpow_natCast (2 : ℚ), ← zpow_add₀ two_ne_zero,
    hexp _ rfl, magnitudeOf, significand]
  split
  next h =>
    rw [h, max_eq_right zero_le_one, show (binary64.bias : Int) = 1023 from rfl,
      show (binary64.fracBits : Int) = 52 from rfl]
    norm_num
  next h =>
    have hmax : max (binary64.expOf x) 1 = binary64.expOf x := by omega
    have hbias : (binary64.expOf x : Int) - binary64.bias - binary64.fracBits = binary64.expOf x - 1075 := by
      rw [show (binary64.bias : Int) = 1023 from rfl, show (binary64.fracBits : Int) = 52 from rfl]
      ring
    rw [hmax, hbias, show binary64.fracBits = 52 from rfl]
    push_cast
    rfl

end

/-- A magnitude of the target, in the same parts. -/
theorem magnitudeOf_eq_parts (f : FloatFormat) (u d : Nat) :
    magnitudeOf f u = (f.units (f.magBits u) * 2 ^ d : Nat) * (2 : ℚ) ^ (1 - (f.bias : Int) - f.fracBits - d) := by
  rw [magnitudeOf_eq_units, zpow_sub₀ two_ne_zero _ (d : Int), zpow_natCast]
  push_cast
  field_simp

theorem abs_sub_eq_dist (a b : Nat) {c : ℚ} (hc : 0 < c) : |a * c - b * c| = Nat.dist a b * c := by
  rw [← sub_mul, abs_mul, abs_of_pos hc]
  congr 1
  rcases Nat.le_total a b with h | h
  · rw [Nat.dist_eq_sub_of_le h, Nat.cast_sub h, abs_sub_comm, abs_of_nonneg (by simpa using h)]
  · rw [Nat.dist_eq_sub_of_le_right h, Nat.cast_sub h, abs_of_nonneg (by simpa using h)]

/-- No magnitude of the format is nearer to `m / 2^d` steps of `2^g` than the rounded one; where another is as
near, the rounded number of steps is even. -/
theorem units_nearest {f : FloatFormat} {m d g : Nat} (hg : g = 0 ∨ 2 ^ f.fracBits * 2 ^ d ≤ m) (p : Nat) :
    Nat.dist (m * 2 ^ g) (roundEven m d * 2 ^ g * 2 ^ d) ≤ Nat.dist (m * 2 ^ g) (f.units p * 2 ^ d) ∧
      (Nat.dist (m * 2 ^ g) (roundEven m d * 2 ^ g * 2 ^ d) = Nat.dist (m * 2 ^ g) (f.units p * 2 ^ d) →
        f.units p ≠ roundEven m d * 2 ^ g → roundEven m d % 2 = 0) := by
  have hpow : 0 < 2 ^ g := by positivity
  have hscaled (j : Nat) : Nat.dist (m * 2 ^ g) (j * 2 ^ g * 2 ^ d) = Nat.dist m (j * 2 ^ d) * 2 ^ g := by
    rw [Nat.mul_right_comm, Nat.dist_mul_right]
  obtain ⟨g', q', rfl, hq', hg'⟩ := exists_steps f p
  rw [units_eq hq'.le hg', hscaled]
  rcases Nat.lt_or_ge g' g with hlt | hge
  · have hm : 2 ^ f.fracBits * 2 ^ d ≤ m := hg.resolve_left (by omega)
    have hfar : q' * 2 ^ g' * 2 ^ d < 2 ^ f.fracBits * 2 ^ d * 2 ^ g := by
      have hsmall : q' * 2 ^ g' < 2 ^ f.fracBits * 2 ^ g := calc
        q' * 2 ^ g' < 2 ^ (f.fracBits + 1) * 2 ^ g' := Nat.mul_lt_mul_of_pos_right hq' (by positivity)
        _ = 2 ^ f.fracBits * 2 ^ (g' + 1) := by ring
        _ ≤ 2 ^ f.fracBits * 2 ^ g := Nat.mul_le_mul_left _ (Nat.pow_le_pow_right two_pos hlt)
      rw [Nat.mul_right_comm (2 ^ f.fracBits)]
      exact Nat.mul_lt_mul_of_pos_right hsmall (by positivity)
    have hleast : Nat.dist m (2 ^ f.fracBits * 2 ^ d) * 2 ^ g = m * 2 ^ g - 2 ^ f.fracBits * 2 ^ d * 2 ^ g := by
      rw [Nat.dist_eq_sub_of_le_right hm, Nat.sub_mul]
    have hnear := Nat.mul_le_mul_right (2 ^ g) (roundEven_nearest m d (2 ^ f.fracBits)).1
    have hm' := Nat.mul_le_mul_right (2 ^ g) hm
    rw [hleast] at hnear
    rw [Nat.dist_eq_sub_of_le_right (hfar.le.trans hm')]
    have hlt := hnear.trans_lt (Nat.sub_lt_sub_left (hfar.trans_le hm') hfar)
    exact ⟨hlt.le, fun heq => absurd heq hlt.ne⟩
  · obtain ⟨k, rfl⟩ := Nat.exists_eq_add_of_le hge
    have hmul : q' * 2 ^ (g + k) = q' * 2 ^ k * 2 ^ g := by ring
    obtain ⟨hle, htie⟩ := roundEven_nearest m d (q' * 2 ^ k)
    rw [hmul, hscaled]
    refine ⟨Nat.mul_le_mul_right _ hle, fun heq hne => htie (Nat.eq_of_mul_eq_mul_right hpow heq) fun h => ?_⟩
    exact hne (by rw [h])

/-- The rounded magnitude bits reach infinity's exactly from half a unit beyond the greatest finite value on. -/
theorem overflow_iff {F B m d g : Nat} (hB : 1 ≤ B) (hlt : m < 2 ^ (F + 1) * 2 ^ d)
    (hg : g = 0 ∨ 2 ^ F * 2 ^ d ≤ m) :
    (2 * B + 1) * 2 ^ F ≤ g * 2 ^ F + roundEven m d ↔
      (2 ^ (F + 2) - 1) * 2 ^ (2 * B - 2) * 2 ^ d ≤ m * 2 ^ g := by
  have hF : 0 < 2 ^ F := by positivity
  have htop : 2 ^ (F + 1) = 2 * 2 ^ F := by ring
  have htop' : 2 ^ (F + 2) = 4 * 2 ^ F := by ring
  have hq := roundEven_le hlt
  rcases Nat.lt_trichotomy g (2 * B - 1) with hsmall | rfl | hlarge
  · have hleft : g * 2 ^ F ≤ (2 * B - 2) * 2 ^ F := Nat.mul_le_mul_right _ (by omega)
    have hsplit : (2 * B + 1) * 2 ^ F = (2 * B - 2) * 2 ^ F + 3 * 2 ^ F := by rw [← Nat.add_mul]; congr 1; omega
    have hright : m * 2 ^ g < (2 ^ (F + 2) - 1) * 2 ^ (2 * B - 2) * 2 ^ d := calc
      m * 2 ^ g < 2 ^ (F + 1) * 2 ^ d * 2 ^ g := Nat.mul_lt_mul_of_pos_right hlt (by positivity)
      _ ≤ 2 ^ (F + 1) * 2 ^ d * 2 ^ (2 * B - 2) :=
        Nat.mul_le_mul_left _ (Nat.pow_le_pow_right two_pos (by omega))
      _ = 2 ^ (F + 1) * 2 ^ (2 * B - 2) * 2 ^ d := by ring
      _ ≤ (2 ^ (F + 2) - 1) * 2 ^ (2 * B - 2) * 2 ^ d :=
        Nat.mul_le_mul_right _ (Nat.mul_le_mul_right _ (by omega))
    omega
  · have hleft : (2 * B + 1) * 2 ^ F = (2 * B - 1) * 2 ^ F + 2 ^ (F + 1) := by
      rw [htop, ← Nat.add_mul]; congr 1; omega
    have hstep : 2 ^ (2 * B - 1) = 2 * 2 ^ (2 * B - 2) := by
      rw [← Nat.pow_succ']; congr 1; omega
    have hround := le_roundEven_iff (m := m) (d := d) (c := 2 ^ (F + 1)) (by positivity) (by omega)
    have hc : 2 * 2 ^ (F + 1) - 1 = 2 ^ (F + 2) - 1 := by omega
    have hcancel : (2 ^ (F + 2) - 1) * 2 ^ (2 * B - 2) * 2 ^ d ≤ m * 2 ^ (2 * B - 1) ↔
        (2 ^ (F + 2) - 1) * 2 ^ d ≤ 2 * m := by
      rw [hstep, Nat.mul_right_comm, ← Nat.mul_assoc, Nat.mul_comm m 2]
      exact Nat.mul_le_mul_right_iff (by positivity)
    rw [hleft, Nat.add_le_add_iff_left, hcancel, hround, hc]
  · have hm : 2 ^ F * 2 ^ d ≤ m := hg.resolve_left (by omega)
    have hqge := le_roundEven hm
    have hleft : 2 * B * 2 ^ F ≤ g * 2 ^ F := Nat.mul_le_mul_right _ (by omega)
    have hsplit : (2 * B + 1) * 2 ^ F = 2 * B * 2 ^ F + 2 ^ F := Nat.succ_mul _ _
    have hright : (2 ^ (F + 2) - 1) * 2 ^ (2 * B - 2) * 2 ^ d ≤ m * 2 ^ g := calc
      (2 ^ (F + 2) - 1) * 2 ^ (2 * B - 2) * 2 ^ d ≤ 2 ^ (F + 2) * 2 ^ (2 * B - 2) * 2 ^ d :=
        Nat.mul_le_mul_right _ (Nat.mul_le_mul_right _ (Nat.sub_le _ _))
      _ = 2 ^ F * 2 ^ d * 2 ^ (2 + (2 * B - 2)) := by ring
      _ ≤ m * 2 ^ g := Nat.mul_le_mul hm (Nat.pow_le_pow_right two_pos (by omega))
    omega

/-! ### The narrowed pattern -/

theorem narrowIeee_of_finite (f : FloatFormat) {x : Nat} (h : binary64.isFinite x = true) :
    narrowIeee f x = f.pack (binary64.signOf x) 0
      (min (narrowMagnitude f (binary64.expOf x) (binary64.fracOf x)) (f.expMax * 2 ^ f.fracBits)) := by
  have hexp : binary64.expOf x ≠ binary64.expMax := by simpa [FloatFormat.isFinite] using h
  have hnan : ¬ binary64.isNan x = true := by simp [FloatFormat.isNan, hexp]
  rw [narrowIeee]
  rw [if_neg hnan, if_neg hexp]

theorem narrowIeee_of_infinite (f : FloatFormat) {x : Nat} (hfin : binary64.isFinite x = false)
    (hnan : binary64.isNan x = false) : narrowIeee f x = f.pack (binary64.signOf x) f.expMax 0 := by
  have hexp : binary64.expOf x = binary64.expMax := by simpa [FloatFormat.isFinite] using hfin
  rw [narrowIeee]
  rw [if_neg (Bool.eq_false_iff.1 hnan), if_pos hexp]

theorem narrowIeee_of_nan (f : FloatFormat) {x : Nat} (h : binary64.isNan x = true) :
    narrowIeee f x = f.pack (binary64.signOf x) f.expMax
      ((binary64.fracOf x / 2 ^ (52 - f.fracBits)) ||| 2 ^ (f.fracBits - 1)) := by
  rw [narrowIeee]
  rw [if_pos h]

theorem fracOf_binary64_lt (x : Nat) : binary64.fracOf x < 2 ^ 52 := Nat.mod_lt _ (by positivity)

theorem min_expMax_lt (f : FloatFormat) (p : Nat) :
    min p (f.expMax * 2 ^ f.fracBits) < 2 ^ (f.expBits + f.fracBits) :=
  (Nat.min_le_right _ _).trans_lt (expMax_mul_lt f)

section
variable {f : FloatFormat} (hf : f.Narrow) {x : Nat} (hfin : binary64.isFinite x = true)
include hfin

theorem signOf_narrowIeee : f.signOf (narrowIeee f x) = binary64.signOf x := by
  rw [narrowIeee_of_finite f hfin, signOf_pack (signOf_lt _ _) (min_expMax_lt f _)]

theorem magBits_narrowIeee : f.magBits (narrowIeee f x) =
    min (narrowMagnitude f (binary64.expOf x) (binary64.fracOf x)) (f.expMax * 2 ^ f.fracBits) := by
  rw [narrowIeee_of_finite f hfin, magBits_pack (min_expMax_lt f _)]

theorem isFinite_narrowIeee_iff : f.isFinite (narrowIeee f x) = true ↔
    narrowMagnitude f (binary64.expOf x) (binary64.fracOf x) < f.expMax * 2 ^ f.fracBits := by
  rw [isFinite_iff, magBits_narrowIeee hfin]
  omega

/-- A finite operand that overflows becomes infinity. -/
theorem narrowIeee_of_overflow (h : f.isFinite (narrowIeee f x) = false) :
    narrowIeee f x = f.pack (binary64.signOf x) f.expMax 0 := by
  have hge : f.expMax * 2 ^ f.fracBits ≤ narrowMagnitude f (binary64.expOf x) (binary64.fracOf x) := by
    rw [← Nat.not_lt, ← isFinite_narrowIeee_iff hfin, h]
    exact Bool.false_ne_true
  rw [narrowIeee_of_finite f hfin, Nat.min_eq_right hge, pack_eq_pack_zero _ f.expMax, Nat.add_zero]

include hf

/-- Infinity exactly from half a unit beyond the greatest finite value on. -/
theorem narrowIeee_overflow_iff : f.isFinite (narrowIeee f x) = false ↔
    (2 ^ (f.fracBits + 2) - 1) * 2 ^ ((f.bias : Int) - f.fracBits - 1) ≤ magnitudeOf binary64 x := by
  have hfrac := fracOf_binary64_lt x
  have hB := hf.bias_pos
  have hsub : 1 ≤ 2 ^ (f.fracBits + 2) := Nat.one_le_two_pow
  have hthreshold : (2 ^ (f.fracBits + 2) - 1) * (2 : ℚ) ^ ((f.bias : Int) - f.fracBits - 1) =
      ((2 ^ (f.fracBits + 2) - 1) * 2 ^ (2 * f.bias - 2) * 2 ^ f.dropOf (binary64.expOf x) : Nat) *
        (2 : ℚ) ^ (1 - (f.bias : Int) - f.fracBits - f.dropOf (binary64.expOf x)) := by
    push_cast [hsub]
    rw [mul_assoc, mul_assoc, ← zpow_natCast (2 : ℚ) (2 * f.bias - 2), ← zpow_natCast (2 : ℚ) (f.dropOf _),
      ← zpow_add₀ two_ne_zero, ← zpow_add₀ two_ne_zero]
    congr 2
    omega
  rw [Bool.eq_false_iff, Ne, isFinite_narrowIeee_iff hfin, Nat.not_lt, narrowMagnitude_eq, hf.expMax_eq,
    overflow_iff hB (significand_lt hf hfrac) (le_significand hf _ _), hthreshold, magnitudeOf_binary64_eq hf,
    mul_le_mul_iff_left₀ (by positivity), Nat.cast_le]

/-- The finite result is a nearest value of the format; where another is as near, its number of steps, and so
its fraction, is even. -/
theorem narrowIeee_nearest (h : f.isFinite (narrowIeee f x) = true) (k : Nat) :
    |magnitudeOf binary64 x - magnitudeOf f (narrowIeee f x)| ≤ |magnitudeOf binary64 x - magnitudeOf f k| ∧
      (|magnitudeOf binary64 x - magnitudeOf f (narrowIeee f x)| = |magnitudeOf binary64 x - magnitudeOf f k| →
        magnitudeOf f k ≠ magnitudeOf f (narrowIeee f x) → narrowIeee f x % 2 = 0) := by
  have hlt := (isFinite_narrowIeee_iff hfin).1 h
  have hmag : f.magBits (narrowIeee f x) = narrowMagnitude f (binary64.expOf x) (binary64.fracOf x) := by
    rw [magBits_narrowIeee hfin, Nat.min_eq_left hlt.le]
  have heven : narrowIeee f x % 2 =
      roundEven (significand (binary64.expOf x) (binary64.fracOf x)) (f.dropOf (binary64.expOf x)) % 2 := by
    obtain ⟨b, hb⟩ := Nat.exists_eq_succ_of_ne_zero (Nat.one_le_iff_ne_zero.1 hf.fracBits_pos)
    have htwice : narrowIeee f x = 2 * (2 ^ (f.expBits + b) * binary64.signOf x +
        f.stepOf (binary64.expOf x) * 2 ^ b) +
          roundEven (significand (binary64.expOf x) (binary64.fracOf x)) (f.dropOf (binary64.expOf x)) := by
      rw [narrowIeee_of_finite f hfin, Nat.min_eq_left hlt.le, pack_zero_eq, narrowMagnitude_eq, hb,
        Nat.succ_eq_add_one]
      ring
    rw [htwice, Nat.mul_add_mod]
  have hunits := units_narrowMagnitude hf (exp := binary64.expOf x) (fracOf_binary64_lt x)
  obtain ⟨hle, htie⟩ := units_nearest (le_significand hf (binary64.expOf x) (binary64.fracOf x)) (f.magBits k)
  rw [magnitudeOf_eq_parts f k (f.dropOf (binary64.expOf x)),
    magnitudeOf_eq_parts f (narrowIeee f x) (f.dropOf (binary64.expOf x)), magnitudeOf_binary64_eq hf, hmag,
    hunits, abs_sub_eq_dist _ _ (by positivity), abs_sub_eq_dist _ _ (by positivity), heven]
  refine ⟨mul_le_mul_of_nonneg_right (Nat.cast_le.2 hle) (by positivity), fun heq hne => htie ?_ fun h => ?_⟩
  · exact Nat.cast_injective (mul_right_cancel₀ (by positivity) heq)
  · exact hne (by rw [h])

end

theorem testBit_fracOf (f : FloatFormat) (u : Nat) {i : Nat} (hi : i < f.fracBits) :
    (f.fracOf u).testBit i = u.testBit i := by
  rw [FloatFormat.fracOf, Nat.testBit_mod_two_pow, decide_eq_true hi, Bool.true_and]

theorem expMax_add_lt (f : FloatFormat) {frac : Nat} (h : frac < 2 ^ f.fracBits) :
    f.expMax * 2 ^ f.fracBits + frac < 2 ^ (f.expBits + f.fracBits) := by
  have hexp : (f.expMax + 1) * 2 ^ f.fracBits = 2 ^ (f.expBits + f.fracBits) := by
    rw [FloatFormat.expMax, Nat.sub_add_cancel Nat.one_le_two_pow, pow_add]
  rw [← hexp, Nat.succ_mul]
  omega

/-- A pattern with all exponent bits set, by its fraction: a NaN, or infinity where that is 0. -/
theorem pack_expMax {f : FloatFormat} {sign frac : Nat} (hs : sign < 2) (h : frac < 2 ^ f.fracBits) :
    f.signOf (f.pack sign f.expMax frac) = sign ∧ f.fracOf (f.pack sign f.expMax frac) = frac ∧
      f.isFinite (f.pack sign f.expMax frac) = false ∧ f.isNan (f.pack sign f.expMax frac) = (frac != 0) := by
  have hpos : 0 < 2 ^ f.fracBits := by positivity
  have hexp : f.expOf (f.pack sign f.expMax frac) = f.expMax := by
    rw [expOf_eq_magBits, pack_eq_pack_zero, magBits_pack (expMax_add_lt f h), Nat.mul_comm,
      Nat.mul_add_div hpos, Nat.div_eq_of_lt h, Nat.add_zero]
  have hfrac : f.fracOf (f.pack sign f.expMax frac) = frac := by
    rw [fracOf_eq_magBits, pack_eq_pack_zero, magBits_pack (expMax_add_lt f h), Nat.mul_comm, Nat.mul_add_mod,
      Nat.mod_eq_of_lt h]
  refine ⟨?_, hfrac, ?_, ?_⟩
  · rw [pack_eq_pack_zero, signOf_pack hs (expMax_add_lt f h)]
  · rw [FloatFormat.isFinite, hexp, bne_self_eq_false]
  · rw [FloatFormat.isNan, hexp, hfrac, beq_self_eq_true, Bool.true_and]

theorem quietFrac_lt {f : FloatFormat} (hf : f.Narrow) (x : Nat) :
    (binary64.fracOf x / 2 ^ (52 - f.fracBits)) ||| 2 ^ (f.fracBits - 1) < 2 ^ f.fracBits := by
  obtain ⟨hpos, hle, -, -, -⟩ := hf
  refine Nat.or_lt_two_pow ?_ (Nat.pow_lt_pow_right (by decide) (by omega))
  rw [Nat.div_lt_iff_lt_mul (by positivity), ← pow_add, Nat.add_sub_cancel' hle]
  exact fracOf_binary64_lt x

/-- The quiet NaN keeps the sign and the top fraction bits, with the quiet bit set. -/
theorem narrowIeee_nan {f : FloatFormat} (hf : f.Narrow) {x : Nat} (h : binary64.isNan x = true) :
    f.isNan (narrowIeee f x) = true ∧ f.signOf (narrowIeee f x) = binary64.signOf x ∧
      (f.fracOf (narrowIeee f x)).testBit (f.fracBits - 1) = true ∧
      ∀ i < f.fracBits - 1, (narrowIeee f x).testBit i = x.testBit (52 - f.fracBits + i) := by
  have hle := hf.fracBits_le
  obtain ⟨hsign, hfrac, -, hnan⟩ := pack_expMax (signOf_lt binary64 x) (quietFrac_lt hf x)
  rw [← narrowIeee_of_nan f h] at hsign hfrac hnan
  have hset : (f.fracOf (narrowIeee f x)).testBit (f.fracBits - 1) = true := by
    rw [hfrac, Nat.testBit_or, Nat.testBit_two_pow_self, Bool.or_true]
  refine ⟨?_, hsign, hset, fun i hi => ?_⟩
  · rw [hnan, ← hfrac, bne_iff_ne]
    intro hzero
    rw [hzero, Nat.zero_testBit] at hset
    cases hset
  · rw [← testBit_fracOf f _ (by omega), hfrac, Nat.testBit_or, Nat.testBit_two_pow_of_ne (by omega),
      Bool.or_false, Nat.testBit_div_two_pow, Nat.add_comm]
    exact testBit_fracOf binary64 x (show _ < 52 by omega)

/-- Settles O27: a finite operand by the rounding of its significand, an infinity and a NaN by their branches. -/
theorem narrowingRoundsToNearest : Obligations.NarrowingRoundsToNearest := by
  intro f hf x _
  have hnarrow := narrow_of_eq hf
  refine ⟨fun hfin => ⟨signOf_narrowIeee hfin, fun h k _ => narrowIeee_nearest hnarrow hfin h k,
    narrowIeee_overflow_iff hnarrow hfin, fun h => ?_⟩, narrowIeee_of_infinite f, narrowIeee_nan hnarrow⟩
  rw [narrowIeee_of_overflow hfin h]
  exact (pack_expMax (signOf_lt _ _) (by positivity)).2.2.2

end Sys2Proof.Machine
end

section
/-! ENC.FLOAT (42_codec_encode.md R304, R308). The clamp of Saturated mode compares magnitude bits, which is to
compare magnitudes; an operand that is a value of the format is narrowed to that value, since no other is as
near. -/

namespace Sys2Proof.Machine

/-! ### The greatest finite values -/

/-- The binary64 pattern of MAX16 or MAX32 (42_codec_encode.md R304). -/
def maxPattern (n : Nat) : BitVec 64 := if n = 16 then max16 else max32

section
variable {n : Nat} (hn : n = 16 ∨ n = 32)
include hn

theorem narrow_narrowFormat : (narrowFormat n).Narrow :=
  narrow_of_eq (hn.imp (fun h => by rw [h]; rfl) fun h => by rw [h]; rfl)

theorem narrowFormat_width : (narrowFormat n).expBits + (narrowFormat n).fracBits + 1 = n := by
  rcases hn with rfl | rfl <;> rfl

theorem maxPattern_lt : (maxPattern n).toNat < binary64.expMax * 2 ^ binary64.fracBits := by
  rcases hn with rfl | rfl <;> decide

theorem magnitudeOf_maxPattern : magnitudeOf binary64 (maxPattern n).toNat = maxFinite n := by
  rcases hn with rfl | rfl <;> decide +kernel

/-- The greatest finite pattern stands just before infinity's. -/
theorem magnitudeOf_greatest :
    magnitudeOf (narrowFormat n) ((narrowFormat n).expMax * 2 ^ (narrowFormat n).fracBits - 1) = maxFinite n := by
  rcases hn with rfl | rfl <;> decide +kernel

theorem maxFinite_lt_overflow : maxFinite n < (2 ^ ((narrowFormat n).fracBits + 2) - 1) *
    2 ^ (((narrowFormat n).bias : Int) - (narrowFormat n).fracBits - 1) := by
  rcases hn with rfl | rfl <;> decide +kernel

/-- 2^16, and 2^128, overflow. -/
theorem overflow_le : (2 ^ ((narrowFormat n).fracBits + 2) - 1) *
    2 ^ (((narrowFormat n).bias : Int) - (narrowFormat n).fracBits - 1) ≤
      magnitudeOf binary64 ((if n = 16 then 1039 else 1151) * 2 ^ 52) := by
  rcases hn with rfl | rfl <;> decide +kernel

/-- A finite value of the format is at most the greatest. -/
theorem magnitudeOf_le_maxFinite {k : Nat} (hk : (narrowFormat n).isFinite k = true) :
    magnitudeOf (narrowFormat n) k ≤ maxFinite n := by
  have hlt := (isFinite_iff _ _).1 hk
  have hmod : (narrowFormat n).magBits ((narrowFormat n).expMax * 2 ^ (narrowFormat n).fracBits - 1) =
      (narrowFormat n).expMax * 2 ^ (narrowFormat n).fracBits - 1 :=
    Nat.mod_eq_of_lt ((Nat.sub_le _ _).trans_lt (expMax_mul_lt _))
  rw [← magnitudeOf_greatest hn, magnitudeOf_le_iff, hmod]
  exact Nat.le_sub_one_of_lt hlt

end

/-! ### The clamp of Saturated mode -/

theorem magnitude_toNat (x : BitVec 64) : (magnitude x).toNat = binary64.magBits x.toNat := by
  rw [magnitude, BitVec.toNat_and]
  exact Nat.and_two_pow_sub_one_eq_mod x.toNat 63

/-- The sign of `x` with the magnitude bits `p`. -/
theorem signed_toNat (x p : BitVec 64) (hp : p.toNat < 2 ^ 63) :
    binary64.signOf ((x &&& 0x8000000000000000) ||| p).toNat = binary64.signOf x.toNat ∧
      binary64.magBits ((x &&& 0x8000000000000000) ||| p).toNat = p.toNat := by
  rw [BitVec.toNat_or, BitVec.toNat_and, show (0x8000000000000000 : BitVec 64).toNat = 2 ^ 63 from rfl]
  constructor
  · show _ / 2 ^ 63 % 2 = x.toNat / 2 ^ 63 % 2
    rw [← Nat.toNat_testBit, ← Nat.toNat_testBit, Nat.testBit_or, Nat.testBit_and, Nat.testBit_two_pow_self,
      Nat.testBit_lt_two_pow hp, Bool.and_true, Bool.or_false]
  · show _ % 2 ^ 63 = p.toNat
    rw [Nat.or_mod_two_pow, Nat.and_mod_two_pow, Nat.mod_self, Nat.and_zero, Nat.zero_or, Nat.mod_eq_of_lt hp]

theorem magnitudeOf_congr {f : FloatFormat} {u v : Nat} (h : f.magBits u = f.magBits v) :
    magnitudeOf f u = magnitudeOf f v := by
  rw [magnitudeOf_eq_units, magnitudeOf_eq_units, h]

theorem eq_pack_of_infinite {f : FloatFormat} {k : Nat} (hk : k < 2 ^ (f.expBits + f.fracBits + 1))
    (hfin : f.isFinite k = false) (hnan : f.isNan k = false) : k = f.pack (f.signOf k) f.expMax 0 := by
  have hexp : f.expOf k = f.expMax := by simpa [FloatFormat.isFinite] using hfin
  have hfrac : f.fracOf k = 0 := by simpa [FloatFormat.isNan, hexp] using hnan
  have hmag : f.magBits k = f.expMax * 2 ^ f.fracBits + 0 := by
    rw [← Nat.div_add_mod' (f.magBits k) (2 ^ f.fracBits), ← expOf_eq_magBits, ← fracOf_eq_magBits, hexp, hfrac]
  rw [pack_eq_pack_zero, ← hmag, pack_parts hk]

theorem isFinite_of_isNan {f : FloatFormat} {u : Nat} (h : f.isNan u = true) : f.isFinite u = false := by
  rw [FloatFormat.isNan, Bool.and_eq_true, beq_iff_eq] at h
  rw [FloatFormat.isFinite, h.1, bne_self_eq_false]

theorem isNan_of_isFinite {f : FloatFormat} {u : Nat} (h : f.isFinite u = true) : f.isNan u = false := by
  rw [Bool.eq_false_iff]
  intro hnan
  rw [isFinite_of_isNan hnan] at h
  cases h

section
variable {n : Nat} (hn : n = 16 ∨ n = 32)
include hn

theorem exceeds_maxFinite_iff (x : BitVec 64) :
    maxFinite n < magnitudeOf binary64 x.toNat ↔ (maxPattern n).toNat < (magnitude x).toNat := by
  have hmod : binary64.magBits (maxPattern n).toNat = (maxPattern n).toNat :=
    Nat.mod_eq_of_lt ((maxPattern_lt hn).trans (expMax_mul_lt binary64))
  rw [← magnitudeOf_maxPattern hn, ← not_le, magnitudeOf_le_iff, not_le, magnitude_toNat, hmod]

/-- The clamp leaves every operand that is no finite value beyond the greatest of the format. -/
theorem castFloatInput_of_within {cm : CastMode} {x : BitVec 64}
    (h : ¬ (cm = .saturated ∧ binary64.isFinite x.toNat = true ∧ maxFinite n < magnitudeOf binary64 x.toNat)) :
    castFloatInput (maxPattern n) cm x = x := by
  rw [exceeds_maxFinite_iff hn] at h
  cases cm with
  | truncated => rfl
  | saturated => exact if_neg fun hx => h ⟨rfl, hx⟩

/-- The clamp gives the others the greatest magnitude and leaves their sign. -/
theorem castFloatInput_of_beyond {x : BitVec 64} (hfin : binary64.isFinite x.toNat = true)
    (hgt : maxFinite n < magnitudeOf binary64 x.toNat) :
    binary64.isFinite (castFloatInput (maxPattern n) .saturated x).toNat = true ∧
      binary64.signOf (castFloatInput (maxPattern n) .saturated x).toNat = binary64.signOf x.toNat ∧
      magnitudeOf binary64 (castFloatInput (maxPattern n) .saturated x).toNat = maxFinite n := by
  have hlt := (maxPattern_lt hn).trans (expMax_mul_lt binary64)
  obtain ⟨hsign, hmag⟩ := signed_toNat x (maxPattern n) hlt
  rw [castFloatInput, clampFloat, if_pos ⟨hfin, (exceeds_maxFinite_iff hn x).1 hgt⟩]
  refine ⟨?_, hsign, ?_⟩
  · rw [isFinite_iff, hmag]
    exact maxPattern_lt hn
  · rw [← magnitudeOf_maxPattern hn]
    exact magnitudeOf_congr (hmag.trans (Nat.mod_eq_of_lt hlt).symm)

/-- What the conversion is given is the operand, clamped in Saturated mode (42_codec_encode.md R304). -/
theorem clampedTo_castFloatInput (cm : CastMode) (x : BitVec 64) :
    ClampedTo n cm x (castFloatInput (maxPattern n) cm x) := by
  rw [ClampedTo]
  split
  next h =>
    obtain ⟨rfl, hfin, hgt⟩ := h
    exact castFloatInput_of_beyond hn hfin hgt
  next h => exact castFloatInput_of_within hn h

/-! ### Operands that are values of the format -/

/-- A value of the format is narrowed to itself (42_codec_encode.md R304): no other value is as near. -/
theorem narrowIeee_of_sameValue {k x : Nat} (hk : k < 2 ^ n) (hnan : (narrowFormat n).isNan k = false)
    (h : SameValue (narrowFormat n) k x) : narrowIeee (narrowFormat n) x = k := by
  obtain ⟨hxnan, hsign, hfin, hmag⟩ := h
  have hf := narrow_narrowFormat hn
  rw [← narrowFormat_width hn] at hk
  cases hkfin : (narrowFormat n).isFinite k with
  | false =>
    rw [hkfin] at hfin
    rw [narrowIeee_of_infinite _ hfin hxnan, hsign]
    exact (eq_pack_of_infinite hk hkfin hnan).symm
  | true =>
    rw [hkfin] at hfin
    have hmag := hmag hkfin
    have hrfin : (narrowFormat n).isFinite (narrowIeee (narrowFormat n) x) = true := by
      rw [← Bool.not_eq_false, narrowIeee_overflow_iff hf hfin, hmag, not_le]
      exact (magnitudeOf_le_maxFinite hn hkfin).trans_lt (maxFinite_lt_overflow hn)
    have hnear := (narrowIeee_nearest hf hfin hrfin k).1
    rw [hmag, sub_self, abs_zero, abs_nonpos_iff, sub_eq_zero] at hnear
    have hbits := magnitudeOf_inj _ hnear
    rw [magBits_narrowIeee hfin] at hbits
    rw [narrowIeee_of_finite _ hfin, ← hbits, hsign, pack_parts hk]

/-- A clamped operand is narrowed to the greatest finite pattern with its sign. -/
theorem narrowIeee_of_maxFinite {y : Nat} (hfin : binary64.isFinite y = true)
    (hmag : magnitudeOf binary64 y = maxFinite n) :
    narrowIeee (narrowFormat n) y = (narrowFormat n).pack (binary64.signOf y) ((narrowFormat n).expMax - 1)
      (2 ^ (narrowFormat n).fracBits - 1) := by
  have hone : 1 ≤ (narrowFormat n).expMax := by rw [(narrow_narrowFormat hn).expMax_eq]; omega
  have hp : ((narrowFormat n).expMax - 1) * 2 ^ (narrowFormat n).fracBits + (2 ^ (narrowFormat n).fracBits - 1) =
      (narrowFormat n).expMax * 2 ^ (narrowFormat n).fracBits - 1 := by
    rw [Nat.sub_mul, Nat.one_mul, ← Nat.add_sub_assoc Nat.one_le_two_pow,
      Nat.sub_add_cancel (Nat.le_mul_of_pos_left _ hone)]
  have hlt : (narrowFormat n).expMax * 2 ^ (narrowFormat n).fracBits - 1 <
      2 ^ ((narrowFormat n).expBits + (narrowFormat n).fracBits) :=
    (Nat.sub_le _ _).trans_lt (expMax_mul_lt _)
  have hsign := signOf_lt binary64 y
  rw [pack_eq_pack_zero, hp]
  have hkmag := magBits_pack (sign := binary64.signOf y) hlt
  have hkfin : (narrowFormat n).isFinite ((narrowFormat n).pack (binary64.signOf y) 0
      ((narrowFormat n).expMax * 2 ^ (narrowFormat n).fracBits - 1)) = true := by
    rw [isFinite_iff, hkmag]
    exact Nat.sub_lt (Nat.mul_pos hone (by positivity)) one_pos
  refine narrowIeee_of_sameValue hn ?_ (isNan_of_isFinite hkfin) ⟨isNan_of_isFinite hfin, ?_, ?_, fun _ => ?_⟩
  · exact (pack_lt hsign hlt).trans_eq (by rw [narrowFormat_width hn])
  · rw [signOf_pack hsign hlt]
  · rw [hfin, hkfin]
  · rw [hmag, ← magnitudeOf_greatest hn]
    exact magnitudeOf_congr (Eq.trans (Nat.mod_eq_of_lt hlt) hkmag.symm)

end

/-! ### The pattern that ENC.FLOAT writes -/

/-- Every operand narrows to a pattern of the format's width. -/
theorem narrowIeee_lt {f : FloatFormat} (hf : f.Narrow) (x : Nat) :
    narrowIeee f x < 2 ^ (f.expBits + f.fracBits + 1) := by
  have hsign := signOf_lt binary64 x
  cases hnan : binary64.isNan x with
  | true =>
    rw [narrowIeee_of_nan _ hnan, pack_eq_pack_zero]
    exact pack_lt hsign (expMax_add_lt _ (quietFrac_lt hf x))
  | false =>
    cases hfin : binary64.isFinite x with
    | true =>
      rw [narrowIeee_of_finite _ hfin]
      exact pack_lt hsign (min_expMax_lt _ _)
    | false =>
      rw [narrowIeee_of_infinite _ hfin hnan, pack_eq_pack_zero]
      exact pack_lt hsign (expMax_mul_lt _)

theorem cvt16_toNat (cfg : Config) (y : BitVec 64) : (cvt16 cfg y).toNat =
    match cfg.cvt16 with
    | .ieee => narrowIeee binary16 y.toNat
    | .other => (Config.otherCvt16 y).toNat := by
  rw [cvt16]
  cases cfg.cvt16 with
  | ieee => exact Nat.mod_eq_of_lt (narrowIeee_lt (narrow_of_eq (.inl rfl)) _)
  | other => rfl

theorem cvt32_toNat (cfg : Config) (y : BitVec 64) : (cvt32 cfg y).toNat =
    match cfg.cvt32 with
    | .ieee => narrowIeee binary32 y.toNat
    | .other => (Config.otherCvt32 y).toNat := by
  rw [cvt32]
  cases cfg.cvt32 with
  | ieee => exact Nat.mod_eq_of_lt (narrowIeee_lt (narrow_of_eq (.inr rfl)) _)
  | other => rfl

theorem castF_sixteen (cfg : Config) (x : BitVec 64) (cm : CastMode) :
    castF cfg x 16 cm = (cvt16 cfg (castFloatInput (maxPattern 16) cm x)).toNat := rfl

theorem castF_thirtyTwo (cfg : Config) (x : BitVec 64) (cm : CastMode) :
    castF cfg x 32 cm = (cvt32 cfg (castFloatInput (maxPattern 32) cm x)).toNat := rfl

theorem castF_lt (cfg : Config) (x : BitVec 64) {n : Nat} (cm : CastMode) (hn : n = 16 ∨ n = 32 ∨ n = 64) :
    castF cfg x n cm < 2 ^ n := by
  rcases hn with rfl | rfl | rfl
  · exact BitVec.isLt _
  · exact BitVec.isLt _
  · exact x.isLt

section
variable {cfg : Config} {x : BitVec 64} {n : Nat} {cm : CastMode} (hn : n = 16 ∨ n = 32)
  (hconv : convertsByIeee cfg n)
include hn hconv

theorem castF_of_ieee :
    castF cfg x n cm = narrowIeee (narrowFormat n) (castFloatInput (maxPattern n) cm x).toNat := by
  obtain ⟨h16, h32⟩ := hconv
  rcases hn with rfl | rfl
  · rw [castF_sixteen, cvt16_toNat, h16 rfl]
    rfl
  · rw [castF_thirtyTwo, cvt32_toNat, h32 rfl]
    rfl

/-- An operand that the clamp leaves is narrowed as it is. -/
theorem castF_of_within (h : binary64.isFinite x.toNat = true → magnitudeOf binary64 x.toNat ≤ maxFinite n) :
    castF cfg x n cm = narrowIeee (narrowFormat n) x.toNat := by
  rw [castF_of_ieee hn hconv, castFloatInput_of_within hn fun hx => not_lt.2 (h hx.2.1) hx.2.2]

theorem castF_of_sameValue {k : Nat} (hk : k < 2 ^ n) (hnan : (narrowFormat n).isNan k = false)
    (h : SameValue (narrowFormat n) k x.toNat) : castF cfg x n cm = k := by
  have ⟨_, _, hfin, hmag⟩ := h
  rw [castF_of_within hn hconv fun hx => ?_, narrowIeee_of_sameValue hn hk hnan h]
  have hkfin := hfin.symm.trans hx
  exact (hmag hkfin).trans_le (magnitudeOf_le_maxFinite hn hkfin)

theorem castF_nan (h : binary64.isNan x.toNat = true) : (narrowFormat n).isNan (castF cfg x n cm) = true := by
  rw [castF_of_within hn hconv fun hx => ?_]
  · exact (narrowIeee_nan (narrow_narrowFormat hn) h).1
  · rw [isFinite_of_isNan h] at hx
    cases hx

/-- An operand of 2^16, or 2^128, or more becomes the greatest finite value, or infinity. -/
theorem castF_of_overflow (hfin : binary64.isFinite x.toNat = true)
    (hexp : (if n = 16 then 1039 else 1151) ≤ binary64.expOf x.toNat) :
    castF cfg x n cm = match cm with
      | .saturated => (narrowFormat n).pack (binary64.signOf x.toNat) ((narrowFormat n).expMax - 1)
          (2 ^ (narrowFormat n).fracBits - 1)
      | .truncated => (narrowFormat n).pack (binary64.signOf x.toNat) (narrowFormat n).expMax 0 := by
  have hbig : (2 ^ ((narrowFormat n).fracBits + 2) - 1) *
      2 ^ (((narrowFormat n).bias : Int) - (narrowFormat n).fracBits - 1) ≤ magnitudeOf binary64 x.toNat := by
    refine (overflow_le hn).trans ((magnitudeOf_le_iff _ _ _).2 ((Nat.mod_le _ _).trans ?_))
    rw [expOf_eq_magBits] at hexp
    exact (Nat.mul_le_mul_right _ hexp).trans (Nat.div_mul_le_self _ _)
  rw [castF_of_ieee hn hconv]
  cases cm with
  | saturated =>
    obtain ⟨hyfin, hysign, hymag⟩ := castFloatInput_of_beyond hn hfin ((maxFinite_lt_overflow hn).trans_le hbig)
    rw [narrowIeee_of_maxFinite hn hyfin hymag, hysign]
  | truncated =>
    exact narrowIeee_of_overflow hfin ((narrowIeee_overflow_iff (narrow_narrowFormat hn) hfin).2 hbig)

end

/-- Settles O26: the bits are those of the cast operand, and what that is follows from the clamp and the
narrowing. -/
theorem encodeFloats : Obligations.EncodeFloats := by
  intro s cm x hinv hv n hn hcap
  have hnarrow : n.toNat ≠ 64 → n.toNat = 16 ∨ n.toNat = 32 := by omega
  refine ⟨_, castF s.cfg x n.toNat cm, castF_lt _ _ _ hn, appended_of_writerInv hinv _, ?_, fun h => ?_,
    fun h => ⟨castFloatInput (maxPattern n.toNat) cm x, clampedTo_castFloatInput (hnarrow h) cm x, fun h16 => ?_,
      fun h32 => ?_⟩,
    fun h hconv => ⟨fun k => castF_of_sameValue (hnarrow h) hconv, castF_nan (hnarrow h) hconv,
      castF_of_overflow (hnarrow h) hconv⟩⟩
  · rw [exec_encFloat_of_floatWidth cm hn, hv, encodeAtCursor_of_fits (encodeCheck_float hn x) hcap, emit,
      wideBits_eq_fieldBits]
  · rw [h]
    rfl
  · rw [h16]
    exact cvt16_toNat _ _
  · rw [h32]
    exact cvt32_toNat _ _

end Sys2Proof.Machine
end

section
/-! How a decode command ends (43_codec_decode.md R400 to R405, R414), and what a primitive parse gives where the
bits of a field stand at the cursor. -/

namespace Sys2Proof.Machine

open Laws (mkWord_toNat)

/-! ### Cursors and parts -/

/-- Where a decode command's parse begins (43_codec_decode.md R400). -/
abbrev State.cursor (s : State) : Cursor := { r := s.r, draws := s.nanDraws }

/-- The cursor `n` bits further, with `k` more draws used. -/
def Cursor.after (c : Cursor) (n k : Nat) : Cursor :=
  { r := { c.r with pos := c.r.pos + n }, draws := c.draws + k }

@[simp] theorem Cursor.after_buf (c : Cursor) (n k : Nat) : (c.after n k).r.buf = c.r.buf := rfl
@[simp] theorem Cursor.after_pos (c : Cursor) (n k : Nat) : (c.after n k).r.pos = c.r.pos + n := rfl
@[simp] theorem Cursor.after_zero (c : Cursor) : c.after 0 0 = c := rfl
@[simp] theorem Cursor.after_after (c : Cursor) (n k n' k' : Nat) :
    (c.after n k).after n' k' = c.after (n + n') (k + k') := by
  simp only [Cursor.after, Nat.add_assoc]

section
variable {α β : Type} {p : Cursor → Parsed α} {c : Cursor}

theorem parseThen_of_ok {a : α} {c' : Cursor} (k : α → Cursor → Parsed β) (h : p c = .ok (a, c')) :
    parseThen p k c = k a c' := by
  rw [parseThen, h]
  rfl

theorem parseThen_of_error {e : Status} (k : α → Cursor → Parsed β) (h : p c = .error e) :
    parseThen p k c = .error e := by
  rw [parseThen, h]
  rfl

end

section
variable {cfg : Config} {c : Cursor} {n : Nat}

theorem parseWide_of_fits (h : c.r.pos + n ≤ 8 * c.r.buf.length) :
    parseWide cfg n c = .ok (wideAt cfg.bitOrder c.r.buf c.r.pos n, c.after n 0) := by
  rcases parseWide_cases cfg n c with ⟨hlt, -⟩ | ⟨-, heq⟩
  · omega
  · exact heq

theorem parseWide_of_short (h : 8 * c.r.buf.length < c.r.pos + n) :
    parseWide cfg n c = .error .truncatedPayload := by
  rcases parseWide_cases cfg n c with ⟨-, heq⟩ | ⟨hle, -⟩
  · exact heq
  · omega

theorem parseWide_of_holds {v : Nat} (hv : v < 2 ^ n) (h : Holds cfg.bitOrder c.r (fieldBits cfg.bitOrder n v)) :
    parseWide cfg n c = .ok (v, c.after n 0) := by
  have hlen := h.1
  rw [fieldBits_length] at hlen
  rw [parseWide_of_fits hlen, wideAt_of_holds hv h]

theorem parseBits_eq_parseWide (hn : n ≤ 8) : parseBits cfg n = parseWide cfg n := by
  funext c
  rw [parseBits, parseWide, readBits_eq_readWide _ _ hn]

end

/-! ### The end of a decode command -/

section
variable {s : State} {T : Ty} {t : Bool}

theorem decodeAtCursor_of_ok {v : Option Val} {c : Cursor} (hT : checkTy T = none)
    (h : parse s.cfg T t s.cursor = .ok (v, c)) :
    decodeAtCursor T t s = .next
      { s with r := c.r, nanDraws := c.draws, result := endsWith 0x00 (valueOutput v) } := by
  rw [decodeAtCursor, hT]
  dsimp only
  rw [h]
  rfl

theorem decodeAtCursor_of_error {e : Status} (hT : checkTy T = none)
    (h : parse s.cfg T t s.cursor = .error e) :
    decodeAtCursor T t s = .next { s with result := endsWith (statusCode e) .none } := by
  rw [decodeAtCursor, hT]
  dsimp only
  rw [h]
  rfl

end

/-! ### DEC.BOOL, DEC.UINT, DEC.INT and DEC.VOID -/

/-- A pattern below half of the range is its own signed value (00_scope.md R10). -/
theorem sext_eq {n u : Nat} (hn : 1 ≤ n) (hu : u < 2 ^ n) :
    sext n u = if u < 2 ^ (n - 1) then (u : Int) else u - 2 ^ n := by
  rw [sext]
  split_ifs with hbit hlt hlt
  · rw [Nat.testBit_lt_two_pow hlt] at hbit
    cases hbit
  · rfl
  · rfl
  · exact absurd (Nat.testBit_of_two_pow_le_and_two_pow_add_one_gt (Nat.le_of_not_lt hlt)
      (by rwa [Nat.sub_add_cancel hn])) hbit

section
variable {s : State} {n : Byte}

theorem exec_decBool_of_holds {b : Bool} (h : Holds s.cfg.bitOrder s.r [b]) :
    exec .decBool s = .next
      { s with r := { s.r with pos := s.r.pos + 1 }, result := endsWith 0x00 (.value (.bool b)) } := by
  have hb : b.toNat < 2 ^ 1 := by cases b <;> decide
  have hbits : fieldBits s.cfg.bitOrder 1 b.toNat = [b] := by
    cases s.cfg.bitOrder <;> cases b <;> rfl
  have hparse : parse s.cfg .bool false s.cursor = .ok (some (.bool b), s.cursor.after 1 0) := by
    rw [parse_bool, parseBits_eq_parseWide (by decide),
      parseThen_of_ok _ (parseWide_of_holds hb (hbits.symm ▸ h))]
    cases b <;> rfl
  exact decodeAtCursor_of_ok rfl hparse

theorem exec_decBool_of_underrun (h : 8 * s.r.buf.length < s.r.pos + 1) :
    exec .decBool s = .next { s with result := endsWith 0x20 .none } := by
  refine decodeAtCursor_of_error (T := .bool) (t := false) (e := .truncatedPayload) rfl ?_
  rw [parse_bool, parseBits_eq_parseWide (by decide), parseThen_of_error _ (parseWide_of_short h)]

theorem exec_decVoid_of_fits (h1 : 1 ≤ n.toNat) (h64 : n.toNat ≤ 64)
    (h : s.r.pos + n.toNat ≤ 8 * s.r.buf.length) :
    exec (.decVoid n) s = .next
      { s with r := { s.r with pos := s.r.pos + n.toNat }, result := endsWith 0x00 .none } := by
  refine (if_pos ((aInRange_iff 1 64 n).2 ⟨h1, h64⟩)).trans
    (decodeAtCursor_of_ok (v := none) (c := s.cursor.after n.toNat 0) (if_pos ⟨h1, h64⟩) ?_)
  rw [parse_void, parseThen_of_ok _ (parseWide_of_fits h)]

theorem exec_decVoid_of_underrun (h1 : 1 ≤ n.toNat) (h64 : n.toNat ≤ 64)
    (h : 8 * s.r.buf.length < s.r.pos + n.toNat) :
    exec (.decVoid n) s = .next { s with result := endsWith 0x20 .none } := by
  refine (if_pos ((aInRange_iff 1 64 n).2 ⟨h1, h64⟩)).trans
    (decodeAtCursor_of_error (e := .truncatedPayload) (if_pos ⟨h1, h64⟩) ?_)
  rw [parse_void, parseThen_of_error _ (parseWide_of_short h)]

variable (h2 : 2 ≤ n.toNat) (h64 : n.toNat ≤ 64)
include h2 h64

theorem exec_decUint_of_widthIn :
    exec (.decUint n) s = decodeAtCursor (.uint n.toNat .saturated) false s :=
  if_pos ((aInRange_iff 2 64 n).2 ⟨h2, h64⟩)

theorem exec_decInt_of_widthIn :
    exec (.decInt n) s = decodeAtCursor (.int n.toNat .saturated) false s :=
  if_pos ((aInRange_iff 2 64 n).2 ⟨h2, h64⟩)

/-- DEC.UINT and DEC.INT read one pattern and differ in its sign. -/
theorem exec_decInteger_of_holds {v : Nat} (hv : v < 2 ^ n.toNat)
    (h : Holds s.cfg.bitOrder s.r (fieldBits s.cfg.bitOrder n.toNat v)) :
    exec (.decUint n) s = .next
      { s with r := { s.r with pos := s.r.pos + n.toNat }, result := endsWith 0x00 (.value (.int v)) } ∧
    exec (.decInt n) s = .next
      { s with
        r := { s.r with pos := s.r.pos + n.toNat }
        result := endsWith 0x00 (.value (.int (sext n.toNat v))) } := by
  have hread := parseWide_of_holds (c := s.cursor) hv h
  refine ⟨(exec_decUint_of_widthIn h2 h64).trans (decodeAtCursor_of_ok (v := some (.int v))
      (c := s.cursor.after n.toNat 0) (if_pos ⟨h2, h64⟩) ?_),
    (exec_decInt_of_widthIn h2 h64).trans (decodeAtCursor_of_ok (v := some (.int (sext n.toNat v)))
      (c := s.cursor.after n.toNat 0) (if_pos ⟨h2, h64⟩) ?_)⟩
  · rw [parse_uint, parseThen_of_ok _ hread]
  · rw [parse_int, parseThen_of_ok _ hread]

theorem exec_decInteger_of_underrun (h : 8 * s.r.buf.length < s.r.pos + n.toNat) :
    exec (.decUint n) s = .next { s with result := endsWith 0x20 .none } ∧
    exec (.decInt n) s = .next { s with result := endsWith 0x20 .none } := by
  have hread := parseWide_of_short (cfg := s.cfg) (c := s.cursor) h
  refine ⟨(exec_decUint_of_widthIn h2 h64).trans
      (decodeAtCursor_of_error (e := .truncatedPayload) (if_pos ⟨h2, h64⟩) ?_),
    (exec_decInt_of_widthIn h2 h64).trans
      (decodeAtCursor_of_error (e := .truncatedPayload) (if_pos ⟨h2, h64⟩) ?_)⟩
  · rw [parse_uint, parseThen_of_error _ hread]
  · rw [parse_int, parseThen_of_error _ hread]

end

/-- Settles O33: each command is its guard on field A, one read at the cursor and the value made of it. -/
theorem decodePrimitives : Obligations.DecodePrimitives := by
  intro s n
  refine ⟨rfl, mkWord_toNat 0 n 0x31, mkWord_toNat 0 n 0x32, mkWord_toNat 0 n 0x34,
    fun b => exec_decBool_of_holds, exec_decBool_of_underrun, fun h => ?_, fun h2 h64 => ⟨fun v hv h => ?_,
      exec_decInteger_of_underrun h2 h64⟩,
    fun h => exec_of_not_wellFormed (i := .decVoid n) (widthIn_one_eq_false h) s,
    fun h1 h64 => ⟨exec_decVoid_of_fits h1 h64, exec_decVoid_of_underrun h1 h64⟩⟩
  · exact ⟨exec_of_not_wellFormed (i := .decUint n) (widthIn_two_eq_false h) s,
      exec_of_not_wellFormed (i := .decInt n) (widthIn_two_eq_false h) s⟩
  · rw [← sext_eq (by omega) hv]
    exact exec_decInteger_of_holds h2 h64 hv h

end Sys2Proof.Machine
end

section
/-! Widening a float (43_codec_decode.md R406). A pattern made up of a sign, an exponent and a fraction in range has
these as its parts, so a widened pattern is compared with the narrow one part by part; its magnitude is that of
the narrow one in every branch of `widenExact`. -/

namespace Sys2Proof.Machine

open Laws (mkWord_toNat)

/-! ### The parts of a pattern that is made up -/

section
variable {f : FloatFormat} {sign exp frac : Nat} (hs : sign < 2) (he : exp < 2 ^ f.expBits)
  (hfr : frac < 2 ^ f.fracBits)
include he hfr

theorem exp_mul_add_lt : exp * 2 ^ f.fracBits + frac < 2 ^ (f.expBits + f.fracBits) := calc
  exp * 2 ^ f.fracBits + frac < (exp + 1) * 2 ^ f.fracBits := by rw [Nat.succ_mul]; omega
  _ ≤ 2 ^ f.expBits * 2 ^ f.fracBits := Nat.mul_le_mul_right _ he
  _ = 2 ^ (f.expBits + f.fracBits) := (Nat.pow_add ..).symm

theorem magBits_pack_parts : f.magBits (f.pack sign exp frac) = 2 ^ f.fracBits * exp + frac := by
  rw [pack_eq_pack_zero, magBits_pack (exp_mul_add_lt he hfr), Nat.mul_comm]

theorem expOf_pack : f.expOf (f.pack sign exp frac) = exp := by
  rw [expOf_eq_magBits, magBits_pack_parts he hfr, Nat.mul_add_div (by positivity), Nat.div_eq_of_lt hfr,
    Nat.add_zero]

theorem fracOf_pack : f.fracOf (f.pack sign exp frac) = frac := by
  rw [fracOf_eq_magBits, magBits_pack_parts he hfr, Nat.mul_add_mod, Nat.mod_eq_of_lt hfr]

include hs

theorem signOf_pack_parts : f.signOf (f.pack sign exp frac) = sign := by
  rw [pack_eq_pack_zero, signOf_pack hs (exp_mul_add_lt he hfr)]

theorem pack_parts_lt : f.pack sign exp frac < 2 ^ (f.expBits + f.fracBits + 1) := by
  rw [pack_eq_pack_zero]
  exact pack_lt hs (exp_mul_add_lt he hfr)

end

/-! ### Widening is exact -/

/-- Bits moved from the exponent of two into the number. -/
theorem shifted_zpow (a d : Nat) {e e' : Int} (h : (d : Int) + e = e') :
    ((a * 2 ^ d : Nat) : ℚ) * 2 ^ e = a * 2 ^ e' := by
  rw [← h, zpow_add₀ two_ne_zero, zpow_natCast]
  push_cast
  ring

/-- A fraction with its leading bit, moved to the top of binary64's fraction. -/
theorem normalised_frac {frac : Nat} (h0 : frac ≠ 0) (hk : Nat.log2 frac ≤ 52) :
    (frac - 2 ^ Nat.log2 frac) * 2 ^ (52 - Nat.log2 frac) < 2 ^ 52 ∧
      2 ^ 52 + (frac - 2 ^ Nat.log2 frac) * 2 ^ (52 - Nat.log2 frac) = frac * 2 ^ (52 - Nat.log2 frac) := by
  have hle : 2 ^ Nat.log2 frac ≤ frac := Nat.log2_self_le h0
  have hlt : frac < 2 ^ Nat.log2 frac * 2 := Nat.lt_log2_self
  have hpow : 2 ^ Nat.log2 frac * 2 ^ (52 - Nat.log2 frac) = 2 ^ 52 := by rw [← pow_add, Nat.add_sub_cancel' hk]
  constructor
  · rw [← hpow]
    exact Nat.mul_lt_mul_of_pos_right (by omega) (by positivity)
  · rw [← hpow, ← Nat.add_mul, Nat.add_sub_cancel' hle]

theorem widenExact_of_infinite (f : FloatFormat) {u : Nat} (hfin : f.isFinite u = false) :
    widenExact f u = binary64.pack (f.signOf u) binary64.expMax 0 := by
  have hexp : f.expOf u = f.expMax := by simpa [FloatFormat.isFinite] using hfin
  rw [widenExact]
  exact if_pos hexp

section
variable {f : FloatFormat} (hf : f.Narrow) (hsub : f.bias + f.fracBits ≤ 1022) {u : Nat}
  (hfin : f.isFinite u = true)
include hf hsub hfin

/-- A finite pattern is widened to a finite one of its sign and its magnitude: a normal one moves its exponent
and fraction, zero stays, a subnormal is normalised (43_codec_decode.md R406). -/
theorem exists_widenExact_parts : ∃ exp frac, exp < binary64.expMax ∧ frac < 2 ^ binary64.fracBits ∧
    widenExact f u = binary64.pack (f.signOf u) exp frac ∧
    (if exp = 0 then (frac : ℚ) * 2 ^ (1 - (binary64.bias : Int) - binary64.fracBits)
      else (2 ^ binary64.fracBits + frac : ℚ) * 2 ^ ((exp : Int) - binary64.bias - binary64.fracBits)) =
      magnitudeOf f u := by
  obtain ⟨-, hfb, hb1, hb, hmax⟩ := hf
  have hexp : f.expOf u ≠ f.expMax := by simpa [FloatFormat.isFinite] using hfin
  have hlt : f.expOf u < f.expMax + 1 := by
    rw [FloatFormat.expMax, Nat.sub_add_cancel Nat.one_le_two_pow]
    exact Nat.mod_lt _ (by positivity)
  have hfrac : f.fracOf u < 2 ^ f.fracBits := Nat.mod_lt _ (by positivity)
  have hE : binary64.expMax = 2047 := rfl
  have hB : binary64.bias = 1023 := rfl
  have hF : binary64.fracBits = 52 := rfl
  rw [widenExact, magnitudeOf]
  dsimp only
  rw [if_neg hexp, hE, hB, hF]
  by_cases h0 : f.expOf u = 0
  · rw [if_neg (not_not.2 h0), if_pos h0]
    by_cases hz : f.fracOf u = 0
    · exact ⟨0, 0, by decide, by decide, if_pos hz, by rw [if_pos rfl, hz, Nat.cast_zero, zero_mul, zero_mul]⟩
    · have hk : Nat.log2 (f.fracOf u) < f.fracBits := (Nat.log2_lt hz).2 hfrac
      obtain ⟨hlt52, hsum⟩ := normalised_frac hz (hk.le.trans hfb)
      refine ⟨_, _, ?_, hlt52, if_neg hz, ?_⟩
      · omega
      · rw [if_neg (by omega), ← shifted_zpow (f.fracOf u) (52 - Nat.log2 (f.fracOf u)), ← hsum]
        · push_cast
          rfl
        · omega
  · have hpow : 2 ^ 52 = 2 ^ f.fracBits * 2 ^ (52 - f.fracBits) := by rw [← pow_add, Nat.add_sub_cancel' hfb]
    rw [if_pos h0, if_neg h0]
    refine ⟨_, _, ?_, ?_, rfl, ?_⟩
    · omega
    · rw [hpow]
      exact Nat.mul_lt_mul_of_pos_right hfrac (by positivity)
    · rw [if_neg (by omega), ← Nat.cast_ofNat (R := ℚ) (n := 2), ← Nat.cast_pow, ← Nat.cast_add, hpow,
        ← Nat.add_mul, ← Nat.cast_pow, ← Nat.cast_add]
      refine shifted_zpow _ _ ?_
      omega

end

section
variable {n : Nat} (hn : n = 16 ∨ n = 32)
include hn

/-- The least subnormal of the format is a normal binary64 value. -/
theorem subnormal_exponent_le : (narrowFormat n).bias + (narrowFormat n).fracBits ≤ 1022 := by
  rcases hn with rfl | rfl <;> decide

/-- Widening loses nothing (43_codec_decode.md R406). -/
theorem widenExact_spec (u : Nat) : widenExact (narrowFormat n) u < 2 ^ 64 ∧
    SameValue (narrowFormat n) u (widenExact (narrowFormat n) u) := by
  have hs := signOf_lt (narrowFormat n) u
  cases hfin : (narrowFormat n).isFinite u with
  | false =>
    obtain ⟨hsign, -, hxfin, hxnan⟩ := pack_expMax (f := binary64) hs (frac := 0) (by decide)
    rw [widenExact_of_infinite _ hfin]
    refine ⟨pack_parts_lt (f := binary64) hs (expMax_lt _) (by decide), hxnan, hsign, ?_, fun h => ?_⟩
    · rw [hxfin, hfin]
    · rw [hfin] at h
      cases h
  | true =>
    obtain ⟨exp, frac, hexp, hfrac, hw, hmag⟩ :=
      exists_widenExact_parts (narrow_narrowFormat hn) (subnormal_exponent_le hn) hfin
    have he := hexp.trans (expMax_lt binary64)
    have hxfin : binary64.isFinite (binary64.pack ((narrowFormat n).signOf u) exp frac) = true := by
      rw [FloatFormat.isFinite, expOf_pack he hfrac, bne_iff_ne]
      exact hexp.ne
    rw [hw]
    refine ⟨pack_parts_lt (f := binary64) hs he hfrac, isNan_of_isFinite hxfin,
      signOf_pack_parts hs he hfrac, ?_, fun _ => ?_⟩
    · rw [hxfin, hfin]
    · rw [magnitudeOf, expOf_pack he hfrac, fracOf_pack he hfrac, hmag]

theorem narrowIeee_widenExact {u : Nat} (hu : u < 2 ^ n) (hnan : (narrowFormat n).isNan u = false) :
    narrowIeee (narrowFormat n) (widenExact (narrowFormat n) u) = u :=
  narrowIeee_of_sameValue hn hu hnan (widenExact_spec hn u).2

end

/-- Settles O35: the widened pattern has the same value, and a value of the format is narrowed to itself. -/
theorem narrowUndoesWiden : Obligations.NarrowUndoesWiden := by
  constructor
  · intro u hu hnan
    obtain ⟨hlt, hsame⟩ := widenExact_spec (n := 16) (.inl rfl) u
    exact ⟨hlt, hsame, narrowIeee_widenExact (.inl rfl) hu hnan⟩
  · intro u hu hnan
    obtain ⟨hlt, hsame⟩ := widenExact_spec (n := 32) (.inr rfl) u
    exact ⟨hlt, hsame, narrowIeee_widenExact (.inr rfl) hu hnan⟩

/-! ### DEC.FLOAT -/

theorem asksNanDraw_eq_false {n u : Nat} (h : n = 64 ∨ (narrowFormat n).isNan u = false) :
    asksNanDraw n u = false := by
  rw [asksNanDraw]
  rcases h with rfl | h
  · rfl
  · rw [h, Bool.and_false]

theorem asksNanDraw_iff (n u : Nat) :
    asksNanDraw n u = true ↔ n ≠ 64 ∧ (narrowFormat n).isNan u = true := by
  rw [asksNanDraw, Bool.and_eq_true, bne_iff_ne]

theorem widen_sixtyFour {u : Nat} (hu : u < 2 ^ 64) (draw : Nat) : (widen 64 u draw).toNat = u := by
  rw [widen, if_pos rfl, BitVec.toNat_ofNat, Nat.mod_eq_of_lt hu]

theorem widen_of_not_nan {n u : Nat} (hn : n = 16 ∨ n = 32) (hnan : (narrowFormat n).isNan u = false) (draw : Nat) :
    (widen n u draw).toNat = widenExact (narrowFormat n) u := by
  have hask : ¬ asksNanDraw n u = true := Bool.eq_false_iff.1 (asksNanDraw_eq_false (.inr hnan))
  rw [widen, if_neg (by omega), if_neg hask, BitVec.toNat_ofNat, Nat.mod_eq_of_lt (widenExact_spec hn u).1]

/-- What is made of a draw is a NaN (43_codec_decode.md R406). -/
theorem isNan_forceNan (x : BitVec 64) : binary64.isNan (forceNan x).toNat = true := by
  rw [forceNan]
  split
  next h => exact h
  next h =>
    have hmask : (0x7FF8000000000000 : BitVec 64).toNat = 0x7FF8000000000000 := rfl
    rw [BitVec.toNat_or, hmask, FloatFormat.isNan, FloatFormat.expOf, FloatFormat.fracOf, Nat.or_div_two_pow,
      Nat.or_mod_two_pow, Nat.or_mod_two_pow, Bool.and_eq_true, beq_iff_eq, bne_iff_ne]
    constructor
    · refine le_antisymm (Nat.le_sub_one_of_lt (Nat.or_lt_two_pow (Nat.mod_lt _ (by decide)) (by decide))) ?_
      exact Nat.right_le_or
    · exact (lt_of_lt_of_le (by decide) Nat.right_le_or).ne'

theorem isNan_widen {n u : Nat} (hn : n ≠ 64) (hnan : (narrowFormat n).isNan u = true) (draw : Nat) :
    binary64.isNan (widen n u draw).toNat = true := by
  rw [widen, if_neg hn, if_pos ((asksNanDraw_iff n u).2 ⟨hn, hnan⟩)]
  exact isNan_forceNan _

theorem parseFloat_of_holds {cfg : Config} {c : Cursor} {n u : Nat} (hu : u < 2 ^ n)
    (h : Holds cfg.bitOrder c.r (fieldBits cfg.bitOrder n u)) :
    parseFloat cfg n c = .ok (.float (widen n u c.draws), c.after n (if asksNanDraw n u then 1 else 0)) := by
  rw [parseFloat_eq, parseThen_of_ok _ (parseWide_of_holds hu h)]
  split <;> rfl

/-- Settles O34: one read at the cursor, widened; what the pattern is decides whether a draw is used. -/
theorem decodeFloats : Obligations.DecodeFloats := by
  intro s n
  refine ⟨mkWord_toNat 0 n 0x33, fun h => ?_, fun h => ?_⟩
  · exact exec_of_not_wellFormed (i := .decFloat n)
      (Bool.eq_false_iff.2 fun hw => h ((floatWidth_iff n).1 hw)) s
  · have hwidth : n.toNat = 16 ∨ n.toNat = 32 ∨ n.toNat = 64 := by simpa using h
    have hexec : exec (.decFloat n) s = decodeAtCursor (.float n.toNat .saturated) false s :=
      if_pos ((aFloatWidth_iff n).2 hwidth)
    have hT := checkTy_float .saturated hwidth
    refine ⟨fun hshort => ?_, fun u hu hbits => ⟨widen n.toNat u s.nanDraws, ?_, fun h64 => ?_, fun h64 hnan => ?_,
      fun h64 hnan => isNan_widen h64 hnan _⟩⟩
    · refine hexec.trans (decodeAtCursor_of_error (e := .truncatedPayload) hT ?_)
      rw [parse_float, parseFloat_eq, parseThen_of_error _ (parseThen_of_error _ (parseWide_of_short hshort))]
    · have hparse : parse s.cfg (.float n.toNat .saturated) false s.cursor = _ :=
        (congrFun (parse_float _ _ _ _) _).trans (parseThen_of_ok _ (parseFloat_of_holds hu hbits))
      rw [hexec, decodeAtCursor_of_ok hT hparse]
      simp only [Cursor.after, asksNanDraw_iff, valueOutput]
      split <;> rfl
    · rw [h64] at hu ⊢
      exact widen_sixtyFour hu _
    · have hnarrow : n.toNat = 16 ∨ n.toNat = 32 := by omega
      rw [widen_of_not_nan hnarrow hnan]
      exact ⟨rfl, (widenExact_spec hnarrow u).2⟩

end Sys2Proof.Machine
end

section
/-! What a parse makes of the encoding of a value (43_codec_decode.md R400, R407, R410, R416). Two facts are carried
together: where the bits stand at the cursor, the parse gives the value back and stops behind them, and where the
reader ends within them, it is TruncatedPayload. They hold of a field of fixed width, and pass to parts put one
after another and to repeated elements. -/

namespace Sys2Proof.Machine

/-! ### Bits at the cursor, and bits cut short -/

/-- A reader that ends within two runs ends within the first, or holds it and ends within the second. -/
theorem cutShort_append {o : BitOrder} {r : Reader} {xs ys : List Bool} (h : CutShort o r (xs ++ ys)) :
    CutShort o r xs ∨ Holds o r xs ∧ CutShort o { r with pos := r.pos + xs.length } ys := by
  obtain ⟨hlen, hread⟩ := h
  rw [List.length_append] at hlen
  by_cases hxs : r.pos + xs.length ≤ 8 * r.buf.length
  · refine .inr ⟨⟨hxs, fun i hi => ?_⟩, ?_, fun i hi => ?_⟩
    · rw [hread i (by omega), List.getD_append _ _ _ _ hi]
    · simp only
      omega
    · simp only at hi ⊢
      rw [Nat.add_assoc, hread _ (by omega), List.getD_append_right _ _ _ _ (by omega), Nat.add_sub_cancel_left]
  · refine .inl ⟨by omega, fun i hi => ?_⟩
    rw [hread i hi, List.getD_append _ _ _ _ (by omega)]

variable {α β : Type}

/-- What the parse `p` makes of the bits of a part of a value. Where the reader holds them, `p` reads just them and
gives a result `a`, with `k` draws used, such that `Q a k`; with `room` given, fewer bits than that have to follow, or
one more element would be read. Where the reader ends within them, `p` is TruncatedPayload; this is not said of bits
in TAO form, which left out a count of `saved` bits. -/
structure ReadsBits (o : BitOrder) (bits : List Bool) (room : Option Nat) (saved : Nat) (p : Cursor → Parsed α)
    (Q : α → Nat → Prop) : Prop where
  finds : ∀ c, Holds o c.r bits → (∀ e ∈ room, 8 * c.r.buf.length < c.r.pos + bits.length + e) →
    ∃ a k, p c = .ok (a, c.after bits.length k) ∧ Q a k
  cut : saved = 0 → ∀ c, readerInv c.r → CutShort o c.r bits → p c = .error .truncatedPayload

namespace ReadsBits

variable {o : BitOrder} {xs ys : List Bool} {room : Option Nat} {saved : Nat} {p : Cursor → Parsed α}

/-- No reader ends within no bits. -/
theorem not_cutShort_nil {r : Reader} (h : readerInv r) : ¬ CutShort o r [] :=
  fun hcut => Nat.not_lt.2 h hcut.1

/-- A result without reading. -/
theorem pure {a : α} {Q : α → Nat → Prop} (h : Q a 0) : ReadsBits o [] none 0 (fun c => .ok (a, c)) Q :=
  ⟨fun _ _ _ => ⟨a, 0, rfl, h⟩, fun _ _ hinv hcut => absurd hcut (not_cutShort_nil hinv)⟩

/-- A result made of what was read. -/
theorem map {P : α → Nat → Prop} {Q : β → Nat → Prop} {g : α → β} (h : ReadsBits o xs room saved p P)
    (hQ : ∀ a k, P a k → Q (g a) k) :
    ReadsBits o xs room saved (Machine.parseThen p fun a c => .ok (g a, c)) Q where
  finds c hbits hroom := by
    obtain ⟨a, k, hp, hP⟩ := h.finds c hbits hroom
    exact ⟨g a, k, parseThen_of_ok _ hp, hQ a k hP⟩
  cut hs c hinv hcut := parseThen_of_error _ (h.cut hs c hinv hcut)

/-- Parts one after another; bits that follow are the concern of the last. -/
theorem parseThen {P : α → Nat → Prop} {Q : β → Nat → Prop} {l : α → Cursor → Parsed β}
    (hp : ReadsBits o xs none 0 p P)
    (hl : ∀ a k, P a k → ReadsBits o ys room saved (l a) fun b k' => Q b (k + k')) :
    ReadsBits o (xs ++ ys) room saved (Machine.parseThen p l) Q where
  finds c hbits hroom := by
    obtain ⟨hxs, hys⟩ := (holds_append _ _ _ _).1 hbits
    obtain ⟨a, k, hpc, hP⟩ := hp.finds c hxs fun e he => by cases he
    rw [List.length_append, ← Nat.add_assoc] at hroom
    obtain ⟨b, k', hlc, hQ⟩ := (hl a k hP).finds (c.after xs.length k) hys hroom
    refine ⟨b, k + k', ?_, hQ⟩
    rw [parseThen_of_ok _ hpc, hlc, Cursor.after_after, List.length_append]
  cut hs c hinv hcut := by
    rcases cutShort_append hcut with hxs | ⟨hxs, hys⟩
    · exact parseThen_of_error _ (hp.cut rfl c hinv hxs)
    · obtain ⟨a, k, hpc, hP⟩ := hp.finds c hxs fun e he => by cases he
      rw [parseThen_of_ok _ hpc]
      exact (hl a k hP).cut hs (c.after xs.length k) hxs.1 hys

end ReadsBits

/-! ### Fields of fixed width -/

section
variable (cfg : Config) {n : Nat}

theorem parseWide_reads {v : Nat} (hv : v < 2 ^ n) :
    ReadsBits cfg.bitOrder (fieldBits cfg.bitOrder n v) none 0 (parseWide cfg n) fun a k => a = v ∧ k = 0 where
  finds c hbits _ := ⟨v, 0, by rw [parseWide_of_holds hv hbits, fieldBits_length], rfl, rfl⟩
  cut _ c _ hcut := parseWide_of_short (by simpa using hcut.1)

theorem parseFloat_reads {u : Nat} (hu : u < 2 ^ n) :
    ReadsBits cfg.bitOrder (fieldBits cfg.bitOrder n u) none 0 (parseFloat cfg n) fun a k =>
      ∃ draw, a = .float (widen n u draw) ∧ k = if asksNanDraw n u then 1 else 0 where
  finds c hbits _ :=
    ⟨_, _, by rw [parseFloat_of_holds hu hbits, fieldBits_length], c.draws, rfl, rfl⟩
  cut _ c _ hcut := by
    rw [parseFloat_eq]
    exact parseThen_of_error _ (parseWide_of_short (by simpa using hcut.1))

theorem parseCount_eq (m : Nat) :
    parseCount cfg m = if bitlen m = 0 then fun c => .ok (0, c) else
      parseThen (parseWide cfg (bitlen m)) fun k c => if m < k then .error .badArrayLength else .ok (k, c) := by
  funext c
  rw [parseCount]
  split
  · rfl
  · rw [parseThen]
    cases parseWide cfg (bitlen m) c <;> rfl

/-- A count of width 0 is not read, and it is 0 (43_codec_decode.md R407). -/
theorem parseCount_reads {m k : Nat} (hk : k ≤ m) :
    ReadsBits cfg.bitOrder (fieldBits cfg.bitOrder (bitlen m) k) none 0 (parseCount cfg m) fun a k' =>
      a = k ∧ k' = 0 := by
  have hlt : k < 2 ^ bitlen m := hk.trans_lt ((bitlen_le_iff _ _).1 le_rfl)
  rw [parseCount_eq]
  split
  next h0 =>
    rw [h0, pow_zero, Nat.lt_one_iff] at hlt
    rw [h0, hlt]
    exact .pure ⟨rfl, rfl⟩
  next h0 =>
    constructor
    · intro c hbits hroom
      obtain ⟨a, k', hp, rfl, rfl⟩ := (parseWide_reads cfg hlt).finds c hbits hroom
      exact ⟨a, 0, by rw [parseThen_of_ok _ hp, if_neg (Nat.not_lt.2 hk)], rfl, rfl⟩
    · exact fun hs c hinv hcut => parseThen_of_error _ ((parseWide_reads cfg hlt).cut hs c hinv hcut)

end

/-! ### What a leaf reads back -/

theorem castU_lt (i : Int) (n : Nat) (cm : CastMode) : castU i n cm < 2 ^ n := by
  have hpow : (0 : Int) < 2 ^ n := by positivity
  cases cm with
  | saturated => rw [castU, Int.toNat_lt (by omega)]; push_cast; omega
  | truncated => rw [castU, Int.toNat_lt (Int.emod_nonneg _ hpow.ne')]; push_cast; exact Int.emod_lt_of_pos _ hpow

theorem castS_lt (i : Int) (n : Nat) (cm : CastMode) : castS i n cm < 2 ^ n := by
  have hpow : (0 : Int) < 2 ^ n := by positivity
  cases cm with
  | saturated | truncated =>
    rw [castS, Int.toNat_lt (Int.emod_nonneg _ hpow.ne')]
    push_cast
    exact Int.emod_lt_of_pos _ hpow

/-- An integer in its type's range is its own pattern (42_codec_encode.md R302). -/
theorem castU_of_fits {i : Int} {n : Nat} (cm : CastMode) (h0 : 0 ≤ i) (hlt : i < 2 ^ n) :
    (castU i n cm : Int) = i := by
  cases cm with
  | saturated => rw [castU, min_eq_left (by omega), max_eq_left h0, Int.toNat_of_nonneg h0]
  | truncated => rw [castU, Int.emod_eq_of_lt h0 hlt, Int.toNat_of_nonneg h0]

/-- A signed integer in its type's range comes back from its pattern (42_codec_encode.md R303, 00_scope.md R10). -/
theorem sext_castS {i : Int} {n : Nat} (cm : CastMode) (hn : 1 ≤ n) (hlo : -(2 ^ (n - 1)) ≤ i)
    (hhi : i < 2 ^ (n - 1)) : sext n (castS i n cm) = i := by
  have hcast : castS i n cm = (i % 2 ^ n).toNat := by
    cases cm with
    | saturated => rw [castS, max_eq_left hlo, min_eq_left (by omega)]
    | truncated => rfl
  have hpow : (2 : Int) ^ n = 2 * 2 ^ (n - 1) := by rw [← pow_succ', Nat.sub_add_cancel hn]
  have hpos : (0 : Int) < 2 ^ (n - 1) := by positivity
  have hnat : ((2 ^ (n - 1) : Nat) : Int) = 2 ^ (n - 1) := by push_cast; rfl
  have hmod : (castS i n cm : Int) = if 0 ≤ i then i else i + 2 ^ n := by
    rw [hcast, Int.toNat_of_nonneg (Int.emod_nonneg _ (by omega))]
    split
    · exact Int.emod_eq_of_lt (by omega) (by omega)
    · rw [← Int.add_emod_right, Int.emod_eq_of_lt (by omega) (by omega)]
  rw [sext_eq hn (castS_lt i n cm)]
  split_ifs at hmod ⊢ <;> omega

section
variable {cfg : Config} {n : Nat} {x : BitVec 64} (cm : CastMode) (hn : n = 16 ∨ n = 32 ∨ n = 64)
include hn

/-- A value of the format comes back as it was, without a draw (43_codec_decode.md R406). -/
theorem widen_castF_of_representable (hconv : convertsByIeee cfg n) (hx : representable n x) (draw : Nat) :
    widen n (castF cfg x n cm) draw = x ∧ asksNanDraw n (castF cfg x n cm) = false := by
  by_cases h64 : n = 64
  · subst h64
    exact ⟨BitVec.eq_of_toNat_eq (widen_sixtyFour (castF_lt cfg x cm hn) draw), asksNanDraw_eq_false (.inl rfl)⟩
  · have hnarrow : n = 16 ∨ n = 32 := by omega
    obtain ⟨u, hu, hnan, hxu⟩ := hx h64
    have hcast : castF cfg x n cm = u :=
      castF_of_sameValue hnarrow hconv hu hnan (hxu ▸ (widenExact_spec hnarrow u).2)
    rw [hcast]
    exact ⟨BitVec.eq_of_toNat_eq ((widen_of_not_nan hnarrow hnan draw).trans hxu.symm),
      asksNanDraw_eq_false (.inr hnan)⟩

/-- A NaN comes back as some NaN, and one of 64 bits as itself (43_codec_decode.md R406). -/
theorem widen_castF_of_nan (hconv : convertsByIeee cfg n) (hx : binary64.isNan x.toNat = true) (draw : Nat) :
    widen n (castF cfg x n cm) draw = x ∨
      n ≠ 64 ∧ binary64.isNan (widen n (castF cfg x n cm) draw).toNat = true := by
  by_cases h64 : n = 64
  · exact .inl (widen_castF_of_representable cm hn hconv (fun h => absurd h64 h) draw).1
  · exact .inr ⟨h64, isNan_widen h64 (castF_nan (by omega) hconv hx) draw⟩

end

end Sys2Proof.Machine
end

section
/-! The round trip of the codec (43_codec_decode.md R413, R415, R416): a parse gives back the value whose encoding it
finds. The induction follows the descriptor, with the parts of each kind put together from what they read. -/

namespace Sys2Proof.Machine

/-! ### Values read back -/

/-- `w`, read with `k` draws, is the value `v` of the type `T` as the round trip has it (43_codec_decode.md R416). -/
def ReadBack (cfg : Config) (T : Ty) (v w : Val) (k : Nat) : Prop :=
  (leavesReadable cfg T v → readsAs T v w) ∧ (leavesFit cfg T v → w = declOrder T v ∧ k = 0)

/-- The same for the elements of an array. -/
def ElemsBack (cfg : Config) (E : Ty) (vs ws : List Val) (k : Nat) : Prop :=
  ((∀ v ∈ vs, leavesReadable cfg E v) → List.Forall₂ (readsAs E) vs ws) ∧
    ((∀ v ∈ vs, leavesFit cfg E v) → ws = vs.map (declOrder E) ∧ k = 0)

/-- The same for one field of a Struct; a Void field gives nothing. -/
def FieldBack (cfg : Config) (name : String) (T : Ty) (es : Entries) (a : Option Val) (k : Nat) : Prop :=
  if T.isVoid then a = none ∧ k = 0
  else ∃ v w, es.get? name = some v ∧ a = some w ∧ ReadBack cfg T v w k

/-- The same for the fields of a Struct. -/
def FieldsBack (cfg : Config) (fs : Fields) (es : Entries) (out : List (String × Val)) (k : Nat) : Prop :=
  (leavesMeetFields (floatReadable cfg) fs es → readsAsFields fs es out) ∧
    (leavesMeetFields (floatFits cfg) fs es → out = declOrderFields fs es ∧ k = 0)

/-- The same for the member of a Union. -/
def MemberBack (cfg : Config) (fs : Fields) (idx : Nat) (v w : Val) (k : Nat) : Prop :=
  (leavesMeetMember (floatReadable cfg) fs idx v → readsAsMember fs idx v w) ∧
    (leavesMeetMember (floatFits cfg) fs idx v → w = declOrderMember fs idx v ∧ k = 0)

section
variable {cfg : Config}

theorem ElemsBack.nil (E : Ty) : ElemsBack cfg E [] [] 0 := ⟨fun _ => .nil, fun _ => ⟨rfl, rfl⟩⟩

theorem ElemsBack.cons {E : Ty} {v w : Val} {vs ws : List Val} {k k' : Nat} (h : ReadBack cfg E v w k)
    (hs : ElemsBack cfg E vs ws k') : ElemsBack cfg E (v :: vs) (w :: ws) (k + k') := by
  constructor
  · intro hv
    obtain ⟨hhead, htail⟩ := List.forall_mem_cons.1 hv
    exact .cons (h.1 hhead) (hs.1 htail)
  · intro hv
    obtain ⟨hhead, htail⟩ := List.forall_mem_cons.1 hv
    obtain ⟨rfl, rfl⟩ := h.2 hhead
    obtain ⟨rfl, rfl⟩ := hs.2 htail
    exact ⟨rfl, rfl⟩

theorem ElemsBack.array {E : Ty} {mode : ArrayMode} {m : Nat} {vs : Vals} {ws : List Val} {k : Nat}
    (h : ElemsBack cfg E vs.toList ws k) :
    ReadBack cfg (.array E mode m) (.array vs) (.array (Vals.ofList ws)) k := by
  constructor
  · intro hv
    rw [leavesReadable, leavesMeet] at hv
    rw [readsAs]
    exact ⟨ws, rfl, h.1 hv⟩
  · intro hv
    rw [leavesFit, leavesMeet] at hv
    obtain ⟨rfl, rfl⟩ := h.2 hv
    rw [declOrder]
    exact ⟨rfl, rfl⟩

theorem FieldsBack.nil (es : Entries) : FieldsBack cfg .nil es [] 0 :=
  ⟨fun _ => by rw [readsAsFields], fun _ => ⟨by rw [declOrderFields], rfl⟩⟩

theorem FieldsBack.cons {name : String} {T : Ty} {rest : Fields} {es : Entries} {a : Option Val}
    {out : List (String × Val)} {k k' : Nat} (h : FieldBack cfg name T es a k) (hs : FieldsBack cfg rest es out k') :
    FieldsBack cfg (.cons name T rest) es ((a.map fun x => (name, x)).toList ++ out) (k + k') := by
  rw [FieldsBack, leavesMeetFields, leavesMeetFields, readsAsFields, declOrderFields]
  by_cases hvoid : T.isVoid = true
  · rw [FieldBack, if_pos hvoid] at h
    obtain ⟨rfl, rfl⟩ := h
    rw [if_pos hvoid, if_pos hvoid, Nat.zero_add]
    exact ⟨fun hv => hs.1 hv.2, fun hv => hs.2 hv.2⟩
  · rw [FieldBack, if_neg hvoid] at h
    obtain ⟨v, w, hget, rfl, hreadable, hfit⟩ := h
    rw [if_neg hvoid, if_neg hvoid, hget]
    constructor
    · rintro ⟨hv, hrest⟩
      exact ⟨v, w, out, rfl, rfl, hreadable (hv v rfl), hs.1 hrest⟩
    · rintro ⟨hv, hrest⟩
      obtain ⟨rfl, rfl⟩ := hfit (hv v rfl)
      obtain ⟨rfl, rfl⟩ := hs.2 hrest
      exact ⟨rfl, rfl⟩

theorem FieldsBack.struct {fs : Fields} {es : Entries} {out : List (String × Val)} {k : Nat}
    (h : FieldsBack cfg fs es out k) :
    ReadBack cfg (.struct fs) (.record es) (.record (Entries.ofList out)) k := by
  rw [ReadBack, leavesReadable, leavesFit, leavesMeet, leavesMeet, readsAs, declOrder]
  refine ⟨fun hv => ⟨out, rfl, h.1 hv⟩, fun hv => ?_⟩
  obtain ⟨rfl, rfl⟩ := h.2 hv
  exact ⟨rfl, rfl⟩

theorem MemberBack.union {fs : Fields} {idx : Nat} {v w : Val} {k : Nat} (h : MemberBack cfg fs idx v w k) :
    ReadBack cfg (.union fs) (.union idx v) (.union idx w) k := by
  rw [ReadBack, leavesReadable, leavesFit, leavesMeet, leavesMeet, readsAs, declOrder]
  refine ⟨fun hv => ⟨w, rfl, h.1 hv⟩, fun hv => ?_⟩
  obtain ⟨rfl, rfl⟩ := h.2 hv
  exact ⟨rfl, rfl⟩

theorem readBack_bool (b : Bool) : ReadBack cfg .bool (.bool b) (.bool b) 0 :=
  ⟨fun _ => by simp only [readsAs], fun _ => ⟨by simp only [declOrder], rfl⟩⟩

theorem readBack_uint (n : Nat) (cm : CastMode) (i : Int) :
    ReadBack cfg (.uint n cm) (.int i) (.int (castU i n cm)) 0 := by
  simp only [ReadBack, leavesMeet, readsAs, declOrder]
  constructor
  · rintro ⟨h0, hlt⟩
    rw [castU_of_fits cm h0 hlt]
  · rintro ⟨h0, hlt⟩
    exact ⟨by rw [castU_of_fits cm h0 hlt], trivial⟩

theorem readBack_int {n : Nat} (cm : CastMode) (hn : 1 ≤ n) (i : Int) :
    ReadBack cfg (.int n cm) (.int i) (.int (sext n (castS i n cm))) 0 := by
  simp only [ReadBack, leavesMeet, readsAs, declOrder]
  constructor
  · rintro ⟨hlo, hhi⟩
    rw [sext_castS cm hn hlo hhi]
  · rintro ⟨hlo, hhi⟩
    exact ⟨by rw [sext_castS cm hn hlo hhi], trivial⟩

theorem readBack_float {n : Nat} (cm : CastMode) (hn : n = 16 ∨ n = 32 ∨ n = 64) (x : BitVec 64) (draw : Nat) :
    ReadBack cfg (.float n cm) (.float x) (.float (widen n (castF cfg x n cm) draw))
      (if asksNanDraw n (castF cfg x n cm) then 1 else 0) := by
  simp only [ReadBack, leavesMeet, readsAs, declOrder]
  constructor
  · rintro ⟨hconv, hnan | hrep⟩
    · refine ⟨_, rfl, (widen_castF_of_nan cm hn hconv hnan draw).imp_right fun h => ?_⟩
      exact ⟨h.1, hnan, h.2⟩
    · exact ⟨_, rfl, .inl (widen_castF_of_representable cm hn hconv hrep draw).1⟩
  · rintro ⟨-, hconv, hrep⟩
    obtain ⟨hwiden, hask⟩ := widen_castF_of_representable cm hn hconv hrep draw
    exact ⟨by rw [hwiden], by rw [hask]; rfl⟩

end

/-! ### Repeated elements -/

/-- A parse that gives back the value `v`. -/
abbrev readsValue (cfg : Config) (T : Ty) (v : Val) (t : Bool) : Prop :=
  ReadsBits cfg.bitOrder (emit cfg T v t) (tailRoom T v t) (taoSaved T t) (parse cfg T t) fun a k =>
    ∃ w, a = some w ∧ ReadBack cfg T v w k

mutual

/-- Outside tail position any bits may follow. -/
theorem tailRoom_false : ∀ (T : Ty) (v : Val), tailRoom T v false = none
  | .array E mode m, v => by cases mode <;> cases v <;> simp [tailRoom]
  | .struct fs, v => by
    cases v with
    | record es => rw [tailRoom, tailRoomFields_false fs es]
    | _ => rfl
  | .void _, _ | .bool, _ | .uint _ _, _ | .int _ _, _ | .float _ _, _ | .union _, _ => by
    simp [tailRoom]

theorem tailRoomFields_false : ∀ (fs : Fields) (es : Entries), tailRoomFields fs es false = none
  | .nil, _ => by rw [tailRoomFields]
  | .cons name T .nil, es => by
    rw [tailRoomFields]
    cases es.get? name with
    | none => rfl
    | some v => exact tailRoom_false T v
  | .cons _ _ (.cons name T rest), es => by
    rw [tailRoomFields, tailRoomFields_false (.cons name T rest) es]
    exact fun h => by cases h

end

/-- Only the TAO form of an array, alone or at the end of a Struct, minds what follows. -/
theorem tailRoom_eq_none {T : Ty} (hA : T.isDynamicArray = false) (hS : T.isStruct = false) (v : Val) (t : Bool) :
    tailRoom T v t = none := by
  cases T with
  | array E mode m =>
    cases mode with
    | fixed => simp only [tailRoom]
    | dynamic => cases hA
  | struct fs => cases hS
  | _ => simp only [tailRoom]

section
variable {cfg : Config} {T E : Ty} {v : Val}

theorem readsValue.outsideTail (h : readsValue cfg T v false) :
    ReadsBits cfg.bitOrder (emit cfg T v false) none 0 (parse cfg T false) fun a k =>
      ∃ w, a = some w ∧ ReadBack cfg T v w k := by
  rwa [readsValue, tailRoom_false, taoSaved_false] at h

theorem parseTimes_reads {vs : List Val} (h : ∀ v ∈ vs, readsValue cfg E v false) :
    ReadsBits cfg.bitOrder (vs.flatMap fun v => emit cfg E v false) none 0
      (parseTimes (parse cfg E false) vs.length) (ElemsBack cfg E vs) := by
  induction vs with
  | nil =>
    exact .pure (ElemsBack.nil E)
  | cons v vs ih =>
    obtain ⟨hv, hvs⟩ := List.forall_mem_cons.1 h
    rw [List.length_cons, parseTimes_succ, List.flatMap_cons]
    refine hv.outsideTail.parseThen fun a k ha => (ih hvs).map fun ws k' hws => ?_
    obtain ⟨w, rfl, hw⟩ := ha
    exact ElemsBack.cons hw hws

/-- Elements of the TAO form are read until fewer than `e` bits remain or the array is full (43_codec_decode.md
R410). -/
theorem parseTail_finds {e : Nat} {vs : List Val} (h : ∀ v ∈ vs, readsValue cfg E v false)
    (he : ∀ v ∈ vs, (emit cfg E v false).length = e) {m : Nat} (hm : vs.length ≤ m) (c : Cursor)
    (hbits : Holds cfg.bitOrder c.r (vs.flatMap fun v => emit cfg E v false))
    (hroom : vs.length < m →
      8 * c.r.buf.length < c.r.pos + (vs.flatMap fun v => emit cfg E v false).length + e) :
    ∃ ws k, parseTail (parse cfg E false) e m c =
      .ok (ws, c.after (vs.flatMap fun v => emit cfg E v false).length k) ∧ ElemsBack cfg E vs ws k := by
  induction vs generalizing m c with
  | nil =>
    refine ⟨[], 0, ?_, ElemsBack.nil E⟩
    cases m with
    | zero => rfl
    | succ m =>
      have hin := hbits.1
      have hroom := hroom (Nat.succ_pos m)
      rw [List.flatMap_nil, List.length_nil] at hin hroom
      rw [parseTail_succ, if_neg]
      · rfl
      · rw [remaining]
        omega
  | cons v vs ih =>
    obtain ⟨hv, hvs⟩ := List.forall_mem_cons.1 h
    obtain ⟨hev, hevs⟩ := List.forall_mem_cons.1 he
    obtain ⟨m, rfl⟩ := Nat.exists_eq_succ_of_ne_zero (Nat.ne_of_gt (Nat.lt_of_lt_of_le (Nat.succ_pos _) hm))
    rw [List.flatMap_cons, List.length_append] at hroom
    rw [List.flatMap_cons] at hbits ⊢
    obtain ⟨hhead, htail⟩ := (holds_append _ _ _ _).1 hbits
    obtain ⟨a, k, hp, w, rfl, hw⟩ := hv.outsideTail.finds c hhead fun e he => by cases he
    obtain ⟨ws, k', hps, hws⟩ := ih hvs hevs (Nat.le_of_succ_le_succ hm) (c.after _ k) htail
      fun hlt => by simpa [Nat.add_assoc] using hroom (Nat.succ_lt_succ hlt)
    refine ⟨w :: ws, k + k', ?_, ElemsBack.cons hw hws⟩
    have hlen := hhead.1
    rw [parseTail_succ, if_pos, parseThen_of_ok _ hp, parseThen_of_ok _ hps, Cursor.after_after,
      List.length_append]
    · rfl
    · rw [remaining]
      omega

theorem emit_length_of_taoEligible {m : Nat} (hE : taoEligible (.array E .dynamic m) = true)
    (hcheck : checkTy E = none) (hv : conform E v = none) : (emit cfg E v false).length = E.width := by
  have hfacts := encodingFacts_of_conform cfg E v false hcheck hv
  obtain ⟨E', m', n, cm, heq, -, hE'⟩ := (taoEligible_iff _).1 hE
  cases heq
  rcases hE' with rfl | rfl | rfl <;> exact hfacts.length_eq.trans (hfacts.eq_hi rfl)

end

/-! ### Every descriptor -/

section
variable {cfg : Config} {E : Ty} {m : Nat} {vs : Vals}

theorem parse_fixed_reads (t : Bool) (hlen : vs.toList.length = m) (h : ∀ v ∈ vs.toList, readsValue cfg E v false) :
    readsValue cfg (.array E .fixed m) (.array vs) t := by
  subst hlen
  rw [readsValue, emit, tailRoom_eq_none rfl rfl, taoSaved, taoEligible_fixed, Bool.and_false,
    if_neg Bool.false_ne_true, parse_fixed, asArray_eq]
  exact (parseTimes_reads h).map fun ws k hws => ⟨_, rfl, hws.array⟩

theorem parse_prefixed_reads {t : Bool} (ht : ¬ (t && taoEligible (.array E .dynamic m)) = true)
    (hlen : vs.toList.length ≤ m) (h : ∀ v ∈ vs.toList, readsValue cfg E v false) :
    readsValue cfg (.array E .dynamic m) (.array vs) t := by
  have hroom : tailRoom (.array E .dynamic m) (.array vs) t = none := by
    rw [tailRoom, if_neg]
    rintro ⟨rfl, hE, -⟩
    exact ht hE
  rw [readsValue, hroom, emit, taoSaved, parse_dynamic, if_neg ht, if_neg ht, if_neg ht, wideBits_eq_fieldBits]
  refine (parseCount_reads cfg hlen).parseThen fun a k ha => ?_
  obtain ⟨rfl, rfl⟩ := ha
  rw [asArray_eq]
  exact (parseTimes_reads h).map fun ws k hws => ⟨_, rfl, by rw [Nat.zero_add]; exact hws.array⟩

theorem parse_tao_reads {t : Bool} (ht : (t && taoEligible (.array E .dynamic m)) = true) (hcheck : checkTy E = none)
    (hlen : vs.toList.length ≤ m) (hvs : ∀ v ∈ vs.toList, conform E v = none)
    (h : ∀ v ∈ vs.toList, readsValue cfg E v false) : readsValue cfg (.array E .dynamic m) (.array vs) t := by
  obtain ⟨rfl, hE⟩ := (Bool.and_eq_true _ _).mp ht
  rw [readsValue, emit_dynamic_tao cfg vs rfl hE, taoSaved, if_pos ht, parse_dynamic, if_pos ht, tailRoom]
  constructor
  · intro c hbits hroom
    obtain ⟨ws, k, hp, hws⟩ := parseTail_finds h
      (fun v hv => emit_length_of_taoEligible hE hcheck (hvs v hv)) hlen c hbits
      fun hlt => hroom _ (by rw [if_pos ⟨rfl, hE, hlt⟩]; rfl)
    exact ⟨_, k, by rw [hp]; rfl, _, rfl, hws.array⟩
  · intro hs c hinv hcut
    have hm : m = 0 := by
      have hlt := (bitlen_le_iff m 0).1 hs.le
      omega
    have hnil : vs.toList = [] := List.length_eq_zero_iff.1 (by omega)
    rw [hnil, List.flatMap_nil] at hcut
    exact absurd hcut (ReadsBits.not_cutShort_nil hinv)

/-- The bits of one field of a Struct, and what a parse makes of them. -/
theorem field_reads {name : String} {T : Ty} {es : Entries} (t : Bool)
    (hval : T.isVoid = false → ∃ v, es.get? name = some v ∧ conform T v = none)
    (h : ∀ v, conform T v = none → readsValue cfg T v t) :
    ReadsBits cfg.bitOrder
      (if T.isVoid then wideBits cfg.bitOrder 0 T.width else ((es.get? name).map fun v => emit cfg T v t).getD [])
      ((es.get? name).bind fun v => tailRoom T v t) (taoSaved T t) (parse cfg T t) (FieldBack cfg name T es) := by
  by_cases hvoid : T.isVoid = true
  · obtain ⟨n, rfl⟩ := (isVoid_iff T).1 hvoid
    have hroom : ((es.get? name).bind fun v => tailRoom (.void n) v t) = none := by
      cases es.get? name <;> simp [tailRoom]
    rw [if_pos hvoid, hroom, parse_void, wideBits_eq_fieldBits, taoSaved]
    exact (parseWide_reads cfg (by positivity)).map fun a k ha => ⟨rfl, ha.2⟩
  · obtain ⟨v, hget, hv⟩ := hval (Bool.eq_false_iff.2 hvoid)
    rw [if_neg hvoid, hget]
    obtain ⟨hfinds, hcut⟩ := h v hv
    refine ⟨fun c hbits hroom => ?_, hcut⟩
    obtain ⟨a, k, hp, w, ha, hw⟩ := hfinds c hbits hroom
    refine ⟨a, k, hp, ?_⟩
    rw [FieldBack, if_neg hvoid]
    exact ⟨v, w, hget, ha, hw⟩

/-- A field that is not the last of its Struct, or of a Struct outside tail position. -/
theorem field_reads_outsideTail {name : String} {T : Ty} {es : Entries}
    (hval : T.isVoid = false → ∃ v, es.get? name = some v ∧ conform T v = none)
    (h : ∀ v, conform T v = none → readsValue cfg T v false) :
    ReadsBits cfg.bitOrder
      (if T.isVoid then wideBits cfg.bitOrder 0 T.width
        else ((es.get? name).map fun v => emit cfg T v false).getD [])
      none 0 (parse cfg T false) (FieldBack cfg name T es) := by
  have hnone : ((es.get? name).bind fun v => tailRoom T v false) = none := by
    cases es.get? name <;> simp [tailRoom_false]
  have hfield := field_reads false hval h
  rwa [hnone, taoSaved_false] at hfield

theorem lt_of_conformMember {fs : Fields} {idx : Nat} {v : Val} (h : conformMember fs idx v = none) :
    idx < fs.count := by
  have hfirst := conformMember_eq_findSome fs idx v
  by_contra hidx
  rw [Fields.count] at hidx
  rw [h, if_neg hidx] at hfirst
  cases hfirst

theorem parseFields_single (name : String) (T : Ty) (t : Bool) :
    parseFields cfg (.cons name T .nil) t =
      parseThen (parse cfg T t) fun v c => .ok ((v.map fun x => (name, x)).toList ++ [], c) := by
  rw [parseFields_cons, Fields.toList, List.isEmpty_nil, Bool.and_true]
  rfl

end

mutual

/-- A parse gives back every value whose encoding it finds. -/
theorem parse_reads (cfg : Config) : ∀ (T : Ty) (v : Val) (t : Bool), checkTy T = none → conform T v = none →
    readsValue cfg T v t
  | .void n, v, _, _, hv => by cases v <;> cases hv
  | .bool, v, t, _, hv => by
    cases v with
    | bool b =>
      have hb : b.toNat < 2 ^ 1 := by cases b <;> decide
      rw [readsValue, emit, tailRoom_eq_none rfl rfl, taoSaved, parse_bool, parseBits_eq_parseWide (by decide),
        chunkBits_eq_fieldBits _ _ (by decide)]
      refine (parseWide_reads cfg hb).map fun a k ha => ?_
      obtain ⟨rfl, rfl⟩ := ha
      exact ⟨_, by cases b <;> rfl, readBack_bool b⟩
    | _ => cases hv
  | .uint n cm, v, _, _, hv => by
    cases v with
    | int i =>
      rw [readsValue, emit, tailRoom_eq_none rfl rfl, taoSaved, parse_uint, wideBits_eq_fieldBits]
      refine (parseWide_reads cfg (castU_lt i n cm)).map fun a k ha => ?_
      obtain ⟨rfl, rfl⟩ := ha
      exact ⟨_, rfl, readBack_uint n cm i⟩
    | _ => cases hv
  | .int n cm, v, _, hT, hv => by
    cases v with
    | int i =>
      have hn : 2 ≤ n ∧ n ≤ 64 := by simpa [checkTy] using hT
      rw [readsValue, emit, tailRoom_eq_none rfl rfl, taoSaved, parse_int, wideBits_eq_fieldBits]
      refine (parseWide_reads cfg (castS_lt i n cm)).map fun a k ha => ?_
      obtain ⟨rfl, rfl⟩ := ha
      exact ⟨_, rfl, readBack_int cm (by omega) i⟩
    | _ => cases hv
  | .float n cm, v, _, hT, hv => by
    cases v with
    | float x =>
      have hn : n = 16 ∨ n = 32 ∨ n = 64 := by
        rw [checkTy] at hT
        by_contra h
        rw [if_neg h] at hT
        cases hT
      rw [readsValue, emit, tailRoom_eq_none rfl rfl, taoSaved, parse_float, wideBits_eq_fieldBits]
      refine (parseFloat_reads cfg (castF_lt cfg x cm hn)).map fun a k ha => ?_
      obtain ⟨draw, rfl, rfl⟩ := ha
      exact ⟨_, rfl, readBack_float cm hn x draw⟩
    | _ => cases hv
  | .array E .fixed m, v, t, hT, hv => by
    obtain ⟨vs, rfl, hlen, hvs⟩ := conform_fixed_cases hv
    have hE := (checkTy_array_eq_none hT).2
    exact parse_fixed_reads t hlen fun w hw => parse_reads cfg E w false hE (hvs w hw)
  | .array E .dynamic m, v, t, hT, hv => by
    obtain ⟨vs, rfl, hlen, hvs⟩ := conform_dynamic_cases hv
    have hE := (checkTy_array_eq_none hT).2
    have helems : ∀ w ∈ vs.toList, readsValue cfg E w false := fun w hw => parse_reads cfg E w false hE (hvs w hw)
    by_cases ht : (t && taoEligible (.array E .dynamic m)) = true
    · exact parse_tao_reads ht hE hlen hvs helems
    · exact parse_prefixed_reads ht hlen helems
  | .struct fs, v, t, hT, hv => by
    cases v with
    | record es =>
      rw [readsValue, emit, tailRoom, taoSaved, parse_struct]
      exact (parseFields_reads cfg fs es t (checkTy_struct_eq_none hT).2 (fieldsFilled_of_conform hv)).map
        fun out k hout => ⟨_, rfl, hout.struct⟩
    | _ => cases hv
  | .union fs, v, t, hT, hv => by
    cases v with
    | union idx v =>
      obtain ⟨-, -, hfs⟩ := checkTy_union_eq_none hT
      rw [conform] at hv
      have hidx := lt_of_conformMember hv
      have htag : idx < 2 ^ bitlen (fs.count - 1) :=
        (Nat.le_sub_one_of_lt hidx).trans_lt ((bitlen_le_iff _ _).1 le_rfl)
      rw [readsValue, emit, tailRoom_eq_none rfl rfl, taoSaved, parse_union, wideBits_eq_fieldBits]
      refine (parseWide_reads cfg htag).parseThen fun a k ha => ?_
      obtain ⟨rfl, rfl⟩ := ha
      rw [if_neg (Nat.not_le.2 hidx)]
      refine (parseMember_reads cfg fs a v hfs hv).map fun b k hb => ?_
      obtain ⟨w, rfl, hw⟩ := hb
      rw [Nat.zero_add]
      exact ⟨_, rfl, hw.union⟩
    | _ => cases hv

theorem parseFields_reads (cfg : Config) : ∀ (fs : Fields) (es : Entries) (t : Bool), checkFields fs = none →
    fieldsFilled fs es → ReadsBits cfg.bitOrder (emitFields cfg fs es t) (tailRoomFields fs es t)
      (taoSavedFields fs t) (parseFields cfg fs t) (FieldsBack cfg fs es)
  | .nil, es, t, _, _ => by
    have hnil : parseFields cfg .nil t = fun c => .ok ([], c) := funext fun c => by rw [parseFields]
    rw [emitFields, tailRoomFields, taoSavedFields, hnil]
    exact .pure (FieldsBack.nil es)
  | .cons name T .nil, es, t, hfs, hes => by
    obtain ⟨hT, -⟩ := checkFields_cons_eq_none hfs
    obtain ⟨hval, -⟩ := fieldsFilled_cons hes
    rw [emitFields, emitFields, tailRoomFields, taoSavedFields, parseFields_single, List.append_nil, Fields.toList,
      List.isEmpty_nil, Bool.and_true]
    exact (field_reads t hval fun v hv => parse_reads cfg T v t hT hv).map fun a k ha =>
      FieldsBack.cons ha (FieldsBack.nil es)
  | .cons name T (.cons name' T' rest), es, t, hfs, hes => by
    obtain ⟨hT, hrest⟩ := checkFields_cons_eq_none hfs
    obtain ⟨hval, hes'⟩ := fieldsFilled_cons hes
    have hfield := field_reads_outsideTail hval fun v hv => parse_reads cfg T v false hT hv
    have hlast : (t && (Fields.cons name' T' rest).toList.isEmpty) = false := by
      rw [Fields.toList, List.isEmpty_cons, Bool.and_false]
    rw [emitFields, tailRoomFields, taoSavedFields, parseFields_cons, hlast]
    · exact hfield.parseThen fun a k ha => (parseFields_reads cfg (.cons name' T' rest) es t hrest hes').map
        fun out k' hout => FieldsBack.cons ha hout
    · exact fun h => by cases h
    · exact fun h => by cases h

theorem parseMember_reads (cfg : Config) : ∀ (fs : Fields) (idx : Nat) (v : Val), checkFields fs = none →
    conformMember fs idx v = none → ReadsBits cfg.bitOrder (emitMember cfg fs idx v) none 0 (parseMember cfg fs idx)
      fun a k => ∃ w, a = some w ∧ MemberBack cfg fs idx v w k
  | .nil, _, _, _, hv => by
    rw [conformMember] at hv
    cases hv
  | .cons name T rest, 0, v, hfs, hv => by
    obtain ⟨hT, -⟩ := checkFields_cons_eq_none hfs
    rw [conformMember] at hv
    have hmember : parseMember cfg (.cons name T rest) 0 = parse cfg T false := funext fun c => by rw [parseMember]
    rw [emitMember, hmember]
    simp only [MemberBack, leavesMeetMember, readsAsMember, declOrderMember]
    exact (parse_reads cfg T v false hT hv).outsideTail
  | .cons name T rest, k + 1, v, hfs, hv => by
    obtain ⟨-, hrest⟩ := checkFields_cons_eq_none hfs
    rw [conformMember] at hv
    have hmember : parseMember cfg (.cons name T rest) (k + 1) = parseMember cfg rest k :=
      funext fun c => by rw [parseMember]
    rw [emitMember, hmember]
    simp only [MemberBack, leavesMeetMember, readsAsMember, declOrderMember]
    exact parseMember_reads cfg rest k v hrest hv

end

/-! ### The commands -/

/-- Settles O36: every composite command decodes at the cursor, where the parse finds the value. -/
theorem decodeFindsWhatWasEncoded : Obligations.DecodeFindsWhatWasEncoded := by
  intro s v t hT hv hleaves hbits hroom
  obtain ⟨_, k, hp, w, rfl, hread, hfit⟩ := (parse_reads s.cfg s.ports.ty v t hT hv).finds s.cursor hbits hroom
  have hend : decodeAtCursor s.ports.ty t s = _ := decodeAtCursor_of_ok hT hp
  refine ⟨w, s.nanDraws + k, hread hleaves, fun hf => ?_, fun hk ht => ?_, fun hk ht => ?_, fun hk ht => ?_,
    fun hk => (if_pos hk).trans hend⟩
  · obtain ⟨hw, rfl⟩ := hfit hf
    exact ⟨hw, rfl⟩
  · subst ht
    exact (if_pos hk).trans hend
  · have hform : ¬ (t && !taoEligible s.ports.ty) = true := by
      cases t with
      | false => exact Bool.false_ne_true
      | true => simp [ht rfl]
    exact (if_pos hk).trans ((if_neg hform).trans hend)
  · subst ht
    exact (if_pos hk).trans hend

/-- Where DEC's parse begins (43_codec_decode.md R413). -/
abbrev State.payloadCursor (s : State) : Cursor := { r := { buf := s.ports.bytes, pos := 0 }, draws := s.nanDraws }

section
variable {s : State} (hcap : ∀ c ∈ s.cfg.rCapBytes, s.ports.bytes.length ≤ c) (hT : checkTy s.ports.ty = none)
include hcap hT

theorem exec_dec_of_ok {v : Option Val} {c : Cursor}
    (h : parse s.cfg s.ports.ty s.ports.ty.isStruct s.payloadCursor = .ok (v, c)) :
    exec .dec s = .next
      { s with r := c.r, nanDraws := c.draws, result := endsWith 0x00 (.decoded v (remaining c.r)) } := by
  have hfits : ¬ exceeds s.cfg.rCapBytes s.ports.bytes.length = true :=
    Bool.eq_false_iff.1 ((exceeds_eq_false_iff _ _).2 hcap)
  rw [exec, execDec, if_neg hfits, hT]
  dsimp only
  rw [h]
  rfl

theorem exec_dec_of_error {e : Status}
    (h : parse s.cfg s.ports.ty s.ports.ty.isStruct s.payloadCursor = .error e) :
    exec .dec s = .next { s with result := endsWith (statusCode e) .none } := by
  have hfits : ¬ exceeds s.cfg.rCapBytes s.ports.bytes.length = true :=
    Bool.eq_false_iff.1 ((exceeds_eq_false_iff _ _).2 hcap)
  rw [exec, execDec, if_neg hfits, hT]
  dsimp only
  rw [h]
  rfl

end

/-- DEC of a payload that begins with the encoding of a value (43_codec_decode.md R413). -/
theorem exec_dec_of_holds {s : State} {v : Val} (hT : checkTy s.ports.ty = none) (hv : conform s.ports.ty v = none)
    (hcap : ∀ c ∈ s.cfg.rCapBytes, s.ports.bytes.length ≤ c)
    (hbits : Holds s.cfg.bitOrder { buf := s.ports.bytes, pos := 0 } (emit s.cfg s.ports.ty v s.ports.ty.isStruct))
    (hroom : ∀ e ∈ tailRoom s.ports.ty v s.ports.ty.isStruct,
      8 * s.ports.bytes.length < (emit s.cfg s.ports.ty v s.ports.ty.isStruct).length + e) :
    ∃ w k, ReadBack s.cfg s.ports.ty v w k ∧ exec .dec s = .next
      { s with
        r := { buf := s.ports.bytes, pos := (emit s.cfg s.ports.ty v s.ports.ty.isStruct).length }
        nanDraws := s.nanDraws + k
        result := endsWith 0x00 (.decoded (some w)
          (8 * s.ports.bytes.length - (emit s.cfg s.ports.ty v s.ports.ty.isStruct).length)) } := by
  obtain ⟨_, k, hp, w, rfl, hback⟩ := (parse_reads s.cfg s.ports.ty v _ hT hv).finds s.payloadCursor hbits
    fun e he => by simpa using hroom e he
  refine ⟨w, k, hback, ?_⟩
  rw [exec_dec_of_ok hcap hT hp]
  simp only [Cursor.after, remaining, Nat.zero_add]

/-- Settles O37: DEC decodes from the beginning of its payload, where the parse finds the value. -/
theorem decodeWholePayload : Obligations.DecodeWholePayload := by
  intro s v hT hv hleaves hcap hbits hroom
  obtain ⟨w, k, ⟨hread, hfit⟩, hexec⟩ := exec_dec_of_holds hT hv hcap hbits hroom
  refine ⟨w, s.nanDraws + k, hread hleaves, fun hf => ?_, hexec⟩
  obtain ⟨hw, rfl⟩ := hfit hf
  exact ⟨hw, rfl⟩

mutual

/-- An element of the TAO form has 8 bits or more, so the zero fill of a payload is never read as one
(43_codec_decode.md R410). -/
theorem eight_le_tailRoom : ∀ (T : Ty) (v : Val) (t : Bool), ∀ e ∈ tailRoom T v t, 8 ≤ e
  | .array E .dynamic m, v, t => by
    cases v with
    | array vs =>
      rw [tailRoom]
      split
      next h =>
        obtain ⟨-, hE, -⟩ := h
        obtain ⟨E', m', n, cm, heq, hn, hE'⟩ := (taoEligible_iff _).1 hE
        cases heq
        rintro e ⟨⟩
        rcases hE' with rfl | rfl | rfl <;> exact hn
      next => exact fun e he => by cases he
    | _ => exact fun e he => by simp [tailRoom] at he
  | .struct fs, v, t => by
    cases v with
    | record es =>
      rw [tailRoom]
      exact eight_le_tailRoomFields fs es t
    | _ => exact fun e he => by simp [tailRoom] at he
  | .array _ .fixed _, v, t | .void _, v, t | .bool, v, t | .uint _ _, v, t | .int _ _, v, t | .float _ _, v, t
  | .union _, v, t => by
    rw [tailRoom_eq_none rfl rfl]
    exact fun e he => by cases he

theorem eight_le_tailRoomFields : ∀ (fs : Fields) (es : Entries) (t : Bool), ∀ e ∈ tailRoomFields fs es t, 8 ≤ e
  | .nil, _, _ => fun e he => by simp [tailRoomFields] at he
  | .cons name T .nil, es, t => by
    rw [tailRoomFields]
    cases es.get? name with
    | none => exact fun e he => by cases he
    | some v => exact eight_le_tailRoom T v t
  | .cons _ _ (.cons name T rest), es, t => by
    rw [tailRoomFields]
    · exact eight_le_tailRoomFields (.cons name T rest) es t
    · exact fun h => by cases h

end

/-- Settles O38: the bytes that ENC gives out hold the encoding from their beginning, and only the zero fill of the
last byte follows. -/
theorem decodeOfEncodedPayload : Obligations.DecodeOfEncodedPayload := by
  intro s u hT hv hfit hcap
  obtain ⟨w', happ, hexec⟩ := (encodeWholePayload s hT hv).1 hcap
  have hbits := happ.holds
  obtain ⟨hpos, hlen, -⟩ := happ
  rw [Nat.zero_add] at hpos
  refine ⟨_, { u with
      r := { buf := w'.buf, pos := w'.pos }
      result := endsWith 0x00 (.decoded (some (declOrder s.ports.ty s.ports.v)) (8 * w'.buf.length - w'.pos)) },
    w'.buf, w'.pos, _, hexec, rfl, fun hcfg hty hbytes hucap => ⟨?_, rfl, by omega, rfl⟩⟩
  rw [← hbytes] at hbits hucap hlen
  rw [← hcfg, ← hty] at hbits hpos hfit
  rw [← hty] at hT hv
  obtain ⟨w, k, ⟨-, hback⟩, hdec⟩ := exec_dec_of_holds hT hv hucap hbits fun e he => by
    have h8 := eight_le_tailRoom _ _ _ e he
    omega
  obtain ⟨rfl, rfl⟩ := hback hfit
  rw [hdec, ← hpos, hbytes, hty, Nat.add_zero]

end Sys2Proof.Machine
end

section
/-! The errors of decoding (43_codec_decode.md R400, R407, R410 to R414). A decode command fails just where its parse
does. Where the parse of a part fails, does not depend on the draws used before it, so the error of a part alone is
the error of the whole; and a type of fixed length can fail only for want of bits. -/

namespace Sys2Proof.Machine

/-! ### The command and its parse -/

section
variable {s : State} {T : Ty} {t : Bool}

theorem failsWith_of_parse_error {e : Status} (hT : checkTy T = none) (hs : s.ports.ty = T) (he : e.isDecodeError)
    (h : parse s.cfg T t s.cursor = .error e) : FailsWith (decodeCommand T t) s (statusCode e) :=
  ⟨he, (exec_decodeCommand t s hT hs).trans (decodeAtCursor_of_error hT h)⟩

theorem exists_parse_error {code : BitVec 8} (hT : checkTy T = none) (hs : s.ports.ty = T)
    (h : FailsWith (decodeCommand T t) s code) :
    ∃ e : Status, e.isDecodeError ∧ statusCode e = code ∧ parse s.cfg T t s.cursor = .error e := by
  obtain ⟨hcode, hexec⟩ := h
  rw [exec_decodeCommand t s hT hs] at hexec
  have hresult {u u' : State} (h : (Host.Outcome.next u : Answer) = .next u') : u.result = u'.result := by
    cases h
    rfl
  cases hp : parse s.cfg T t s.cursor with
  | error e =>
    have hend := hresult ((decodeAtCursor_of_error hT hp).symm.trans hexec)
    obtain rfl : statusCode e = code := congrArg Result.status (Option.some.inj hend)
    exact ⟨e, hcode, rfl, rfl⟩
  | ok x =>
    have hend := hresult ((decodeAtCursor_of_ok hT hp).symm.trans hexec)
    obtain rfl : 0x00 = code := congrArg Result.status (Option.some.inj hend)
    exact absurd hcode (by decide)

end

/-! ### The draws decide no error -/

section
variable {α β : Type}

/-- Two parses of one part end alike: with one error, or with results that `R` relates and at one place. -/
inductive EndAlike (R : α → α → Prop) : Parsed α → Parsed α → Prop where
  | error (e : Status) : EndAlike R (.error e) (.error e)
  | ok {a b : α} (r : Reader) (d d' : Nat) (h : R a b) : EndAlike R (.ok (a, ⟨r, d⟩)) (.ok (b, ⟨r, d'⟩))

/-- `p` and `q` end alike at one place of the reader, whatever draws were used before. -/
def ParseAlike (R : α → α → Prop) (p q : Cursor → Parsed α) : Prop :=
  ∀ r d d', EndAlike R (p ⟨r, d⟩) (q ⟨r, d'⟩)

namespace ParseAlike

theorem pure {R : α → α → Prop} {a b : α} (h : R a b) :
    ParseAlike R (fun c => .ok (a, c)) fun c => .ok (b, c) := fun r d d' => .ok r d d' h

theorem parseThen {R : α → α → Prop} {S : β → β → Prop} {p q : Cursor → Parsed α} {k l : α → Cursor → Parsed β}
    (hp : ParseAlike R p q) (hk : ∀ a b, R a b → ParseAlike S (k a) (l b)) :
    ParseAlike S (Machine.parseThen p k) (Machine.parseThen q l) := by
  intro r d d'
  have h := hp r d d'
  unfold Machine.parseThen
  generalize p ⟨r, d⟩ = x, q ⟨r, d'⟩ = y at h
  cases h with
  | error e => exact .error e
  | ok r' e e' h => exact hk _ _ h r' e e'

end ParseAlike

/-- Any two results. -/
abbrev anyTwo (_ _ : α) : Prop := True

section
variable (cfg : Config)

theorem parseWide_alike (n : Nat) : ParseAlike Eq (parseWide cfg n) (parseWide cfg n) := by
  intro r d d'
  rcases Nat.lt_or_ge (8 * r.buf.length) (r.pos + n) with hlt | hge
  · rw [parseWide_of_short hlt, parseWide_of_short hlt]
    exact .error _
  · rw [parseWide_of_fits hge, parseWide_of_fits hge]
    exact .ok _ _ _ rfl

theorem parseFloat_alike (n : Nat) : ParseAlike anyTwo (parseFloat cfg n) (parseFloat cfg n) := by
  rw [parseFloat_eq]
  refine (parseWide_alike cfg n).parseThen ?_
  rintro u _ rfl r d d'
  split <;> exact .ok r _ _ trivial

theorem parseCount_alike (m : Nat) : ParseAlike Eq (parseCount cfg m) (parseCount cfg m) := by
  rw [parseCount_eq]
  split
  · exact .pure rfl
  · refine (parseWide_alike cfg _).parseThen ?_
    rintro k _ rfl r d d'
    split
    · exact .error _
    · exact .ok r d d' rfl

end

section
variable {p : Cursor → Parsed (Option Val)} (hp : ParseAlike anyTwo p p)
include hp

theorem parseTimes_alike (k : Nat) : ParseAlike anyTwo (parseTimes p k) (parseTimes p k) := by
  induction k with
  | zero => exact .pure trivial
  | succ k ih =>
    rw [parseTimes_succ]
    exact hp.parseThen fun _ _ _ => ih.parseThen fun _ _ _ => .pure trivial

theorem parseTail_alike (e k : Nat) : ParseAlike anyTwo (parseTail p e k) (parseTail p e k) := by
  induction k with
  | zero => exact .pure trivial
  | succ k ih =>
    intro r d d'
    rw [parseTail_succ, parseTail_succ]
    split
    · exact hp.parseThen (fun _ _ _ => ih.parseThen fun _ _ _ => .pure trivial) r d d'
    · exact .ok r d d' trivial

end

theorem asArray_alike {l : Cursor → Parsed (List Val)} (hl : ParseAlike anyTwo l l) :
    ParseAlike anyTwo (fun c => asArray (l c)) fun c => asArray (l c) := by
  rw [asArray_eq]
  exact hl.parseThen fun _ _ _ => .pure trivial

end

mutual

theorem parse_alike (cfg : Config) : ∀ (T : Ty) (t : Bool), ParseAlike anyTwo (parse cfg T t) (parse cfg T t)
  | .void n, t => by
    rw [parse_void]
    exact (parseWide_alike cfg n).parseThen fun _ _ _ => .pure trivial
  | .bool, t => by
    rw [parse_bool, parseBits_eq_parseWide (by decide)]
    exact (parseWide_alike cfg 1).parseThen fun _ _ _ => .pure trivial
  | .uint n cm, t => by
    rw [parse_uint]
    exact (parseWide_alike cfg n).parseThen fun _ _ _ => .pure trivial
  | .int n cm, t => by
    rw [parse_int]
    exact (parseWide_alike cfg n).parseThen fun _ _ _ => .pure trivial
  | .float n cm, t => by
    rw [parse_float]
    exact (parseFloat_alike cfg n).parseThen fun _ _ _ => .pure trivial
  | .array E .fixed m, t => by
    rw [parse_fixed]
    exact asArray_alike (parseTimes_alike (parse_alike cfg E false) m)
  | .array E .dynamic m, t => by
    rw [parse_dynamic]
    split
    · exact asArray_alike (parseTail_alike (parse_alike cfg E false) _ m)
    · refine (parseCount_alike cfg m).parseThen ?_
      rintro k _ rfl
      exact asArray_alike (parseTimes_alike (parse_alike cfg E false) k)
  | .union fs, t => by
    rw [parse_union]
    refine (parseWide_alike cfg _).parseThen ?_
    rintro u _ rfl
    split
    · exact fun _ _ _ => .error _
    · exact (parseMember_alike cfg fs u).parseThen fun _ _ _ => .pure trivial
  | .struct fs, t => by
    rw [parse_struct]
    exact (parseFields_alike cfg fs t).parseThen fun _ _ _ => .pure trivial

theorem parseFields_alike (cfg : Config) : ∀ (fs : Fields) (t : Bool),
    ParseAlike anyTwo (parseFields cfg fs t) (parseFields cfg fs t)
  | .nil, t => fun r d d' => by
    rw [parseFields, parseFields]
    exact .ok r d d' trivial
  | .cons name T rest, t => by
    rw [parseFields_cons]
    exact (parse_alike cfg T _).parseThen fun _ _ _ =>
      (parseFields_alike cfg rest t).parseThen fun _ _ _ => .pure trivial

theorem parseMember_alike (cfg : Config) : ∀ (fs : Fields) (k : Nat),
    ParseAlike anyTwo (parseMember cfg fs k) (parseMember cfg fs k)
  | .nil, k => fun r d d' => by
    rw [parseMember, parseMember]
    exact .error _
  | .cons _ T _, 0 => fun r d d' => by
    rw [parseMember, parseMember]
    exact parse_alike cfg T false r d d'
  | .cons _ _ rest, k + 1 => fun r d d' => by
    rw [parseMember, parseMember]
    exact parseMember_alike cfg rest k r d d'

end

/-- The error of a part alone is its error wherever it stands, whatever draws the parts before it used. -/
theorem exists_part_error {s : State} {T : Ty} {t : Bool} {n : Nat} {code : BitVec 8} (hT : checkTy T = none)
    (h : FailsWith (decodeCommand T t) (atPart s T n) code) :
    ∃ e : Status, e.isDecodeError ∧ statusCode e = code ∧ ∀ k, parse s.cfg T t (s.cursor.after n k) = .error e := by
  obtain ⟨e, he, hcode, hp⟩ := exists_parse_error hT rfl h
  refine ⟨e, he, hcode, fun k => ?_⟩
  have halike := parse_alike s.cfg T t { s.r with pos := s.r.pos + n } s.nanDraws (s.nanDraws + k)
  have hp' : parse s.cfg T t ⟨{ s.r with pos := s.r.pos + n }, s.nanDraws⟩ = .error e := hp
  rw [hp'] at halike
  generalize hq : parse s.cfg T t ⟨{ s.r with pos := s.r.pos + n }, s.nanDraws + k⟩ = y at halike
  cases halike
  exact hq

end Sys2Proof.Machine
end

section
/-! The errors that each kind of descriptor can meet, and which of them a decode command reports (43_codec_decode.md
R407, R410 to R414). -/

namespace Sys2Proof.Machine

/-! ### Types of fixed length -/

section
variable {α β : Type}

/-- The parse reads `n` bits, or there are too few. -/
def Takes (n : Nat) (p : Cursor → Parsed α) : Prop :=
  ∀ c, p c = .error .truncatedPayload ∨ ∃ a k, p c = .ok (a, c.after n k)

namespace Takes

theorem pure (a : α) : Takes 0 fun c => .ok (a, c) := fun _ => .inr ⟨a, 0, rfl⟩

theorem parseThen {n m : Nat} {p : Cursor → Parsed α} {k : α → Cursor → Parsed β} (hp : Takes n p)
    (hk : ∀ a, Takes m (k a)) : Takes (n + m) (Machine.parseThen p k) := by
  intro c
  rcases hp c with herr | ⟨a, d, hok⟩
  · exact .inl (parseThen_of_error _ herr)
  · rw [parseThen_of_ok _ hok]
    refine (hk a _).imp_right fun ⟨b, d', hb⟩ => ⟨b, d + d', ?_⟩
    rw [hb, Cursor.after_after]

theorem map {n : Nat} {p : Cursor → Parsed α} {g : α → β} (hp : Takes n p) :
    Takes n (Machine.parseThen p fun a c => .ok (g a, c)) :=
  hp.parseThen fun a => .pure (g a)

end Takes

end

section
variable (cfg : Config)

theorem parseWide_takes (n : Nat) : Takes n (parseWide cfg n) := fun c =>
  (parseWide_cases cfg n c).imp And.right fun h => ⟨_, 0, h.2⟩

theorem parseFloat_takes (n : Nat) : Takes n (parseFloat cfg n) := by
  rw [parseFloat_eq]
  refine (parseWide_takes cfg n).parseThen (m := 0) fun u c =>
    .inr ⟨.float (widen n u c.draws), if asksNanDraw n u then 1 else 0, ?_⟩
  split <;> rfl

end

theorem parseTimes_takes {p : Cursor → Parsed (Option Val)} {n : Nat} (hp : Takes n p) (m : Nat) :
    Takes (m * n) (parseTimes p m) := by
  induction m with
  | zero =>
    rw [Nat.zero_mul]
    exact .pure []
  | succ m ih =>
    rw [parseTimes_succ, Nat.succ_mul, Nat.add_comm]
    exact hp.parseThen fun _ => ih.map

mutual

/-- A type of fixed length takes MaxBits, and fails only for want of them (42_codec_encode.md R301). -/
theorem parse_takes (cfg : Config) : ∀ (T : Ty) (t : Bool), fixedLength T = true → Takes (maxBits T) (parse cfg T t)
  | .void n, t, _ => by
    rw [parse_void, maxBits]
    exact (parseWide_takes cfg n).map
  | .bool, t, _ => by
    rw [parse_bool, parseBits_eq_parseWide (by decide), maxBits]
    exact (parseWide_takes cfg 1).map
  | .uint n _, t, _ => by
    rw [parse_uint, maxBits]
    exact (parseWide_takes cfg n).map
  | .int n _, t, _ => by
    rw [parse_int, maxBits]
    exact (parseWide_takes cfg n).map
  | .float n _, t, _ => by
    rw [parse_float, maxBits]
    exact (parseFloat_takes cfg n).map
  | .array E .fixed m, t, h => by
    rw [fixedLength] at h
    rw [parse_fixed, asArray_eq, maxBits]
    exact (parseTimes_takes (parse_takes cfg E false h) m).map
  | .array E .dynamic m, t, h | .union fs, t, h => by
    rw [fixedLength] at h
    cases h
  | .struct fs, t, h => by
    rw [fixedLength] at h
    rw [parse_struct, maxBits]
    exact (parseFields_takes cfg fs t h).map

theorem parseFields_takes (cfg : Config) : ∀ (fs : Fields) (t : Bool), fixedLengthFields fs = true →
    Takes (maxSum fs) (parseFields cfg fs t)
  | .nil, t, _ => fun c => .inr ⟨[], 0, by rw [parseFields, maxSum, Cursor.after_zero]⟩
  | .cons name T rest, t, h => by
    rw [fixedLengthFields, Bool.and_eq_true] at h
    rw [parseFields_cons, maxSum]
    exact (parse_takes cfg T _ h.1).parseThen fun _ => (parseFields_takes cfg rest t h.2).map

end

theorem parse_of_fixedLength_short {cfg : Config} {T : Ty} {c : Cursor} (t : Bool) (h : fixedLength T = true)
    (hinv : readerInv c.r) (hshort : 8 * c.r.buf.length < c.r.pos + maxBits T) :
    parse cfg T t c = .error .truncatedPayload := by
  rcases parse_takes cfg T t h c with herr | ⟨a, k, hok⟩
  · exact herr
  · exact absurd (parse_staysInside cfg T t c a _ hinv hok) (Nat.not_le.2 hshort)

/-! ### Prefixes and tags -/

section
variable {cfg : Config} {c : Cursor}

theorem parseCount_of_excess {m k : Nat} (hm : m < k) (hk : k < 2 ^ bitlen m)
    (h : Holds cfg.bitOrder c.r (fieldBits cfg.bitOrder (bitlen m) k)) :
    parseCount cfg m c = .error .badArrayLength := by
  have h0 : bitlen m ≠ 0 := by
    intro h0
    rw [h0, pow_zero] at hk
    omega
  rw [parseCount_eq, if_neg h0, parseThen_of_ok _ (parseWide_of_holds hk h), if_pos hm]

theorem parseCount_of_short {m : Nat} (hinv : readerInv c.r) (h : 8 * c.r.buf.length < c.r.pos + bitlen m) :
    parseCount cfg m c = .error .truncatedPayload := by
  have h0 : bitlen m ≠ 0 := by omega
  rw [parseCount_eq, if_neg h0, parseThen_of_error _ (parseWide_of_short h)]

theorem parse_dynamic_prefixed (E : Ty) (m : Nat) :
    parse cfg (.array E .dynamic m) false =
      parseThen (parseCount cfg m) fun k c => asArray (parseTimes (parse cfg E false) k c) := by
  rw [parse_dynamic, Bool.false_and, if_neg Bool.false_ne_true]

theorem parse_union_of_excess {fs : Fields} {k : Nat} (t : Bool) (hk : fs.toList.length ≤ k)
    (hlt : k < 2 ^ bitlen (fs.toList.length - 1))
    (h : Holds cfg.bitOrder c.r (fieldBits cfg.bitOrder (bitlen (fs.toList.length - 1)) k)) :
    parse cfg (.union fs) t c = .error .badUnionTag := by
  rw [parse_union, Fields.count, parseThen_of_ok _ (parseWide_of_holds hlt h), if_pos hk]

/-! ### The first error of a part -/

theorem parseMember_eq {fs : Fields} {k : Nat} {f : String × Ty} (h : fs.toList[k]? = some f) :
    parseMember cfg fs k = parse cfg f.2 false := by
  funext c
  induction k generalizing fs with
  | zero =>
    cases fs with
    | nil => cases h
    | cons name T rest =>
      cases h
      rw [parseMember]
  | succ k ih =>
    cases fs with
    | nil => cases h
    | cons name T rest =>
      rw [parseMember]
      exact ih h

theorem parse_union_of_member {fs : Fields} {k : Nat} {f : String × Ty} {e : Status} (t : Bool)
    (hf : fs.toList[k]? = some f)
    (h : Holds cfg.bitOrder c.r (fieldBits cfg.bitOrder (bitlen (fs.toList.length - 1)) k))
    (he : parse cfg f.2 false (c.after (bitlen (fs.toList.length - 1)) 0) = .error e) :
    parse cfg (.union fs) t c = .error e := by
  obtain ⟨hk, -⟩ := List.getElem?_eq_some_iff.1 hf
  have hlt : k < 2 ^ bitlen (fs.toList.length - 1) :=
    (Nat.le_sub_one_of_lt hk).trans_lt ((bitlen_le_iff _ _).1 le_rfl)
  rw [parse_union, Fields.count, parseThen_of_ok _ (parseWide_of_holds hlt h), if_neg (Nat.not_le.2 hk),
    parseThen_of_error _ ((congrFun (parseMember_eq hf) _).trans he)]

/-- The element after those that the reader holds fails, and it is one that is asked for. -/
theorem parseTimes_of_element {E : Ty} {vs : List Val} {n : Nat} {e : Status} (hE : checkTy E = none)
    (hvs : ∀ v ∈ vs, conform E v = none) (hn : vs.length < n)
    (h : Holds cfg.bitOrder c.r (vs.flatMap fun v => emit cfg E v false))
    (he : ∀ k, parse cfg E false (c.after (vs.flatMap fun v => emit cfg E v false).length k) = .error e) :
    parseTimes (parse cfg E false) n c = .error e := by
  obtain ⟨n, rfl⟩ := Nat.exists_eq_succ_of_ne_zero (Nat.ne_zero_of_lt hn)
  rw [parseTimes_succ]
  induction vs generalizing n c with
  | nil => exact parseThen_of_error _ (he 0)
  | cons v vs ih =>
    obtain ⟨hv, hvs⟩ := List.forall_mem_cons.1 hvs
    rw [List.flatMap_cons] at h he
    obtain ⟨hhead, htail⟩ := (holds_append _ _ _ _).1 h
    obtain ⟨a, k, hp, -⟩ := (parse_reads cfg E v false hE hv).outsideTail.finds c hhead fun e he => by cases he
    obtain ⟨n, rfl⟩ := Nat.exists_eq_succ_of_ne_zero (Nat.ne_zero_of_lt (Nat.lt_of_succ_lt_succ hn))
    rw [parseThen_of_ok _ hp, parseTimes_succ]
    refine parseThen_of_error _ (ih hvs (c := c.after _ k) htail (fun k' => ?_) n (Nat.lt_of_succ_lt_succ hn))
    rw [Cursor.after_after, ← List.length_append]
    exact he _

theorem checkTy_of_mem : ∀ {fs : Fields}, checkFields fs = none → ∀ f ∈ fs.toList, checkTy f.2 = none
  | .nil, _, _, hf => by cases hf
  | .cons _ _ _, h, f, hf => by
    obtain ⟨hT, hrest⟩ := checkFields_cons_eq_none h
    rcases List.mem_cons.1 hf with rfl | hf
    · exact hT
    · exact checkTy_of_mem hrest f hf

/-- The field after those that the reader holds fails. -/
theorem parseFields_of_field {name : String} {T : Ty} {post : List (String × Ty)} {es : Entries} {t : Bool}
    {e : Status} : ∀ {pre fs : Fields} {c : Cursor}, checkFields fs = none →
    fs.toList = pre.toList ++ (name, T) :: post → fieldsFilled pre es →
    Holds cfg.bitOrder c.r (emitFields cfg pre es false) →
    (∀ k, parse cfg T (t && post.isEmpty) (c.after (emitFields cfg pre es false).length k) = .error e) →
    parseFields cfg fs t c = .error e
  | _, .nil, _, _, hfs, _, _, _ => by
    have hlen := congrArg List.length hfs
    simp [Fields.toList] at hlen
  | .nil, .cons name' T' rest, c, _, hfs, _, _, he => by
    obtain ⟨heq, hrest⟩ := List.cons.inj hfs
    obtain ⟨rfl, rfl⟩ := Prod.mk.inj heq
    rw [parseFields_cons, hrest]
    rw [emitFields] at he
    exact parseThen_of_error _ (he 0)
  | .cons name₁ T₁ pre, .cons name' T' rest, c, hcheck, hfs, hes, h, he => by
    obtain ⟨heq, hrest⟩ := List.cons.inj hfs
    obtain ⟨rfl, rfl⟩ := Prod.mk.inj heq
    obtain ⟨hT, hcheck'⟩ := checkFields_cons_eq_none hcheck
    obtain ⟨hval, hes'⟩ := fieldsFilled_cons hes
    have hlast : (t && rest.toList.isEmpty) = false := by
      rw [hrest]
      cases pre.toList <;> simp
    rw [emitFields, Bool.false_and] at h he
    obtain ⟨hhead, htail⟩ := (holds_append _ _ _ _).1 h
    obtain ⟨a, k, hp, -⟩ := (field_reads_outsideTail hval fun v hv => parse_reads cfg T' v false hT hv).finds c hhead
      fun e he => by cases he
    rw [parseFields_cons, hlast, parseThen_of_ok _ hp]
    refine parseThen_of_error _ (parseFields_of_field (c := c.after _ k) hcheck' hrest hes' htail fun k' => ?_)
    rw [Cursor.after_after, ← List.length_append]
    exact he _

end

/-- Settles O39: each clause is the error of a parse, and the command reports it and changes nothing else. -/
theorem decodeErrorsKeepReader : Obligations.DecodeErrorsKeepReader := by
  intro s hinv hT
  refine ⟨?_, ?_, ?_, ?_, ?_, ?_, ?_, ?_, ?_, ?_, ?_⟩
  · intro E m k hs hm hk h
    refine failsWith_of_parse_error (t := false) (e := .badArrayLength) (hs ▸ hT) hs (by decide) ?_
    rw [parse_dynamic_prefixed, parseThen_of_error _ (parseCount_of_excess hm hk h)]
  · intro fs k hs hk hlt h
    exact failsWith_of_parse_error (t := false) (e := .badUnionTag) (hs ▸ hT) hs (by decide)
      (parse_union_of_excess false hk hlt h)
  · intro E m hs h
    refine failsWith_of_parse_error (t := false) (e := .truncatedPayload) (hs ▸ hT) hs (by decide) ?_
    rw [parse_dynamic_prefixed, parseThen_of_error _ (parseCount_of_short hinv h)]
  · intro fs hs h
    refine failsWith_of_parse_error (t := false) (e := .truncatedPayload) (hs ▸ hT) hs (by decide) ?_
    rw [parse_union, Fields.count, parseThen_of_error _ (parseWide_of_short h)]
  · intro t hfixed h
    exact failsWith_of_parse_error (e := .truncatedPayload) hT rfl (by decide)
      (parse_of_fixedLength_short t hfixed hinv h)
  · intro t v hv hsaved hcut
    exact failsWith_of_parse_error (e := .truncatedPayload) hT rfl (by decide)
      ((parse_reads s.cfg s.ports.ty v t hT hv).cut hsaved s.cursor hinv hcut)
  · intro code t fs pre post name T es hs hfs hpre h hfail
    rw [hs] at hT
    have hcheck := (checkTy_struct_eq_none hT).2
    have hpart := checkTy_of_mem hcheck (name, T) (by simp [hfs])
    obtain ⟨e, he, rfl, hp⟩ := exists_part_error hpart hfail
    rw [emit] at h hp
    refine failsWith_of_parse_error hT hs he ?_
    rw [parse_struct, parseThen_of_error _
      (parseFields_of_field hcheck hfs (fieldsFilled_of_conform hpre) h hp)]
  · intro code E m vs hs hlt hvs h hfail
    rw [hs] at hT
    have hE := (checkTy_array_eq_none hT).2
    obtain ⟨e, he, rfl, hp⟩ := exists_part_error hE hfail
    refine failsWith_of_parse_error (t := false) hT hs he ?_
    rw [parse_fixed, asArray_eq, parseThen_of_error _ (parseTimes_of_element hE hvs hlt h hp)]
  · intro code E m n vs hs hlt hn hvs h hfail
    rw [hs] at hT
    have hE := (checkTy_array_eq_none hT).2
    obtain ⟨e, he, rfl, hp⟩ := exists_part_error hE hfail
    obtain ⟨hnumber, helems⟩ := (holds_append _ _ _ _).1 h
    obtain ⟨_, _, hcount, rfl, rfl⟩ := (parseCount_reads s.cfg hn).finds s.cursor hnumber fun e he => by cases he
    refine failsWith_of_parse_error (t := false) hT hs he ?_
    rw [fieldBits_length] at hcount helems
    rw [parse_dynamic_prefixed, parseThen_of_ok _ hcount, parseTimes_of_element hE hvs hlt helems fun k => ?_]
    · rfl
    · rw [Cursor.after_after]
      exact hp _
  · intro code fs k name T hs hf h hfail
    rw [hs] at hT
    obtain ⟨-, -, hcheck⟩ := checkTy_union_eq_none hT
    have hpart := checkTy_of_mem hcheck (name, T) (List.mem_of_getElem? hf)
    obtain ⟨e, he, rfl, hp⟩ := exists_part_error hpart hfail
    exact failsWith_of_parse_error (t := false) hT hs he (parse_union_of_member false hf h (hp 0))
  · intro code hcap hfail
    obtain ⟨e, he, rfl, hp⟩ :=
      exists_parse_error (s := { s with r := { buf := s.ports.bytes, pos := 0 } }) hT rfl hfail
    exact ⟨he, exec_dec_of_error hcap hT hp⟩

end Sys2Proof.Machine
end

section
/-! The identifier commands, the tail byte and the transfer-id distance (44_canid_tail.md R500 to R504, R508 to
R510): one equation per command, whose condition is the range of its operands and whose output is the layout of
the unit, and the outputs as arithmetic on the operands. -/

namespace Sys2Proof.Machine

/-! ### Fields and bits as numbers -/

theorem extractField_toNat {n : Nat} (x : BitVec n) (k w : Nat) :
    (x.extractLsb' k w).toNat = x.toNat / 2 ^ k % 2 ^ w := by
  rw [BitVec.extractLsb'_toNat, Nat.shiftRight_eq_div_pow]

theorem getLsbD_toNat {n : Nat} (x : BitVec n) (k : Nat) : (x.getLsbD k).toNat = x.toNat / 2 ^ k % 2 :=
  Nat.toNat_testBit x.toNat k

theorem getLsbD_iff {n : Nat} (x : BitVec n) (k : Nat) : x.getLsbD k = true ↔ x.toNat / 2 ^ k % 2 = 1 := by
  rw [← getLsbD_toNat, Bool.toNat_eq_one]

/-- The operand of a width that it fits, as a field. -/
theorem operand_toNat {w n : Nat} (h : n < 2 ^ w) : (BitVec.ofNat w n).toNat = n :=
  (BitVec.toNat_ofNat n w).trans (Nat.mod_eq_of_lt h)

/-- A flag operand, as the bit that it becomes. -/
theorem flagOperand_toNat {n : Nat} (h : n ≤ 1) : (n == 1).toNat = n := by
  obtain rfl | rfl : n = 0 ∨ n = 1 := by omega
  · rfl
  · rfl

/-! ### CANID.MSG and CANID.SVC -/

theorem exec_canidMsg (s : State) :
    exec .canidMsg s =
      if s.ports.prio ≤ 31 ∧ s.ports.dtid ≤ 65535 ∧ 1 ≤ s.ports.src ∧ s.ports.src ≤ 127 then
        .next { s with result := endsWith 0x00 (.canId (messageId (BitVec.ofNat 5 s.ports.prio)
          (BitVec.ofNat 16 s.ports.dtid) (BitVec.ofNat 7 s.ports.src))) }
      else .next (faulted 0x34 s) :=
  if_congr (by simp only [fitsBits_iff, isNodeId_iff]; omega) rfl rfl

theorem exec_canidSvc (s : State) :
    exec .canidSvc s =
      if s.ports.prio ≤ 31 ∧ s.ports.dtid ≤ 255 ∧ (s.ports.kind = 1 ∨ s.ports.kind = 2) ∧
          1 ≤ s.ports.dst ∧ s.ports.dst ≤ 127 ∧ 1 ≤ s.ports.src ∧ s.ports.src ≤ 127 then
        .next { s with result := endsWith 0x00 (.canId (serviceId (BitVec.ofNat 5 s.ports.prio)
          (BitVec.ofNat 8 s.ports.dtid) (s.ports.kind == 1) (BitVec.ofNat 7 s.ports.dst)
          (BitVec.ofNat 7 s.ports.src))) }
      else .next (faulted 0x34 s) :=
  if_congr (by simp only [fitsBits_iff, isNodeId_iff]; omega) rfl rfl

/-- The request flag is 1 for kind 1 and 0 for kind 2 (30_encoding.md R106, R108). -/
theorem requestFlag_toNat {kind : Nat} (h : kind = 1 ∨ kind = 2) : (kind == 1).toNat = 2 - kind := by
  obtain rfl | rfl := h
  · rfl
  · rfl

/-- Settles O40: each command by its equation, and the identifier as the sum of its fields. -/
theorem buildIdentifiers : Obligations.BuildIdentifiers := by
  refine ⟨rfl, rfl, fun s => ⟨fun h => ?_, fun h => ?_, fun h => ?_, fun h => ?_⟩⟩
  · have ⟨hprio, hdtid, _, hsrc⟩ := h
    refine ⟨_, (exec_canidMsg s).trans (if_pos h), ?_⟩
    rw [messageId_toNat, operand_toNat (by omega), operand_toNat (by omega), operand_toNat (by omega)]
  · exact (exec_canidMsg s).trans (if_neg (by omega))
  · have ⟨hprio, hdtid, hkind, _, hdst, _, hsrc⟩ := h
    refine ⟨_, (exec_canidSvc s).trans (if_pos h), ?_⟩
    rw [serviceId_toNat, requestFlag_toNat hkind, operand_toNat (by omega), operand_toNat (by omega),
      operand_toNat (by omega), operand_toNat (by omega)]
  · exact (exec_canidSvc s).trans (if_neg (by omega))

/-! ### CANID.ANON and ANON.DISC -/

theorem exec_anonDisc (s : State) :
    exec .anonDisc s = .next { s with result := endsWith 0x00 (.disc (anonDisc s.cfg s.ports.payload)) } :=
  ok_eq _ s

theorem exec_canidAnon (s : State) :
    exec .canidAnon s =
      if s.ports.prio ≤ 31 ∧ s.ports.dtid ≤ 65535 then
        if 7 < s.ports.payload.length then .next (faulted 0x35 s)
        else .next { s with result := endsWith 0x00 (.canId (anonymousId (BitVec.ofNat 5 s.ports.prio)
          (anonDisc s.cfg s.ports.payload) (BitVec.ofNat 2 s.ports.dtid))) }
      else .next (faulted 0x34 s) :=
  if_congr (by simp only [fitsBits_iff]; omega) rfl rfl

theorem anonDisc_crcLow14_toNat {cfg : Config} (h : cfg.anonDisc = .crcLow14) (p : List Byte) :
    (anonDisc cfg p).toNat = crc16Nat 0xFFFF (p.map (·.toNat)) % 2 ^ 14 := by
  rw [anonDisc, h]
  exact (BitVec.toNat_setWidth 14 _).trans (congrArg (· % 2 ^ 14) (crc16_toNat crc16Seed p))

/-- Settles O41: both commands take the discriminator of the payload; the identifier keeps the low 2 bits of
the data type id. -/
theorem anonymousIdentifiers : Obligations.AnonymousIdentifiers := by
  refine ⟨rfl, rfl, fun s => ⟨⟨_, exec_anonDisc s, fun h => anonDisc_crcLow14_toNat h _, fun h => ?_⟩,
    fun h => ?_, fun h => ?_⟩⟩
  · obtain ⟨hprio, hdtid, hlen⟩ := h
    refine ⟨_, (exec_canidAnon s).trans ((if_pos ⟨hprio, hdtid⟩).trans (if_neg (by omega))), ?_⟩
    rw [anonymousId_toNat, operand_toNat (by omega), BitVec.toNat_ofNat]
  · exact (exec_canidAnon s).trans (if_neg (by omega))
  · obtain ⟨hprio, hdtid, hlen⟩ := h
    exact (exec_canidAnon s).trans ((if_pos ⟨hprio, hdtid⟩).trans (if_pos hlen))

/-! ### CANID.DEC -/

theorem exec_canidDec (s : State) :
    exec .canidDec s =
      if s.ports.id < 2 ^ 29 then
        .next { s with result := endsWith 0x00 (.idFields (idFields (BitVec.ofNat 29 s.ports.id))) }
      else .next (faulted 0x34 s) :=
  if_congr (fitsBits_iff 29 _) rfl rfl

section
variable {id : CanId}

theorem idFields_of_service (h : idIsService id = true) :
    idFields id =
      { prio := id.extractLsb' 24 5, kind := if id.getLsbD 15 then .request else .response, anon := false,
        dtid := (id.extractLsb' 16 8).setWidth 16, src := idSource id, dst := id.extractLsb' 8 7, disc := 0 } :=
  if_pos h

theorem idFields_of_anonymous (h : ¬ idIsService id = true) (hsrc : idSource id = 0) :
    idFields id =
      { prio := id.extractLsb' 24 5, kind := .broadcast, anon := true,
        dtid := (id.extractLsb' 8 2).setWidth 16, src := 0, dst := 0, disc := id.extractLsb' 10 14 } :=
  (if_neg h).trans (if_pos hsrc)

theorem idFields_of_message (h : ¬ idIsService id = true) (hsrc : idSource id ≠ 0) :
    idFields id =
      { prio := id.extractLsb' 24 5, kind := .broadcast, anon := false, dtid := id.extractLsb' 8 16,
        src := idSource id, dst := 0, disc := 0 } :=
  (if_neg h).trans (if_neg hsrc)

end

/-- The priority stands at the same place in every kind. -/
theorem idFields_prio (id : CanId) : (idFields id).prio = id.extractLsb' 24 5 := by
  unfold idFields
  split
  · rfl
  · split
    · rfl
    · rfl

theorem idSource_toNat (id : CanId) : (idSource id).toNat = id.toNat % 2 ^ 7 := by
  rw [idSource, extractField_toNat, pow_zero, Nat.div_one]

theorem idSource_eq_zero_iff (id : CanId) : idSource id = 0 ↔ id.toNat % 2 ^ 7 = 0 := by
  rw [← idSource_toNat, ← BitVec.toNat_inj, BitVec.ofNat_eq_ofNat, BitVec.toNat_ofNat, Nat.zero_mod]

/-- A narrow field of an identifier in a wide output. -/
theorem setWidth_extractField_toNat (id : CanId) (k : Nat) {w v : Nat} (h : w ≤ v) :
    ((id.extractLsb' k w).setWidth v).toNat = id.toNat / 2 ^ k % 2 ^ w := by
  rw [BitVec.toNat_setWidth_of_le h, extractField_toNat]

/-- Settles O42: the fields by the kind of the identifier, each the number at its bit position. -/
theorem readIdentifier : Obligations.ReadIdentifier := by
  refine ⟨rfl, fun s => ⟨fun h => (exec_canidDec s).trans (if_neg (by omega)), fun h => ?_⟩⟩
  have hid : (BitVec.ofNat 29 s.ports.id).toNat = s.ports.id := operand_toNat h
  refine ⟨_, (exec_canidDec s).trans (if_pos h), ?_, fun hsvc => ?_, fun hsvc hsrc => ?_, fun hsvc hsrc => ?_⟩
  · rw [idFields_prio, extractField_toNat, hid]
    omega
  · rw [idFields_of_service (by rw [idIsService_iff, hid]; exact hsvc)]
    refine ⟨if_congr (by rw [getLsbD_iff, hid]) rfl rfl, rfl, ?_, ?_, ?_, rfl⟩
    · rw [setWidth_extractField_toNat _ _ (by decide), hid]
    · rw [idSource_toNat, hid]
    · rw [extractField_toNat, hid]
  · rw [idFields_of_anonymous (by rw [idIsService_iff, hid]; omega) (by rw [idSource_eq_zero_iff, hid]; exact hsrc)]
    refine ⟨rfl, rfl, ?_, rfl, rfl, ?_⟩
    · rw [setWidth_extractField_toNat _ _ (by decide), hid]
      rfl
    · rw [extractField_toNat, hid]
  · rw [idFields_of_message (by rw [idIsService_iff, hid]; omega)
      (by rw [Ne, idSource_eq_zero_iff, hid]; exact hsrc)]
    refine ⟨rfl, rfl, ?_, ?_, rfl, rfl⟩
    · rw [extractField_toNat, hid]
    · rw [idSource_toNat, hid]

/-! ### TAIL.ENC, TAIL.DEC and TID.DIST -/

theorem exec_tailEnc (s : State) :
    exec .tailEnc s =
      if s.ports.sot ≤ 1 ∧ s.ports.eot ≤ 1 ∧ s.ports.tog ≤ 1 ∧ s.ports.tid ≤ 31 then
        .next { s with result := endsWith 0x00 (.tailByte (tailByte (s.ports.sot == 1) (s.ports.eot == 1)
          (s.ports.tog == 1) (BitVec.ofNat 5 s.ports.tid))) }
      else .next (faulted 0x34 s) :=
  if_congr (by simp only [fitsBits_iff]; omega) rfl rfl

theorem exec_tailDec (s : State) :
    exec .tailDec s =
      if s.ports.b ≤ 255 then
        .next { s with result := endsWith 0x00 (.tailFields (tailSot (BitVec.ofNat 8 s.ports.b))
          (tailEot (BitVec.ofNat 8 s.ports.b)) (tailToggle (BitVec.ofNat 8 s.ports.b))
          (tailTid (BitVec.ofNat 8 s.ports.b))) }
      else .next (faulted 0x34 s) :=
  if_congr (by simp only [fitsBits_iff]; omega) rfl rfl

theorem exec_tidDist (s : State) :
    exec .tidDist s =
      if s.ports.ta ≤ 31 ∧ s.ports.tb ≤ 31 then
        .next { s with result := endsWith 0x00 (.distance (forwardDistance (BitVec.ofNat 5 s.ports.ta)
          (BitVec.ofNat 5 s.ports.tb))) }
      else .next (faulted 0x34 s) :=
  if_congr (by simp only [fitsBits_iff]; omega) rfl rfl

theorem tailByte_toNat (sot eot tog : Bool) (tid : TransferId) :
    (tailByte sot eot tog tid).toNat = 128 * sot.toNat + 64 * eot.toNat + 32 * tog.toNat + tid.toNat := by
  simp only [tailByte, toNat_append_eq, BitVec.toNat_ofBool]
  omega

/-- Every byte is the tail byte of the fields read out of it. -/
theorem toNat_eq_tailFields (b : Byte) :
    b.toNat = 128 * (tailSot b).toNat + 64 * (tailEot b).toNat + 32 * (tailToggle b).toNat +
      (tailTid b).toNat := by
  have hb := b.isLt
  rw [tailSot, tailEot, tailToggle, tailTid, getLsbD_toNat, getLsbD_toNat, getLsbD_toNat, extractField_toNat]
  omega

theorem forwardDistance_toNat (ta tb : TransferId) :
    ((forwardDistance ta tb).toNat : Int) = ((tb.toNat : Int) - ta.toNat) % 32 := by
  have ha := ta.isLt
  rw [forwardDistance, BitVec.toNat_sub]
  omega

/-- Settles O46: each command by its equation, and its output as arithmetic on the operands. -/
theorem tailBytesAndDistance : Obligations.TailBytesAndDistance := by
  refine ⟨rfl, rfl, rfl, fun s => ⟨fun h => ?_, fun h => (exec_tailEnc s).trans (if_neg (by omega)), fun h => ?_,
    fun h => (exec_tailDec s).trans (if_neg (by omega)), fun h => ?_,
    fun h => (exec_tidDist s).trans (if_neg (by omega))⟩⟩
  · have ⟨hsot, heot, htog, htid⟩ := h
    refine ⟨_, (exec_tailEnc s).trans (if_pos h), ?_⟩
    rw [tailByte_toNat, flagOperand_toNat hsot, flagOperand_toNat heot, flagOperand_toNat htog,
      operand_toNat (by omega)]
  · refine ⟨_, _, _, _, (exec_tailDec s).trans (if_pos h), ?_⟩
    rw [← toNat_eq_tailFields, operand_toNat (by omega)]
  · refine ⟨_, (exec_tidDist s).trans (if_pos h), ?_⟩
    rw [forwardDistance_toNat, operand_toNat (by omega), operand_toNat (by omega)]

end Sys2Proof.Machine
end

section
/-! The arbitration order (44_canid_tail.md R505 to R507). The comparator is the comparison of one number per
frame: the identifier in 29 bits, a standard one with zeros below it, then the format and the RTR flag. -/

namespace Sys2Proof.Machine

section
variable {a b : Frame}

/-! ### The comparator, case by case -/

theorem arbitrationPrefix_extended {f : Frame} (h : f.ext = true) : arbitrationPrefix f = f.id / 2 ^ 18 :=
  (if_pos h).trans (Nat.shiftRight_eq_div_pow _ _)

theorem arbitrationPrefix_standard {f : Frame} (h : f.ext = false) : arbitrationPrefix f = f.id :=
  if_neg (Bool.eq_false_iff.1 h)

/-- Of frames of different formats the lower leading 11 bits win, and on a tie the standard one. -/
theorem arbitrate_of_ext_ne (hext : a.ext ≠ b.ext) :
    arbitrate a b =
      if arbitrationPrefix a < arbitrationPrefix b then -1
      else if arbitrationPrefix b < arbitrationPrefix a then 1
      else if a.ext = true then 1 else -1 := by
  rw [arbitrate, if_pos hext]
  obtain h | h | h := lt_trichotomy (arbitrationPrefix a) (arbitrationPrefix b)
  · rw [if_pos h.ne, if_pos h, if_pos h]
  · rw [if_neg (not_not.2 h), if_neg h.not_lt, if_neg h.not_gt]
  · rw [if_pos h.ne', if_neg h.not_gt, if_neg h.not_gt, if_pos h]

theorem arbitrate_extended_standard (ha : a.ext = true) (hb : b.ext = false) :
    arbitrate a b = if a.id / 2 ^ 18 < b.id then -1 else 1 := by
  rw [arbitrate_of_ext_ne (by simp [ha, hb]), arbitrationPrefix_extended ha, arbitrationPrefix_standard hb,
    if_pos ha, ite_self]

theorem arbitrate_standard_extended (ha : a.ext = false) (hb : b.ext = true) :
    arbitrate a b = if b.id / 2 ^ 18 < a.id then 1 else -1 := by
  rw [arbitrate_of_ext_ne (by simp [ha, hb]), arbitrationPrefix_standard ha, arbitrationPrefix_extended hb,
    if_neg (Bool.eq_false_iff.1 ha)]
  split
  · next h => rw [if_neg h.not_gt]
  · rfl

theorem arbitrate_of_id_ne (hext : a.ext = b.ext) (hid : a.id ≠ b.id) :
    arbitrate a b = if a.id < b.id then -1 else 1 := by
  rw [arbitrate, if_neg (not_not.2 hext), if_neg fun h => hid h.1, if_pos hid]

theorem arbitrate_of_id_eq (hext : a.ext = b.ext) (hid : a.id = b.id) :
    arbitrate a b = if a.rtr = b.rtr then 0 else if a.rtr = true then 1 else -1 := by
  rw [arbitrate, if_neg (not_not.2 hext), if_neg (not_not.2 hid)]
  by_cases hrtr : a.rtr = b.rtr
  · rw [if_neg fun h => h.2 hrtr, if_pos hrtr]
  · rw [if_pos ⟨hid, hrtr⟩, if_neg hrtr]

end

/-! ### CANID.CMP -/

theorem exec_canidCmp (s : State) :
    exec .canidCmp s =
      if frameWellFormed s.ports.fa = true ∧ frameWellFormed s.ports.fb = true then
        .next { s with result := endsWith 0x00 (.order (arbitrate s.ports.fa s.ports.fb)) }
      else .next (faulted 0x34 s) := rfl

/-- Settles O44: the guard is well-formedness of both frames, and the order by the cases of the comparator. -/
theorem compareFrames : Obligations.CompareFrames := by
  refine ⟨rfl, fun s => ⟨fun h => ?_, fun ha hb => ?_⟩⟩
  · refine (exec_canidCmp s).trans (if_neg fun ⟨ha, hb⟩ => ?_)
    exact h.elim (· ((frameWellFormed_iff _).1 ha)) (· ((frameWellFormed_iff _).1 hb))
  · refine ⟨_, (exec_canidCmp s).trans (if_pos ⟨(frameWellFormed_iff _).2 ha, (frameWellFormed_iff _).2 hb⟩),
      arbitrate_extended_standard, arbitrate_standard_extended, fun hext hlt => ?_, fun hext hlt => ?_,
      arbitrate_of_id_eq⟩
    · exact (arbitrate_of_id_ne hext hlt.ne).trans (if_pos hlt)
    · exact (arbitrate_of_id_ne hext hlt.ne').trans (if_neg hlt.not_gt)

/-! ### The order as a comparison of numbers -/

/-- The place of a frame in the arbitration order, the winner having the lower one: the identifier with a
standard one moved up to the leading 11 bits, then a bit for the format and one for RTR. -/
def arbitrationRank (f : Frame) : Nat :=
  4 * (if f.ext then f.id else 2 ^ 18 * f.id) + 2 * f.ext.toNat + f.rtr.toNat

theorem arbitrationRank_extended {f : Frame} (h : f.ext = true) :
    arbitrationRank f = 4 * f.id + 2 + f.rtr.toNat := by
  rw [arbitrationRank, h, if_pos rfl, Bool.toNat_true]

theorem arbitrationRank_standard {f : Frame} (h : f.ext = false) :
    arbitrationRank f = 4 * (2 ^ 18 * f.id) + f.rtr.toNat := by
  rw [arbitrationRank, h, if_neg Bool.false_ne_true, Bool.toNat_false, Nat.mul_zero, Nat.add_zero]

theorem arbitrationRank_mod (f : Frame) : arbitrationRank f % 4 = 2 * f.ext.toNat + f.rtr.toNat := by
  have hext := f.ext.toNat_lt
  have hrtr := f.rtr.toNat_lt
  rw [arbitrationRank]
  omega

section
variable {a b : Frame} (hext : a.ext = b.ext)
include hext

theorem arbitrationRank_lt_of_id_lt (hid : a.id < b.id) : arbitrationRank a < arbitrationRank b := by
  have hrtr := a.rtr.toNat_lt
  rw [arbitrationRank, arbitrationRank, hext]
  split
  · omega
  · omega

theorem arbitrationRank_sub_of_id_eq (hid : a.id = b.id) :
    (arbitrationRank a : Int) - arbitrationRank b = (a.rtr.toNat : Int) - b.rtr.toNat := by
  rw [arbitrationRank, arbitrationRank, hext, hid]
  omega

end

/-- CANID.CMP compares ranks. -/
theorem arbitrate_eq_sign (a b : Frame) :
    arbitrate a b = ((arbitrationRank a : Int) - arbitrationRank b).sign := by
  have hra := a.rtr.toNat_lt
  have hrb := b.rtr.toNat_lt
  by_cases hext : a.ext = b.ext
  · obtain hid | hid | hid := lt_trichotomy a.id b.id
    · have hlt := arbitrationRank_lt_of_id_lt hext hid
      rw [arbitrate_of_id_ne hext hid.ne, if_pos hid, Int.sign_eq_neg_one_of_neg (by omega)]
    · rw [arbitrate_of_id_eq hext hid, arbitrationRank_sub_of_id_eq hext hid]
      cases a.rtr <;> cases b.rtr <;> rfl
    · have hlt := arbitrationRank_lt_of_id_lt hext.symm hid
      rw [arbitrate_of_id_ne hext hid.ne', if_neg hid.not_gt, Int.sign_eq_one_of_pos (by omega)]
  · obtain ⟨ha, hb⟩ | ⟨ha, hb⟩ : a.ext = true ∧ b.ext = false ∨ a.ext = false ∧ b.ext = true := by
      revert hext
      cases a.ext <;> cases b.ext <;> simp
    · rw [arbitrate_extended_standard ha hb, arbitrationRank_extended ha, arbitrationRank_standard hb]
      split
      · rw [Int.sign_eq_neg_one_of_neg (by omega)]
      · rw [Int.sign_eq_one_of_pos (by omega)]
    · rw [arbitrate_standard_extended ha hb, arbitrationRank_standard ha, arbitrationRank_extended hb]
      split
      · rw [Int.sign_eq_one_of_pos (by omega)]
      · rw [Int.sign_eq_neg_one_of_neg (by omega)]

theorem bool_eq_of_toNat_eq {x y : Bool} (h : x.toNat = y.toNat) : x = y := by
  rw [← Bool.ofNat_toNat x, h, Bool.ofNat_toNat]

/-- The format and RTR are the two low bits of the rank, and the identifier stands above them. -/
theorem arbitrationRank_eq_iff (a b : Frame) :
    arbitrationRank a = arbitrationRank b ↔ a.id = b.id ∧ a.ext = b.ext ∧ a.rtr = b.rtr := by
  constructor
  · intro h
    have hlow := congrArg (· % 4) h
    simp only [arbitrationRank_mod] at hlow
    have hra := a.rtr.toNat_lt
    have hrb := b.rtr.toNat_lt
    have hext : a.ext = b.ext := bool_eq_of_toNat_eq (by omega)
    have hrtr : a.rtr = b.rtr := bool_eq_of_toNat_eq (by omega)
    obtain hid | hid | hid := lt_trichotomy a.id b.id
    · exact absurd h (arbitrationRank_lt_of_id_lt hext hid).ne
    · exact ⟨hid, hext, hrtr⟩
    · exact absurd h (arbitrationRank_lt_of_id_lt hext.symm hid).ne'
  · rintro ⟨hid, hext, hrtr⟩
    rw [arbitrationRank, arbitrationRank, hid, hext, hrtr]

theorem arbitrate_nonpos_iff (a b : Frame) : arbitrate a b ≤ 0 ↔ arbitrationRank a ≤ arbitrationRank b := by
  rw [arbitrate_eq_sign, Int.sign_nonpos_iff]
  omega

/-- Settles O45: the order of the ranks is total, and two frames have one rank only where they are alike. -/
theorem arbitrationIsATotalOrder : Obligations.ArbitrationIsATotalOrder := by
  refine ⟨fun a b => ?_, fun a b => ?_, fun a b c hab hbc => ?_, fun p q low a b ha hb hlow hida hidb hpq => ?_⟩
  · rw [arbitrate_eq_sign, arbitrate_eq_sign, ← Int.sign_neg, neg_sub]
  · rw [arbitrate_eq_sign, Int.sign_eq_zero_iff_zero, ← arbitrationRank_eq_iff]
    omega
  · rw [arbitrate_nonpos_iff] at hab hbc ⊢
    exact hab.trans hbc
  · have hlt : a.id < b.id := by omega
    exact (arbitrate_of_id_ne (ha.trans hb.symm) hlt.ne).trans (if_pos hlt)

end Sys2Proof.Machine
end

section
/-! The frames of a transfer (45_generator.md R601, R605; 30_encoding.md R102, R114). The first frame of a
multi-frame transfer and the later ones have a name each, and a later frame's share of the payload is one
piece of 7 bytes of what follows the first 5. -/

namespace Sys2Proof.Machine

/-! ### The frame count -/

theorem frameCount_of_short {len : Nat} (h : len < 8) : frameCount len = 1 := if_pos h

theorem frameCount_of_long {len : Nat} (h : 8 ≤ len) : frameCount len = (len - 5 + 6) / 7 + 1 :=
  if_neg (by omega)

/-- N(L) written out (30_encoding.md R114). -/
theorem frameCount_eq (len : Nat) : frameCount len = if len < 8 then 1 else (len - 5 + 6) / 7 + 1 := rfl

/-! ### The frames by name -/

/-- The 7 bytes of the payload, or the rest of it, that the later frame `j` carries, counted from 0 at the
second frame of the transfer (45_generator.md R601). -/
def chunkOf (p : List Byte) (j : Nat) : List Byte := (p.drop (5 + 7 * j)).take 7

/-- The first frame of a multi-frame transfer (45_generator.md R601). -/
def firstFrame (id : CanId) (tid : TransferId) (sig : Signature) (p : List Byte) : Frame :=
  genFrame id (le16 (xferCrc sig p) ++ p.take 5 ++ [tailByte true false false tid])

/-- The later frame `j` of a multi-frame transfer (45_generator.md R601). -/
def laterFrame (id : CanId) (tid : TransferId) (p : List Byte) (j : Nat) : Frame :=
  genFrame id (chunkOf p j ++ [tailByte false (j + 2 == frameCount p.length) ((j + 1) % 2 == 1) tid])

section
variable {id : CanId} {tid : TransferId} {sig : Signature} {p : List Byte}

theorem framesOf_of_short (h : p.length < 8) :
    framesOf id tid sig p = [genFrame id (p ++ [tailByte true true false tid])] := if_pos h

theorem framesOf_of_long (h : 8 ≤ p.length) :
    framesOf id tid sig p =
      firstFrame id tid sig p :: (List.range (frameCount p.length - 1)).map (laterFrame id tid p) :=
  if_neg (by omega)

theorem framesOf_length (id : CanId) (tid : TransferId) (sig : Signature) (p : List Byte) :
    (framesOf id tid sig p).length = frameCount p.length := by
  by_cases h : p.length < 8
  · rw [framesOf_of_short h, frameCount_of_short h, List.length_singleton]
  · have hlen : 8 ≤ p.length := by omega
    rw [framesOf_of_long hlen, List.length_cons, List.length_map, List.length_range, frameCount_of_long hlen]
    rfl

/-- A later frame is the last one exactly where its 7 bytes reach the end of the payload. -/
theorem laterFrame_last_iff (hlen : 8 ≤ p.length) {j : Nat} (hj : 5 + 7 * j < p.length) :
    j + 2 = frameCount p.length ↔ p.length ≤ 5 + 7 * j + 7 := by
  rw [frameCount_of_long hlen]
  omega

/-- The later frames are those whose bytes begin within the payload. -/
theorem lt_frameCount_iff (hlen : 8 ≤ p.length) (j : Nat) :
    j < frameCount p.length - 1 ↔ 5 + 7 * j < p.length := by
  rw [frameCount_of_long hlen]
  omega

theorem chunkOf_length (p : List Byte) (j : Nat) : (chunkOf p j).length = min 7 (p.length - (5 + 7 * j)) := by
  rw [chunkOf, List.length_take, List.length_drop]

/-- The bytes of the first frame before its tail byte. -/
theorem le16_append_take_length_le (c : BitVec 16) (p : List Byte) : (le16 c ++ p.take 5).length ≤ 7 := by
  have hcrc : (le16 c).length = 2 := rfl
  rw [List.length_append, hcrc, List.length_take]
  omega

theorem firstFrame_length (hlen : 8 ≤ p.length) : (firstFrame id tid sig p).data.length = 8 := by
  simp [firstFrame, genFrame, le16]
  omega

theorem laterFrame_length (id : CanId) (tid : TransferId) (p : List Byte) (j : Nat) :
    (laterFrame id tid p j).data.length = min 7 (p.length - (5 + 7 * j)) + 1 := by
  simp [laterFrame, genFrame, chunkOf_length]

/-- The pieces before piece `m`, one after another, are the payload up to where that one begins. -/
theorem take_append_chunkOf (p : List Byte) (j : Nat) :
    p.take (5 + 7 * j) ++ chunkOf p j = p.take (5 + 7 * (j + 1)) :=
  List.take_add.symm

theorem take_append_flatten_chunkOf (p : List Byte) (m : Nat) :
    p.take 5 ++ ((List.range m).map (chunkOf p)).flatten = p.take (5 + 7 * m) := by
  induction m with
  | zero => simp
  | succ m ih =>
    rw [List.range_succ, List.map_append, List.flatten_append, ← List.append_assoc, ih, List.map_singleton,
      List.flatten_singleton, take_append_chunkOf]

/-! ### What the frames carry -/

theorem carried_later (multi : Bool) {k : Nat} (hk : k ≠ 0) (f : Frame) :
    carried multi k f = f.data.dropLast := by
  simp [carried, hk]

theorem carried_firstFrame : carried true 0 (firstFrame id tid sig p) = p.take 5 := by
  have hbody : (firstFrame id tid sig p).data.dropLast = le16 (xferCrc sig p) ++ p.take 5 :=
    List.dropLast_concat
  exact (congrArg (List.drop 2) hbody).trans (List.drop_left' rfl)

theorem laterFrame_dropLast (j : Nat) : (laterFrame id tid p j).data.dropLast = chunkOf p j :=
  List.dropLast_concat

/-- Behind the first place every frame carries its bytes before the tail byte. -/
theorem map_carried_zipIdx (multi : Bool) (fs : List Frame) :
    (fs.zipIdx 1).map (fun x => carried multi x.2 x.1) = fs.map (·.data.dropLast) := by
  have hlater : ∀ x ∈ fs.zipIdx 1, carried multi x.2 x.1 = x.1.data.dropLast := fun x hx =>
    carried_later multi (Nat.one_le_iff_ne_zero.1 (List.le_snd_of_mem_zipIdx hx)) x.1
  calc
    _ = (fs.zipIdx 1).map ((·.data.dropLast) ∘ Prod.fst) := List.map_congr_left hlater
    _ = fs.map (·.data.dropLast) := by rw [← List.map_map, List.zipIdx_map_fst]

theorem carried_framesOf (id : CanId) (tid : TransferId) (sig : Signature) (p : List Byte) :
    ((framesOf id tid sig p).zipIdx.map fun x => carried (8 ≤ p.length) x.2 x.1).flatten = p := by
  by_cases h : p.length < 8
  · have hmulti : decide (8 ≤ p.length) = false := decide_eq_false (by omega)
    rw [framesOf_of_short h, hmulti]
    exact (List.append_nil _).trans List.dropLast_concat
  · have hlen : 8 ≤ p.length := by omega
    have hall : p.length ≤ 5 + 7 * (frameCount p.length - 1) := by
      rw [frameCount_of_long hlen]
      omega
    have hchunk : (fun f : Frame => f.data.dropLast) ∘ laterFrame id tid p = chunkOf p :=
      funext laterFrame_dropLast
    rw [framesOf_of_long hlen, decide_eq_true hlen, List.zipIdx_cons, List.map_cons, List.flatten_cons,
      carried_firstFrame, map_carried_zipIdx, List.map_map, hchunk, take_append_flatten_chunkOf,
      List.take_of_length_le hall]

/-! ### Each frame -/

/-- The form of the frame at place `k` of a transfer of `n` frames: extended, 1 to 8 data bytes, and the tail
byte of that place (30_encoding.md R102, R110). -/
def IsFrameAt (id : CanId) (tid : TransferId) (n k : Nat) (f : Frame) : Prop :=
  f.id = id.toNat ∧ f.ext = true ∧ f.rtr = false ∧ f.err = false ∧ 1 ≤ f.data.length ∧ f.data.length ≤ 8 ∧
  f.data.getLast? = some (tailByte (k == 0) (k + 1 == n) (k % 2 == 1) tid)

theorem isFrameAt_genFrame {n k : Nat} {body : List Byte} {tb : Byte} (hbody : body.length ≤ 7)
    (htb : tb = tailByte (k == 0) (k + 1 == n) (k % 2 == 1) tid) :
    IsFrameAt id tid n k (genFrame id (body ++ [tb])) := by
  refine ⟨rfl, rfl, rfl, rfl, ?_, ?_, ?_⟩
  · simp [genFrame]
  · simpa [genFrame] using Nat.lt_succ_of_le hbody
  · rw [genFrame, List.getLast?_concat, htb]

theorem isFrameAt_of_getElem?_framesOf {k : Nat} {f : Frame} (hf : (framesOf id tid sig p)[k]? = some f) :
    IsFrameAt id tid (frameCount p.length) k f := by
  by_cases h : p.length < 8
  · rw [framesOf_of_short h, List.getElem?_singleton] at hf
    obtain ⟨rfl, hf⟩ := Option.ite_none_right_eq_some.1 hf
    cases hf
    rw [frameCount_of_short h]
    exact isFrameAt_genFrame (by omega) rfl
  · have hlen : 8 ≤ p.length := by omega
    have hlast : (0 + 1 == frameCount p.length) = false := by
      rw [frameCount_of_long hlen, beq_eq_false_iff_ne]
      omega
    rw [framesOf_of_long hlen] at hf
    cases k with
    | zero =>
      cases hf
      exact isFrameAt_genFrame (le16_append_take_length_le _ p) (by rw [hlast]; rfl)
    | succ j =>
      rw [List.getElem?_cons_succ, List.getElem?_map, Option.map_eq_some_iff] at hf
      obtain ⟨i, hi, rfl⟩ := hf
      obtain ⟨_, rfl⟩ := List.getElem?_eq_some_iff.1 hi
      rw [List.getElem_range]
      exact isFrameAt_genFrame (by rw [chunkOf_length]; omega) rfl

end

/-- Settles O50: the count, the pieces put together again, and the form of each frame. -/
theorem framesCarryThePayload : Obligations.FramesCarryThePayload := by
  intro id tid sig p
  have hcount := framesOf_length id tid sig p
  refine ⟨hcount.trans (frameCount_eq _), carried_framesOf id tid sig p, fun k f hf => ?_⟩
  rw [hcount]
  exact isFrameAt_of_getElem?_framesOf hf

end Sys2Proof.Machine
end

section
/-! The transfer generator (45_generator.md R600 to R604). GEN.START by its checks in order, GEN.NEXT by the
frame it gives, and the whole hand-out: the registers before each later frame have a closed form, and each
GEN.NEXT leads from one to the next. -/

namespace Sys2Proof.Machine

/-! ### GEN.START, GEN.COUNT and GEN.ABORT -/

theorem idIsAnonymous_iff (id : CanId) : idIsAnonymous id = true ↔ id.toNat % 2 ^ 8 = 0 := by
  rw [idIsAnonymous, Bool.and_eq_true, Bool.not_eq_true', ← Bool.not_eq_true, idIsService_iff, beq_iff_eq,
    idSource_eq_zero_iff]
  omega

theorem idIsAnonymous_ofNat_iff (n : Nat) : idIsAnonymous (BitVec.ofNat 29 n) = true ↔ n % 2 ^ 8 = 0 := by
  rw [idIsAnonymous_iff, BitVec.toNat_ofNat]
  omega

/-- GEN.START with its faults in order. -/
theorem exec_genStart (s : State) :
    exec .genStart s =
      if s.ports.id < 2 ^ 29 ∧ s.ports.tid ≤ 31 ∧ s.ports.sig < 2 ^ 64 then
        if exceeds s.cfg.genMaxPayload s.ports.payload.length then .next (faulted 0x34 s)
        else if s.ports.id % 2 ^ 8 = 0 ∧ 7 < s.ports.payload.length then .next (faulted 0x35 s)
        else
          .next { s with
            g := genLoad (BitVec.ofNat 29 s.ports.id) (BitVec.ofNat 5 s.ports.tid) (BitVec.ofNat 64 s.ports.sig)
              s.ports.payload
            result := endsWith 0x00 (.count (frameCount s.ports.payload.length)) }
      else .next (faulted 0x34 s) :=
  if_congr (by simp only [fitsBits_iff]; omega)
    (if_congr Iff.rfl rfl (if_congr (and_congr_left' (idIsAnonymous_ofNat_iff _)) rfl rfl)) rfl

theorem exec_genCount (s : State) :
    exec .genCount s = .next { s with result := endsWith 0x00 (.count (frameCount s.ports.payload.length)) } :=
  ok_eq _ s

/-- GEN.START loads the registers where every operand is in range, the payload within the capacity, and an
anonymous transfer one frame. -/
theorem exec_genStart_of_accepted {s : State} (hid : s.ports.id < 2 ^ 29) (htid : s.ports.tid ≤ 31)
    (hsig : s.ports.sig < 2 ^ 64) (hcap : ∀ c ∈ s.cfg.genMaxPayload, s.ports.payload.length ≤ c)
    (hanon : s.ports.id % 2 ^ 8 = 0 → s.ports.payload.length ≤ 7) :
    exec .genStart s = .next
      { s with
        g := genLoad (BitVec.ofNat 29 s.ports.id) (BitVec.ofNat 5 s.ports.tid) (BitVec.ofNat 64 s.ports.sig)
          s.ports.payload
        result := endsWith 0x00 (.count (frameCount s.ports.payload.length)) } := by
  have hfits : ¬ exceeds s.cfg.genMaxPayload s.ports.payload.length = true :=
    Bool.eq_false_iff.1 ((exceeds_eq_false_iff _ _).2 hcap)
  have hshort : ¬ (s.ports.id % 2 ^ 8 = 0 ∧ 7 < s.ports.payload.length) := fun ⟨ha, hlong⟩ =>
    hlong.not_ge (hanon ha)
  rw [exec_genStart, if_pos ⟨hid, htid, hsig⟩, if_neg hfits, if_neg hshort]

/-- Settles O47: the checks of GEN.START in order, and the registers it loads. -/
theorem generatorStart : Obligations.GeneratorStart := by
  refine ⟨rfl, rfl, fun s => ⟨exec_genCount s, fun h => ?_, fun hid htid hsig =>
    ⟨fun hcap => ?_, fun hcap hanon hlong => ?_, fun hcap hanon => ?_⟩⟩⟩
  · exact (exec_genStart s).trans (if_neg (by omega))
  · rw [exec_genStart, if_pos ⟨hid, htid, hsig⟩, if_pos ((exceeds_eq_true_iff _ _).2 hcap)]
  · have hfits : ¬ exceeds s.cfg.genMaxPayload s.ports.payload.length = true :=
      Bool.eq_false_iff.1 ((exceeds_eq_false_iff _ _).2 hcap)
    rw [exec_genStart, if_pos ⟨hid, htid, hsig⟩, if_neg hfits, if_pos ⟨hanon, hlong⟩]
  · refine ⟨_, exec_genStart_of_accepted hid htid hsig hcap hanon, rfl, operand_toNat hid,
      operand_toNat (by omega), rfl, rfl, rfl, rfl, ?_⟩
    by_cases hlen : s.ports.payload.length < 8
    · rw [if_pos hlen, genLoad, if_neg (by rw [decide_eq_true_iff]; omega)]
    · rw [if_neg hlen, genLoad, if_pos (by rw [decide_eq_true_iff]; omega)]

/-! ### GEN.NEXT -/

/-- A slice of 7 bytes that ends within the payload. -/
theorem slice_seven (p : List Byte) (off : Nat) :
    slice p off (min p.length (off + 7)) = (p.drop off).take 7 := by
  rw [slice_eq, Nat.min_comm, ← List.take_eq_take_min, Nat.add_comm off 7, List.drop_take, Nat.add_sub_cancel]

section
variable {g : Gen}

theorem genStep_of_single (hm : g.multi = false) :
    genStep g = (genFrame g.id (g.payload ++ [tailByte true true false g.tid]), true,
      { g with active := false, idx := g.idx + 1 }) := if_pos hm

theorem genStep_of_first (hm : g.multi = true) (h0 : g.idx = 0) :
    genStep g = (genFrame g.id (le16 g.crc ++ g.payload.take 5 ++ [tailByte true false false g.tid]), false,
      { g with off := 5, idx := 1 }) := by
  rw [genStep, if_neg (by simp [hm]), if_pos h0, h0]
  rfl

theorem genStep_of_later (hm : g.multi = true) (h0 : g.idx ≠ 0) :
    genStep g =
      (genFrame g.id ((g.payload.drop g.off).take 7 ++
          [tailByte false (decide (g.payload.length ≤ g.off + 7)) (g.idx % 2 == 1) g.tid]),
        decide (g.payload.length ≤ g.off + 7),
        { g with
          active := !decide (g.payload.length ≤ g.off + 7)
          off := g.off + ((g.payload.drop g.off).take 7).length
          idx := g.idx + 1 }) := by
  rw [genStep, if_neg (by simp [hm]), if_neg h0, slice_seven]

end

theorem exec_genNext_of_idle {s : State} (h : s.g.active = false) :
    exec .genNext s = .next { s with result := endsWith 0x03 .none } :=
  if_neg (by simp [h])

theorem exec_genNext_of_active {s : State} {f : Frame} {last : Bool} {g : Gen} (h : s.g.active = true)
    (hstep : genStep s.g = (f, last, g)) :
    exec .genNext s = .next { s with g := g, result := endsWith 0x00 (.genFrame f last) } := by
  have hexec : exec .genNext s = execGenNext s := rfl
  rw [hexec, execGenNext, if_pos h, hstep]
  rfl

/-- Settles O48: GEN.NEXT by the frame that the registers give in each case. -/
theorem generatorNext : Obligations.GeneratorNext := by
  refine ⟨rfl, rfl, fun s => ⟨ok_eq _ _, exec_genNext_of_idle, fun hact hm => ?_, fun hact hm h0 => ?_,
    fun hact hm h0 chunk hchunk last hlast => ?_⟩⟩
  · exact exec_genNext_of_active hact (genStep_of_single hm)
  · exact exec_genNext_of_active hact (genStep_of_first hm h0)
  · subst hchunk hlast
    exact exec_genNext_of_active hact (genStep_of_later hm h0)

/-! ### The hand-out -/

/-- GEN.NEXT hands out these frames from the registers `g`, the last of them marked, and then is idle. -/
def HandsOut : Gen → List Frame → Prop
  | g, [] => g.active = false
  | g, f :: fs => g.active = true ∧ ∃ g', genStep g = (f, fs.isEmpty, g') ∧ HandsOut g' fs

theorem handsOut_cons {g g' : Gen} {f : Frame} {fs : List Frame} {last : Bool} (hact : g.active = true)
    (hstep : genStep g = (f, last, g')) (hlast : last = fs.isEmpty) (hrest : HandsOut g' fs) :
    HandsOut g (f :: fs) :=
  ⟨hact, g', hlast ▸ hstep, hrest⟩

/-- The results of the GEN.NEXT commands that hand out these frames, one frame each, and one more. -/
def handOutResults (fs : List Frame) : List (Option Result) :=
  fs.dropLast.map (fun f => endsWith 0x00 (.genFrame f false)) ++
    fs.getLast?.toList.map (fun f => endsWith 0x00 (.genFrame f true)) ++ [endsWith 0x03 .none]

theorem handOutResults_cons (f : Frame) (fs : List Frame) :
    handOutResults (f :: fs) = endsWith 0x00 (.genFrame f fs.isEmpty) :: handOutResults fs := by
  cases fs with
  | nil => rfl
  | cons f' fs => simp [handOutResults, List.getLast?_cons_cons]

/-- A run of GEN.NEXT, one for each frame and one more. -/
theorem serve_genNext (p : Ports) (fs : List Frame) (s : State) (h : HandsOut s.g fs) :
    (serve (List.replicate (fs.length + 1) (command .genNext p)) s).1 = handOutResults fs := by
  induction fs generalizing s with
  | nil =>
    have hidle := exec_genNext_of_idle (s := { s with cmds := [], ports := p }) h
    rw [List.replicate_succ, serve_command_cons _ hidle]
    rfl
  | cons f fs ih =>
    obtain ⟨hact, g', hstep, hrest⟩ := h
    have hnext := exec_genNext_of_active (s := { s with cmds := [], ports := p }) hact hstep
    rw [List.replicate_succ, serve_command_cons _ hnext, List.length_cons, ih _ hrest, handOutResults_cons]

/-- The registers before the later frame `j` of a multi-frame transfer (45_generator.md R601, R602). -/
def genBeforeLater (id : CanId) (tid : TransferId) (sig : Signature) (p : List Byte) (j : Nat) : Gen :=
  { active := decide (5 + 7 * j < p.length), multi := true, id := id, tid := tid, payload := p,
    crc := xferCrc sig p, off := min p.length (5 + 7 * j), idx := j + 1 }

section
variable {id : CanId} {tid : TransferId} {sig : Signature} {p : List Byte} (hlen : 8 ≤ p.length)
include hlen

theorem genStep_genLoad :
    genStep (genLoad id tid sig p) = (firstFrame id tid sig p, false, genBeforeLater id tid sig p 0) := by
  have hload : genLoad id tid sig p =
      { active := true, multi := true, id := id, tid := tid, payload := p, crc := xferCrc sig p, off := 0,
        idx := 0 } := by
    rw [genLoad, decide_eq_true hlen]
    rfl
  have hact : decide (5 + 7 * 0 < p.length) = true := decide_eq_true (by omega)
  have hoff : min p.length (5 + 7 * 0) = 5 := by omega
  rw [hload, genStep_of_first rfl rfl, firstFrame, genBeforeLater, hact, hoff]

theorem genStep_genBeforeLater {j : Nat} (hj : 5 + 7 * j < p.length) :
    genStep (genBeforeLater id tid sig p j) =
      (laterFrame id tid p j, j + 2 == frameCount p.length, genBeforeLater id tid sig p (j + 1)) := by
  have hoff : min p.length (5 + 7 * j) = 5 + 7 * j := by omega
  have hlast : decide (p.length ≤ 5 + 7 * j + 7) = (j + 2 == frameCount p.length) := by
    rw [Bool.eq_iff_iff, decide_eq_true_iff, beq_iff_eq, laterFrame_last_iff hlen hj]
  have hact : (!decide (p.length ≤ 5 + 7 * j + 7)) = decide (5 + 7 * (j + 1) < p.length) := by
    rw [← decide_not, decide_eq_decide]
    omega
  have hcursor : 5 + 7 * j + (chunkOf p j).length = min p.length (5 + 7 * (j + 1)) := by
    rw [chunkOf_length]
    omega
  rw [genStep_of_later rfl (Nat.succ_ne_zero j)]
  simp only [genBeforeLater, hoff]
  rw [hact, hlast, ← hcursor]
  rfl

/-- The later frames from `j` on, `m` of them to the end. -/
theorem handsOut_laterFrames (m j : Nat) (hm : j + m = frameCount p.length - 1) :
    HandsOut (genBeforeLater id tid sig p j) ((List.range' j m).map (laterFrame id tid p)) := by
  have hwithin := lt_frameCount_iff hlen j
  induction m generalizing j with
  | zero => exact decide_eq_false (by omega)
  | succ m ih =>
    have hj : 5 + 7 * j < p.length := by omega
    rw [List.range'_succ, List.map_cons]
    refine handsOut_cons (decide_eq_true hj) (genStep_genBeforeLater hlen hj) ?_
      (ih (j + 1) (by omega) (lt_frameCount_iff hlen _))
    rw [List.isEmpty_map, Bool.eq_iff_iff, beq_iff_eq, List.isEmpty_iff, List.range'_eq_nil_iff]
    omega

end

/-- After GEN.START the generator hands out the frames of the transfer. -/
theorem handsOut_framesOf (id : CanId) (tid : TransferId) (sig : Signature) (p : List Byte) :
    HandsOut (genLoad id tid sig p) (framesOf id tid sig p) := by
  by_cases h : p.length < 8
  · have hsingle : (genLoad id tid sig p).multi = false := decide_eq_false (by omega)
    rw [framesOf_of_short h]
    exact handsOut_cons rfl (genStep_of_single hsingle) rfl rfl
  · have hlen : 8 ≤ p.length := by omega
    have hmore : 0 < frameCount p.length - 1 := (lt_frameCount_iff hlen 0).2 (by omega)
    rw [framesOf_of_long hlen, List.range_eq_range']
    refine handsOut_cons rfl (genStep_genLoad hlen) ?_ (handsOut_laterFrames hlen _ 0 (Nat.zero_add _))
    rw [List.isEmpty_map, eq_comm, List.isEmpty_eq_false_iff, Ne, List.range'_eq_nil_iff]
    omega

/-- Settles O49: GEN.START loads the registers, which then hand out the frames. -/
theorem generatorHandsOutFrames : Obligations.GeneratorHandsOutFrames := by
  intro s p id tid sig hid htid hsig hcap hanon
  have hstart := exec_genStart_of_accepted (s := { s with cmds := [], ports := p }) (hid ▸ id.isLt)
    (htid ▸ Nat.le_of_lt_succ tid.isLt) (hsig ▸ sig.isLt) hcap (hid ▸ hanon)
  simp only [hid, htid, hsig, BitVec.ofNat_toNat, BitVec.setWidth_eq] at hstart
  rw [pseudoGenAll, serve_command_cons _ hstart, ← framesOf_length id tid sig,
    serve_genNext _ _ _ (handsOut_framesOf id tid sig p.payload), handOutResults]
  simp [endsWith]

end Sys2Proof.Machine
end

section
/-! A generated transfer at the reassembler (46_reassembler.md R700 to R720, 45_generator.md R605 item 5). The
entry after each frame of the transfer has a closed form: it holds the payload up to that frame, and the frames
so far. The first frame restarts a new entry, and each later one extends it. -/

namespace Sys2Proof.Machine

/-! ### The tail byte read back -/

section
variable (sot eot tog : Bool) (tid : TransferId)

@[simp] theorem tailSot_tailByte : tailSot (tailByte sot eot tog tid) = sot := by
  simp only [tailSot, tailByte, BitVec.getLsbD_append]
  simp

@[simp] theorem tailEot_tailByte : tailEot (tailByte sot eot tog tid) = eot := by
  simp only [tailEot, tailByte, BitVec.getLsbD_append]
  simp

@[simp] theorem tailToggle_tailByte : tailToggle (tailByte sot eot tog tid) = tog := by
  simp only [tailToggle, tailByte, BitVec.getLsbD_append]
  simp

@[simp] theorem tailTid_tailByte : tailTid (tailByte sot eot tog tid) = tid :=
  BitVec.extractLsb'_append_eq_right

end

/-! ### RX.FRAME up to the entry -/

/-- A frame with data, by its tail byte: the range checks and the compatibility check are passed. -/
theorem exec_rxFrame_of_receivable {s : State} {body : List Byte} {tb : Byte} (h : Receivable s)
    (hdata : s.ports.frame.data = body ++ [tb]) :
    exec .rxFrame s =
      if tailSot tb then
        rxStart (descriptor (BitVec.ofNat 29 s.ports.frame.id)) s.ports.frame tb (BitVec.ofNat 64 s.ports.now) s
      else
        rxContinue (descriptor (BitVec.ofNat 29 s.ports.frame.id)) s.ports.frame tb (BitVec.ofNat 64 s.ports.now)
          s := by
  obtain ⟨hext, hrtr, herr, hid, hlen, hnow⟩ := h
  have hwf : frameWellFormed s.ports.frame = true ∧ fitsBits 64 s.ports.now = true :=
    ⟨(frameWellFormed_iff _).2 ⟨hlen, by rwa [hext]⟩, (fitsBits_iff 64 _).2 hnow⟩
  have hcomp : rxCompatible s.ports.frame = true :=
    (rxCompatible_iff _).2 ⟨hext, hrtr, herr, by simp [hdata]⟩
  have htb : s.ports.frame.data.getLastD 0 = tb := by rw [hdata, List.getLastD_concat]
  have hexec : exec .rxFrame s = execRxFrame s := rfl
  rw [hexec, execRxFrame, if_pos hwf, if_pos hcomp, htb]

/-- An accepted start frame of a descriptor without an entry goes to a new one. -/
theorem rxStart_of_new {s : State} {d : Desc} {sig : Signature} (f : Frame) (tb : Byte) (now : Time)
    (hacc : s.ports.accept = some sig) (hnone : tableGet s.rxTable d = none)
    (hroom : s.cfg.rxCap ≠ some s.rxTable.length) :
    rxStart d f tb now s = rxStore d (some d) (rxApply s.cfg d f tb now sig newRxState) s := by
  simp only [rxStart, hacc, hnone, if_neg hroom]

/-- A later frame of a descriptor with an entry goes to it. -/
theorem rxContinue_of_entry {s : State} {d : Desc} {st : RxState} (f : Frame) (tb : Byte) (now : Time)
    (hget : tableGet s.rxTable d = some st) :
    rxContinue d f tb now s = rxStore d none (rxApply s.cfg d f tb now 0 st) s := by
  simp only [rxContinue, hget]

/-! ### Steps 4 to 7 -/

section
variable (cfg : Config) (d : Desc) {f : Frame} {tid : TransferId} (now : Time) (sig : Signature)

/-- A new entry is restarted by any frame. -/
theorem rxRestarts_newRxState (sot : Bool) : rxRestarts newRxState now sot tid = true :=
  (rxRestarts_iff _ _ _ _).2 (.inl rfl)

/-- A single-frame transfer at a new entry is given out at once. -/
theorem rxApply_single_new (tog : Bool) :
    rxApply cfg d f (tailByte true true tog tid) now sig newRxState =
      rxComplete cfg d tid f.data.dropLast [f] tid (rxRestart tid { newRxState with lastTs := now }) := by
  simp [rxApply, rxRestarts_newRxState]

/-- The first frame of a multi-frame transfer at a new entry begins it. -/
theorem rxApply_start_new (hlong : 3 < f.data.length) :
    rxApply cfg d f (tailByte true false false tid) now sig newRxState =
      { status := .rxNone, out := .none,
        entry := { rxBegin f sig (rxRestart tid { newRxState with lastTs := now }) with toggle := true } } := by
  simp [rxApply, rxRestarts_newRxState, rxFinish, hlong]

/-- The next frame of the transfer that the entry collects, in time and within the buffer, extends it. -/
theorem rxApply_continue (eot : Bool) {st : RxState} (hinit : st.initialized = true)
    (hcoll : st.collecting = true) (htime : now.toNat ≤ st.lastTs.toNat + 2000000)
    (hcap : ∀ m ∈ cfg.rxMaxPayload, st.buf.length + f.data.length - 1 ≤ m) :
    rxApply cfg d f (tailByte false eot st.toggle st.tid) now sig st =
      rxFinish cfg d f eot st.tid (rxExtend f { st with lastTs := now }) := by
  have hrestart : rxRestarts st now false st.tid = false := by
    rw [← Bool.not_eq_true, rxRestarts_iff, hinit]
    rintro (h | h | ⟨h, _⟩)
    · cases h
    · omega
    · cases h
  have hfits : exceeds cfg.rxMaxPayload (st.buf.length + f.data.length - 1) = false :=
    (exceeds_eq_false_iff _ _).2 hcap
  simp [rxApply, hrestart, hcoll, hfits]

end

/-! ### The entry along a transfer -/

/-- The entry after the first frame of a multi-frame transfer and `j` later ones. -/
def rxAfterLater (id : CanId) (tid : TransferId) (sig : Signature) (p : List Byte) (now : Time) (j : Nat) :
    RxState :=
  { initialized := true, collecting := true, tid := tid, toggle := (j + 1) % 2 == 1, lastTs := now,
    buf := p.take (5 + 7 * j),
    frames := firstFrame id tid sig p :: (List.range j).map (laterFrame id tid p),
    crcExpected := xferCrc sig p, signature := sig }

section
variable (cfg : Config) (d : Desc) {id : CanId} {tid : TransferId} {sig : Signature} {p : List Byte} (now : Time)

theorem rxApply_firstFrame (hlen : 8 ≤ p.length) :
    rxApply cfg d (firstFrame id tid sig p) (tailByte true false false tid) now sig newRxState =
      { status := .rxNone, out := .none, entry := rxAfterLater id tid sig p now 0 } := by
  have hlong : 3 < (firstFrame id tid sig p).data.length := by rw [firstFrame_length hlen]; decide
  have hbuf : slice (firstFrame id tid sig p).data 2 ((firstFrame id tid sig p).data.length - 1) = p.take 5 := by
    rw [slice_eq, ← List.dropLast_eq_take]
    exact carried_firstFrame (id := id) (tid := tid) (sig := sig)
  have hcrc : (firstFrame id tid sig p).data.getD 1 0 ++ (firstFrame id tid sig p).data.getD 0 0 = xferCrc sig p :=
    (BitVec.extractLsb'_append_extractLsb'_eq_extractLsb' rfl).trans BitVec.extractLsb'_eq_self
  simp only [rxApply_start_new cfg d now sig hlong, rxBegin, hbuf, hcrc, rxRestart]
  simp only [rxAfterLater, Nat.mul_zero, Nat.add_zero, List.range_zero, List.map_nil]
  rfl

/-- The entry with the later frame `j` taken in, before the toggle flips. -/
theorem rxExtend_laterFrame (last : Time) (j : Nat) :
    rxExtend (laterFrame id tid p j) { rxAfterLater id tid sig p last j with lastTs := now } =
      { rxAfterLater id tid sig p now (j + 1) with toggle := (j + 1) % 2 == 1 } := by
  simp only [rxExtend, rxAfterLater, laterFrame_dropLast, take_append_chunkOf, List.cons_append,
    List.range_succ, List.map_append, List.map_singleton]

/-- The toggle alternates along the frames of a transfer. -/
theorem toggle_flips (j : Nat) : (!((j + 1) % 2 == 1)) = ((j + 1 + 1) % 2 == 1) := by
  rw [Bool.eq_iff_iff, Bool.not_eq_true', beq_eq_false_iff_ne, beq_iff_eq]
  omega

section
variable {last : Time} {j : Nat} (hlen : 8 ≤ p.length) (hj : 5 + 7 * j < p.length)
  (htime : now.toNat ≤ last.toNat + 2000000) (hcap : ∀ m ∈ cfg.rxMaxPayload, p.length ≤ m)
include hj htime hcap

theorem rxApply_laterFrame (eot : Bool) :
    rxApply cfg d (laterFrame id tid p j) (tailByte false eot ((j + 1) % 2 == 1) tid) now 0
        (rxAfterLater id tid sig p last j) =
      rxFinish cfg d (laterFrame id tid p j) eot tid
        { rxAfterLater id tid sig p now (j + 1) with toggle := (j + 1) % 2 == 1 } := by
  rw [← rxExtend_laterFrame now last j]
  refine rxApply_continue cfg d now 0 eot (st := rxAfterLater id tid sig p last j) rfl rfl htime fun m hm => ?_
  have := hcap m hm
  rw [laterFrame_length, rxAfterLater, List.length_take]
  omega

/-- A later frame that is not the last leaves the entry collecting. -/
theorem rxApply_laterFrame_of_more :
    rxApply cfg d (laterFrame id tid p j) (tailByte false false ((j + 1) % 2 == 1) tid) now 0
        (rxAfterLater id tid sig p last j) =
      { status := .rxNone, out := .none, entry := rxAfterLater id tid sig p now (j + 1) } := by
  rw [rxApply_laterFrame cfg d now hj htime hcap false]
  simp only [rxAfterLater, rxFinish, toggle_flips, Bool.false_eq_true, if_false]

include hlen in
/-- The last frame gives the transfer out, for the transfer CRC is that of the payload. -/
theorem rxApply_laterFrame_of_last (hlast : j + 2 = frameCount p.length) :
    rxApply cfg d (laterFrame id tid p j) (tailByte false true ((j + 1) % 2 == 1) tid) now 0
        (rxAfterLater id tid sig p last j) =
      rxComplete cfg d tid p (framesOf id tid sig p) tid (rxAfterLater id tid sig p now (j + 1)) := by
  have hbuf : p.take (5 + 7 * (j + 1)) = p :=
    List.take_of_length_le ((laterFrame_last_iff hlen hj).1 hlast)
  have hframes : firstFrame id tid sig p :: (List.range (j + 1)).map (laterFrame id tid p) =
      framesOf id tid sig p := by
    rw [framesOf_of_long hlen, ← hlast]
    rfl
  rw [rxApply_laterFrame cfg d now hj htime hcap true]
  simp only [rxAfterLater, hbuf, hframes, rxFinish, toggle_flips, if_true, ne_eq, not_true_eq_false, if_false]

end

end

/-! ### Frames of the generator on the port -/

/-- A frame of the generator is one the reassembler takes in, and its descriptor that of its identifier. -/
theorem exec_rxFrame_genFrame {s : State} {id : CanId} {body : List Byte} {tb : Byte}
    (hf : s.ports.frame = genFrame id (body ++ [tb])) (hbody : body.length ≤ 7) (hnow : s.ports.now < 2 ^ 64) :
    exec .rxFrame s =
      if tailSot tb then
        rxStart (descriptor id) (genFrame id (body ++ [tb])) tb (BitVec.ofNat 64 s.ports.now) s
      else rxContinue (descriptor id) (genFrame id (body ++ [tb])) tb (BitVec.ofNat 64 s.ports.now) s := by
  have hrec : Receivable s := by
    rw [Receivable, hf]
    refine ⟨rfl, rfl, rfl, id.isLt, ?_, hnow⟩
    simpa [genFrame] using Nat.lt_succ_of_le hbody
  have hid : BitVec.ofNat 29 (genFrame id (body ++ [tb])).id = id :=
    (BitVec.ofNat_toNat 29 id).trans (BitVec.setWidth_eq id)
  rw [exec_rxFrame_of_receivable hrec (by rw [hf]; rfl), hf, hid]

section
variable {s : State} {id : CanId} {tid : TransferId} {sig : Signature} {p : List Byte}

/-- The only frame of a short transfer. -/
theorem exec_rxFrame_single (hf : s.ports.frame = genFrame id (p ++ [tailByte true true false tid]))
    (hlen : p.length < 8) (hnow : s.ports.now < 2 ^ 64) (hacc : s.ports.accept = some sig)
    (hnone : tableGet s.rxTable (descriptor id) = none) (hroom : s.cfg.rxCap ≠ some s.rxTable.length) :
    exec .rxFrame s = rxStore (descriptor id) (some (descriptor id))
      (rxComplete s.cfg (descriptor id) tid p (framesOf id tid sig p) tid
        (rxRestart tid { newRxState with lastTs := BitVec.ofNat 64 s.ports.now })) s := by
  have hbody : (genFrame id (p ++ [tailByte true true false tid])).data.dropLast = p := List.dropLast_concat
  rw [exec_rxFrame_genFrame hf (by omega) hnow, tailSot_tailByte, if_pos rfl, rxStart_of_new _ _ _ hacc hnone hroom,
    rxApply_single_new, hbody, framesOf_of_short hlen]

/-- The first frame of a long transfer. -/
theorem exec_rxFrame_firstFrame (hf : s.ports.frame = firstFrame id tid sig p) (hlen : 8 ≤ p.length)
    (hnow : s.ports.now < 2 ^ 64) (hacc : s.ports.accept = some sig)
    (hnone : tableGet s.rxTable (descriptor id) = none) (hroom : s.cfg.rxCap ≠ some s.rxTable.length) :
    exec .rxFrame s = rxStore (descriptor id) (some (descriptor id))
      { status := .rxNone, out := .none, entry := rxAfterLater id tid sig p (BitVec.ofNat 64 s.ports.now) 0 }
      s := by
  rw [exec_rxFrame_genFrame hf (le16_append_take_length_le _ p) hnow, tailSot_tailByte, if_pos rfl,
    rxStart_of_new _ _ _ hacc hnone hroom]
  exact congrArg (rxStore _ _ · s) (rxApply_firstFrame s.cfg _ _ hlen)

/-- A later frame of a transfer goes to the entry that collects it. -/
theorem exec_rxFrame_laterFrame {j : Nat} {st : RxState} (hf : s.ports.frame = laterFrame id tid p j)
    (hnow : s.ports.now < 2 ^ 64) (hget : tableGet s.rxTable (descriptor id) = some st) :
    exec .rxFrame s = rxStore (descriptor id) none
      (rxApply s.cfg (descriptor id) (laterFrame id tid p j)
        (tailByte false (j + 2 == frameCount p.length) ((j + 1) % 2 == 1) tid) (BitVec.ofNat 64 s.ports.now) 0
        st) s := by
  have hbody : (chunkOf p j).length ≤ 7 := by rw [chunkOf_length]; omega
  rw [exec_rxFrame_genFrame hf hbody hnow, tailSot_tailByte, if_neg Bool.false_ne_true,
    rxContinue_of_entry _ _ _ hget]
  rfl

end

/-! ### The run over a transfer -/

/-- Statuses and outputs of a transfer of `n` frames: nothing until the last frame, then the transfer. -/
def transferResults (n : Nat) (t : Transfer) : List (Option (BitVec 8 × Output)) :=
  List.replicate (n - 1) (some (0x01, .none)) ++ [some (0x02, .transfer t)]

theorem transferResults_succ (n : Nat) (t : Transfer) :
    transferResults (n + 2) t = some (0x01, .none) :: transferResults (n + 1) t := rfl

/-- The RX.FRAME commands that feed these frames at these times. -/
def feed (pt : Ports) (fs : List Frame) (ts : List Nat) : List Command :=
  (fs.zip ts).map fun x => command .rxFrame { pt with frame := x.1, now := x.2 }

theorem feed_cons (pt : Ports) (f : Frame) (fs : List Frame) (t : Nat) (ts : List Nat) :
    feed pt (f :: fs) (t :: ts) = command .rxFrame { pt with frame := f, now := t } :: feed pt fs ts := rfl

/-- Statuses and outputs of a run. -/
def endings (cs : List Command) (s : State) : List (Option (BitVec 8 × Output)) :=
  (serve cs s).1.map (·.map Result.ending)

/-- A command of the run that ends at the entry of a descriptor. -/
theorem endings_rxStore {pt : Ports} {s : State} {d : Desc} {asked : Option Desc} {a : RxAnswer}
    (cs : List Command)
    (h : exec .rxFrame { s with cmds := [], ports := pt } = rxStore d asked a { s with cmds := [], ports := pt }) :
    ∃ t, endings (command .rxFrame pt :: cs) s = some (statusCode a.status, a.out) :: endings cs t ∧
      tableGet t.rxTable d = some a.entry ∧ t.cfg = s.cfg := by
  refine ⟨{ s with
      rxTable := tablePut d a.entry s.rxTable, cmds := [], ports := pt
      result := some { status := statusCode a.status, out := a.out, asked := asked } },
    ?_, tableGet_tablePut_self d a.entry s.rxTable, rfl⟩
  rw [endings, serve_command_cons cs h]
  rfl

section
variable {id : CanId} {tid : TransferId} {sig : Signature} {p : List Byte} (hlen : 8 ≤ p.length) (pt : Ports)
include hlen

/-- The later frames from `j` on, fed to the entry that the frames before them left. -/
theorem endings_laterFrames (ts : List Nat) (j : Nat) (s : State) (last : Time) (hne : ts ≠ [])
    (hcount : j + ts.length = frameCount p.length - 1) (hrange : ∀ t ∈ ts, t < 2 ^ 64)
    (hchain : (last.toNat :: ts).IsChain fun a b => b ≤ a + 2000000)
    (hget : tableGet s.rxTable (descriptor id) = some (rxAfterLater id tid sig p last j))
    (hcap : ∀ m ∈ s.cfg.rxMaxPayload, p.length ≤ m) :
    endings (feed pt ((List.range' j ts.length).map (laterFrame id tid p)) ts) s =
      transferResults ts.length
        { desc := descriptor id, tid := tid, payload := p, frames := framesOf id tid sig p } := by
  induction ts generalizing j s last with
  | nil => contradiction
  | cons t ts ih =>
    obtain ⟨htime, hchain⟩ := List.isChain_cons_cons.1 hchain
    obtain ⟨ht, hrange⟩ := List.forall_mem_cons.1 hrange
    have hnow : (BitVec.ofNat 64 t).toNat = t := operand_toNat ht
    have htime' : (BitVec.ofNat 64 t).toNat ≤ last.toNat + 2000000 := by omega
    rw [List.length_cons] at hcount
    have hj : 5 + 7 * j < p.length := (lt_frameCount_iff hlen j).1 (by omega)
    have hexec := exec_rxFrame_laterFrame
      (s := { s with cmds := [], ports := { pt with frame := laterFrame id tid p j, now := t } }) rfl ht hget
    rw [List.length_cons, List.range'_succ, List.map_cons, feed_cons]
    cases ts with
    | nil =>
      have hlast : j + 2 = frameCount p.length := by
        rw [List.length_nil] at hcount
        omega
      rw [beq_iff_eq.2 hlast, rxApply_laterFrame_of_last _ _ _ hlen hj htime' hcap hlast] at hexec
      obtain ⟨u, hrun, _⟩ := endings_rxStore [] hexec
      exact hrun
    | cons t' ts =>
      have hmore : ¬ j + 2 = frameCount p.length := by
        rw [List.length_cons] at hcount
        omega
      rw [beq_eq_false_iff_ne.2 hmore, rxApply_laterFrame_of_more _ _ _ hj htime' hcap] at hexec
      obtain ⟨u, hrun, hentry, hcfg⟩ := endings_rxStore _ hexec
      rw [hrun, ih (j + 1) u _ (List.cons_ne_nil _ _) (by omega) hrange (hnow.symm ▸ hchain) hentry
        (hcfg ▸ hcap)]
      exact (transferResults_succ _ _).symm

/-- A long transfer, fed in order to a reassembler without an entry for it. -/
theorem endings_framesOf_of_long {s : State} {ts : List Nat} (hacc : pt.accept = some sig)
    (hcount : ts.length = frameCount p.length) (hrange : ∀ t ∈ ts, t < 2 ^ 64)
    (hchain : ts.IsChain fun a b => b ≤ a + 2000000) (hnone : tableGet s.rxTable (descriptor id) = none)
    (hroom : s.cfg.rxCap ≠ some s.rxTable.length) (hcap : ∀ m ∈ s.cfg.rxMaxPayload, p.length ≤ m) :
    endings (feed pt (framesOf id tid sig p) ts) s =
      transferResults (frameCount p.length)
        { desc := descriptor id, tid := tid, payload := p, frames := framesOf id tid sig p } := by
  have hmore : 0 < frameCount p.length - 1 := (lt_frameCount_iff hlen 0).2 (by omega)
  match ts with
  | [] | [_] =>
    rw [← hcount] at hmore
    exact absurd hmore (Nat.lt_irrefl 0)
  | t :: t' :: ts =>
    obtain ⟨ht, hrange⟩ := List.forall_mem_cons.1 hrange
    have hnow : (BitVec.ofNat 64 t).toNat = t := operand_toNat ht
    have hrest : (t' :: ts).length = frameCount p.length - 1 := by rw [← hcount]; rfl
    have hexec := exec_rxFrame_firstFrame
      (s := { s with cmds := [], ports := { pt with frame := firstFrame id tid sig p, now := t } }) rfl hlen ht
      hacc hnone hroom
    obtain ⟨u, hrun, hentry, hcfg⟩ :=
      endings_rxStore (feed pt ((List.range' 0 (t' :: ts).length).map (laterFrame id tid p)) (t' :: ts)) hexec
    have hlater := endings_laterFrames hlen pt (t' :: ts) 0 u _ (List.cons_ne_nil _ _) (by omega) hrange
      (hnow.symm ▸ hchain) hentry (hcfg ▸ hcap)
    rw [framesOf_of_long hlen, List.range_eq_range', ← hrest, feed_cons, hrun, hlater, ← hcount,
      framesOf_of_long hlen, List.range_eq_range', ← hrest]
    exact (transferResults_succ _ _).symm

end

/-- A short transfer, fed to a reassembler without an entry for it. -/
theorem endings_framesOf_of_short {id : CanId} {tid : TransferId} {sig : Signature} {p : List Byte}
    (hlen : p.length < 8) (pt : Ports) {s : State} {ts : List Nat} (hacc : pt.accept = some sig)
    (hcount : ts.length = frameCount p.length) (hrange : ∀ t ∈ ts, t < 2 ^ 64)
    (hnone : tableGet s.rxTable (descriptor id) = none) (hroom : s.cfg.rxCap ≠ some s.rxTable.length) :
    endings (feed pt (framesOf id tid sig p) ts) s =
      transferResults (frameCount p.length)
        { desc := descriptor id, tid := tid, payload := p, frames := framesOf id tid sig p } := by
  rw [frameCount_of_short hlen] at hcount ⊢
  obtain ⟨t, rfl⟩ := List.length_eq_one_iff.1 hcount
  have hexec := exec_rxFrame_single (tid := tid)
    (s := { s with cmds := [], ports := { pt with
      frame := genFrame id (p ++ [tailByte true true false tid]), now := t } })
    rfl hlen (hrange t List.mem_cons_self) hacc hnone hroom
  obtain ⟨u, hrun, _⟩ := endings_rxStore [] hexec
  rw [framesOf_of_short hlen] at hrun ⊢
  exact hrun

/-- Settles O58: a short transfer by its only frame, a long one by its first frame and then the later ones. -/
theorem reassemblesGeneratedTransfer : Obligations.ReassemblesGeneratedTransfer := by
  intro s pt id tid sig p ts fs hacc hcount hrange hchain hnone hroom hcap
  have hcount' : ts.length = frameCount p.length := hcount.trans (framesOf_length id tid sig p)
  have hrun : endings (feed pt fs ts) s = transferResults (frameCount p.length)
      { desc := descriptor id, tid := tid, payload := p, frames := fs } := by
    by_cases hlen : p.length < 8
    · exact endings_framesOf_of_short hlen pt hacc hcount' hrange hnone hroom
    · exact endings_framesOf_of_long (Nat.le_of_not_lt hlen) pt hacc hcount' hrange hchain hnone hroom hcap
  rwa [← framesOf_length id tid sig] at hrun

end Sys2Proof.Machine
end

section
/-! The reassembler's commands but for the steps of a frame at its entry (46_reassembler.md R700 to R703, R709,
R721 to R723): what RX.FRAME ends in before it reaches an entry, what it can change at all, and RX.SWEEP, RX.CLEAR
and RX.LOOKUP by one equation each. -/

namespace Sys2Proof.Machine

/-! ### RX.FRAME up to the table -/

/-- A well-formed frame and a timestamp in range (46_reassembler.md R720, 30_encoding.md R101). -/
abbrev RxOperandsOk (s : State) : Prop :=
  s.ports.frame.data.length ≤ 8 ∧ s.ports.frame.id < (if s.ports.frame.ext = true then 2 ^ 29 else 2 ^ 11) ∧
    s.ports.now < 2 ^ 64

/-- RX.FRAME with its checks in order. -/
theorem exec_rxFrame (s : State) :
    exec .rxFrame s =
      if RxOperandsOk s then
        if rxCompatible s.ports.frame then
          if tailSot (s.ports.frame.data.getLastD 0) then
            rxStart (descriptor (BitVec.ofNat 29 s.ports.frame.id)) s.ports.frame
              (s.ports.frame.data.getLastD 0) (BitVec.ofNat 64 s.ports.now) s
          else
            rxContinue (descriptor (BitVec.ofNat 29 s.ports.frame.id)) s.ports.frame
              (s.ports.frame.data.getLastD 0) (BitVec.ofNat 64 s.ports.now) s
        else .next { s with result := endsWith 0x10 (.frames [s.ports.frame]) }
      else .next (faulted 0x34 s) :=
  if_congr (by rw [frameWellFormed_iff, fitsBits_iff, and_assoc]) rfl rfl

theorem rxCompatible_eq_false {f : Frame} (h : f.ext = false ∨ f.rtr = true ∨ f.err = true ∨ f.data = []) :
    ¬ rxCompatible f = true := by
  rw [rxCompatible_iff]
  rintro ⟨hext, hrtr, herr, hne⟩
  simp [hext, hrtr, herr, hne] at h

/-- Settles O51: the range checks come first, and the compatibility check next. -/
theorem incompatibleFrames : Obligations.IncompatibleFrames := by
  refine ⟨rfl, fun s => ⟨fun hbad => ?_, fun hgood hinc => ?_⟩⟩
  · exact (exec_rxFrame s).trans (if_neg hbad)
  · rw [exec_rxFrame, if_pos hgood, if_neg (rxCompatible_eq_false hinc)]

/-- Settles O52: the branches of steps 2 and 3 that reach no entry. -/
theorem framesWithoutEntry : Obligations.FramesWithoutEntry := by
  intro s body sot eot tog tid hrec hdata
  have hexec := exec_rxFrame_of_receivable hrec hdata
  rw [tailSot_tailByte] at hexec
  refine ⟨fun hsot hacc => ?_, fun hsot hacc hnone hfull => ?_, fun hsot hnone => ?_⟩
  · rw [hexec, if_pos hsot, rxStart, hacc]
    rfl
  · obtain ⟨sig, hsig⟩ := Option.ne_none_iff_exists'.1 hacc
    rw [hexec, if_pos hsot]
    simp only [rxStart, hsig, hnone, if_pos hfull]
    rfl
  · rw [hexec, hsot, if_neg Bool.false_ne_true, rxContinue, hnone]
    rfl

/-! ### What RX.FRAME can change -/

/-- How RX.FRAME ends, a fault apart: on the result port alone, or with the entry of `d` written. -/
inductive RxFrameEnd (s : State) (d : Desc) : Answer → Prop where
  | noEntry (r : Option Result) : RxFrameEnd s d (.next { s with result := r })
  | stored (asked : Option Desc) (a : RxAnswer) : RxFrameEnd s d (rxStore d asked a s)

theorem rxStart_end (d : Desc) (f : Frame) (tb : Byte) (now : Time) (s : State) :
    RxFrameEnd s d (rxStart d f tb now s) := by
  unfold rxStart
  split
  · exact .noEntry _
  split
  · exact .stored _ _
  split
  · exact .noEntry _
  · exact .stored _ _

theorem rxContinue_end (d : Desc) (f : Frame) (tb : Byte) (now : Time) (s : State) :
    RxFrameEnd s d (rxContinue d f tb now s) := by
  unfold rxContinue
  split
  · exact .stored _ _
  · exact .noEntry _

theorem exec_rxFrame_end {s : State} (hgood : RxOperandsOk s) :
    RxFrameEnd s (descriptor (BitVec.ofNat 29 s.ports.frame.id)) (exec .rxFrame s) := by
  rw [exec_rxFrame, if_pos hgood]
  split
  · split
    · exact rxStart_end _ _ _ _ _
    · exact rxContinue_end _ _ _ _ _
  · exact .noEntry _

/-- A write removes no entry. -/
theorem tableGet_tablePut_ne_none (d d' : Desc) (st : RxState) {t : RxTable} (h : tableGet t d' ≠ none) :
    tableGet (tablePut d st t) d' ≠ none := by
  by_cases hd : d' = d
  · rw [hd, tableGet_tablePut_self]
    exact Option.some_ne_none st
  · rwa [tableGet_tablePut_other d d' st t hd]

/-- Settles O57: a frame that faults or reaches no entry keeps the table, and any other one writes its own
entry. -/
theorem frameTouchesOnlyItsEntry : Obligations.FrameTouchesOnlyItsEntry := by
  intro s
  by_cases hgood : RxOperandsOk s
  · have hend := exec_rxFrame_end hgood
    simp only [if_pos hgood]
    generalize exec .rxFrame s = answer at hend
    cases hend with
    | noEntry r => exact ⟨_, rfl, fun _ _ => rfl, fun _ h => h, rfl, rfl⟩
    | stored asked a =>
      exact ⟨_, rfl, fun d' hd => tableGet_tablePut_other _ d' _ _ hd,
        fun d' h => tableGet_tablePut_ne_none _ d' _ h, rfl, rfl⟩
  · simp only [if_neg hgood]
    exact ⟨faulted 0x34 s, (exec_rxFrame s).trans (if_neg hgood), fun _ _ => rfl, fun _ h => h, rfl, rfl⟩

/-! ### RX.SWEEP -/

/-- RX.SWEEP by its checks: a timestamp in range, and a sweep that is due. -/
theorem exec_rxSweep (s : State) :
    exec .rxSweep s =
      if s.ports.now < 2 ^ 64 then
        if sweepEarly (BitVec.ofNat 64 s.ports.now) s.rxLastSweep then
          .next { s with result := endsWith 0x00 (.swept false 0) }
        else
          .next { s with
            rxTable := s.rxTable.filter fun e => !rxStale (BitVec.ofNat 64 s.ports.now) e.2
            rxLastSweep := some (BitVec.ofNat 64 s.ports.now)
            result := endsWith 0x00 (.swept true
              (s.rxTable.filter fun e => rxStale (BitVec.ofNat 64 s.ports.now) e.2).length) }
      else .next (faulted 0x34 s) :=
  if_congr (fitsBits_iff 64 _) rfl rfl

/-- The entries that a sweep evicts, by the timestamp operand. -/
theorem rxStale_ofNat {now : Nat} (hnow : now < 2 ^ 64) (st : RxState) :
    rxStale (BitVec.ofNat 64 now) st = decide (st.lastTs.toNat + 2000000 < now) := by
  rw [Bool.eq_iff_iff, rxStale_iff, operand_toNat hnow, decide_eq_true_iff]

/-- Settles O59: the rate limit, and the stale entries as those that the filter drops. -/
theorem sweepEvictsStaleEntries : Obligations.SweepEvictsStaleEntries := by
  refine ⟨rfl, fun s => ⟨fun hbad => ?_, fun hnow hearly => ?_, fun hnow hdue => ?_⟩⟩
  · exact (exec_rxSweep s).trans (if_neg hbad.not_gt)
  · rw [exec_rxSweep, if_pos hnow, if_pos]
    rwa [sweepEarly_iff, operand_toNat hnow]
  · refine ⟨BitVec.ofNat 64 s.ports.now, operand_toNat hnow, ?_⟩
    have hlate : ¬ sweepEarly (BitVec.ofNat 64 s.ports.now) s.rxLastSweep = true := by
      rw [sweepEarly_iff, operand_toNat hnow]
      rintro ⟨l, hl, hlt⟩
      exact hlt.not_ge (hdue l hl)
    rw [exec_rxSweep, if_pos hnow, if_neg hlate]
    simp only [rxStale_ofNat hnow, List.countP_eq_length_filter]

/-! ### RX.CLEAR and RX.LOOKUP -/

theorem exec_rxClear (s : State) :
    exec .rxClear s = .next { s with rxTable := [], result := endsWith 0x00 .none } :=
  ok_eq _ _

theorem exec_rxLookup_of_none {s : State} (h : descOfPort s.ports.desc = none) :
    exec .rxLookup s = .next (faulted 0x34 s) := by
  have hexec : exec .rxLookup s = execRxLookup s := rfl
  rw [hexec, execRxLookup, h]
  rfl

theorem exec_rxLookup_of_some {s : State} {d : Desc} (h : descOfPort s.ports.desc = some d) :
    exec .rxLookup s =
      .next { s with result := endsWith 0x00 (.entry ((tableGet s.rxTable d).map viewOf)) } := by
  have hexec : exec .rxLookup s = execRxLookup s := rfl
  rw [hexec, execRxLookup, h]
  rfl

theorem kindOfPort_eq_none {n : Nat} (h : 2 < n) : kindOfPort n = none := by
  match n, h with
  | n + 3, _ => rfl

@[simp] theorem kindOfPort_kindNumber (k : TransferType) : kindOfPort (kindNumber k) = some k := by
  cases k <;> rfl

theorem descOfPort_eq_none {d : DescPort} (h : 2 < d.kind ∨ 65535 < d.dtid ∨ 127 < d.src ∨ 127 < d.dst) :
    descOfPort d = none := by
  unfold descOfPort
  split
  · rfl
  next k hk =>
    refine if_neg fun ⟨hdtid, hsrc, hdst⟩ => ?_
    rcases h with h | h
    · rw [kindOfPort_eq_none h] at hk
      cases hk
    · omega

/-- A descriptor is read back from the port that shows its fields. -/
theorem descOfPort_of_desc (d : Desc) :
    descOfPort { dtid := d.dtid.toNat, kind := kindNumber d.kind, src := d.src.toNat, dst := d.dst.toNat } =
      some d := by
  have hrange : d.dtid.toNat < 2 ^ 16 ∧ d.src.toNat ≤ 127 ∧ d.dst.toNat ≤ 127 :=
    ⟨d.dtid.isLt, Nat.le_of_lt_succ d.src.isLt, Nat.le_of_lt_succ d.dst.isLt⟩
  simp only [descOfPort, kindOfPort_kindNumber, if_pos hrange, BitVec.ofNat_toNat, BitVec.setWidth_eq]

/-- Settles O60: each command by its equation, and the descriptor port read back. -/
theorem clearAndLookup : Obligations.ClearAndLookup := by
  refine ⟨rfl, rfl, fun s => ⟨exec_rxClear s, fun hbad => ?_, fun d hport => ?_⟩⟩
  · exact exec_rxLookup_of_none (descOfPort_eq_none hbad)
  · have hdesc : descOfPort s.ports.desc = some d := hport ▸ descOfPort_of_desc d
    refine ⟨fun hnone => ?_, fun st hget => ?_⟩
    · rw [exec_rxLookup_of_some hdesc, hnone]
      rfl
    · rw [exec_rxLookup_of_some hdesc, hget]
      rfl

end Sys2Proof.Machine
end

section
/-! A frame at the entry of its descriptor (46_reassembler.md R704 to R714). Steps 4 and 5 leave the entry that the
later checks find; from there the steps are one list of checks for a start frame (`rxApply_start`) and one for a
later frame (`rxApply_later_of_kept`). Each check that ends the frame leaves the entry idle (`idle_and_ended`). -/

namespace Sys2Proof.Machine

/-! ### How a frame at an entry ends -/

/-- An RX.FRAME that reached an entry: the answer's entry is written, the other entries stay. -/
theorem rxEnded_of_rxStore {s : State} {d : Desc} {asked : Option Desc} {a : RxAnswer}
    (h : exec .rxFrame s = rxStore d asked a s) :
    ∃ t, exec .rxFrame s = .next t ∧ rxEnded s t d a.entry (statusCode a.status) a.out asked :=
  ⟨_, h, rfl, tableGet_tablePut_self d a.entry s.rxTable,
    fun d' hd => tableGet_tablePut_other d d' a.entry s.rxTable hd⟩

theorem resetBase_self (cfg : Config) (tid : TransferId) : resetBase cfg tid tid = tid := by
  unfold resetBase
  split <;> rfl

/-- Step 7 leaves the entry idle (46_reassembler.md R712). -/
theorem idleWith_resetAfter {cfg : Config} {tid : TransferId} {now : Nat} {st : RxState}
    (hinit : st.initialized = true) (hts : st.lastTs.toNat = now) :
    idleWith (resetBase cfg tid st.tid + 1) now (resetAfter cfg tid st) :=
  ⟨hinit, rfl, resetAfter_tid cfg tid st, rfl, hts, rfl, rfl, rfl, rfl⟩

/-- An accepted start frame goes to the entry of its descriptor, or to a new one where there is none. -/
theorem rxStart_of_accepted {s : State} {d : Desc} {sig : Signature} (f : Frame) (tb : Byte) (now : Time)
    (hacc : s.ports.accept = some sig)
    (hroom : tableGet s.rxTable d = none → s.cfg.rxCap ≠ some s.rxTable.length) :
    rxStart d f tb now s =
      rxStore d (some d) (rxApply s.cfg d f tb now sig ((tableGet s.rxTable d).getD newRxState)) s := by
  cases hget : tableGet s.rxTable d with
  | none => exact rxStart_of_new f tb now hacc hget (hroom hget)
  | some st => simp only [rxStart, hacc, hget, Option.getD_some]

/-- A frame whose answer resets the entry: the entry is idle, and the status and the outputs are the answer's. -/
theorem idle_and_ended {s t : State} {d : Desc} {asked : Option Desc} {a : RxAnswer} {code : Status} {out : Output}
    {cfg : Config} {tid : TransferId} {e : RxState} {now : Nat}
    (hended : rxEnded s t d a.entry (statusCode a.status) a.out asked)
    (ha : { status := code, out := out, entry := resetAfter cfg tid e } = a)
    (hinit : e.initialized = true) (hts : e.lastTs.toNat = now) :
    idleWith (resetBase cfg tid e.tid + 1) now a.entry ∧ rxEnded s t d a.entry (statusCode code) out asked := by
  subst ha
  exact ⟨idleWith_resetAfter hinit hts, hended⟩

/-! ### A start frame -/

/-- The entry that the checks of a start frame find: at the frame's time, and restarted where step 4 says so
(46_reassembler.md R704 to R706). -/
def rxStarted (st : RxState) (now : Time) (tid : TransferId) : RxState :=
  if rxRestarts st now true tid then rxRestart tid { st with lastTs := now } else { st with lastTs := now }

section
variable {st : RxState} {now : Time} {tid : TransferId}

theorem rxStarted_of_restart (h : rxRestarts st now true tid = true) :
    rxStarted st now tid = rxRestart tid { st with lastTs := now } := if_pos h

theorem rxStarted_of_kept (h : ¬ rxRestarts st now true tid = true) :
    rxStarted st now tid = { st with lastTs := now } := if_neg h

theorem rxStarted_lastTs : (rxStarted st now tid).lastTs = now := by
  unfold rxStarted
  split <;> rfl

/-- An entry that was never restarted is restarted now. -/
theorem rxStarted_initialized : (rxStarted st now tid).initialized = true := by
  by_cases h : rxRestarts st now true tid = true
  · rw [rxStarted_of_restart h, rxRestart_initialized]
  · rw [rxStarted_of_kept h]
    exact Bool.eq_true_of_not_eq_false fun hinit => h ((rxRestarts_iff _ _ _ _).2 (.inl hinit))

end

/-- The restart condition of a start frame, on numbers. -/
theorem rxRestarts_start_iff {st : RxState} {tid : TransferId} {now : Nat} (hnow : now < 2 ^ 64) :
    rxRestarts st (BitVec.ofNat 64 now) true tid = true ↔ startRestarts st tid now := by
  have hdist : 1 < (forwardDistance st.tid tid).toNat ↔ 1 < ((tid.toNat : Int) - st.tid.toNat) % 32 := by
    rw [← forwardDistance_toNat]
    omega
  rw [rxRestarts_iff, operand_toNat hnow, hdist]
  simp only [true_and]

/-- The entry that a start frame finds is a new one restarted, or the table's own, restarted or kept. -/
theorem rxStarted_cases {P : RxState → Prop} {o : Option RxState} {tid : TransferId} {now : Nat}
    (hnow : now < 2 ^ 64)
    (hnew : o = none → P (rxRestart tid { newRxState with lastTs := BitVec.ofNat 64 now }))
    (hrestart : ∀ st ∈ o, startRestarts st tid now → P (rxRestart tid { st with lastTs := BitVec.ofNat 64 now }))
    (hkept : ∀ st ∈ o, ¬ startRestarts st tid now → P { st with lastTs := BitVec.ofNat 64 now }) :
    P (rxStarted (o.getD newRxState) (BitVec.ofNat 64 now) tid) := by
  cases o with
  | none => exact hnew rfl
  | some st =>
    rw [Option.getD_some]
    by_cases hr : startRestarts st tid now
    · rw [rxStarted_of_restart ((rxRestarts_start_iff hnow).2 hr)]
      exact hrestart st rfl hr
    · rw [rxStarted_of_kept (mt (rxRestarts_start_iff hnow).1 hr)]
      exact hkept st rfl hr

section
variable (cfg : Config) (d : Desc) (f : Frame) (sig : Signature) (tog : Bool) {now : Time} {tid : TransferId}
  {st e : RxState} (he : rxStarted st now tid = e)
include he

/-- A single-frame transfer passes no check (46_reassembler.md R707). -/
theorem rxApply_single :
    rxApply cfg d f (tailByte true true tog tid) now sig st = rxComplete cfg d tid f.data.dropLast [f] tid e := by
  subst he
  simp [rxApply, rxStarted]

/-- The checks of a start frame of a multi-frame transfer (46_reassembler.md R710, R711). -/
theorem rxApply_start :
    rxApply cfg d f (tailByte true false tog tid) now sig st =
      if tog ≠ e.toggle then rxFail cfg .wrongToggle f tid e
      else if tid ≠ e.tid then rxFail cfg .unexpectedTransferId f tid e
      else if f.data.length ≤ 3 then rxFail cfg .shortFrame f tid e
      else { status := .rxNone, out := .none, entry := { rxBegin f sig e with toggle := !e.toggle } } := by
  subst he
  simp [rxApply, rxStarted, rxFinish, ite_not]

end

/-- What the entry takes from a start frame that is long enough (46_reassembler.md R711). -/
theorem rxBegin_of_concat {f : Frame} {body : List Byte} {tb : Byte} (sig : Signature) (st : RxState)
    (hdata : f.data = body ++ [tb]) (hlong : 3 < f.data.length) :
    (rxBegin f sig st).buf = body.drop 2 ∧
      (rxBegin f sig st).crcExpected.toNat = (body.getD 0 0).toNat + 256 * (body.getD 1 0).toNat := by
  have hbody : 2 < body.length := by
    rw [hdata, List.length_append, List.length_singleton] at hlong
    omega
  constructor
  · rw [rxBegin_buf, slice_eq, ← List.dropLast_eq_take, hdata, List.dropLast_concat]
  · rw [rxBegin_crcExpected, hdata, List.getD_append _ _ _ _ (by omega), List.getD_append _ _ _ _ (by omega),
      toNat_append_eq]
    omega

/-- An accepted start frame ends at an entry, with the answer of the steps from the entry that it finds. -/
theorem rxEnded_of_accepted {s : State} {body : List Byte} {eot tog : Bool} {tid : TransferId} {sig : Signature}
    (hrec : Receivable s) (hdata : s.ports.frame.data = body ++ [tailByte true eot tog tid])
    (hacc : s.ports.accept = some sig)
    (hroom : tableGet s.rxTable (descriptor (BitVec.ofNat 29 s.ports.frame.id)) = none →
      s.cfg.rxCap ≠ some s.rxTable.length) :
    let d := descriptor (BitVec.ofNat 29 s.ports.frame.id)
    let st := (tableGet s.rxTable d).getD newRxState
    ∃ t e a, exec .rxFrame s = .next t ∧ rxEnded s t d a.entry (statusCode a.status) a.out (some d) ∧
      rxStarted st (BitVec.ofNat 64 s.ports.now) tid = e ∧
      rxApply s.cfg d s.ports.frame (tailByte true eot tog tid) (BitVec.ofNat 64 s.ports.now) sig st = a ∧
      e.initialized = true ∧ e.lastTs.toNat = s.ports.now := by
  intro d st
  have ⟨_, _, _, _, _, hnow⟩ := hrec
  have hexec := exec_rxFrame_of_receivable hrec hdata
  rw [tailSot_tailByte, if_pos rfl, rxStart_of_accepted _ _ _ hacc hroom] at hexec
  obtain ⟨t, ht, hended⟩ := rxEnded_of_rxStore hexec
  exact ⟨t, _, _, ht, hended, rfl, rfl, rxStarted_initialized, by rw [rxStarted_lastTs, operand_toNat hnow]⟩

/-- Settles O53: the frame passes no check after step 4, whatever its entry is. -/
theorem singleFrameTransfer : Obligations.SingleFrameTransfer := by
  intro s body tog tid cur sig hrec hdata hacc
  dsimp only
  intro hnew hold
  have ⟨_, _, _, _, _, hnow⟩ := hrec
  obtain ⟨t, e, a, ht, hended, he, ha, hinit, hts⟩ := rxEnded_of_accepted hrec hdata hacc fun h => (hnew h).1
  have hcur : e.tid = cur := by
    rw [← he]
    refine rxStarted_cases (P := fun e => e.tid = cur) hnow (fun h => (hnew h).2.symm)
      (fun st hst hr => ?_) (fun st hst hr => ?_)
    · rw [hold st hst, if_pos hr, rxRestart_tid]
    · rw [hold st hst, if_neg hr]
  rw [rxApply_single _ _ _ _ _ he, hdata, List.dropLast_concat] at ha
  refine ⟨t, a.entry, ht, ?_⟩
  rw [← hcur]
  exact idle_and_ended hended ha hinit hts

/-- Settles O54: the checks of a start frame in order, on the entry that step 4 leaves. -/
theorem multiFrameStart : Obligations.MultiFrameStart := by
  intro s body tog held tid cur frames sig hrec hdata hacc
  dsimp only
  intro hnew hold
  have ⟨_, _, _, _, _, hnow⟩ := hrec
  obtain ⟨t, e, a, ht, hended, he, ha, hinit, hts⟩ := rxEnded_of_accepted hrec hdata hacc fun h => (hnew h).1
  have hfields : held = e.toggle ∧ cur = e.tid ∧ frames = e.frames := by
    rw [← he]
    refine rxStarted_cases (P := fun e => held = e.toggle ∧ cur = e.tid ∧ frames = e.frames) hnow
      (fun h => (hnew h).2) (fun st hst hr => ?_) (fun st hst hr => ?_)
    · exact (if_pos hr).mp (hold st hst)
    · exact (if_neg hr).mp (hold st hst)
  obtain ⟨rfl, rfl, rfl⟩ := hfields
  rw [rxApply_start _ _ _ _ _ he] at ha
  refine ⟨t, a.entry, ht, fun htog => ?_, fun htog htid => ?_, fun htog htid hshort => ?_,
    fun htog htid hlong => ?_⟩
  · rw [if_pos htog] at ha
    exact idle_and_ended hended ha hinit hts
  · rw [if_neg (not_not.2 htog), if_pos htid] at ha
    exact idle_and_ended hended ha hinit hts
  · rw [if_neg (not_not.2 htog), if_neg (not_not.2 htid), if_pos hshort] at ha
    have hidle := idle_and_ended hended ha hinit hts
    rwa [← htid, resetBase_self] at hidle
  · rw [if_neg (not_not.2 htog), if_neg (not_not.2 htid), if_neg hlong.not_ge] at ha
    obtain ⟨hbuf, hcrc⟩ := rxBegin_of_concat sig e hdata hlong
    subst ha
    exact ⟨hended, hinit, rfl, htid.symm, congrArg (!·) htog.symm, hts, hbuf, rfl, rfl, hcrc⟩

/-! ### A later frame -/

/-- The restart condition of a later frame, on numbers. -/
theorem rxRestarts_later_iff {st : RxState} {tid : TransferId} {now : Nat} (hnow : now < 2 ^ 64) :
    rxRestarts st (BitVec.ofNat 64 now) false tid = true ↔
      st.initialized = false ∨ st.lastTs.toNat + 2000000 < now := by
  rw [rxRestarts_iff, operand_toNat hnow]
  simp only [Bool.false_eq_true, false_and, or_false]

/-- An entry in use, in time, is not restarted by a later frame. -/
theorem not_rxRestarts_later {st : RxState} {tid : TransferId} {now : Nat} (hnow : now < 2 ^ 64)
    (hinit : st.initialized = true) (htime : now ≤ st.lastTs.toNat + 2000000) :
    ¬ rxRestarts st (BitVec.ofNat 64 now) false tid = true := by
  rw [rxRestarts_later_iff hnow, hinit, or_iff_right Bool.true_eq_false.mp]
  exact htime.not_gt

section
variable (cfg : Config) (d : Desc) (f : Frame) (sig : Signature) (eot tog : Bool) {now : Time} {tid : TransferId}
  {st : RxState}

/-- A later frame that restarts its entry (46_reassembler.md R706). -/
theorem rxApply_later_of_restart (hr : rxRestarts st now false tid = true) :
    rxApply cfg d f (tailByte false eot tog tid) now sig st =
      rxMissed cfg f tid (rxRestart tid { st with lastTs := now }) := by
  simp [rxApply, hr]

/-- The checks of a later frame that does not restart its entry (46_reassembler.md R708, R710, R713). -/
theorem rxApply_later_of_kept (hr : ¬ rxRestarts st now false tid = true) :
    rxApply cfg d f (tailByte false eot tog tid) now sig st =
      if st.collecting = false then rxMissed cfg f tid { st with lastTs := now }
      else if tog ≠ st.toggle then rxFail cfg .wrongToggle f tid { st with lastTs := now }
      else if tid ≠ st.tid then rxFail cfg .unexpectedTransferId f tid { st with lastTs := now }
      else if exceeds cfg.rxMaxPayload (st.buf.length + f.data.length - 1) then
        rxFail cfg .payloadOverflow f tid { st with lastTs := now }
      else rxFinish cfg d f eot tid (rxExtend f { st with lastTs := now }) := by
  simp [rxApply, hr]

end

/-- A later frame that passed every check is added to the transfer (46_reassembler.md R713). -/
theorem rxExtend_of_concat {f : Frame} {body : List Byte} {tb : Byte} (st : RxState)
    (hdata : f.data = body ++ [tb]) :
    rxExtend f st = { st with buf := st.buf ++ body, frames := st.frames ++ [f] } := by
  rw [rxExtend, hdata, List.dropLast_concat]

/-- A later frame ends at the entry of its descriptor, with the answer of the steps from it. -/
theorem rxEnded_of_later {s : State} {body : List Byte} {eot tog : Bool} {tid : TransferId} {st : RxState}
    (hrec : Receivable s) (hdata : s.ports.frame.data = body ++ [tailByte false eot tog tid])
    (hget : tableGet s.rxTable (descriptor (BitVec.ofNat 29 s.ports.frame.id)) = some st) :
    let d := descriptor (BitVec.ofNat 29 s.ports.frame.id)
    ∃ t a, exec .rxFrame s = .next t ∧ rxEnded s t d a.entry (statusCode a.status) a.out none ∧
      rxApply s.cfg d s.ports.frame (tailByte false eot tog tid) (BitVec.ofNat 64 s.ports.now) 0 st = a := by
  intro d
  have hexec := exec_rxFrame_of_receivable hrec hdata
  rw [tailSot_tailByte, if_neg Bool.false_ne_true, rxContinue_of_entry _ _ _ hget] at hexec
  obtain ⟨t, ht, hended⟩ := rxEnded_of_rxStore hexec
  exact ⟨t, _, ht, hended, rfl⟩

/-- Settles O56: a later frame that restarts its entry, and the first three checks of one that does not. -/
theorem laterFrameRejected : Obligations.LaterFrameRejected := by
  intro s body eot tog tid st hrec
  dsimp only
  intro hdata hget
  have ⟨_, _, _, _, _, hnow⟩ := hrec
  obtain ⟨t, a, ht, hended, ha⟩ := rxEnded_of_later hrec hdata hget
  refine ⟨t, a.entry, ht, fun hr => ?_, fun hinit htime => ?_⟩
  · rw [rxApply_later_of_restart _ _ _ _ _ _ ((rxRestarts_later_iff hnow).2 hr)] at ha
    have hidle := idle_and_ended hended ha (rxRestart_initialized _ _) (operand_toNat hnow)
    rwa [rxRestart_tid, resetBase_self] at hidle
  · rw [rxApply_later_of_kept _ _ _ _ _ _ (not_rxRestarts_later hnow hinit htime)] at ha
    refine ⟨fun hcoll => ?_, fun hcoll htog => ?_, fun hcoll htog htid => ?_⟩
    · rw [if_pos hcoll] at ha
      exact idle_and_ended hended ha hinit (operand_toNat hnow)
    · rw [if_neg (ne_false_of_eq_true hcoll), if_pos htog] at ha
      exact idle_and_ended hended ha hinit (operand_toNat hnow)
    · rw [if_neg (ne_false_of_eq_true hcoll), if_neg (not_not.2 htog), if_pos htid] at ha
      exact idle_and_ended hended ha hinit (operand_toNat hnow)

/-! ### The end of a transfer -/

section
variable (cfg : Config) (d : Desc) (f : Frame) (tid : TransferId) {st : RxState}

theorem rxFinish_of_more :
    rxFinish cfg d f false tid st =
      { status := .rxNone, out := .none, entry := { st with toggle := !st.toggle } } := rfl

/-- The report of BadCrc ends with the frame that was just taken in (46_reassembler.md R714). -/
theorem rxFinish_of_bad_crc (hf : f ∈ st.frames) (hcrc : xferCrc st.signature st.buf ≠ st.crcExpected) :
    rxFinish cfg d f true tid st =
      { status := .badCrc, out := .frames st.frames, entry := resetAfter cfg tid st } := by
  simp only [rxFinish, if_true, if_pos hcrc, rxFail, if_pos hf]
  rfl

theorem rxFinish_of_good_crc (hcrc : xferCrc st.signature st.buf = st.crcExpected) :
    rxFinish cfg d f true tid st =
      { status := .rxTransfer
        out := .transfer { desc := d, tid := st.tid, payload := st.buf, frames := st.frames }
        entry := resetAfter cfg tid st } := by
  simp only [rxFinish, if_true, if_neg (not_not.2 hcrc), rxComplete]
  rfl

end

/-- Settles O55: the limit of the buffer, and the three ends of step 6. -/
theorem multiFrameContinue : Obligations.MultiFrameContinue := by
  intro s body eot st hrec
  dsimp only
  intro hdata hget hinit hcoll htime
  have ⟨_, _, _, _, _, hnow⟩ := hrec
  obtain ⟨t, a, ht, hended, ha⟩ := rxEnded_of_later hrec hdata hget
  rw [rxApply_later_of_kept _ _ _ _ _ _ (not_rxRestarts_later hnow hinit htime),
    if_neg (ne_false_of_eq_true hcoll), if_neg (not_not.2 rfl), if_neg (not_not.2 rfl),
    rxExtend_of_concat _ hdata, hdata, List.length_append, List.length_singleton, ← Nat.add_assoc,
    Nat.add_sub_cancel] at ha
  refine ⟨t, a.entry, ht, fun hover => ?_, fun hfits => ⟨fun heot => ?_, fun heot => ?_⟩⟩
  · rw [if_pos ((exceeds_eq_true_iff _ _).2 hover)] at ha
    have hidle := idle_and_ended hended ha hinit (operand_toNat hnow)
    rwa [resetBase_self] at hidle
  · rw [if_neg (ne_true_of_eq_false ((exceeds_eq_false_iff _ _).2 hfits)), heot, rxFinish_of_more] at ha
    subst ha
    exact ⟨hended, rfl⟩
  · rw [if_neg (ne_true_of_eq_false ((exceeds_eq_false_iff _ _).2 hfits)), heot] at ha
    by_cases hcrc : xferCrc st.signature (st.buf ++ body) = st.crcExpected
    · rw [rxFinish_of_good_crc _ _ _ _ hcrc] at ha
      obtain ⟨hidle, hend⟩ := idle_and_ended hended ha hinit (operand_toNat hnow)
      rw [resetBase_self] at hidle
      exact ⟨hidle, fun hbad => absurd hcrc hbad, fun _ => hend⟩
    · rw [rxFinish_of_bad_crc _ _ _ _ List.mem_concat_self hcrc] at ha
      obtain ⟨hidle, hend⟩ := idle_and_ended hended ha hinit (operand_toNat hnow)
      rw [resetBase_self] at hidle
      exact ⟨hidle, fun _ => hend, fun hgood => absurd hgood hcrc⟩

end Sys2Proof.Machine
end

section
/-! Every command ends with a status of the list (60_exceptions.md R800, R801). -/

namespace Sys2Proof.Machine

/-! ### A listed status -/

/-- An end that is told by a status has that status on the result port (60_exceptions.md R800). -/
theorem FailsCleanly.exists_listed {s : State} {a : Answer} (h : FailsCleanly s a) :
    ∃ t r, a = .next t ∧ t.result = some r ∧ r.status ∈ listedCodes := by
  cases h with
  | succeeds out t => exact ⟨_, _, rfl, rfl, statusCode_listed .ok⟩
  | faults he => exact ⟨_, _, rfl, rfl, statusCode_listed _⟩
  | returns e => exact ⟨_, _, rfl, rfl, statusCode_listed e⟩
  | receives e out asked h he => exact ⟨_, _, rfl, rfl, statusCode_listed e⟩

/-- Settles O6: a word that decodes performs its command, and any other is the fault IllegalCommand. -/
theorem everyCommandReturnsAListedStatus : Obligations.EveryCommandReturnsAListedStatus := by
  intro s hcmds
  obtain ⟨c, rest, hc⟩ := List.exists_cons_of_ne_nil hcmds
  cases hd : decode c.word with
  | ok i =>
    rw [step_of_decode_ok s c rest i hc hd]
    exact (exec_failsCleanly i _).exists_listed
  | error e =>
    rw [step_of_decode_error s c rest e hc hd]
    exact ⟨_, _, rfl, rfl, statusCode_listed .illegalCommand⟩

end Sys2Proof.Machine
end

section
/-! The statuses that are no fault's (60_exceptions.md R801, R811): what a parse fails with, and what a frame that
reached an entry of the reassembler ends with. -/

namespace Sys2Proof.Machine

/-! ### The errors of a parse -/

section
variable {α β : Type}

/-- Every error of `p` is a status of decoding, which is no fault's (43_codec_decode.md R400). -/
def FailsByDecoding (p : Cursor → Parsed α) : Prop := ∀ c e, p c = .error e → e.isDecodeError

namespace FailsByDecoding

theorem pure {f : Cursor → α × Cursor} : FailsByDecoding fun c => .ok (f c) := fun _ _ h => by cases h

theorem error {e : Status} (he : e.isDecodeError := by decide) :
    FailsByDecoding (α := α) fun _ => .error e := by
  intro c e' h
  cases h
  exact he

theorem parseThen {p : Cursor → Parsed α} {k : α → Cursor → Parsed β} (hp : FailsByDecoding p)
    (hk : ∀ a, FailsByDecoding (k a)) : FailsByDecoding (Machine.parseThen p k) := by
  intro c e h
  cases hr : p c with
  | error e₁ =>
    rw [parseThen_of_error k hr] at h
    cases h
    exact hp c e hr
  | ok x =>
    rw [parseThen_of_ok k hr] at h
    exact hk x.1 x.2 e h

end FailsByDecoding

end

theorem parseWide_failsByDecoding (cfg : Config) (n : Nat) : FailsByDecoding (parseWide cfg n) := by
  intro c e h
  rcases parseWide_cases cfg n c with ⟨_, hp⟩ | ⟨_, hp⟩ <;> rw [hp] at h
  · cases h
    decide
  · cases h

theorem parseFloat_failsByDecoding (cfg : Config) (n : Nat) : FailsByDecoding (parseFloat cfg n) := by
  rw [parseFloat_eq]
  exact (parseWide_failsByDecoding cfg n).parseThen fun _ => .pure

theorem parseCount_failsByDecoding (cfg : Config) (m : Nat) : FailsByDecoding (parseCount cfg m) := by
  rw [parseCount_eq]
  split
  · exact .pure
  · refine (parseWide_failsByDecoding cfg _).parseThen fun k => ?_
    split
    · exact .error
    · exact .pure

section
variable {p : Cursor → Parsed (Option Val)} (hp : FailsByDecoding p)
include hp

theorem parseTimes_failsByDecoding (k : Nat) : FailsByDecoding (parseTimes p k) := by
  induction k with
  | zero => exact .pure
  | succ k ih =>
    rw [parseTimes_succ]
    exact hp.parseThen fun _ => ih.parseThen fun _ => .pure

theorem parseTail_failsByDecoding (n k : Nat) : FailsByDecoding (parseTail p n k) := by
  induction k with
  | zero => exact .pure
  | succ k ih =>
    intro c e h
    rw [parseTail_succ] at h
    split at h
    · exact hp.parseThen (fun _ => ih.parseThen fun _ => .pure) c e h
    · cases h

end

theorem asArray_failsByDecoding {p : Cursor → Parsed (List Val)} (hp : FailsByDecoding p) :
    FailsByDecoding fun c => asArray (p c) := by
  rw [asArray_eq]
  exact hp.parseThen fun _ => .pure

mutual

theorem parse_failsByDecoding (cfg : Config) : ∀ (T : Ty) (t : Bool), FailsByDecoding (parse cfg T t)
  | .void n, t => by
    rw [parse_void]
    exact (parseWide_failsByDecoding cfg n).parseThen fun _ => .pure
  | .bool, t => by
    rw [parse_bool, parseBits_eq_parseWide (by decide)]
    exact (parseWide_failsByDecoding cfg 1).parseThen fun _ => .pure
  | .uint n cm, t => by
    rw [parse_uint]
    exact (parseWide_failsByDecoding cfg n).parseThen fun _ => .pure
  | .int n cm, t => by
    rw [parse_int]
    exact (parseWide_failsByDecoding cfg n).parseThen fun _ => .pure
  | .float n cm, t => by
    rw [parse_float]
    exact (parseFloat_failsByDecoding cfg n).parseThen fun _ => .pure
  | .array E .fixed m, t => by
    rw [parse_fixed]
    exact asArray_failsByDecoding (parseTimes_failsByDecoding (parse_failsByDecoding cfg E false) m)
  | .array E .dynamic m, t => by
    have hE := parse_failsByDecoding cfg E false
    rw [parse_dynamic]
    split
    · exact asArray_failsByDecoding (parseTail_failsByDecoding hE E.width m)
    · exact (parseCount_failsByDecoding cfg m).parseThen fun k =>
        asArray_failsByDecoding (parseTimes_failsByDecoding hE k)
  | .union fs, t => by
    rw [parse_union]
    refine (parseWide_failsByDecoding cfg _).parseThen fun u => ?_
    split
    · exact .error
    · exact (parseMember_failsByDecoding cfg fs u).parseThen fun _ => .pure
  | .struct fs, t => by
    rw [parse_struct]
    exact (parseFields_failsByDecoding cfg fs t).parseThen fun _ => .pure

theorem parseFields_failsByDecoding (cfg : Config) : ∀ (fs : Fields) (t : Bool),
    FailsByDecoding (parseFields cfg fs t)
  | .nil, t => fun c e h => by
    rw [parseFields] at h
    cases h
  | .cons name T rest, t => by
    rw [parseFields_cons]
    exact (parse_failsByDecoding cfg T _).parseThen fun _ =>
      (parseFields_failsByDecoding cfg rest t).parseThen fun _ => .pure

theorem parseMember_failsByDecoding (cfg : Config) : ∀ (fs : Fields) (k : Nat),
    FailsByDecoding (parseMember cfg fs k)
  | .nil, k => fun c e h => by
    rw [parseMember] at h
    exact FailsByDecoding.error (α := Option Val) (e := .badUnionTag) (by decide) c e h
  | .cons _ T _, 0 => fun c e h => by
    rw [parseMember] at h
    exact parse_failsByDecoding cfg T false c e h
  | .cons _ _ rest, k + 1 => fun c e h => by
    rw [parseMember] at h
    exact parseMember_failsByDecoding cfg rest k c e h

end

/-- The statuses that are no fault's (60_exceptions.md R801, R811). -/
abbrev Status.isNoFault (e : Status) : Prop := statusCode e < 0x30

theorem Status.isDecodeError.isNoFault {e : Status} (he : e.isDecodeError) : e.isNoFault := by
  have hlow : ∀ c ∈ ([0x20, 0x21, 0x22] : List (BitVec 8)), c < 0x30 := by decide
  exact hlow _ he

/-! ### The statuses of a frame at its entry -/

theorem rxFinish_isNoFault (cfg : Config) (d : Desc) (f : Frame) (eot : Bool) (tid : TransferId) (st : RxState) :
    (rxFinish cfg d f eot tid st).status.isNoFault := by
  rcases rxFinish_cases cfg d f eot tid st with ⟨_, e⟩ | ⟨_, _, e⟩ | ⟨_, _, e⟩ <;> rw [e]
  · exact (by decide : Status.rxNone.isNoFault)
  · exact (by decide : Status.badCrc.isNoFault)
  · exact (by decide : Status.rxTransfer.isNoFault)

/-- The ends of steps 4 to 7 (46_reassembler.md R704 to R714), none of them a fault. -/
theorem rxApply_isNoFault (cfg : Config) (d : Desc) (f : Frame) (tb : Byte) (now : Time) (sig : Signature)
    (st : RxState) : (rxApply cfg d f tb now sig st).status.isNoFault := by
  unfold rxApply
  dsimp only
  generalize (if rxRestarts st now (tailSot tb) (tailTid tb) then
    rxRestart (tailTid tb) { st with lastTs := now } else { st with lastTs := now }) = entry
  split_ifs
  · exact (by decide : Status.missedTransferStart.isNoFault)
  · exact (by decide : Status.rxTransfer.isNoFault)
  · exact (by decide : Status.missedTransferStart.isNoFault)
  · exact (by decide : Status.wrongToggle.isNoFault)
  · exact (by decide : Status.unexpectedTransferId.isNoFault)
  · exact (by decide : Status.shortFrame.isNoFault)
  · exact rxFinish_isNoFault _ _ _ _ _ _
  · exact (by decide : Status.payloadOverflow.isNoFault)
  · exact rxFinish_isNoFault _ _ _ _ _ _

end Sys2Proof.Machine
end

section
/-! SYS and the commands (60_exceptions.md R810, R811). SYS.RESET clears SYS, SYS.STATUS reads it, and TYPE.CHECK
returns the code of a fault without one. Every other command either records a fault or neither reads nor writes SYS,
so its two runs from states that differ in SYS alone are told side by side (`BlindToSys`). -/

namespace Sys2Proof.Machine

/-! ### Two runs that differ in SYS -/

/-- How a command may end from `s` and from `s` with `y` as SYS: both times in one fault, or both times with one
status that is no fault's, SYS as it was and everything else alike. -/
inductive BlindToSys (s : State) (y : Sys) : Answer → Answer → Prop where
  | faults {e : Status} (he : e.isFaultCode) :
      BlindToSys s y (.next (faulted (statusCode e) s)) (.next (faulted (statusCode e) { s with sys := y }))
  | returns {t : State} (e : Status) (out : Output) (asked : Option Desc) (ht : t.sys = s.sys)
      (he : e.isNoFault) :
      BlindToSys s y (.next { t with result := some { status := statusCode e, out := out, asked := asked } })
        (.next { t with sys := y, result := some { status := statusCode e, out := out, asked := asked } })

namespace BlindToSys

variable {s t : State} {y : Sys} {a b : Answer}

theorem fault {e : Status} (he : e.isFaultCode) :
    BlindToSys s y (Machine.fault e s) (Machine.fault e { s with sys := y }) := .faults he

theorem ret (e : Status) (out : Output) (ht : t.sys = s.sys) (he : e.isNoFault) :
    BlindToSys s y (Machine.ret e out t) (Machine.ret e out { t with sys := y }) := .returns e out none ht he

theorem ok (out : Output) (ht : t.sys = s.sys) :
    BlindToSys s y (Machine.ok out t) (Machine.ok out { t with sys := y }) := .ret .ok out ht (by decide)

/-- Stated for any `c`, so that no unification computes a checksum. -/
theorem ok_set_c16 (out : Output) (c : BitVec 16) :
    BlindToSys s y (Machine.ok out { s with c16 := c }) (Machine.ok out { s with sys := y, c16 := c }) := .ok out rfl

theorem ite {c : Prop} [Decidable c] {a' b' : Answer} (h : BlindToSys s y a b) (h' : BlindToSys s y a' b') :
    BlindToSys s y (if c then a else a') (if c then b else b') := by
  split
  · exact h
  · exact h'

/-- A check that admits the command by `c`, or else ends it with a fault. -/
theorem guarded {c : Prop} [Decidable c] {e : Status} (h : BlindToSys s y a b)
    (he : e.isFaultCode := by decide) :
    BlindToSys s y (if c then a else Machine.fault e s)
      (if c then b else Machine.fault e { s with sys := y }) := .ite h (.fault he)

/-- A check that ends the command with a fault by `c`, or else admits it. -/
theorem refused {c : Prop} [Decidable c] {e : Status} (h : BlindToSys s y a b)
    (he : e.isFaultCode := by decide) :
    BlindToSys s y (if c then Machine.fault e s else a)
      (if c then Machine.fault e { s with sys := y } else b) := .ite (.fault he) h

/-- The command ends in a fault, which writes SYS alone, or it leaves SYS as it was (60_exceptions.md R810,
R811). -/
theorem faulted_or_sys_eq {r : Result} (h : BlindToSys s y (.next t) b) (hr : t.result = some r) :
    (0x30 ≤ r.status ∧ t = Machine.faulted r.status s) ∨ (r.status < 0x30 ∧ t.sys = s.sys) := by
  cases h with
  | faults he =>
    obtain rfl := Option.some.inj hr
    exact .inl ⟨he.1, rfl⟩
  | returns e out asked ht he =>
    obtain rfl := Option.some.inj hr
    exact .inr ⟨he, ht⟩

/-- The run with another SYS ends in the same state but for SYS. -/
theorem exists_next (h : BlindToSys s y (.next t) b) : ∃ t', b = .next t' ∧ { t' with sys := t.sys } = t := by
  cases h with
  | faults he => exact ⟨_, rfl, rfl⟩
  | returns e out asked ht he => exact ⟨_, rfl, rfl⟩

end BlindToSys

/-! ### The shared operations of the commands -/

section
variable (s : State) (y : Sys)

theorem putNumber_blindToSys (n : Nat) (bits : Nat → List Bool) :
    BlindToSys s y (putNumber n bits s) (putNumber n bits { s with sys := y }) :=
  .refused (.refused (.ok _ rfl))

theorem gotNumber_blindToSys (got : Option (Nat × Reader)) :
    BlindToSys s y (gotNumber got s) (gotNumber got { s with sys := y }) := by
  cases got with
  | none => exact .ret _ _ rfl (by decide)
  | some vr => exact .ok _ rfl

theorem appendBits_blindToSys (len : Nat) (bits : List Bool) :
    BlindToSys s y (appendBits len bits s) (appendBits len bits { s with sys := y }) :=
  .refused (.ok _ rfl)

theorem encodeAtCursor_blindToSys (T : Ty) (v : Val) (tail : Bool) :
    BlindToSys s y (encodeAtCursor T v tail s) (encodeAtCursor T v tail { s with sys := y }) := by
  unfold encodeAtCursor
  cases h : encodeCheck T v with
  | some e => exact .fault (encodeCheck_isFaultCode T v e h)
  | none => exact appendBits_blindToSys s y _ _

theorem decodeAtCursor_blindToSys (T : Ty) (tail : Bool) :
    BlindToSys s y (decodeAtCursor T tail s) (decodeAtCursor T tail { s with sys := y }) := by
  unfold decodeAtCursor
  cases hT : checkTy T with
  | some e => exact .fault (checkTy_isFaultCode T e hT)
  | none =>
    dsimp only
    cases hp : parse s.cfg T tail s.cursor with
    | error e => exact .ret e .none rfl (parse_failsByDecoding _ _ _ _ _ hp).isNoFault
    | ok x => exact .ok _ rfl

/-! ### The commands whose meaning branches on data -/

theorem execEnc_blindToSys : BlindToSys s y (execEnc s) (execEnc { s with sys := y }) := by
  unfold execEnc
  dsimp only
  cases h : encodeCheck s.ports.ty s.ports.v with
  | some e => exact .fault (encodeCheck_isFaultCode _ _ e h)
  | none => exact .refused (.ok _ rfl)

theorem execDec_blindToSys : BlindToSys s y (execDec s) (execDec { s with sys := y }) := by
  refine .refused ?_
  dsimp only
  cases hT : checkTy s.ports.ty with
  | some e => exact .fault (checkTy_isFaultCode _ e hT)
  | none =>
    dsimp only
    cases hp : parse s.cfg s.ports.ty s.ports.ty.isStruct
        { r := { buf := s.ports.bytes, pos := 0 }, draws := s.nanDraws } with
    | error e => exact .ret e .none rfl (parse_failsByDecoding _ _ _ _ _ hp).isNoFault
    | ok x => exact .ok _ rfl

theorem execTypeBitlen_blindToSys : BlindToSys s y (execTypeBitlen s) (execTypeBitlen { s with sys := y }) := by
  unfold execTypeBitlen
  dsimp only
  cases hT : checkTy s.ports.ty with
  | some e => exact .fault (checkTy_isFaultCode _ e hT)
  | none => exact .ok _ rfl

theorem execRxLookup_blindToSys : BlindToSys s y (execRxLookup s) (execRxLookup { s with sys := y }) := by
  unfold execRxLookup
  dsimp only
  cases descOfPort s.ports.desc with
  | none => exact .fault (by decide)
  | some d => exact .ok _ rfl

theorem rxStore_blindToSys (d : Desc) (asked : Option Desc) {a : RxAnswer} (ha : a.status.isNoFault) :
    BlindToSys s y (rxStore d asked a s) (rxStore d asked a { s with sys := y }) :=
  .returns (t := { s with rxTable := tablePut d a.entry s.rxTable }) a.status a.out asked rfl ha

theorem rxNoEntry_blindToSys (e : Status) (out : Output) (asked : Option Desc) (he : e.isNoFault) :
    BlindToSys s y (rxNoEntry e out asked s) (rxNoEntry e out asked { s with sys := y }) :=
  .returns (t := s) e out asked rfl he

theorem rxStart_blindToSys (d : Desc) (f : Frame) (tb : Byte) (now : Time) :
    BlindToSys s y (rxStart d f tb now s) (rxStart d f tb now { s with sys := y }) := by
  unfold rxStart
  dsimp only
  cases s.ports.accept with
  | none => exact rxNoEntry_blindToSys s y _ _ _ (by decide)
  | some sig =>
    dsimp only
    cases tableGet s.rxTable d with
    | some st => exact rxStore_blindToSys s y _ _ (rxApply_isNoFault _ _ _ _ _ _ _)
    | none =>
      exact .ite (rxNoEntry_blindToSys s y _ _ _ (by decide))
        (rxStore_blindToSys s y _ _ (rxApply_isNoFault _ _ _ _ _ _ _))

theorem rxContinue_blindToSys (d : Desc) (f : Frame) (tb : Byte) (now : Time) :
    BlindToSys s y (rxContinue d f tb now s) (rxContinue d f tb now { s with sys := y }) := by
  unfold rxContinue
  dsimp only
  cases tableGet s.rxTable d with
  | some st => exact rxStore_blindToSys s y _ _ (rxApply_isNoFault _ _ _ _ _ _ _)
  | none => exact rxNoEntry_blindToSys s y _ _ _ (by decide)

theorem execRxFrame_blindToSys : BlindToSys s y (execRxFrame s) (execRxFrame { s with sys := y }) :=
  .guarded (.ite (.ite (rxStart_blindToSys s y _ _ _ _) (rxContinue_blindToSys s y _ _ _ _))
    (.ret _ _ rfl (by decide)))

end

/-! ### Every command -/

/-- The split over the commands, along the checks of each one's meaning. SYS.RESET and SYS.STATUS are the commands
of SYS, and TYPE.CHECK returns the code of a fault that it does not raise (42_codec_encode.md R316). -/
theorem exec_blindToSys (i : Instr) (s : State) (y : Sys) (hreset : i ≠ .sysReset) (hstatus : i ≠ .sysStatus)
    (hcheck : i ≠ .typeCheck) : BlindToSys s y (exec i s) (exec i { s with sys := y }) := by
  cases i with
  | sysReset | sysStatus | typeCheck => contradiction
  | bswPut n | bswPutw n => exact .guarded (putNumber_blindToSys s y _ _)
  | bsrLoad => exact .refused (.ok _ rfl)
  | bsrGet n | bsrGetw n => exact .guarded (gotNumber_blindToSys s y _)
  | crc16Byte | crc16Sig | crc16Xfer => exact .guarded (.ok_set_c16 _ _)
  | crc64Byte => exact .guarded (.ok _ rfl)
  | encBool => exact encodeAtCursor_blindToSys s y _ _ _
  | encUint n cm | encInt n cm | encFloat n cm => exact .guarded (encodeAtCursor_blindToSys s y _ _ _)
  | encVoid n => exact .guarded (appendBits_blindToSys s y _ _)
  | encSarray | encUnion | encStruct tail => exact .guarded (encodeAtCursor_blindToSys s y _ _ _)
  | encDarray tail => exact .guarded (.refused (encodeAtCursor_blindToSys s y _ _ _))
  | enc => exact execEnc_blindToSys s y
  | typeBitlen => exact execTypeBitlen_blindToSys s y
  | decBool => exact decodeAtCursor_blindToSys s y .bool false
  | decUint n | decInt n | decFloat n | decVoid n => exact .guarded (decodeAtCursor_blindToSys s y _ _)
  | decSarray | decUnion | decStruct tail => exact .guarded (decodeAtCursor_blindToSys s y _ _)
  | decDarray tail => exact .guarded (.refused (decodeAtCursor_blindToSys s y _ _))
  | dec => exact execDec_blindToSys s y
  | canidAnon => exact .guarded (.refused (.ok _ rfl))
  | canidMsg | canidSvc | canidDec | canidCmp | tailEnc | tailDec | tidDist => exact .guarded (.ok _ rfl)
  | genStart => exact .guarded (.refused (.refused (.ok _ rfl)))
  | genNext => exact .ite (.ok _ rfl) (.ret _ _ rfl (by decide))
  | rxFrame => exact execRxFrame_blindToSys s y
  | rxSweep => exact .guarded (.ite (.ok _ rfl) (.ok _ rfl))
  | rxLookup => exact execRxLookup_blindToSys s y
  | bswClr | bswBytes | bsrRem | crc16Init | crc16Rd | crc64Init | crc64Rd | anonDisc | genAbort | genCount
  | rxClear => exact .ok _ rfl

/-- TYPE.CHECK returns the first failing check as a status, or OK (42_codec_encode.md R316). -/
theorem exec_typeCheck (s : State) :
    exec .typeCheck s =
      .next { s with result := endsWith (statusCode ((typeCheckOf s).getD .ok)) .none } := by
  cases h : typeCheckOf s with
  | none => exact exec_typeCheck_of_none h
  | some e => exact exec_typeCheck_of_some h

/-- OK is no fault's code (60_exceptions.md R801). -/
theorem not_le_statusCode_ok : ¬ 0x30 ≤ statusCode .ok := by decide

/-- Settles O7: the system commands end with OK, TYPE.CHECK raises no fault, and any other command either records
the fault or keeps SYS. -/
theorem onlyFaultsWriteSys : Obligations.OnlyFaultsWriteSys := by
  intro i s t r ht hr
  by_cases hcheck : i = .typeCheck
  · subst hcheck
    rw [exec_typeCheck] at ht
    cases ht
    exact ⟨fun _ hne => absurd rfl hne, fun _ _ => rfl⟩
  by_cases hreset : i = .sysReset
  · subst hreset
    cases ht
    obtain rfl := Option.some.inj hr
    exact ⟨fun hhigh => absurd hhigh not_le_statusCode_ok, fun _ hne => absurd rfl hne⟩
  by_cases hstatus : i = .sysStatus
  · subst hstatus
    cases ht
    obtain rfl := Option.some.inj hr
    exact ⟨fun hhigh => absurd hhigh not_le_statusCode_ok, fun _ _ => rfl⟩
  have hblind := exec_blindToSys i s s.sys hreset hstatus hcheck
  rw [ht] at hblind
  rcases hblind.faulted_or_sys_eq hr with ⟨hhigh, hfaulted⟩ | ⟨hlow, hsys⟩
  · exact ⟨fun _ _ => hfaulted, fun hend => absurd (hend.resolve_right hcheck) (BitVec.not_lt.2 hhigh)⟩
  · exact ⟨fun hhigh => absurd hlow (BitVec.not_lt.2 hhigh), fun _ _ => hsys⟩

/-- Settles O8: SYS.RESET clears whatever SYS held, TYPE.CHECK reads the ports alone, and any other command is
blind to SYS. -/
theorem recordedFaultChangesNoOtherCommand : Obligations.RecordedFaultChangesNoOtherCommand := by
  intro i s t y hstatus ht
  by_cases hreset : i = .sysReset
  · subst hreset
    cases ht
    exact ⟨_, rfl, rfl⟩
  by_cases hcheck : i = .typeCheck
  · subst hcheck
    rw [exec_typeCheck] at ht
    cases ht
    exact ⟨_, exec_typeCheck _, rfl⟩
  have hblind := exec_blindToSys i s y hreset hstatus hcheck
  rw [ht] at hblind
  exact hblind.exists_next

end Sys2Proof.Machine
end
